-- ==== Sys2Proof/Word.lean ====
section
/-! DEFINITION. The words of the block: coefficient and command words, bytes, and the sparse
arrays that per-coefficient state and memory are held in. -/

namespace Sys2Proof

/-- A 32-bit word: a coefficient word of `MEM` (20_memory.md R60), a command word or a response
payload (30_encoding.md R96, R100). -/
abbrev Word := BitVec 32

/-- A byte of `OUT` or `IN` (00_scope.md R8). -/
abbrev Byte := BitVec 8

/-- A sparse array: pairs of an index and a value, the indices strictly rising, no value equal to
what an unlisted index reads as (the canonical form `Machine.cellsWf`).  The array's default is
given where it is read. -/
abbrev Cells (α : Type) := List (Nat × α)

end Sys2Proof
end

