-- ==== Sys2Proof/Syntax.lean ====
section
/-! DEFINITION. The commands of the block: one constructor per row of spec/opcode_table.json
(30_encoding.md R97), with the operands of R96 as the unsigned numbers they are.  Operands that
are well formed as bits but out of range for an operation are representable: the operation itself
faults on them (R98). -/

namespace Sys2Proof

/-- Sub-band tag (30_encoding.md R91): ids 0 LL, 1 LH, 2 HL, 3 HH. -/
inductive SubBand where
  | ll | lh | hl | hh
  deriving DecidableEq, Repr

/-- Direction of a pass (30_encoding.md R96, `dir`): 0 encode, 1 decode. -/
inductive Dir where
  | encode | decode
  deriving DecidableEq, Repr

/-- The 38 operations (30_encoding.md R97).  `ctx` is a context label id, `r` and `c` a position,
`i` a plane index, `reg` and `val` a register number and value. -/
inductive Instr where
  -- PT: 40_probability_table.md
  | ptReset
  | ptEst (ctx : Nat)
  | ptTrans (ctx : Nat) (m sw : Bool)
  -- SIG: 41_significance_table.md
  | sigReset
  | sigIsSig (r c : Nat)
  | sigSpCtx (r c : Nat) (sb : SubBand)
  | sigSignCtx (r c : Nat)
  | sigRefCtx (r c : Nat)
  | sigSetSig (r c : Nat) (neg : Bool)
  | sigStripZ (sb : SubBand) (r c : Nat)
  -- BP: 42_block_plane_view.md
  | bpNewPlane (i : Nat)
  | bpBitAt (i r c : Nat)
  | bpSetBit (i r c : Nat) (b : Bool)
  | bpSignAt (r c : Nat)
  | bpSetSign (r c : Nat) (b : Bool)
  | bpIsCoded (i r c : Nat)
  | bpMarkCoded (i r c : Nat)
  | bpNFull
  | bpLastH
  | bpLastOff
  | bpStripUnc (i r c : Nat)
  | bpStripFnz (i r c : Nat)
  -- MQE: 43_mq_encoder.md
  | mqeInit
  | mqeCode (b : Bool) (ctx : Nat)
  | mqeCodeNum (value nbits ctx : Nat)
  | mqeFlush
  | mqeMarkEnd
  -- MQD: 44_mq_decoder.md
  | mqdInit
  | mqdDecode (ctx : Nat)
  | mqdDecodeNum (nbits ctx : Nat)
  | mqdSkipEnd
  -- EB: 45_pass_sequencer.md
  | ebEncode
  | ebDecode
  | ebSigPass (dir : Dir) (i : Nat)
  | ebRefPass (dir : Dir) (i : Nat)
  | ebCleanup (dir : Dir) (i : Nat)
  -- CFG: 46_config_ops.md
  | cfgSet (reg val : Nat)
  | cfgGet (reg : Nat)
  deriving DecidableEq, Repr

end Sys2Proof
end

