-- ==== Sys2Proof/WellFormed.lean ====
section
/-! DEFINITION. Which commands fit their command word: every operand is an unsigned integer of its
field's width (30_encoding.md R96). -/

namespace Sys2Proof

/-- A context label field, 5 bits (30_encoding.md R96 formats C and V). -/
def wfCtx (ctx : Nat) : Bool := decide (ctx < 32)

/-- A position, 10 bits each for row and column (30_encoding.md R96 format P). -/
def wfPos (r c : Nat) : Bool := decide (r < 1024) && decide (c < 1024)

/-- A plane index, 5 bits (30_encoding.md R96 table of `aux`). -/
def wfPlane (i : Nat) : Bool := decide (i < 32)

/-- Every operand of the command fits its field (30_encoding.md R96). -/
def Instr.wellFormed : Instr → Bool
  | .ptReset => true
  | .ptEst ctx => wfCtx ctx
  | .ptTrans ctx _ _ => wfCtx ctx
  | .sigReset => true
  | .sigIsSig r c => wfPos r c
  | .sigSpCtx r c _ => wfPos r c
  | .sigSignCtx r c => wfPos r c
  | .sigRefCtx r c => wfPos r c
  | .sigSetSig r c _ => wfPos r c
  | .sigStripZ _ r c => wfPos r c
  | .bpNewPlane i => wfPlane i
  | .bpBitAt i r c => wfPlane i && wfPos r c
  | .bpSetBit i r c _ => wfPlane i && wfPos r c
  | .bpSignAt r c => wfPos r c
  | .bpSetSign r c _ => wfPos r c
  | .bpIsCoded i r c => wfPlane i && wfPos r c
  | .bpMarkCoded i r c => wfPlane i && wfPos r c
  | .bpNFull => true
  | .bpLastH => true
  | .bpLastOff => true
  | .bpStripUnc i r c => wfPlane i && wfPos r c
  | .bpStripFnz i r c => wfPlane i && wfPos r c
  | .mqeInit => true
  | .mqeCode _ ctx => wfCtx ctx
  | .mqeCodeNum value nbits ctx => decide (value < 65536) && decide (nbits < 32) && wfCtx ctx
  | .mqeFlush => true
  | .mqeMarkEnd => true
  | .mqdInit => true
  | .mqdDecode ctx => wfCtx ctx
  | .mqdDecodeNum nbits ctx => decide (nbits < 32) && wfCtx ctx
  | .mqdSkipEnd => true
  | .ebEncode => true
  | .ebDecode => true
  | .ebSigPass _ i => wfPlane i
  | .ebRefPass _ i => wfPlane i
  | .ebCleanup _ i => wfPlane i
  | .cfgSet reg val => decide (reg < 64) && decide (val < 1048576)
  | .cfgGet reg => decide (reg < 64)

end Sys2Proof
end

