-- ==== Sys2Proof/Decode.lean ====
section
/-! DEFINITION. Decoding a command word and encoding a command: the opcode map and the five formats
of 30_encoding.md R96 to R99. -/

namespace Sys2Proof

/-- Why a word is no command (30_encoding.md R98); both are `ILLEGAL_CMD`. -/
inductive IllegalWord where
  /-- the opcode is not assigned in R97 -/
  | opcode
  /-- a field that R96 says is zero is not zero -/
  | mustBeZero
  deriving DecidableEq, Repr

/-- What the decoder reads from a command word. -/
inductive Decoded where
  | command (i : Instr)
  | illegal (why : IllegalWord)
  deriving DecidableEq, Repr

/-- `w[hi:lo]` as an unsigned number (00_scope.md R8). -/
def field (w hi lo : Nat) : Nat := w / 2 ^ lo % 2 ^ (hi - lo + 1)

/-- `w[k]` as a bool (00_scope.md R8). -/
def bitField (w k : Nat) : Bool := w / 2 ^ k % 2 == 1

/-- A bool as a one-bit field. -/
def bitNat (b : Bool) : Nat := if b then 1 else 0

/-- Sub-band tag of an id (30_encoding.md R91); the field is 2 bits, every id is a tag. -/
def subBandOf (id : Nat) : SubBand :=
  if id = 0 then .ll else if id = 1 then .lh else if id = 2 then .hl else .hh

/-- Id of a sub-band tag (30_encoding.md R91). -/
def subBandId : SubBand → Nat
  | .ll => 0
  | .lh => 1
  | .hl => 2
  | .hh => 3

/-- Direction of a `dir` bit (30_encoding.md R96): 0 encode, 1 decode. -/
def dirOf (b : Bool) : Dir := if b then .decode else .encode

/-- `dir` bit of a direction. -/
def dirBit : Dir → Bool
  | .encode => false
  | .decode => true

/-- The command, unless a must-be-zero field is not zero (30_encoding.md R98). -/
def ifZero (mbz : Nat) (i : Instr) : Decoded :=
  if mbz = 0 then .command i else .illegal .mustBeZero

/-- The command of the word `w < 2^32` (30_encoding.md R96, R97). -/
def decodeNat (w : Nat) : Decoded :=
  match field w 31 26 with
  | 0x01 => ifZero (field w 25 0) .ptReset
  | 0x02 => ifZero (field w 25 5) (.ptEst (field w 4 0))
  | 0x03 => ifZero (field w 25 7) (.ptTrans (field w 4 0) (bitField w 5) (bitField w 6))
  | 0x08 => ifZero (field w 25 0) .sigReset
  | 0x09 => ifZero (field w 5 0) (.sigIsSig (field w 25 16) (field w 15 6))
  | 0x0A => ifZero (field w 5 2)
      (.sigSpCtx (field w 25 16) (field w 15 6) (subBandOf (field w 1 0)))
  | 0x0B => ifZero (field w 5 0) (.sigSignCtx (field w 25 16) (field w 15 6))
  | 0x0C => ifZero (field w 5 0) (.sigRefCtx (field w 25 16) (field w 15 6))
  | 0x0D => ifZero (field w 5 1) (.sigSetSig (field w 25 16) (field w 15 6) (bitField w 0))
  | 0x0E => ifZero (field w 5 2)
      (.sigStripZ (subBandOf (field w 1 0)) (field w 25 16) (field w 15 6))
  | 0x10 => ifZero (field w 25 5) (.bpNewPlane (field w 4 0))
  | 0x11 => ifZero (field w 5 5) (.bpBitAt (field w 4 0) (field w 25 16) (field w 15 6))
  | 0x12 => .command (.bpSetBit (field w 4 0) (field w 25 16) (field w 15 6) (bitField w 5))
  | 0x13 => ifZero (field w 5 0) (.bpSignAt (field w 25 16) (field w 15 6))
  | 0x14 => ifZero (field w 4 0) (.bpSetSign (field w 25 16) (field w 15 6) (bitField w 5))
  | 0x15 => ifZero (field w 5 5) (.bpIsCoded (field w 4 0) (field w 25 16) (field w 15 6))
  | 0x16 => ifZero (field w 5 5) (.bpMarkCoded (field w 4 0) (field w 25 16) (field w 15 6))
  | 0x17 => ifZero (field w 25 0) .bpNFull
  | 0x18 => ifZero (field w 25 0) .bpLastH
  | 0x19 => ifZero (field w 25 0) .bpLastOff
  | 0x1A => ifZero (field w 5 5) (.bpStripUnc (field w 4 0) (field w 25 16) (field w 15 6))
  | 0x1B => ifZero (field w 5 5) (.bpStripFnz (field w 4 0) (field w 25 16) (field w 15 6))
  | 0x20 => ifZero (field w 25 0) .mqeInit
  | 0x21 => ifZero (field w 25 6) (.mqeCode (bitField w 5) (field w 4 0))
  | 0x22 => .command (.mqeCodeNum (field w 25 10) (field w 9 5) (field w 4 0))
  | 0x23 => ifZero (field w 25 0) .mqeFlush
  | 0x24 => ifZero (field w 25 0) .mqeMarkEnd
  | 0x28 => ifZero (field w 25 0) .mqdInit
  | 0x29 => ifZero (field w 25 5) (.mqdDecode (field w 4 0))
  | 0x2A => ifZero (field w 25 10) (.mqdDecodeNum (field w 9 5) (field w 4 0))
  | 0x2B => ifZero (field w 25 0) .mqdSkipEnd
  | 0x30 => ifZero (field w 25 0) .ebEncode
  | 0x31 => ifZero (field w 25 0) .ebDecode
  | 0x32 => ifZero (field w 25 6) (.ebSigPass (dirOf (bitField w 5)) (field w 4 0))
  | 0x33 => ifZero (field w 25 6) (.ebRefPass (dirOf (bitField w 5)) (field w 4 0))
  | 0x34 => ifZero (field w 25 6) (.ebCleanup (dirOf (bitField w 5)) (field w 4 0))
  | 0x38 => .command (.cfgSet (field w 25 20) (field w 19 0))
  | 0x39 => ifZero (field w 19 0) (.cfgGet (field w 25 20))
  | _ => .illegal .opcode

/-- The decoder: every 32-bit word is a command or is illegal under a named reason
(30_encoding.md R97, R98, R99). -/
def decode (w : Word) : Decoded := decodeNat w.toNat

/-- Format N (30_encoding.md R96). -/
def encN (op : Nat) : Nat := op * 2 ^ 26

/-- Format C (30_encoding.md R96). -/
def encC (op : Nat) (sw b : Bool) (ctx : Nat) : Nat :=
  op * 2 ^ 26 + bitNat sw * 2 ^ 6 + bitNat b * 2 ^ 5 + ctx

/-- Format V (30_encoding.md R96). -/
def encV (op value nbits ctx : Nat) : Nat :=
  op * 2 ^ 26 + value * 2 ^ 10 + nbits * 2 ^ 5 + ctx

/-- Format P (30_encoding.md R96): `hi` is `aux[5]`, `lo` is `aux[4:0]`. -/
def encP (op r c : Nat) (hi : Bool) (lo : Nat) : Nat :=
  op * 2 ^ 26 + r * 2 ^ 16 + c * 2 ^ 6 + bitNat hi * 2 ^ 5 + lo

/-- Format G (30_encoding.md R96). -/
def encG (op reg val : Nat) : Nat := op * 2 ^ 26 + reg * 2 ^ 20 + val

/-- The command word of a well formed command, as a number (30_encoding.md R96, R97). -/
def encodeNat : Instr → Nat
  | .ptReset => encN 0x01
  | .ptEst ctx => encC 0x02 false false ctx
  | .ptTrans ctx m sw => encC 0x03 sw m ctx
  | .sigReset => encN 0x08
  | .sigIsSig r c => encP 0x09 r c false 0
  | .sigSpCtx r c sb => encP 0x0A r c false (subBandId sb)
  | .sigSignCtx r c => encP 0x0B r c false 0
  | .sigRefCtx r c => encP 0x0C r c false 0
  | .sigSetSig r c neg => encP 0x0D r c false (bitNat neg)
  | .sigStripZ sb r c => encP 0x0E r c false (subBandId sb)
  | .bpNewPlane i => encP 0x10 0 0 false i
  | .bpBitAt i r c => encP 0x11 r c false i
  | .bpSetBit i r c b => encP 0x12 r c b i
  | .bpSignAt r c => encP 0x13 r c false 0
  | .bpSetSign r c b => encP 0x14 r c b 0
  | .bpIsCoded i r c => encP 0x15 r c false i
  | .bpMarkCoded i r c => encP 0x16 r c false i
  | .bpNFull => encN 0x17
  | .bpLastH => encN 0x18
  | .bpLastOff => encN 0x19
  | .bpStripUnc i r c => encP 0x1A r c false i
  | .bpStripFnz i r c => encP 0x1B r c false i
  | .mqeInit => encN 0x20
  | .mqeCode b ctx => encC 0x21 false b ctx
  | .mqeCodeNum value nbits ctx => encV 0x22 value nbits ctx
  | .mqeFlush => encN 0x23
  | .mqeMarkEnd => encN 0x24
  | .mqdInit => encN 0x28
  | .mqdDecode ctx => encC 0x29 false false ctx
  | .mqdDecodeNum nbits ctx => encV 0x2A 0 nbits ctx
  | .mqdSkipEnd => encN 0x2B
  | .ebEncode => encN 0x30
  | .ebDecode => encN 0x31
  | .ebSigPass dir i => encP 0x32 0 0 (dirBit dir) i
  | .ebRefPass dir i => encP 0x33 0 0 (dirBit dir) i
  | .ebCleanup dir i => encP 0x34 0 0 (dirBit dir) i
  | .cfgSet reg val => encG 0x38 reg val
  | .cfgGet reg => encG 0x39 reg 0

/-- The encoder: the command word of a well formed command (30_encoding.md R96, R97). -/
def encode (i : Instr) : Word := BitVec.ofNat 32 (encodeNat i)

/-- The instruction the decoder reads from a table word: every row is one 32-bit word, so a word of
more than 32 bits is none (30_encoding.md R99). -/
def decodeTableWord (nbits w : Nat) : Option Instr :=
  if nbits ≤ 32 then
    match decode (BitVec.ofNat 32 w) with
    | .command i => some i
    | .illegal _ => none
  else none

end Sys2Proof
end

