-- ==== Sys2Proof/Config.lean ====
section
/-! DEFINITION. What an implementation fixes (the spec's open parameters) and the model's free
values. -/

namespace Sys2Proof

/-- The open parameters of the block, "OPEN, model arguments" (00_scope.md R7; 92_eei_decisions.md
D8, D17).  A state carries them, so that a statement about every state is a statement about every
value of them (notes/assumptions/1.md). -/
structure Config.Params where
  /-- `MAX_H`, the largest legal block height. -/
  maxH : Nat
  /-- `MAX_W`, the largest legal block width. -/
  maxW : Nat
  /-- `CODE_VALUE_BITS`, the document's `codeValueBits`. -/
  codeValueBits : Nat
  deriving DecidableEq, Repr

/-- The range the spec gives the parameters: `MAX_H` and `MAX_W` each at least 64 and at most 1024,
`CODE_VALUE_BITS` at least 10 (00_scope.md R7; 93_implementation_defined.md U18, U19). -/
def Config.Params.legal (p : Config.Params) : Bool :=
  decide (64 ≤ p.maxH) && decide (p.maxH ≤ 1024) &&
  decide (64 ≤ p.maxW) && decide (p.maxW ≤ 1024) && decide (10 ≤ p.codeValueBits)

/-- FREE VALUE.  The sub-interval a decision falls in (`true`: the lower one) once, on input that no
encoder wrote, a set bit has left the decoder's 24-bit C: "any value for the decoded bits"
(93_implementation_defined.md U13; 44_mq_decoder.md R237).  The argument counts the free bits used so
far (notes/assumptions/10.md). -/
opaque Config.freeDecodedBit : Nat → Bool

end Sys2Proof
end

