-- ==== Sys2Proof/Machine/State.lean ====
section
/-! DEFINITION. The state of one block (10_state.md R20), the outcomes a command can have
(60_exceptions.md R310 to R313), and the state after hardware reset (10_state.md R39). -/

namespace Sys2Proof.Machine

/-- ProtocolFault codes (60_exceptions.md R311). -/
inductive FaultCode where
  | illegalCmd | badContext | badCoord | badPlane | badStateIndex | notStarted | alreadyStarted
  | alreadySignificant | notInitialised | badConfig | badOperand
  deriving DecidableEq, Repr

/-- DecodeFailure codes (60_exceptions.md R312). -/
inductive DecFail where
  | truncated | garbage
  deriving DecidableEq, Repr

/-- What an operation can raise instead of ending `ok` (60_exceptions.md R310). -/
inductive Raise where
  | protocolFault (code : FaultCode)
  | decodeFailure (code : DecFail)
  | ioFailure
  deriving DecidableEq, Repr

/-- `STATUS.MQMODE` (10_state.md R22): 0 idle, 1 encoding, 2 decoding; 3 never occurs. -/
inductive MqMode where
  | idle | encoding | decoding
  deriving DecidableEq, Repr

/-- The status register (10_state.md R22), field by field; software can only read it. -/
structure Status where
  mqMode : MqMode
  ptValid : Bool
  sigValid : Bool
  planeLive : Bool
  fault : Bool
  /-- `none` is the code 0 of a block that has raised no ProtocolFault. -/
  faultCode : Option FaultCode
  /-- `none` is the code 0. -/
  decFail : Option DecFail
  ioFail : Bool
  deriving DecidableEq, Repr

/-- The seven configuration registers (10_state.md R21). -/
structure CfgRegs where
  h : BitVec 11
  w : BitVec 11
  d : BitVec 5
  sb : SubBand
  rowOff : BitVec 20
  colOff : BitVec 20
  stride : BitVec 20
  deriving DecidableEq, Repr

/-- The coder registers (10_state.md R23 to R26): one set, used by both halves.  `c` is the 28-bit
encoder register; a decoding session uses its low 24 bits (notes/assumptions/14.md). -/
structure Coder where
  a : BitVec 16
  c : BitVec 28
  t : BitVec 8
  ct : BitVec 4
  l : Int
  deriving DecidableEq, Repr

/-- The probability state of one context label (10_state.md R29): a state index 0 to 46 and the
most probable symbol. -/
structure PtEntry where
  idx : Fin 47
  mps : Bool
  deriving DecidableEq, Repr

/-- Significance of a coefficient (10_state.md R31; 30_encoding.md R93). -/
inductive SigState where
  | insignificant | positive | negative
  deriving DecidableEq, Repr

/-- The significance table (10_state.md R31, R32): per coefficient `SIGST` (unlisted:
insignificant), `FIRST` (unlisted: true) and the three cached sums (unlisted: 0).  The index of a
coefficient is `cellIndex` of Machine/Ops.lean. -/
structure SigTable where
  sigst : Cells SigState
  first : Cells Bool
  sumH : Cells Nat
  sumV : Cells Nat
  sumD : Cells Nat
  deriving DecidableEq, Repr

/-- Outcome kinds of a response (30_encoding.md R100). -/
inductive RespKind where
  | ok | protocolFault | decodeFailure | ioFailure
  deriving DecidableEq, Repr

/-- The response to a command (30_encoding.md R100): an outcome and a 32-bit payload. -/
structure Response where
  kind : RespKind
  payload : Word
  deriving DecidableEq, Repr

/-- What the host does to the block, one at a time and between commands (00_scope.md R12, R13;
46_config_ops.md R302; 70_reset_and_hazards.md R340).  What R76 of 20_memory.md forbids it in a
session is executed as written. -/
inductive HostEvent where
  /-- issue a command word at the command port -/
  | command (w : Word)
  /-- pull the reset input -/
  | hardReset
  /-- write a word of the shared buffer `MEM` -/
  | writeMem (addr : Nat) (v : Word)
  /-- set `IN` and position `RP`; `foreign` where the bytes are not all segments that an encoder
  wrote (notes/assumptions/23.md) -/
  | setIn (bytes : List Byte) (rp : Nat) (foreign : Bool)
  /-- take the first `n` bytes out of `OUT` -/
  | drainOut (n : Nat)
  /-- write `OUT`, truncating it or replacing its bytes (20_memory.md R76;
  93_implementation_defined.md U16) -/
  | setOut (bytes : List Byte)
  deriving DecidableEq, Repr

/-- No step of this machine stops with a fault: every failure the spec names is reported in a
response and `STATUS`, and the machine goes on (60_exceptions.md R310, R315, R317).  The type has
no constructor, so nobody can raise one; that is safe. -/
inductive Fault where
  deriving DecidableEq, Repr

/-- Why the model gives a command no meaning. -/
inductive Refusal where
  /-- Answered by an arm of `exec` whose instruction has no meaning yet, and by nothing else; no arm
  is in that position.  Safe: the model stops where the hardware goes on. -/
  | notModelled (mnemonic : String)
  deriving DecidableEq, Repr

/-- The state of the block, of the three memories outside it that its operations reach, and of what
the host is still going to do (10_state.md R20, R35). -/
structure State where
  /-- the open parameters, which no step changes (notes/assumptions/1.md) -/
  params : Config.Params
  /-- registers 0 to 6 (10_state.md R21) -/
  cfg : CfgRegs
  /-- register 7 (10_state.md R22) -/
  status : Status
  /-- registers 8 to 12: A, C, T, CT, L (10_state.md R23) -/
  coder : Coder
  /-- `RP0`, the value of `RP` at the last `MQD.INIT` (10_state.md R35) -/
  rp0 : Nat
  /-- registers 16 to 34: `IDX`, `MPS` (10_state.md R29) -/
  pt : Vector PtEntry 19
  /-- the significance table (10_state.md R31, R32) -/
  sig : SigTable
  /-- register 13: `CUR_PLANE` (10_state.md R27) -/
  curPlane : BitVec 5
  /-- `CODED` of the live plane (10_state.md R34); unlisted: false -/
  coded : Cells Bool
  /-- `MEM`, the shared buffer, by word address (20_memory.md R60); an unlisted word reads 0
  (notes/assumptions/5.md) -/
  mem : Cells Word
  /-- `OUT` (20_memory.md R67), oldest byte first; its length is register 15, `OUTLEN` -/
  out : List Byte
  /-- `IN` (20_memory.md R68) -/
  inp : List Byte
  /-- register 14: `RP`, the index of the next unread byte of `IN` (10_state.md R35) -/
  rp : Nat
  /-- which port calls fail, by number (93_implementation_defined.md U17; notes/assumptions/6.md) -/
  portFails : List Nat
  /-- how many port calls have been made -/
  portCalls : Nat
  /-- `IN` holds bytes that no encoder wrote, a thing of its history and an input of the model
  (44_mq_decoder.md R237; notes/assumptions/23.md) -/
  inForeign : Bool
  /-- a set bit has left the 24-bit C in this decoding session (notes/assumptions/10.md) -/
  diverged : Bool
  /-- how many free bits have been used -/
  freeBits : Nat
  /-- what the host will do, next first (notes/assumptions/7.md) -/
  hostq : List HostEvent
  /-- the response to the last command; `none` before the first one (30_encoding.md R100) -/
  resp : Option Response
  deriving DecidableEq, Repr

/-- `STATUS` after reset: idle, nothing valid, no fault (10_state.md R22, R39). -/
def Status.reset : Status where
  mqMode := .idle
  ptValid := false
  sigValid := false
  planeLive := false
  fault := false
  faultCode := none
  decFail := none
  ioFail := false

/-- The configuration registers after reset (10_state.md R39): all 0. -/
def CfgRegs.reset : CfgRegs where
  h := 0
  w := 0
  d := 0
  sb := .ll
  rowOff := 0
  colOff := 0
  stride := 0

/-- DESIGN CHOICE: the spec leaves A, C, T, CT, L unspecified at reset (10_state.md R39); the model
names zeros (notes/assumptions/2.md). -/
def Coder.reset : Coder where
  a := 0
  c := 0
  t := 0
  ct := 0
  l := 0

/-- DESIGN CHOICE: the spec leaves `IDX`, `MPS` unspecified at reset (10_state.md R39); the model
names state 0, MPS 0 (notes/assumptions/3.md). -/
def PtEntry.reset : PtEntry where
  idx := 0
  mps := false

/-- The table `SIG.RESET` writes (41_significance_table.md R141): nothing listed, that is every
coefficient insignificant, every `FIRST` 1, every sum 0. -/
def SigTable.empty : SigTable where
  sigst := []
  first := []
  sumH := []
  sumV := []
  sumD := []

/-- The state after hardware reset (10_state.md R39; 70_reset_and_hazards.md R340), with the host's
memories as the log names them and nothing yet asked of the block.  DESIGN CHOICE for every value
R39 calls unspecified or leaves to the host (notes/assumptions/1.md to 6.md). -/
def State.reset : State where
  params := ⟨1024, 1024, 32⟩
  cfg := .reset
  status := .reset
  coder := .reset
  rp0 := 0
  pt := Vector.replicate 19 .reset
  sig := .empty
  curPlane := 0
  coded := []
  mem := []
  out := []
  inp := []
  rp := 0
  portFails := []
  portCalls := 0
  inForeign := true
  diverged := false
  freeBits := 0
  hostq := []
  resp := none

end Sys2Proof.Machine
end

