-- ==== Sys2Proof/Machine/Flags.lean ====
section
/-! DEFINITION. The status register as software reads it and every update of its fields
(10_state.md R22, R36, R40), and the numbers of the codes and
outcomes (60_exceptions.md R311, R312; 30_encoding.md R100). -/

namespace Sys2Proof.Machine

/-- A bool as the number a field or payload shows (00_scope.md R8). -/
def boolNat (b : Bool) : Nat := if b then 1 else 0

/-- A bool as a payload, bit 0 (30_encoding.md R100). -/
def boolWord (b : Bool) : Word := BitVec.ofNat 32 (boolNat b)

/-- Code of a ProtocolFault (60_exceptions.md R311). -/
def faultCodeNat : FaultCode → Nat
  | .illegalCmd => 1
  | .badContext => 2
  | .badCoord => 3
  | .badPlane => 4
  | .badStateIndex => 5
  | .notStarted => 6
  | .alreadyStarted => 7
  | .alreadySignificant => 8
  | .notInitialised => 9
  | .badConfig => 10
  | .badOperand => 11

/-- `FAULT_CODE` as a number (10_state.md R22): 0 before any ProtocolFault. -/
def faultCodeField : Option FaultCode → Nat
  | none => 0
  | some code => faultCodeNat code

/-- Code of a DecodeFailure (60_exceptions.md R312). -/
def decFailNat : DecFail → Nat
  | .truncated => 1
  | .garbage => 2

/-- `DECFAIL` as a number (10_state.md R22). -/
def decFailField : Option DecFail → Nat
  | none => 0
  | some code => decFailNat code

/-- The value of an outcome (30_encoding.md R100). -/
def outcomeNat : RespKind → Nat
  | .ok => 0
  | .protocolFault => 1
  | .decodeFailure => 2
  | .ioFailure => 3

/-- What the host reads at the response port after a command: the outcome's value and the payload
(30_encoding.md R100); nothing before the first command. -/
def responseRead (s : State) : Option (Nat × Word) :=
  s.resp.map fun r => (outcomeNat r.kind, r.payload)

/-- `MQMODE` as a number (10_state.md R22). -/
def mqModeNat : MqMode → Nat
  | .idle => 0
  | .encoding => 1
  | .decoding => 2

/-- `STATUS`, 13 bits, as `CFG.GET 7` returns it (10_state.md R22). -/
def statusNat (st : Status) : Nat :=
  mqModeNat st.mqMode + boolNat st.ptValid * 2 ^ 2 + boolNat st.sigValid * 2 ^ 3
    + boolNat st.planeLive * 2 ^ 4 + boolNat st.fault * 2 ^ 5
    + faultCodeField st.faultCode * 2 ^ 6 + decFailField st.decFail * 2 ^ 10
    + boolNat st.ioFail * 2 ^ 12

/-- Write `MQMODE`. -/
def setMqMode (m : MqMode) (s : State) : State :=
  { s with status := { s.status with mqMode := m } }

/-- Write `PT_VALID`. -/
def setPtValid (b : Bool) (s : State) : State :=
  { s with status := { s.status with ptValid := b } }

/-- Write `SIG_VALID`. -/
def setSigValid (b : Bool) (s : State) : State :=
  { s with status := { s.status with sigValid := b } }

/-- Write `PLANE_LIVE`. -/
def setPlaneLive (b : Bool) (s : State) : State :=
  { s with status := { s.status with planeLive := b } }

/-- Write `IOFAIL`. -/
def setIoFail (b : Bool) (s : State) : State :=
  { s with status := { s.status with ioFail := b } }

/-- Write `DECFAIL`. -/
def setDecFail (code : Option DecFail) (s : State) : State :=
  { s with status := { s.status with decFail := code } }

/-- `FAULT <- 1`, and `FAULT_CODE <- code` if this is the first ProtocolFault since reset
(60_exceptions.md R315). -/
def setFault (code : FaultCode) (s : State) : State :=
  { s with status := { s.status with
      fault := true
      faultCode := if s.status.fault then s.status.faultCode else some code } }

/-- The session ends and nothing stays valid (60_exceptions.md R317; 10_state.md R40). -/
def clearValidity (s : State) : State :=
  { s with status := { s.status with
      mqMode := .idle, ptValid := false, sigValid := false, planeLive := false } }

end Sys2Proof.Machine
end

