-- ==== Sys2Proof/Machine/Ops.lean ====
section
/-! DEFINITION. The shared operations: sparse arrays, the shared buffer, the byte ports, how an
operation runs, fails and answers (60_exceptions.md R310 to R317), and what the host does besides
issuing commands (46_config_ops.md R302). -/

namespace Sys2Proof.Machine

/-! ### Sparse arrays -/

/-- The value at index `a`; `d` where the array lists none. -/
def cellsGet {α : Type} (d : α) : Cells α → Nat → α
  | [], _ => d
  | (k, v) :: rest, a => if k = a then v else cellsGet d rest a

/-- List the value `x` at index `a`, in place of an earlier one. -/
def cellsPut {α : Type} : Cells α → Nat → α → Cells α
  | [], a, x => [(a, x)]
  | (k, v) :: rest, a, x =>
    if a < k then (a, x) :: (k, v) :: rest
    else if k = a then (a, x) :: rest
    else (k, v) :: cellsPut rest a x

/-- List no value at index `a`. -/
def cellsDrop {α : Type} : Cells α → Nat → Cells α
  | [], _ => []
  | (k, v) :: rest, a => if k = a then cellsDrop rest a else (k, v) :: cellsDrop rest a

/-- Write `x` at index `a`: writing the default lists nothing. -/
def cellsSet {α : Type} [DecidableEq α] (d : α) (m : Cells α) (a : Nat) (x : α) : Cells α :=
  if x = d then cellsDrop m a else cellsPut m a x

/-- Every listed index is above `lo`, they rise strictly, and no value is the default. -/
def cellsAbove {α : Type} [DecidableEq α] (d : α) : Option Nat → Cells α → Bool
  | _, [] => true
  | lo, (k, v) :: rest =>
    (match lo with | none => true | some b => decide (b < k)) && decide (v ≠ d)
      && cellsAbove d (some k) rest

/-- The canonical form of a sparse array whose default is `d`. -/
def cellsWf {α : Type} [DecidableEq α] (d : α) (m : Cells α) : Bool := cellsAbove d none m

/-- What a word of `MEM` reads as that nothing has written (notes/assumptions/5.md).
DESIGN CHOICE. -/
def unwrittenWord : Word := 0

/-- The canonical form of `MEM`. -/
def Memory.wf (m : Cells Word) : Bool := cellsWf unwrittenWord m

/-- Index of the coefficient at local position (r, c) in the per-coefficient arrays
(20_memory.md R64); injective for c below 2048, which every column of an 11-bit `CFG_W` is. -/
def cellIndex (r c : Nat) : Nat := r * 2048 + c

/-! ### Operations -/

/-- An operation: a function of the state that ends `ok` with a result or raises, and in both cases
leaves a state (00_scope.md R10, R12; 60_exceptions.md R310, R314). -/
abbrev Op (α : Type) := EStateM Raise State α

/-- Read the state. -/
def getS : Op State := fun s => .ok s s

/-- Change the state. -/
def modS (f : State → State) : Op Unit := fun s => .ok () (f s)

/-- `raise` (00_scope.md R10). -/
def raise {α : Type} (e : Raise) : Op α := fun s => .error e s

/-- `require cond else code` (00_scope.md R10). -/
def require (cond : Bool) (code : FaultCode) : Op Unit := fun s =>
  if cond then .ok () s else .error (.protocolFault code) s

/-- `if c: x`. -/
def doIf (c : Prop) [Decidable c] (x : Op Unit) : Op Unit := if c then x else pure ()

/-- `for x in xs: body`, in order (20_memory.md R75). -/
def forEach {α : Type} : List α → (α → Op Unit) → Op Unit
  | [], _ => pure ()
  | x :: xs, body => do
    body x
    forEach xs body

/-! ### The shared buffer -/

/-- Block height `H` (10_state.md R21). -/
def State.H (s : State) : Nat := s.cfg.h.toNat

/-- Block width `W` (10_state.md R21). -/
def State.W (s : State) : Nat := s.cfg.w.toNat

/-- Magnitude depth `D` (10_state.md R21). -/
def State.D (s : State) : Nat := s.cfg.d.toNat

/-- Word address of local position (r, c) (20_memory.md R60). -/
def memAddr (s : State) (r c : Nat) : Nat :=
  (s.cfg.rowOff.toNat + r) * s.cfg.stride.toNat + s.cfg.colOff.toNat + c

/-- The word at a word address. -/
def wordAt (s : State) (addr : Nat) : Word := cellsGet unwrittenWord s.mem addr

/-- Write the word at a word address. -/
def setWord (addr : Nat) (v : Word) (s : State) : State :=
  { s with mem := cellsSet unwrittenWord s.mem addr v }

/-- The block's range check: 0 ≤ r < H and 0 ≤ c < W, else `BAD_COORD` (20_memory.md R61). -/
def requireCoord (r c : Nat) : Op Unit := do
  let s ← getS
  require (decide (r < s.H) && decide (c < s.W)) .badCoord

/-- `MemRead(r, c)` (20_memory.md R61). -/
def memRead (r c : Nat) : Op Word := do
  requireCoord r c
  let s ← getS
  pure (wordAt s (memAddr s r c))

/-- `MemWrite(r, c, v)` (20_memory.md R62). -/
def memWrite (r c : Nat) (v : Word) : Op Unit := do
  requireCoord r c
  modS fun s => setWord (memAddr s r c) v s

/-! ### The byte ports -/

/-- One call of the collaborator's sink or source, which may fail (60_exceptions.md R313;
93_implementation_defined.md U17; notes/assumptions/6.md). -/
def portCall : Op Unit := fun s =>
  let s' := { s with portCalls := s.portCalls + 1 }
  if s.portFails.contains s.portCalls then .error .ioFailure s' else .ok () s'

/-- `PutOut(b)` (20_memory.md R67). -/
def putOut (b : Byte) : Op Unit := do
  portCall
  modS fun s => { s with out := s.out ++ [b] }

/-- `PeekIn()` (20_memory.md R68). -/
def peekIn : Op (Option Byte) := do
  portCall
  let s ← getS
  pure s.inp[s.rp]?

/-- `TakeIn()` (20_memory.md R68).  Every rule peeks first; at the end of `IN` this raises
`TRUNCATED` as R69 says of any byte that is needed and is not there. -/
def takeIn : Op Byte := do
  portCall
  let s ← getS
  match s.inp[s.rp]? with
  | none => raise (.decodeFailure .truncated)
  | some b => do
    modS fun s => { s with rp := s.rp + 1 }
    pure b

/-- `OUTLEN` (10_state.md R35). -/
def outLen (s : State) : Nat := s.out.length

/-! ### Answering a command -/

/-- Give a response (30_encoding.md R100). -/
def respond (kind : RespKind) (payload : Word) (s : State) : State :=
  { s with resp := some ⟨kind, payload⟩ }

/-- What a ProtocolFault does (60_exceptions.md R315): `FAULT` is set, the first code is kept, the
response carries this code, nothing else changes. -/
def takeProtocolFault (code : FaultCode) (s : State) : State :=
  respond .protocolFault (BitVec.ofNat 32 (faultCodeNat code)) (setFault code s)

/-- What a DecodeFailure does (60_exceptions.md R317). -/
def takeDecodeFailure (code : DecFail) (s : State) : State :=
  respond .decodeFailure (BitVec.ofNat 32 (decFailNat code))
    (clearValidity (setDecFail (some code) s))

/-- What an IOFailure does (60_exceptions.md R317; its payload is 0, 30_encoding.md R100). -/
def takeIoFailure (s : State) : State :=
  respond .ioFailure 0 (clearValidity (setIoFail true s))

/-- End a command with whatever it raised (60_exceptions.md R315, R317). -/
def takeRaise : Raise → State → State
  | .protocolFault code, s => takeProtocolFault code s
  | .decodeFailure code, s => takeDecodeFailure code s
  | .ioFailure, s => takeIoFailure s

/-- The refusal of every command but `CFG.GET` while `FAULT` is 1: the stored code, no other change
(60_exceptions.md R315). -/
def refuseSticky (s : State) : State :=
  respond .protocolFault (BitVec.ofNat 32 (faultCodeField s.status.faultCode)) s

/-- The state after an operation run as a command: the response is its payload, or what it raised is
taken (60_exceptions.md R310). -/
def settle (op : Op Word) (s : State) : State :=
  match op s with
  | .ok payload s' => respond .ok payload s'
  | .error e s' => takeRaise e s'

/-- Run a command that is refused while `FAULT` is 1 (60_exceptions.md R315). -/
def command (op : Op Word) (s : State) : Host.Outcome State Fault Refusal :=
  .next (if s.status.fault then refuseSticky s else settle op s)

/-- Run a command that is honoured even while `FAULT` is 1 (60_exceptions.md R315): `CFG.GET`. -/
def commandAlways (op : Op Word) (s : State) : Host.Outcome State Fault Refusal :=
  .next (settle op s)

/-- A word that is no command: `ILLEGAL_CMD` (30_encoding.md R98), after the sticky refusal unless
its opcode is `CFG.GET`'s (60_exceptions.md R315, R316). -/
def illegalWord (w : Word) (s : State) : State :=
  if s.status.fault && decide (w.toNat / 2 ^ 26 ≠ 0x39) then refuseSticky s
  else takeProtocolFault .illegalCmd s

/-! ### The host's other actions -/

/-- The hardware reset input (70_reset_and_hazards.md R340): every register of the block takes its
value after reset; the parameters, the host's memories and ports, and what the host will do next
are not touched, nor is the count of free bits used. -/
def hardReset (s : State) : State :=
  { State.reset with
    params := s.params
    mem := s.mem
    out := s.out
    inp := s.inp
    rp := s.rp
    portFails := s.portFails
    portCalls := s.portCalls
    inForeign := s.inForeign
    freeBits := s.freeBits
    hostq := s.hostq }

/-- The host sets `IN` and positions `RP` (46_config_ops.md R302), and it is noted whether an encoder
wrote the bytes (notes/assumptions/23.md). -/
def hostSetIn (bytes : List Byte) (rp : Nat) (foreign : Bool) (s : State) : State :=
  { s with inp := bytes, rp := rp, inForeign := foreign }

/-- The host takes the first `n` bytes out of `OUT` (46_config_ops.md R302). -/
def hostDrainOut (n : Nat) (s : State) : State := { s with out := s.out.drop n }

/-- The host writes `OUT`: a prefix of it truncates it (20_memory.md R76). -/
def hostSetOut (bytes : List Byte) (s : State) : State := { s with out := bytes }

/-- The effect of a host event that is not a command (46_config_ops.md R302;
70_reset_and_hazards.md R340); a command word is run by `step`. -/
def hostAct : HostEvent → State → State
  | .command _, s => s
  | .hardReset, s => hardReset s
  | .writeMem addr v, s => setWord addr v s
  | .setIn bytes rp foreign, s => hostSetIn bytes rp foreign s
  | .drainOut n, s => hostDrainOut n s
  | .setOut bytes, s => hostSetOut bytes s

/-- The host's next event is taken off its queue. -/
def popHost (rest : List HostEvent) (s : State) : State := { s with hostq := rest }

/-- A command word is put before everything the host will do. -/
def pushCommand (w : Word) (s : State) : State := { s with hostq := .command w :: s.hostq }

end Sys2Proof.Machine
end

