-- ==== Sys2Proof/Machine/Operands.lean ====
section
/-! DEFINITION. What an operation requires of its operands and of the validity of the state it
reads, in the order of 60_exceptions.md R316. -/

namespace Sys2Proof.Machine

/-- The predicate `GeomOK` (10_state.md R21). -/
def geomOK (s : State) : Bool :=
  decide (1 ≤ s.H) && decide (s.H ≤ s.params.maxH)
    && decide (1 ≤ s.W) && decide (s.W ≤ s.params.maxW)
    && decide (1 ≤ s.D) && decide (s.D ≤ 31)
    && decide (s.cfg.colOff.toNat + s.W ≤ s.cfg.stride.toNat)

/-- `require GeomOK else BAD_CONFIG`. -/
def requireGeom : Op Unit := do
  let s ← getS
  require (geomOK s) .badConfig

/-- `require STATUS.MQMODE = 0 else ALREADY_STARTED`. -/
def requireIdle : Op Unit := do
  let s ← getS
  require (decide (s.status.mqMode = .idle)) .alreadyStarted

/-- `require STATUS.MQMODE = m else NOT_STARTED`. -/
def requireMode (m : MqMode) : Op Unit := do
  let s ← getS
  require (decide (s.status.mqMode = m)) .notStarted

/-- The checks of an operation on a context label (40_probability_table.md R122): `PT_VALID`, then
the label. -/
def requirePt (ctx : Nat) : Op Unit := do
  let s ← getS
  require s.status.ptValid .notInitialised
  require (decide (ctx ≤ 18)) .badContext

/-- The check of the number of bits of `MQE.CODENUM` and `MQD.DECODENUM` (43_mq_encoder.md R205). -/
def requireNbits (nbits : Nat) : Op Unit := require (decide (nbits ≤ 16)) .badOperand

/-- `require r + 3 < H else BAD_COORD`, of a strip operation (20_memory.md R72). -/
def requireStrip (r : Nat) : Op Unit := do
  let s ← getS
  require (decide (r + 3 < s.H)) .badCoord

/-- The checks of a `SIG` operation on a position (41_significance_table.md R143). -/
def requireSig (r c : Nat) : Op Unit := do
  requireGeom
  let s ← getS
  require s.status.sigValid .notInitialised
  requireCoord r c

/-- `require i < D else BAD_PLANE` (42_block_plane_view.md R183). -/
def requirePlane (i : Nat) : Op Unit := do
  let s ← getS
  require (decide (i < s.D)) .badPlane

/-- The checks of an operation on a position of a plane that need not be live
(42_block_plane_view.md R183). -/
def requireBit (i r c : Nat) : Op Unit := do
  requireGeom
  requirePlane i
  requireCoord r c

/-- The checks of an operation on a position and no plane (42_block_plane_view.md R183). -/
def requireSign (r c : Nat) : Op Unit := do
  requireGeom
  requireCoord r c

/-- The checks of an operation on a position of the live plane (42_block_plane_view.md R183). -/
def requireLive (i r c : Nat) : Op Unit := do
  requireGeom
  let s ← getS
  require s.status.planeLive .notInitialised
  requirePlane i
  require (decide (i = s.curPlane.toNat)) .badPlane
  requireCoord r c

/-- The session a pass of a direction needs (45_pass_sequencer.md R269). -/
def dirMode : Dir → MqMode
  | .encode => .encoding
  | .decode => .decoding

/-- The checks of a pass (45_pass_sequencer.md R269). -/
def requirePass (dir : Dir) (i : Nat) : Op Unit := do
  requireGeom
  requireMode (dirMode dir)
  let s ← getS
  require (s.status.ptValid && s.status.sigValid && s.status.planeLive) .notInitialised
  require (decide (i < s.D) && decide (i = s.curPlane.toNat)) .badPlane

end Sys2Proof.Machine
end

