-- ==== Sys2Proof/Machine/Pt.lean ====
section
/-! DEFINITION. The probability-table state machine: 40_probability_table.md. -/

namespace Sys2Proof.Machine

/-- Context label ids with a role of their own (30_encoding.md R92). -/
def lblZero : Nat := 0
/-- See `lblZero`. -/
def lblRunLength : Nat := 17
/-- See `lblZero`. -/
def lblUniform : Nat := 18

/-- `QE[i]` (40_probability_table.md R123). -/
def qe (i : Fin 47) : BitVec 16 :=
  (#v[0x5601, 0x3401, 0x1801, 0x0AC1, 0x0521, 0x0221, 0x5601, 0x5401, 0x4801, 0x3801, 0x3001, 0x2401,
    0x1C01, 0x1601, 0x5601, 0x5401, 0x5101, 0x4801, 0x3801, 0x3401, 0x3001, 0x2801, 0x2401, 0x2201,
    0x1C01, 0x1801, 0x1601, 0x1401, 0x1201, 0x1101, 0x0AC1, 0x09C1, 0x08A1, 0x0521, 0x0441, 0x02A1,
    0x0221, 0x0141, 0x0111, 0x0085, 0x0049, 0x0025, 0x0015, 0x0009, 0x0005, 0x0001, 0x5601]
    : Vector (BitVec 16) 47)[i]

/-- `NMPS[i]` (40_probability_table.md R123). -/
def nmps (i : Fin 47) : Fin 47 :=
  (#v[1, 2, 3, 4, 5, 38, 7, 8, 9, 10, 11, 12, 13, 29, 15, 16, 17, 18, 19, 20, 21, 22, 23, 24, 25, 26,
    27, 28, 29, 30, 31, 32, 33, 34, 35, 36, 37, 38, 39, 40, 41, 42, 43, 44, 45, 45, 46]
    : Vector (Fin 47) 47)[i]

/-- `NLPS[i]` (40_probability_table.md R123). -/
def nlps (i : Fin 47) : Fin 47 :=
  (#v[1, 6, 9, 12, 29, 33, 6, 14, 14, 14, 17, 18, 20, 21, 14, 14, 15, 16, 17, 18, 19, 19, 20, 21, 22,
    23, 24, 25, 26, 27, 28, 29, 30, 31, 32, 33, 34, 35, 36, 37, 38, 39, 40, 41, 42, 43, 46]
    : Vector (Fin 47) 47)[i]

/-- `SWITCH[i]`: 1 exactly for i = 0, 6 and 14 (40_probability_table.md R123). -/
def switchMps (i : Fin 47) : Bool := i == 0 || i == 6 || i == 14

/-- `IDX[ctx]`, `MPS[ctx]`; of no label, the first label's, which no operation asks for. -/
def ptAt (s : State) (ctx : Nat) : PtEntry :=
  if h : ctx < 19 then s.pt[ctx] else s.pt[0]

/-- Write `IDX[ctx]`, `MPS[ctx]`. -/
def setPt (ctx : Nat) (e : PtEntry) (s : State) : State :=
  { s with pt := s.pt.setIfInBounds ctx e }

/-- The move of R125: to `NMPS` on a match; on a mismatch to `NLPS`, inverting the MPS bit first where
the state's switch flag and `sw` say so. -/
def ptMove (m sw : Bool) (e : PtEntry) : PtEntry :=
  if m then { e with idx := nmps e.idx }
  else ⟨nlps e.idx, if switchMps e.idx && sw then !e.mps else e.mps⟩

/-- The 19 initial states (40_probability_table.md R121). -/
def ptInitial : Vector PtEntry 19 :=
  (((Vector.replicate 19 ⟨0, false⟩).set 0 ⟨4, false⟩).set 17 ⟨3, false⟩).set 18 ⟨46, false⟩

/-- `PT.RESET` (R121). -/
def ptReset : Op Unit := modS fun s => setPtValid true { s with pt := ptInitial }

/-- `PT.EST ctx` (R124). -/
def ptEst (ctx : Nat) : Op (BitVec 16 × Bool) := do
  requirePt ctx
  let s ← getS
  pure (qe (ptAt s ctx).idx, (ptAt s ctx).mps)

/-- `PT.TRANS ctx, m, sw` (R125). -/
def ptTrans (ctx : Nat) (m sw : Bool) : Op Unit := do
  requirePt ctx
  modS fun s => setPt ctx (ptMove m sw (ptAt s ctx)) s

/-- Payload of `PT.EST` (30_encoding.md R100): bits 15:0 the estimate, bit 16 the MPS. -/
def estPayload (p : BitVec 16) (mps : Bool) : Word :=
  BitVec.ofNat 32 (p.toNat + boolNat mps * 2 ^ 16)

/-- `PT.RESET` as a command. -/
def execPtReset (s : State) : Host.Outcome State Fault Refusal :=
  command (do ptReset; pure 0) s

/-- `PT.EST` as a command. -/
def execPtEst (ctx : Nat) (s : State) : Host.Outcome State Fault Refusal :=
  command (do let (p, mps) ← ptEst ctx; pure (estPayload p mps)) s

/-- `PT.TRANS` as a command. -/
def execPtTrans (ctx : Nat) (m sw : Bool) (s : State) : Host.Outcome State Fault Refusal :=
  command (do ptTrans ctx m sw; pure 0) s

end Sys2Proof.Machine
end

