-- ==== Sys2Proof/Machine/Mqe.lean ====
section
/-! DEFINITION. The MQ arithmetic encoder: 43_mq_encoder.md. -/

namespace Sys2Proof.Machine

/-- Write A. -/
def setA (a : BitVec 16) (s : State) : State := { s with coder := { s.coder with a := a } }

/-- Write C. -/
def setC (c : BitVec 28) (s : State) : State := { s with coder := { s.coder with c := c } }

/-- Write T. -/
def setT (t : BitVec 8) (s : State) : State := { s with coder := { s.coder with t := t } }

/-- Write CT. -/
def setCt (ct : BitVec 4) (s : State) : State := { s with coder := { s.coder with ct := ct } }

/-- Write L. -/
def setL (l : Int) (s : State) : State := { s with coder := { s.coder with l := l } }

/-- A, C after a decision (43_mq_encoder.md R202): `p` the estimate, `s0` the MPS, `b` the bit.  The
half labelled `s`, exchanged if it is the shorter, is the upper one. -/
def codeInterval (p : BitVec 16) (s0 b : Bool) (a : BitVec 16) (c : BitVec 28) :
    BitVec 16 × BitVec 28 :=
  let a1 := a - p
  let s := if a1 < p then !s0 else s0
  if b = s then (a1, c + p.setWidth 28) else (p, c)

/-- `PutByte` (R203). -/
def putByte : Op Unit := do
  let s ← getS
  doIf (0 ≤ s.coder.l) (putOut s.coder.t)
  modS fun s => setL (s.coder.l + 1) s

/-- T takes `C[27:20]`, which are cleared; CT is 7 (R204). -/
def loadSeven (s : State) : State :=
  setCt 7 (setC (s.coder.c &&& 0xFFFFF#28) (setT (s.coder.c.extractLsb' 20 8) s))

/-- T takes `C[26:19]`, which are cleared; CT is 8 (R204). -/
def loadEight (s : State) : State :=
  setCt 8 (setC (s.coder.c &&& ~~~(0xFF#28 <<< 19)) (setT (s.coder.c.extractLsb' 19 8) s))

/-- The carry `C[27]` is added to T and cleared (R204). -/
def addCarry (s : State) : State :=
  setC (s.coder.c &&& 0x7FFFFFF#28)
    (setT (s.coder.t + (s.coder.c.extractLsb' 27 1).setWidth 8) s)

/-- `TransferByte` (R204). -/
def transferByte : Op Unit := do
  let s ← getS
  if s.coder.t = 0xFF then do
    putByte
    modS loadSeven
  else do
    modS addCarry
    putByte
    let s ← getS
    if s.coder.t = 0xFF then modS loadSeven else modS loadEight

/-- One doubling: A and C shift left, CT counts down (R202). -/
def doubleOnce (s : State) : State :=
  setCt (s.coder.ct - 1) (setC (s.coder.c <<< 1) (setA (s.coder.a <<< 1) s))

/-- The renormalisation loop of `MQE.CODE` (R202), at most so many doublings; "at most 15 doublings
happen in one operation" (notes/assumptions/13.md). -/
def encRenorm : Nat → Op Unit
  | 0 => pure ()
  | n + 1 => do
    let s ← getS
    doIf (s.coder.a < 0x8000) do
      modS doubleOnce
      let s ← getS
      doIf (s.coder.ct = 0) transferByte
      encRenorm n

/-- `MQE.INIT` (R201). -/
def mqeInit : Op Unit := do
  requireIdle
  modS fun s => setIoFail false (setMqMode .encoding
    { s with coder := { a := 0x8000, c := 0, t := 0, ct := 12, l := -1 } })

/-- `MQE.CODE b, ctx` (R202). -/
def mqeCode (b : Bool) (ctx : Nat) : Op Unit := do
  requireMode .encoding
  requirePt ctx
  let s ← getS
  let e := ptAt s ctx
  let ac := codeInterval (qe e.idx) e.mps b s.coder.a s.coder.c
  modS fun s => setC ac.2 (setA ac.1 s)
  doIf (ac.1 < 0x8000) do
    ptTrans ctx (b == e.mps) true
    encRenorm 15

/-- Code the bits below position `nbits` of `value`, the highest first (R205). -/
def codeBits (value ctx : Nat) : Nat → Op Unit
  | 0 => pure ()
  | k + 1 => do
    mqeCode (value.testBit k) ctx
    codeBits value ctx k

/-- `MQE.CODENUM value, nbits, ctx` (R205). -/
def mqeCodeNum (value nbits ctx : Nat) : Op Unit := do
  requireMode .encoding
  requirePt ctx
  requireNbits nbits
  codeBits value ctx nbits

/-- `C <- C << CT` (R206). -/
def shiftByCt (s : State) : State := setC (s.coder.c <<< s.coder.ct.toNat) s

/-- The loop of `MQE.FLUSH` (R206) with `nbits` bits still to move out; every turn takes at least 7
of the at most 12, so two turns are all there are (notes/assumptions/13.md). -/
def flushLoop : Nat → Int → Op Unit
  | 0, _ => pure ()
  | n + 1, nbits =>
    doIf (0 < nbits) do
      transferByte
      let s ← getS
      modS shiftByCt
      flushLoop n (nbits - s.coder.ct.toNat)

/-- `MQE.FLUSH` (R206). -/
def mqeFlush : Op Unit := do
  requireMode .encoding
  let s ← getS
  modS shiftByCt
  flushLoop 2 (12 - (s.coder.ct.toNat : Int))
  transferByte

/-- `MQE.MARKEND` (R207). -/
def mqeMarkEnd : Op Unit := do
  requireMode .encoding
  putOut 0xFF
  putOut 0xA1
  modS (setMqMode .idle)

/-- `MQE.INIT` as a command. -/
def execMqeInit (s : State) : Host.Outcome State Fault Refusal :=
  command (do mqeInit; pure 0) s

/-- `MQE.CODE` as a command. -/
def execMqeCode (b : Bool) (ctx : Nat) (s : State) : Host.Outcome State Fault Refusal :=
  command (do mqeCode b ctx; pure 0) s

/-- `MQE.CODENUM` as a command. -/
def execMqeCodeNum (value nbits ctx : Nat) (s : State) : Host.Outcome State Fault Refusal :=
  command (do mqeCodeNum value nbits ctx; pure 0) s

/-- `MQE.FLUSH` as a command. -/
def execMqeFlush (s : State) : Host.Outcome State Fault Refusal :=
  command (do mqeFlush; pure 0) s

/-- `MQE.MARKEND` as a command. -/
def execMqeMarkEnd (s : State) : Host.Outcome State Fault Refusal :=
  command (do mqeMarkEnd; pure 0) s

end Sys2Proof.Machine
end

