-- ==== Sys2Proof/Machine/Mqd.lean ====
section
/-! DEFINITION. The MQ arithmetic decoder: 44_mq_decoder.md. -/

namespace Sys2Proof.Machine

/-- Write the decoder's C, 24 bits (10_state.md R25): of a value of more bits the low 24 stay, and the
session has diverged, which on input that no encoder wrote makes its decoded bits free from then on
(44_mq_decoder.md R237; 93_implementation_defined.md U13; notes/assumptions/10.md). -/
def setDecC (v : Nat) (s : State) : State :=
  { setC (BitVec.ofNat 28 (v % 2 ^ 24)) s with diverged := s.diverged || decide (2 ^ 24 ≤ v) }

/-- C as a number. -/
def decC (s : State) : Nat := s.coder.c.toNat

/-- `C_active`, bits 23:8 of C (10_state.md R25). -/
def cActive (s : State) : Nat := decC s / 2 ^ 8

/-- `FillLSBs` (R233). -/
def fillLSBs : Op Unit := do
  modS (setCt 8)
  let n ← peekIn
  match n with
  | none => raise (.decodeFailure .truncated)
  | some n => do
    let s ← getS
    if s.coder.t = 0xFF ∧ 0x8F < n then modS fun s => setDecC (decC s + 0xFF) s
    else do
      doIf (s.coder.t = 0xFF) (modS (setCt 7))
      let b ← takeIn
      modS fun s => setL (s.coder.l + 1) (setT b s)
      modS fun s => setDecC (decC s + b.toNat * 2 ^ (8 - s.coder.ct.toNat)) s

/-- `RenormOnce` (R234). -/
def renormOnce : Op Unit := do
  let s ← getS
  doIf (s.coder.ct = 0) fillLSBs
  modS fun s => setCt (s.coder.ct - 1) (setDecC (decC s * 2) (setA (s.coder.a <<< 1) s))

/-- The loop `while A < 0x8000: RenormOnce` of `MQD.DECODE` (R232), at most so many turns; "at most
15 doublings" (notes/assumptions/13.md). -/
def decRenorm : Nat → Op Unit
  | 0 => pure ()
  | n + 1 => do
    let s ← getS
    doIf (s.coder.a < 0x8000) do
      renormOnce
      decRenorm n

/-- `MQD.INIT` (R231). -/
def mqdInit : Op Unit := do
  requireIdle
  modS fun s => setDecFail none (setIoFail false
    { s with rp0 := s.rp, diverged := false, coder := { s.coder with t := 0, l := 0, c := 0 } })
  fillLSBs
  modS fun s => setDecC (decC s * 2 ^ s.coder.ct.toNat) s
  fillLSBs
  modS fun s => setDecC (decC s * 2 ^ 7) s
  modS fun s => setA 0x8000 (setCt (s.coder.ct - 7) s)
  modS (setMqMode .decoding)

/-- Whether the code word lies in the lower sub-interval: `C_active < p` (R232), with `C_active` the
bits 23:8 of C (10_state.md R25), whatever labels are asked for (70_reset_and_hazards.md R350;
93_implementation_defined.md U12).  A free bit on input that no encoder wrote, once the session has
diverged (R237; U13; notes/assumptions/10.md). -/
def inLower (p : BitVec 16) : Op Bool := fun s =>
  if s.diverged && s.inForeign then
    .ok (Config.freeDecodedBit s.freeBits) { s with freeBits := s.freeBits + 1 }
  else .ok (decide (cActive s < p.toNat)) s

/-- `C_active <- C_active - p` (R232), in 24 bits. -/
def subActive (p : BitVec 16) (s : State) : State :=
  setDecC ((decC s + 2 ^ 24 - p.toNat * 2 ^ 8) % 2 ^ 24) s

/-- `MQD.DECODE ctx` (R232). -/
def mqdDecode (ctx : Nat) : Op Bool := do
  requireMode .decoding
  requirePt ctx
  let s ← getS
  let e := ptAt s ctx
  let p := qe e.idx
  let a1 := s.coder.a - p
  let up := if a1 < p then !e.mps else e.mps
  let lower ← inLower p
  let b := if lower then !up else up
  let a2 := if lower then p else a1
  modS fun s => setA a2 (if lower then s else subActive p s)
  doIf (a2 < 0x8000) do
    ptTrans ctx (b == e.mps) true
    decRenorm 15
  pure b

/-- Decode `n` bits onto `v`, the highest first (R235). -/
def decodeBits (ctx : Nat) : Nat → Nat → Op Nat
  | 0, v => pure v
  | n + 1, v => do
    let b ← mqdDecode ctx
    decodeBits ctx n (v * 2 + boolNat b)

/-- `MQD.DECODENUM nbits, ctx` (R235). -/
def mqdDecodeNum (nbits ctx : Nat) : Op Nat := do
  requireMode .decoding
  requirePt ctx
  requireNbits nbits
  decodeBits ctx nbits 0

/-- `T <- TakeIn(); L <- L + 1`. -/
def takeToT : Op Unit := do
  let b ← takeIn
  modS fun s => setL (s.coder.l + 1) (setT b s)

/-- The marker search of `MQD.SKIPEND` (R236) with `g` garbage bits so far.  The first argument is the
number of input bytes left plus one: every turn but the last takes a byte
(notes/assumptions/13.md). -/
def skipScan : Nat → Nat → Op Nat
  | 0, _ => raise (.decodeFailure .truncated)
  | fuel + 1, g => do
    let n ← peekIn
    match n with
    | none => raise (.decodeFailure .truncated)
    | some n => do
      let s ← getS
      if s.coder.t = 0xFF ∧ n = 0xA1 then do
        let _ ← takeIn
        modS fun s => setL (s.coder.l + 1) s
        pure g
      else if s.params.codeValueBits - 2 < g + 8 then raise (.decodeFailure .garbage)
      else do
        takeToT
        skipScan fuel (g + 8)

/-- `MQD.SKIPEND` (R236). -/
def mqdSkipEnd : Op Nat := do
  requireMode .decoding
  let s ← getS
  let g ← skipScan (s.inp.length - s.rp + 1) 0
  modS (setMqMode .idle)
  pure g

/-- `MQD.INIT` as a command. -/
def execMqdInit (s : State) : Host.Outcome State Fault Refusal :=
  command (do mqdInit; pure 0) s

/-- `MQD.DECODE` as a command. -/
def execMqdDecode (ctx : Nat) (s : State) : Host.Outcome State Fault Refusal :=
  command (do let b ← mqdDecode ctx; pure (boolWord b)) s

/-- `MQD.DECODENUM` as a command. -/
def execMqdDecodeNum (nbits ctx : Nat) (s : State) : Host.Outcome State Fault Refusal :=
  command (do let v ← mqdDecodeNum nbits ctx; pure (BitVec.ofNat 32 v)) s

/-- `MQD.SKIPEND` as a command. -/
def execMqdSkipEnd (s : State) : Host.Outcome State Fault Refusal :=
  command (do let g ← mqdSkipEnd; pure (BitVec.ofNat 32 g)) s

end Sys2Proof.Machine
end

