-- ==== Sys2Proof/Machine/Cfg.lean ====
section
/-! DEFINITION. Configuration and register access: 46_config_ops.md. -/

namespace Sys2Proof.Machine

/-- Width of a configuration register (10_state.md R21; 46_config_ops.md R300). -/
def cfgWidth (reg : Nat) : Nat :=
  match reg with
  | 0 => 11
  | 1 => 11
  | 2 => 5
  | 3 => 2
  | 4 => 20
  | 5 => 20
  | 6 => 20
  | _ => 0

/-- Write configuration register `reg`; of no register, nothing (10_state.md R21). -/
def setCfgReg (reg val : Nat) (g : CfgRegs) : CfgRegs :=
  match reg with
  | 0 => { g with h := BitVec.ofNat 11 val }
  | 1 => { g with w := BitVec.ofNat 11 val }
  | 2 => { g with d := BitVec.ofNat 5 val }
  | 3 => { g with sb := subBandOf val }
  | 4 => { g with rowOff := BitVec.ofNat 20 val }
  | 5 => { g with colOff := BitVec.ofNat 20 val }
  | 6 => { g with stride := BitVec.ofNat 20 val }
  | _ => g

/-- Configuration register `reg` as a number; of no register, 0 (10_state.md R21). -/
def cfgRegNat (reg : Nat) (g : CfgRegs) : Nat :=
  match reg with
  | 0 => g.h.toNat
  | 1 => g.w.toNat
  | 2 => g.d.toNat
  | 3 => subBandId g.sb
  | 4 => g.rowOff.toNat
  | 5 => g.colOff.toNat
  | 6 => g.stride.toNat
  | _ => 0

/-- Coder register number 8 to 12 as a 32-bit value (46_config_ops.md R301): L in two's
complement. -/
def coderRegWord (reg : Nat) (k : Coder) : Word :=
  match reg with
  | 8 => k.a.setWidth 32
  | 9 => k.c.setWidth 32
  | 10 => k.t.setWidth 32
  | 11 => k.ct.setWidth 32
  | _ => BitVec.ofInt 32 k.l

/-- `IDX | MPS << 6` (46_config_ops.md R301). -/
def ptRegWord (e : PtEntry) : Word := BitVec.ofNat 32 (e.idx.val + boolNat e.mps * 2 ^ 6)

/-- `CFG.SET reg, val` (R300). -/
def cfgSet (reg val : Nat) : Op Unit := do
  requireIdle
  require (decide (reg ≤ 6)) .badOperand
  require (decide (val < 2 ^ cfgWidth reg)) .badOperand
  modS fun s => setSigValid false (setPlaneLive false { s with cfg := setCfgReg reg val s.cfg })

/-- `CFG.GET reg` (R301). -/
def cfgGet (reg : Nat) : Op Word := do
  let s ← getS
  if reg ≤ 6 then pure (BitVec.ofNat 32 (cfgRegNat reg s.cfg))
  else if reg = 7 then pure (BitVec.ofNat 32 (statusNat s.status))
  else if reg ≤ 12 then do
    require (decide (s.status.mqMode ≠ .idle)) .notStarted
    pure (coderRegWord reg s.coder)
  else if reg = 13 then do
    require s.status.planeLive .notInitialised
    pure (s.curPlane.setWidth 32)
  else if reg = 14 then pure (BitVec.ofNat 32 s.rp)
  else if reg = 15 then pure (BitVec.ofNat 32 (outLen s))
  else if reg ≤ 34 then do
    require s.status.ptValid .notInitialised
    pure (ptRegWord (ptAt s (reg - 16)))
  else raise (.protocolFault .badOperand)

/-- `CFG.SET` as a command. -/
def execCfgSet (reg val : Nat) (s : State) : Host.Outcome State Fault Refusal :=
  command (do cfgSet reg val; pure 0) s

/-- `CFG.GET` as a command: the one command honoured while `FAULT` is 1 (60_exceptions.md R315). -/
def execCfgGet (reg : Nat) (s : State) : Host.Outcome State Fault Refusal :=
  commandAlways (cfgGet reg) s

end Sys2Proof.Machine
end

