-- ==== Sys2Proof/Machine/Bp.lean ====
section
/-! DEFINITION. The block and plane data view and the strip organiser: 42_block_plane_view.md. -/

namespace Sys2Proof.Machine

/-- `w` with bit `i` replaced by `b` (42_block_plane_view.md R173, R175). -/
def replaceBit (w : Word) (i : Nat) (b : Bool) : Word :=
  (w &&& ~~~(1#32 <<< i)) ||| ((if b then 1#32 else 0#32) <<< i)

/-- `CODED[r][c]` (10_state.md R34). -/
def codedAt (s : State) (r c : Nat) : Bool := cellsGet false s.coded (cellIndex r c)

/-- `CODED[r][c] <- 1`. -/
def markCoded (r c : Nat) (s : State) : State :=
  { s with coded := cellsSet false s.coded (cellIndex r c) true }

/-- `BP.NEWPLANE i` (R171). -/
def bpNewPlane (i : Nat) : Op Unit := do
  requireGeom
  requirePlane i
  modS fun s => setPlaneLive true { s with curPlane := BitVec.ofNat 5 i, coded := [] }

/-- `BP.BITAT i, r, c` (R172). -/
def bpBitAt (i r c : Nat) : Op Bool := do
  requireBit i r c
  let w ← memRead r c
  pure (w.getLsbD i)

/-- `BP.SETBIT i, r, c, b` (R173). -/
def bpSetBit (i r c : Nat) (b : Bool) : Op Unit := do
  requireBit i r c
  let w ← memRead r c
  memWrite r c (replaceBit w i b)

/-- `BP.SIGNAT r, c` (R174). -/
def bpSignAt (r c : Nat) : Op Bool := do
  requireSign r c
  let s ← getS
  let w ← memRead r c
  pure (w.getLsbD s.D)

/-- `BP.SETSIGN r, c, b` (R175). -/
def bpSetSign (r c : Nat) (b : Bool) : Op Unit := do
  requireSign r c
  let s ← getS
  let w ← memRead r c
  memWrite r c (replaceBit w s.D b)

/-- `BP.ISCODED i, r, c` (R176). -/
def bpIsCoded (i r c : Nat) : Op Bool := do
  requireLive i r c
  let s ← getS
  pure (codedAt s r c)

/-- `BP.MARKCODED i, r, c` (R177). -/
def bpMarkCoded (i r c : Nat) : Op Unit := do
  requireLive i r c
  modS fun s => markCoded r c s

/-- `BP.NFULL` (R178). -/
def bpNFull : Op Nat := do
  requireGeom
  let s ← getS
  pure (s.H / 4)

/-- `BP.LASTH` (R179). -/
def bpLastH : Op Nat := do
  requireGeom
  let s ← getS
  pure (s.H % 4)

/-- `BP.LASTOFF` (R180). -/
def bpLastOff : Op Nat := do
  requireGeom
  let s ← getS
  pure (s.H / 4 * 4)

/-- `BP.STRIPUNC i, r, c` (R181). -/
def bpStripUnc (i r c : Nat) : Op Bool := do
  requireLive i r c
  requireStrip r
  let s ← getS
  pure ((List.range 4).all fun j => !codedAt s (r + j) c)

/-- The search of `BP.STRIPFNZ` from row offset `j` on, `n` rows still to look at (R182). -/
def firstSetRow (i r c : Nat) : Nat → Nat → Op (Option Nat)
  | _, 0 => pure none
  | j, n + 1 => do
    let w ← memRead (r + j) c
    if w.getLsbD i then pure (some j) else firstSetRow i r c (j + 1) n

/-- `BP.STRIPFNZ i, r, c` (R182). -/
def bpStripFnz (i r c : Nat) : Op (Option Nat) := do
  requireBit i r c
  requireStrip r
  firstSetRow i r c 0 4

/-- Payload of `BP.STRIPFNZ` (30_encoding.md R100): bit 2 `some`, bits 1:0 the index. -/
def fnzPayload : Option Nat → Word
  | none => 0
  | some j => BitVec.ofNat 32 (4 + j)

/-- `BP.NEWPLANE` as a command. -/
def execBpNewPlane (i : Nat) (s : State) : Host.Outcome State Fault Refusal :=
  command (do bpNewPlane i; pure 0) s

/-- `BP.BITAT` as a command. -/
def execBpBitAt (i r c : Nat) (s : State) : Host.Outcome State Fault Refusal :=
  command (do let b ← bpBitAt i r c; pure (boolWord b)) s

/-- `BP.SETBIT` as a command. -/
def execBpSetBit (i r c : Nat) (b : Bool) (s : State) : Host.Outcome State Fault Refusal :=
  command (do bpSetBit i r c b; pure 0) s

/-- `BP.SIGNAT` as a command. -/
def execBpSignAt (r c : Nat) (s : State) : Host.Outcome State Fault Refusal :=
  command (do let b ← bpSignAt r c; pure (boolWord b)) s

/-- `BP.SETSIGN` as a command. -/
def execBpSetSign (r c : Nat) (b : Bool) (s : State) : Host.Outcome State Fault Refusal :=
  command (do bpSetSign r c b; pure 0) s

/-- `BP.ISCODED` as a command. -/
def execBpIsCoded (i r c : Nat) (s : State) : Host.Outcome State Fault Refusal :=
  command (do let b ← bpIsCoded i r c; pure (boolWord b)) s

/-- `BP.MARKCODED` as a command. -/
def execBpMarkCoded (i r c : Nat) (s : State) : Host.Outcome State Fault Refusal :=
  command (do bpMarkCoded i r c; pure 0) s

/-- `BP.NFULL` as a command. -/
def execBpNFull (s : State) : Host.Outcome State Fault Refusal :=
  command (do let n ← bpNFull; pure (BitVec.ofNat 32 n)) s

/-- `BP.LASTH` as a command. -/
def execBpLastH (s : State) : Host.Outcome State Fault Refusal :=
  command (do let n ← bpLastH; pure (BitVec.ofNat 32 n)) s

/-- `BP.LASTOFF` as a command. -/
def execBpLastOff (s : State) : Host.Outcome State Fault Refusal :=
  command (do let n ← bpLastOff; pure (BitVec.ofNat 32 n)) s

/-- `BP.STRIPUNC` as a command. -/
def execBpStripUnc (i r c : Nat) (s : State) : Host.Outcome State Fault Refusal :=
  command (do let b ← bpStripUnc i r c; pure (boolWord b)) s

/-- `BP.STRIPFNZ` as a command. -/
def execBpStripFnz (i r c : Nat) (s : State) : Host.Outcome State Fault Refusal :=
  command (do let f ← bpStripFnz i r c; pure (fnzPayload f)) s

end Sys2Proof.Machine
end

