-- ==== Sys2Proof/Machine/Sig.lean ====
section
/-! DEFINITION. The significance table and context model: 41_significance_table.md. -/

namespace Sys2Proof.Machine

/-! ### Neighbours (10_state.md R33) -/

/-- The horizontal neighbours of (r, c) in a block `w` columns wide. -/
def hNbrs (w r c : Nat) : List (Nat × Nat) :=
  (if 1 ≤ c then [(r, c - 1)] else []) ++ (if c + 1 < w then [(r, c + 1)] else [])

/-- The vertical neighbours of (r, c) in a block `h` rows high. -/
def vNbrs (h r c : Nat) : List (Nat × Nat) :=
  (if 1 ≤ r then [(r - 1, c)] else []) ++ (if r + 1 < h then [(r + 1, c)] else [])

/-- The diagonal neighbours of (r, c): the horizontal neighbours of its vertical ones. -/
def dNbrs (h w r c : Nat) : List (Nat × Nat) :=
  (vNbrs h r c).flatMap fun p => hNbrs w p.1 p.2

/-! ### Reading and writing the table -/

/-- `SIGST[r][c]`. -/
def sigstAt (t : SigTable) (r c : Nat) : SigState :=
  cellsGet .insignificant t.sigst (cellIndex r c)

/-- `FIRST[r][c]`. -/
def firstAt (t : SigTable) (r c : Nat) : Bool := cellsGet true t.first (cellIndex r c)

/-- `SUMH[r][c]`. -/
def sumHAt (t : SigTable) (r c : Nat) : Nat := cellsGet 0 t.sumH (cellIndex r c)

/-- `SUMV[r][c]`. -/
def sumVAt (t : SigTable) (r c : Nat) : Nat := cellsGet 0 t.sumV (cellIndex r c)

/-- `SUMD[r][c]`. -/
def sumDAt (t : SigTable) (r c : Nat) : Nat := cellsGet 0 t.sumD (cellIndex r c)

/-- Whether a coefficient is significant: bit 0 of its state (10_state.md R31). -/
def isSignificant (t : SigTable) (r c : Nat) : Bool := decide (sigstAt t r c ≠ .insignificant)

/-- Add 1 to the counters of the listed positions, in order. -/
def bumpAll : List (Nat × Nat) → Cells Nat → Cells Nat
  | [], m => m
  | p :: ps, m =>
    let k := cellIndex p.1 p.2
    bumpAll ps (cellsSet 0 m k (cellsGet 0 m k + 1))

/-- The significance state of a sign bit (41_significance_table.md R150). -/
def sigOf (neg : Bool) : SigState := if neg then .negative else .positive

/-- (r, c) becomes significant: its state, and the counters of its neighbours, one each
(41_significance_table.md R150). -/
def markSignificant (h w r c : Nat) (neg : Bool) (t : SigTable) : SigTable :=
  { t with
    sigst := cellsSet .insignificant t.sigst (cellIndex r c) (sigOf neg)
    sumH := bumpAll (hNbrs w r c) t.sumH
    sumV := bumpAll (vNbrs h r c) t.sumV
    sumD := bumpAll (dNbrs h w r c) t.sumD }

/-- `FIRST[r][c] <- 0`. -/
def consumeFirst (r c : Nat) (t : SigTable) : SigTable :=
  { t with first := cellsSet true t.first (cellIndex r c) false }

/-! ### Labels -/

/-- `ClassLL(h, v, d)` (R145). -/
def classLL (h v d : Nat) : Nat :=
  if 2 ≤ h then 8
  else if h = 1 then (if 1 ≤ v then 7 else if 1 ≤ d then 6 else 5)
  else if 2 ≤ v then 4
  else if v = 1 then 3
  else if 2 ≤ d then 2
  else if d = 1 then 1
  else 0

/-- `ClassHH(d, hv)` (R146). -/
def classHH (d hv : Nat) : Nat :=
  if 3 ≤ d then 8
  else if d = 2 then (if 1 ≤ hv then 7 else 6)
  else if d = 1 then (if 2 ≤ hv then 5 else if hv = 1 then 4 else 3)
  else if 2 ≤ hv then 2
  else if hv = 1 then 1
  else 0

/-- The significance-propagation label of three sums in a sub-band (R144): HL exchanges the
horizontal and the vertical sum. -/
def spLabel (h v d : Nat) : SubBand → Nat
  | .ll => classLL h v d
  | .lh => classLL h v d
  | .hl => classLL v h d
  | .hh => classHH d (h + v)

/-- The label `SIG.SPCTX` gives a position as the table stands (R144). -/
def labelAt (s : State) (r c : Nat) (sb : SubBand) : Nat :=
  spLabel (sumHAt s.sig r c) (sumVAt s.sig r c) (sumDAt s.sig r c) sb

/-- `chi` of a position inside the block (R147). -/
def chi : SigState → Int
  | .insignificant => 0
  | .positive => 1
  | .negative => -1

/-- The signed sum of contributions over positions, clamped to -1..+1 (R147). -/
def contribution (t : SigTable) (ps : List (Nat × Nat)) : Int :=
  min 1 (max (-1) ((ps.map fun p => chi (sigstAt t p.1 p.2)).sum))

/-- `SignClass(hc, vc)` (R148) for hc, vc in -1..+1. -/
def signClass (hc vc : Int) : Nat × Bool :=
  if hc = 1 then (if vc = 1 then (13, false) else if vc = 0 then (12, false) else (11, false))
  else if hc = 0 then (if vc = 1 then (10, false) else if vc = 0 then (9, false) else (10, true))
  else (if vc = 1 then (11, true) else if vc = 0 then (12, true) else (13, true))

/-! ### Operations -/

/-- `SIG.RESET` (R141). -/
def sigReset : Op Unit := do
  requireGeom
  modS fun s => setSigValid true { s with sig := SigTable.empty }

/-- `SIG.ISSIG r, c` (R142). -/
def sigIsSig (r c : Nat) : Op Bool := do
  requireSig r c
  let s ← getS
  pure (isSignificant s.sig r c)

/-- `SIG.SPCTX r, c, sb` (R144). -/
def sigSpCtx (r c : Nat) (sb : SubBand) : Op Nat := do
  requireSig r c
  let s ← getS
  pure (labelAt s r c sb)

/-- `SIG.SIGNCTX r, c` (R147). -/
def sigSignCtx (r c : Nat) : Op (Nat × Bool) := do
  requireSig r c
  let s ← getS
  pure (signClass (contribution s.sig (hNbrs s.W r c)) (contribution s.sig (vNbrs s.H r c)))

/-- `SIG.REFCTX r, c` (R149). -/
def sigRefCtx (r c : Nat) : Op Nat := do
  requireSig r c
  let s ← getS
  if firstAt s.sig r c then do
    modS fun s => { s with sig := consumeFirst r c s.sig }
    pure (if sumHAt s.sig r c + sumVAt s.sig r c + sumDAt s.sig r c = 0 then 14 else 15)
  else pure 16

/-- `SIG.SETSIG r, c, neg` (R150). -/
def sigSetSig (r c : Nat) (neg : Bool) : Op Unit := do
  requireSig r c
  let s ← getS
  require (!isSignificant s.sig r c) .alreadySignificant
  modS fun s => { s with sig := markSignificant s.H s.W r c neg s.sig }

/-- `SIG.STRIPZ sb, r, c` (R151). -/
def sigStripZ (sb : SubBand) (r c : Nat) : Op Bool := do
  requireSig r c
  requireStrip r
  let s ← getS
  pure ((List.range 4).all fun j => labelAt s (r + j) c sb == lblZero)

/-- A label as a payload, bits 4:0 (30_encoding.md R100). -/
def labelPayload (label : Nat) : Word := BitVec.ofNat 32 label

/-- Payload of `SIG.SIGNCTX` (30_encoding.md R100): bits 4:0 the label, bit 5 the xor bit. -/
def signPayload (label : Nat) (x : Bool) : Word := BitVec.ofNat 32 (label + boolNat x * 2 ^ 5)

/-- `SIG.RESET` as a command. -/
def execSigReset (s : State) : Host.Outcome State Fault Refusal :=
  command (do sigReset; pure 0) s

/-- `SIG.ISSIG` as a command. -/
def execSigIsSig (r c : Nat) (s : State) : Host.Outcome State Fault Refusal :=
  command (do let b ← sigIsSig r c; pure (boolWord b)) s

/-- `SIG.SPCTX` as a command. -/
def execSigSpCtx (r c : Nat) (sb : SubBand) (s : State) : Host.Outcome State Fault Refusal :=
  command (do let label ← sigSpCtx r c sb; pure (labelPayload label)) s

/-- `SIG.SIGNCTX` as a command. -/
def execSigSignCtx (r c : Nat) (s : State) : Host.Outcome State Fault Refusal :=
  command (do let (label, x) ← sigSignCtx r c; pure (signPayload label x)) s

/-- `SIG.REFCTX` as a command. -/
def execSigRefCtx (r c : Nat) (s : State) : Host.Outcome State Fault Refusal :=
  command (do let label ← sigRefCtx r c; pure (labelPayload label)) s

/-- `SIG.SETSIG` as a command. -/
def execSigSetSig (r c : Nat) (neg : Bool) (s : State) : Host.Outcome State Fault Refusal :=
  command (do sigSetSig r c neg; pure 0) s

/-- `SIG.STRIPZ` as a command. -/
def execSigStripZ (sb : SubBand) (r c : Nat) (s : State) : Host.Outcome State Fault Refusal :=
  command (do let b ← sigStripZ sb r c; pure (boolWord b)) s

end Sys2Proof.Machine
end

