-- ==== Sys2Proof/Machine/Eb.lean ====
section
/-! DEFINITION. The EBCOT pass sequencer: 45_pass_sequencer.md.  Every step is the unit operation the
rule names, with that operation's own checks (notes/assumptions/17.md). -/

namespace Sys2Proof.Machine

/-- `Strips` (R262): first row, height, whether full; the partial strip last. -/
def strips (h : Nat) : List (Nat × Nat × Bool) :=
  (List.range (h / 4)).map (fun k => (4 * k, 4, true))
    ++ (if 0 < h % 4 then [(h / 4 * 4, h % 4, false)] else [])

/-- The scan order of the significance and refinement passes (R262): strips top to bottom, columns
left to right, rows top to bottom. -/
def scanOrder (h w : Nat) : List (Nat × Nat) :=
  (strips h).flatMap fun st =>
    (List.range w).flatMap fun c => (List.range st.2.1).map fun j => (st.1 + j, c)

/-- The magnitude step `Mag` (R268). -/
def magStep (dir : Dir) (i r c ctx : Nat) : Op Bool :=
  match dir with
  | .encode => do
    let b ← bpBitAt i r c
    mqeCode b ctx
    pure b
  | .decode => do
    let b ← mqdDecode ctx
    bpSetBit i r c b
    pure b

/-- The sign step `Sign` (R266). -/
def signStep (dir : Dir) (r c : Nat) : Op Unit := do
  let (sctx, x) ← sigSignCtx r c
  match dir with
  | .encode => do
    let sgn ← bpSignAt r c
    mqeCode (sgn ^^ x) sctx
    sigSetSig r c sgn
  | .decode => do
    let y ← mqdDecode sctx
    let sgn := y ^^ x
    bpSetSign r c sgn
    sigSetSig r c sgn

/-- The magnitude decision, the sign decision if the bit is 1, and the coded mark: the common tail
of the significance and the cleanup pass (R263, R265). -/
def codeCoefficient (dir : Dir) (i r c ctx : Nat) : Op Unit := do
  let b ← magStep dir i r c ctx
  doIf b (signStep dir r c)
  bpMarkCoded i r c

/-- A position of the significance pass (R263). -/
def sigVisit (dir : Dir) (i : Nat) (sb : SubBand) (p : Nat × Nat) : Op Unit := do
  let sg ← sigIsSig p.1 p.2
  doIf (sg = false) do
    let cd ← bpIsCoded i p.1 p.2
    doIf (cd = false) do
      let ctx ← sigSpCtx p.1 p.2 sb
      doIf (ctx ≠ lblZero) (codeCoefficient dir i p.1 p.2 ctx)

/-- `SigPass(dir, i)` (R263). -/
def sigPass (dir : Dir) (i : Nat) : Op Unit := do
  requirePass dir i
  let s ← getS
  forEach (scanOrder s.H s.W) (sigVisit dir i s.cfg.sb)

/-- A position of the refinement pass (R264). -/
def refVisit (dir : Dir) (i : Nat) (p : Nat × Nat) : Op Unit := do
  let sg ← sigIsSig p.1 p.2
  doIf sg do
    let cd ← bpIsCoded i p.1 p.2
    doIf (cd = false) do
      let ctx ← sigRefCtx p.1 p.2
      let _ ← magStep dir i p.1 p.2 ctx
      bpMarkCoded i p.1 p.2

/-- `RefPass(dir, i)` (R264). -/
def refPass (dir : Dir) (i : Nat) : Op Unit := do
  requirePass dir i
  let s ← getS
  forEach (scanOrder s.H s.W) (refVisit dir i)

/-- A position of the ordinary branch of the cleanup pass (R265). -/
def cleanVisit (dir : Dir) (i : Nat) (sb : SubBand) (r c : Nat) : Op Unit := do
  let cd ← bpIsCoded i r c
  doIf (cd = false) do
    let ctx ← sigSpCtx r c sb
    codeCoefficient dir i r c ctx

/-- The run-length decision and, where it is 1, the pointer (R265): the row offset of the first 1 of
the strip column, or `none`. -/
def runLength (dir : Dir) (i r0 c : Nat) : Op (Option Nat) :=
  match dir with
  | .encode => do
    let f ← bpStripFnz i r0 c
    mqeCode f.isSome lblRunLength
    match f with
    | none => pure none
    | some k => do
      mqeCodeNum k 2 lblUniform
      pure (some k)
  | .decode => do
    let b ← mqdDecode lblRunLength
    if b then do
      let k ← mqdDecodeNum 2 lblUniform
      bpSetBit i (r0 + k) c true
      pure (some k)
    else pure none

/-- Whether a strip column is coded in run-length mode (R265). -/
def runMode (i : Nat) (sb : SubBand) (r0 c : Nat) (full : Bool) : Op Bool :=
  if full then do
    let unc ← bpStripUnc i r0 c
    if unc then sigStripZ sb r0 c else pure false
  else pure false

/-- A strip column of the cleanup pass (R265). -/
def cleanColumn (dir : Dir) (i : Nat) (sb : SubBand) (r0 h : Nat) (full : Bool) (c : Nat) :
    Op Unit := do
  let rl ← runMode i sb r0 c full
  if rl then do
    let f ← runLength dir i r0 c
    match f with
    | none => forEach (List.range 4) fun j => bpMarkCoded i (r0 + j) c
    | some k => do
      signStep dir (r0 + k) c
      forEach (List.range (k + 1)) fun j => bpMarkCoded i (r0 + j) c
      forEach ((List.range h).drop (k + 1)) fun j => cleanVisit dir i sb (r0 + j) c
  else forEach (List.range h) fun j => cleanVisit dir i sb (r0 + j) c

/-- `Cleanup(dir, i)` (R265). -/
def cleanup (dir : Dir) (i : Nat) : Op Unit := do
  requirePass dir i
  let s ← getS
  forEach (strips s.H) fun st =>
    forEach (List.range s.W) fun c => cleanColumn dir i s.cfg.sb st.1 st.2.1 st.2.2 c

/-- The passes of one plane (R261); `top` is D - 1. -/
def planePasses (dir : Dir) (top i : Nat) : Op Unit := do
  bpNewPlane i
  doIf (i ≠ top) do
    sigPass dir i
    refPass dir i
  cleanup dir i

/-- `PlaneLoop(dir)` (R261), the planes below `n`, the highest first. -/
def planeLoop (dir : Dir) (top : Nat) : Nat → Op Unit
  | 0 => pure ()
  | i + 1 => do
    planePasses dir top i
    planeLoop dir top i

/-- `EB.ENCODE` (R260). -/
def ebEncode : Op Unit := do
  requireGeom
  requireIdle
  ptReset
  sigReset
  mqeInit
  let s ← getS
  planeLoop .encode (s.D - 1) s.D
  mqeFlush
  mqeMarkEnd

/-- `EB.DECODE` (R267). -/
def ebDecode : Op Nat := do
  requireGeom
  requireIdle
  ptReset
  sigReset
  mqdInit
  let s ← getS
  planeLoop .decode (s.D - 1) s.D
  mqdSkipEnd

/-- `EB.ENCODE` as a command. -/
def execEbEncode (s : State) : Host.Outcome State Fault Refusal :=
  command (do ebEncode; pure 0) s

/-- `EB.DECODE` as a command. -/
def execEbDecode (s : State) : Host.Outcome State Fault Refusal :=
  command (do let g ← ebDecode; pure (BitVec.ofNat 32 g)) s

/-- `EB.SIGPASS` as a command. -/
def execEbSigPass (dir : Dir) (i : Nat) (s : State) : Host.Outcome State Fault Refusal :=
  command (do sigPass dir i; pure 0) s

/-- `EB.REFPASS` as a command. -/
def execEbRefPass (dir : Dir) (i : Nat) (s : State) : Host.Outcome State Fault Refusal :=
  command (do refPass dir i; pure 0) s

/-- `EB.CLEANUP` as a command. -/
def execEbCleanup (dir : Dir) (i : Nat) (s : State) : Host.Outcome State Fault Refusal :=
  command (do cleanup dir i; pure 0) s

end Sys2Proof.Machine
end

