-- ==== Sys2Proof/Machine/Dispatch.lean ====
section
/-! DEFINITION. One arm per command (30_encoding.md R97). -/

namespace Sys2Proof.Machine

/-- The meaning of a command. -/
def exec (i : Instr) (s : State) : Host.Outcome State Fault Refusal :=
  match i with
  | .ptReset => Sys2Proof.Machine.execPtReset s
  | .ptEst ctx => Sys2Proof.Machine.execPtEst ctx s
  | .ptTrans ctx m sw => Sys2Proof.Machine.execPtTrans ctx m sw s
  | .sigReset => Sys2Proof.Machine.execSigReset s
  | .sigIsSig r c => Sys2Proof.Machine.execSigIsSig r c s
  | .sigSpCtx r c sb => Sys2Proof.Machine.execSigSpCtx r c sb s
  | .sigSignCtx r c => Sys2Proof.Machine.execSigSignCtx r c s
  | .sigRefCtx r c => Sys2Proof.Machine.execSigRefCtx r c s
  | .sigSetSig r c neg => Sys2Proof.Machine.execSigSetSig r c neg s
  | .sigStripZ sb r c => Sys2Proof.Machine.execSigStripZ sb r c s
  | .bpNewPlane p => Sys2Proof.Machine.execBpNewPlane p s
  | .bpBitAt p r c => Sys2Proof.Machine.execBpBitAt p r c s
  | .bpSetBit p r c b => Sys2Proof.Machine.execBpSetBit p r c b s
  | .bpSignAt r c => Sys2Proof.Machine.execBpSignAt r c s
  | .bpSetSign r c b => Sys2Proof.Machine.execBpSetSign r c b s
  | .bpIsCoded p r c => Sys2Proof.Machine.execBpIsCoded p r c s
  | .bpMarkCoded p r c => Sys2Proof.Machine.execBpMarkCoded p r c s
  | .bpNFull => Sys2Proof.Machine.execBpNFull s
  | .bpLastH => Sys2Proof.Machine.execBpLastH s
  | .bpLastOff => Sys2Proof.Machine.execBpLastOff s
  | .bpStripUnc p r c => Sys2Proof.Machine.execBpStripUnc p r c s
  | .bpStripFnz p r c => Sys2Proof.Machine.execBpStripFnz p r c s
  | .mqeInit => Sys2Proof.Machine.execMqeInit s
  | .mqeCode b ctx => Sys2Proof.Machine.execMqeCode b ctx s
  | .mqeCodeNum value nbits ctx => Sys2Proof.Machine.execMqeCodeNum value nbits ctx s
  | .mqeFlush => Sys2Proof.Machine.execMqeFlush s
  | .mqeMarkEnd => Sys2Proof.Machine.execMqeMarkEnd s
  | .mqdInit => Sys2Proof.Machine.execMqdInit s
  | .mqdDecode ctx => Sys2Proof.Machine.execMqdDecode ctx s
  | .mqdDecodeNum nbits ctx => Sys2Proof.Machine.execMqdDecodeNum nbits ctx s
  | .mqdSkipEnd => Sys2Proof.Machine.execMqdSkipEnd s
  | .ebEncode => Sys2Proof.Machine.execEbEncode s
  | .ebDecode => Sys2Proof.Machine.execEbDecode s
  | .ebSigPass dir p => Sys2Proof.Machine.execEbSigPass dir p s
  | .ebRefPass dir p => Sys2Proof.Machine.execEbRefPass dir p s
  | .ebCleanup dir p => Sys2Proof.Machine.execEbCleanup dir p s
  | .cfgSet reg val => Sys2Proof.Machine.execCfgSet reg val s
  | .cfgGet reg => Sys2Proof.Machine.execCfgGet reg s

end Sys2Proof.Machine
end

