-- ==== Sys2Proof/Machine/Step.lean ====
section
/-! DEFINITION. One step of the machine: the host's next event, run to completion (00_scope.md R12,
R13).  There is no fetch and no program counter (10_state.md R28): commands come from the host. -/

namespace Sys2Proof.Machine

/-- Run a command word: the command it decodes to, or `ILLEGAL_CMD` (30_encoding.md R98). -/
def runWord (w : Word) (s : State) : Host.Outcome State Fault Refusal :=
  match decode w with
  | .command i => exec i s
  | .illegal _ => .next (illegalWord w s)

/-- One step.  With nothing for the block to do it waits: the state stays (70_reset_and_hazards.md
R340, "the block waits for commands"). -/
def step (s : State) : Host.Outcome State Fault Refusal :=
  match s.hostq with
  | [] => .next s
  | .command w :: rest => runWord w (popHost rest s)
  | .hardReset :: rest => .next (hostAct .hardReset (popHost rest s))
  | .writeMem addr v :: rest => .next (hostAct (.writeMem addr v) (popHost rest s))
  | .setIn bytes rp foreign :: rest =>
    .next (hostAct (.setIn bytes rp foreign) (popHost rest s))
  | .drainOut n :: rest => .next (hostAct (.drainOut n) (popHost rest s))
  | .setOut bytes :: rest => .next (hostAct (.setOut bytes) (popHost rest s))

/-- The state in which the host's next event is the command word `w`, so that the next step runs
exactly it (notes/assumptions/7.md).  Every command is one 32-bit word, so `nbits` changes
nothing. -/
def State.withFetchWord (s : State) (_nbits w : Nat) : State := pushCommand (BitVec.ofNat 32 w) s

end Sys2Proof.Machine
end

