-- ==== Sys2Proof/Safety.lean ====
section
/-! DEFINITION. The terms the claims are stated in: how a command ends, the coder's registers, the
invariants of the block, and the spec's own tables and passes as data to hold the model against. -/

namespace Sys2Proof.Safety

open Sys2Proof.Machine

/-! ### How a command ends -/

/-- The command ended `ok` with this payload and left the state `t` (30_encoding.md R100). -/
def okNext (payload : Word) (t : State) : Host.Outcome State Fault Refusal :=
  .next { t with resp := some ⟨.ok, payload⟩ }

/-- A ProtocolFault raised in a state whose `FAULT` is 0: `FAULT` and its code are set, the response
carries the code, and nothing else changes (60_exceptions.md R315). -/
def faultNext (code : FaultCode) (s : State) : Host.Outcome State Fault Refusal :=
  .next { s with
    status := { s.status with fault := true, faultCode := some code }
    resp := some ⟨.protocolFault, BitVec.ofNat 32 (faultCodeNat code)⟩ }

/-- The response of a command is `ok`, whatever its payload. -/
def endsOk (t : State) : Prop := ∃ payload, t.resp = some ⟨.ok, payload⟩

/-- No port call from now on fails (60_exceptions.md R313: an oracle on each port call, or never). -/
def quietPorts (s : State) : Prop := ∀ n ∈ s.portFails, n < s.portCalls

/-- Commands one after another, each on the state the one before it left. -/
def runAll : List Instr → State → State
  | [], s => s
  | i :: is, s =>
    match exec i s with
    | .next t => runAll is t
    | .fault _ => s
    | .refused _ => s

/-! ### What operations need -/

/-- What a `SIG.*` operation on a position needs to run (41_significance_table.md R143). -/
structure SigReady (s : State) (r c : Nat) : Prop where
  noFault : s.status.fault = false
  geom : geomOK s = true
  valid : s.status.sigValid = true
  row : r < s.H
  col : c < s.W

/-- What a `BP.*` operation on a position needs to run (42_block_plane_view.md R183). -/
structure BpReady (s : State) (r c : Nat) : Prop where
  noFault : s.status.fault = false
  geom : geomOK s = true
  row : r < s.H
  col : c < s.W

/-- What a `BP.*` operation on a position of the live plane needs to run
(42_block_plane_view.md R183). -/
structure LiveReady (s : State) (i r c : Nat) : Prop extends BpReady s r c where
  live : s.status.planeLive = true
  plane : i < s.D
  current : i = s.curPlane.toNat

/-- A marker stands ahead of the decoder, k bytes from it: 0xFF, the byte taken last (k = 0) or one
still to be taken, and after it a byte above 0x8F.  No byte can then be missing: the decoder takes
none of what follows the 0xFF (20_memory.md R69; 44_mq_decoder.md R233). -/
def MarkerAhead (s : State) : Prop :=
  ∃ k, (if k = 0 then s.coder.t = 0xFF else s.inp[s.rp + k - 1]? = some 0xFF) ∧
    ∃ n, s.inp[s.rp + k]? = some n ∧ 0x8F < n

/-- What a pass checks before it begins (45_pass_sequencer.md R269). -/
structure PassChecked (dir : Dir) (i : Nat) (s : State) : Prop where
  noFault : s.status.fault = false
  geom : geomOK s = true
  mode : s.status.mqMode = (match dir with | .encode => .encoding | .decode => .decoding)
  ptValid : s.status.ptValid = true
  sigValid : s.status.sigValid = true
  live : s.status.planeLive = true
  plane : i < s.D
  current : i = s.curPlane.toNat

/-- What a pass needs to run to its end: its own checks, ports that do not fail, and, for a decoding
pass, a marker ahead, so that no byte is missing. -/
structure PassReady (dir : Dir) (i : Nat) (s : State) : Prop extends PassChecked dir i s where
  quiet : quietPorts s
  marker : dir = .decode → MarkerAhead s

/-! ### The coder's registers -/

/-- `TransferByte` on the encoder's registers, and the bytes it appends (43_mq_encoder.md R203, R204):
the pending byte, with the carry unless it is 0xFF, unless it is the session's first; the next one is
bits 27:20 of C after 0xFF, else bits 26:19. -/
def transferred (k : Coder) : Coder × List Byte :=
  let c := k.c.toNat
  let carry := if k.t = 0xFF then 0 else c / 2 ^ 27
  let low := if k.t = 0xFF then c else c % 2 ^ 27
  let byte := k.t + BitVec.ofNat 8 carry
  ({ a := k.a
     l := k.l + 1
     t := BitVec.ofNat 8 (if byte = 0xFF then low / 2 ^ 20 else low / 2 ^ 19)
     c := BitVec.ofNat 28 (if byte = 0xFF then low % 2 ^ 20 else low % 2 ^ 19)
     ct := if byte = 0xFF then 7 else 8 },
   if 0 ≤ k.l then [byte] else [])

/-- So many doublings of the encoder's registers, and the bytes they append: A and C shift left, CT
counts down, and at 0 a byte is transferred (43_mq_encoder.md R202). -/
def encoderDoubled : Nat → Coder → Coder × List Byte
  | 0, k => (k, [])
  | n + 1, k =>
    let once := { k with a := k.a <<< 1, c := k.c <<< 1, ct := k.ct - 1 }
    if once.ct = 0 then
      let moved := transferred once
      let rest := encoderDoubled n moved.1
      (rest.1, moved.2 ++ rest.2)
    else encoderDoubled n once

/-- C shifted left by CT, so that the bits still in it stand where a transfer takes them
(43_mq_encoder.md R206). -/
def completed (k : Coder) : Coder := { k with c := k.c <<< k.ct.toNat }

/-- The registers after `MQE.FLUSH`, and the bytes it appends (43_mq_encoder.md R206): one transfer if
CT is 12, two if the first one's 7 or 8 bits are the 12 - CT to be moved out, else three. -/
def flushed (k : Coder) : Coder × List Byte :=
  let first := transferred (completed k)
  let second := transferred (completed first.1)
  let third := transferred (completed second.1)
  if 12 ≤ k.ct.toNat then first
  else if 12 ≤ k.ct.toNat + first.1.ct.toNat then (second.1, first.2 ++ second.2)
  else (third.1, first.2 ++ second.2 ++ third.2)

/-- C becomes `v` in 24 bits; a set bit above them marks the session as diverged (notes/assumptions/10.md). -/
def withDecoderC (v : Nat) (s : State) : State :=
  { s with
    coder := { s.coder with c := BitVec.ofNat 28 (v % 2 ^ 24) }
    diverged := s.diverged || decide (2 ^ 24 ≤ v) }

/-- `FillLSBs` where a byte is there to look at (44_mq_decoder.md R233): 1 bits at a marker, else the
byte, one position higher after 0xFF. -/
def decoderFilled (n : Byte) (s : State) : State :=
  if s.coder.t = 0xFF ∧ 0x8F < n then
    withDecoderC (s.coder.c.toNat + 0xFF)
      { s with coder := { s.coder with ct := 8 }, portCalls := s.portCalls + 1 }
  else if s.coder.t = 0xFF then
    withDecoderC (s.coder.c.toNat + 2 * n.toNat)
      { s with
        coder := { s.coder with ct := 7, t := n, l := s.coder.l + 1 }
        rp := s.rp + 1, portCalls := s.portCalls + 2 }
  else
    withDecoderC (s.coder.c.toNat + n.toNat)
      { s with
        coder := { s.coder with ct := 8, t := n, l := s.coder.l + 1 }
        rp := s.rp + 1, portCalls := s.portCalls + 2 }

/-- So many turns of `RenormOnce` where no byte is missing (44_mq_decoder.md R234): a byte is looked at
when CT is 0, then A and C shift left and CT counts down. -/
def decoderDoubled : Nat → State → State
  | 0, s => s
  | n + 1, s =>
    let full := if s.coder.ct = 0 then
      (match s.inp[s.rp]? with | some b => decoderFilled b s | none => s) else s
    decoderDoubled n (withDecoderC (2 * full.coder.c.toNat)
      { full with coder := { full.coder with a := full.coder.a <<< 1, ct := full.coder.ct - 1 } })

/-! ### Invariants -/

/-- 1 if the position is inside the block and significant, else 0: positions as integers, so that
those outside on the upper left can be named (10_state.md R32, R33). -/
def sigCount (s : State) (r c : Int) : Nat :=
  if 0 ≤ r ∧ r < s.H ∧ 0 ≤ c ∧ c < s.W ∧ sigstAt s.sig r.toNat c.toNat ≠ .insignificant then 1
  else 0

/-- The cached sums are the counts of significant neighbours (10_state.md R32;
41_significance_table.md R152). -/
def SumsMatch (s : State) : Prop :=
  s.status.sigValid = true → ∀ r c : Nat, r < s.H → c < s.W →
    sumHAt s.sig r c = sigCount s r (c - 1) + sigCount s r (c + 1) ∧
    sumVAt s.sig r c = sigCount s (r - 1) c + sigCount s (r + 1) c ∧
    sumDAt s.sig r c = sigCount s (r - 1) (c - 1) + sigCount s (r - 1) (c + 1)
      + sigCount s (r + 1) (c - 1) + sigCount s (r + 1) (c + 1)

/-- Every sparse array is in its canonical form. -/
def Canonical (s : State) : Prop :=
  Memory.wf s.mem = true ∧ cellsWf SigState.insignificant s.sig.sigst = true ∧
  cellsWf true s.sig.first = true ∧ cellsWf 0 s.sig.sumH = true ∧ cellsWf 0 s.sig.sumV = true ∧
  cellsWf 0 s.sig.sumD = true ∧ cellsWf false s.coded = true

/-- A byte after 0xFF is at most 0x8F (30_encoding.md R95). -/
def Stuffed (bs : List Byte) : Prop :=
  ∀ (k : Nat) (x : Byte), bs[k]? = some 0xFF → bs[k + 1]? = some x → x ≤ 0x8F

/-- The bytes of `OUT` that the open encoding session has appended and the host has not taken. -/
def sessionBytes (s : State) : List Byte := s.out.drop (s.out.length - s.coder.l.toNat)

/-- The encoder's registers in an open encoding session (43_mq_encoder.md R208), with the bound on C in
the form that every operation keeps. -/
def EncoderRegsOk (s : State) : Prop :=
  s.status.mqMode = .encoding →
    0x8000 ≤ s.coder.a.toNat ∧ 1 ≤ s.coder.ct.toNat ∧ s.coder.ct.toNat ≤ 12 ∧ -1 ≤ s.coder.l ∧
    (s.coder.c.toNat + s.coder.a.toNat) * 2 ^ s.coder.ct.toNat ≤ 9 * 2 ^ 24

/-- The encoder's registers and the stuffing of the session's bytes (30_encoding.md R95), in the form
that every operation keeps. -/
def EncoderOk (s : State) : Prop :=
  s.status.mqMode = .encoding →
    0x8000 ≤ s.coder.a.toNat ∧ 1 ≤ s.coder.ct.toNat ∧ s.coder.ct.toNat ≤ 12 ∧ -1 ≤ s.coder.l ∧
    (s.coder.c.toNat + s.coder.a.toNat) * 2 ^ s.coder.ct.toNat ≤ 9 * 2 ^ 24 ∧
    Stuffed (sessionBytes s) ∧
    ((sessionBytes s).getLast? = some 0xFF →
      s.coder.t.toNat * 2 ^ 27
        + (s.coder.c.toNat + s.coder.a.toNat) * 2 ^ s.coder.ct.toNat ≤ 9 * 2 ^ 31)

/-- The decoder's registers in an open decoding session (44_mq_decoder.md R237), but for
`C_active < A`, which the rule itself takes back for input that no encoder wrote. -/
def DecoderOk (s : State) : Prop :=
  s.status.mqMode = .decoding →
    0x8000 ≤ s.coder.a.toNat ∧ s.coder.ct.toNat ≤ 7 ∧ 1 ≤ s.coder.l ∧ s.coder.c.toNat < 2 ^ 24 ∧
    (s.rp : Int) = s.rp0 + s.coder.l

/-- UNIFORM stands in state 46 with MPS 0 (40_probability_table.md R126). -/
def UniformFixed (s : State) : Prop :=
  s.status.ptValid = true → s.pt[18] = ⟨46, false⟩

/-! ### The spec's tables -/

/-- The opcode map with the field that must be zero, as a pair of its high and its low bit
(30_encoding.md R96, R97); `none` where the format leaves no such field. -/
def commandTable : List (Nat × Option (Nat × Nat)) :=
  [(0x01, some (25, 0)), (0x02, some (25, 5)), (0x03, some (25, 7)),
   (0x08, some (25, 0)), (0x09, some (5, 0)), (0x0A, some (5, 2)), (0x0B, some (5, 0)),
   (0x0C, some (5, 0)), (0x0D, some (5, 1)), (0x0E, some (5, 2))] ++
  [(0x10, some (25, 5)), (0x11, some (5, 5)), (0x12, none), (0x13, some (5, 0)),
   (0x14, some (4, 0)), (0x15, some (5, 5)), (0x16, some (5, 5)), (0x17, some (25, 0)),
   (0x18, some (25, 0)), (0x19, some (25, 0)), (0x1A, some (5, 5)), (0x1B, some (5, 5))] ++
  [(0x20, some (25, 0)), (0x21, some (25, 6)), (0x22, none), (0x23, some (25, 0)),
   (0x24, some (25, 0)), (0x28, some (25, 0)), (0x29, some (25, 5)), (0x2A, some (25, 10)),
   (0x2B, some (25, 0))] ++
  [(0x30, some (25, 0)), (0x31, some (25, 0)), (0x32, some (25, 6)), (0x33, some (25, 6)),
   (0x34, some (25, 6)), (0x38, none), (0x39, some (19, 0))]

/-- The word is a command: its opcode is assigned and what must be zero is zero
(30_encoding.md R98). -/
def isCommandWord (w : Word) : Prop :=
  ∃ row ∈ commandTable, field w.toNat 31 26 = row.1 ∧
    ∀ z, row.2 = some z → field w.toNat z.1 z.2 = 0

/-- The rows of 41_significance_table.md R145. -/
def LabelLL (h v d label : Nat) : Prop :=
  (2 ≤ h → label = 8) ∧ (h = 1 → 1 ≤ v → label = 7) ∧ (h = 1 → v = 0 → 1 ≤ d → label = 6) ∧
  (h = 1 → v = 0 → d = 0 → label = 5) ∧ (h = 0 → 2 ≤ v → label = 4) ∧
  (h = 0 → v = 1 → label = 3) ∧ (h = 0 → v = 0 → 2 ≤ d → label = 2) ∧
  (h = 0 → v = 0 → d = 1 → label = 1) ∧ (h = 0 → v = 0 → d = 0 → label = 0)

/-- The rows of 41_significance_table.md R146. -/
def LabelHH (d hv label : Nat) : Prop :=
  (3 ≤ d → label = 8) ∧ (d = 2 → 1 ≤ hv → label = 7) ∧ (d = 2 → hv = 0 → label = 6) ∧
  (d = 1 → 2 ≤ hv → label = 5) ∧ (d = 1 → hv = 1 → label = 4) ∧ (d = 1 → hv = 0 → label = 3) ∧
  (d = 0 → 2 ≤ hv → label = 2) ∧ (d = 0 → hv = 1 → label = 1) ∧ (d = 0 → hv = 0 → label = 0)

/-- The rows of 41_significance_table.md R148: hc, vc, label, xor. -/
def signRows : List (Int × Int × Nat × Bool) :=
  [(1, 1, 13, false), (1, 0, 12, false), (1, -1, 11, false), (0, 1, 10, false), (0, 0, 9, false),
   (0, -1, 10, true), (-1, 1, 11, true), (-1, 0, 12, true), (-1, -1, 13, true)]

/-- `chi` of a position, 0 outside the block (41_significance_table.md R147). -/
def chiAt (s : State) (r c : Int) : Int :=
  if 0 ≤ r ∧ r < s.H ∧ 0 ≤ c ∧ c < s.W then
    match sigstAt s.sig r.toNat c.toNat with
    | .insignificant => 0
    | .positive => 1
    | .negative => -1
  else 0

/-- The clamp of 41_significance_table.md R147. -/
def clampOne (x : Int) : Int := min 1 (max (-1) x)

/-- The four tables of 40_probability_table.md R123, row by row: QE, NMPS, NLPS, SWITCH. -/
def probabilityRows : List (Nat × Nat × Nat × Bool) :=
  [(0x5601, 1, 1, true), (0x3401, 2, 6, false), (0x1801, 3, 9, false), (0x0AC1, 4, 12, false),
   (0x0521, 5, 29, false), (0x0221, 38, 33, false), (0x5601, 7, 6, true), (0x5401, 8, 14, false),
   (0x4801, 9, 14, false), (0x3801, 10, 14, false), (0x3001, 11, 17, false),
   (0x2401, 12, 18, false)] ++
  [(0x1C01, 13, 20, false), (0x1601, 29, 21, false), (0x5601, 15, 14, true),
   (0x5401, 16, 14, false), (0x5101, 17, 15, false), (0x4801, 18, 16, false),
   (0x3801, 19, 17, false), (0x3401, 20, 18, false), (0x3001, 21, 19, false),
   (0x2801, 22, 19, false), (0x2401, 23, 20, false), (0x2201, 24, 21, false)] ++
  [(0x1C01, 25, 22, false), (0x1801, 26, 23, false), (0x1601, 27, 24, false),
   (0x1401, 28, 25, false), (0x1201, 29, 26, false), (0x1101, 30, 27, false),
   (0x0AC1, 31, 28, false), (0x09C1, 32, 29, false), (0x08A1, 33, 30, false),
   (0x0521, 34, 31, false), (0x0441, 35, 32, false), (0x02A1, 36, 33, false)] ++
  [(0x0221, 37, 34, false), (0x0141, 38, 35, false), (0x0111, 39, 36, false),
   (0x0085, 40, 37, false), (0x0049, 41, 38, false), (0x0025, 42, 39, false),
   (0x0015, 43, 40, false), (0x0009, 44, 41, false), (0x0005, 45, 42, false),
   (0x0001, 45, 43, false), (0x5601, 46, 46, false)]

/-! ### The passes as unit commands -/

/-- Commands of which each may depend on what the ones before it answered. -/
inductive Script where
  /-- the end -/
  | done
  /-- issue the command; go on by the payload it answers -/
  | run (i : Instr) (next : Nat → Script)

/-- The state after a script: it goes on while its commands end `ok`, and then ends `ok` itself with no
result; a command that ends otherwise ends it. -/
def runScript : Script → State → State
  | .done, s => { s with resp := some ⟨.ok, 0⟩ }
  | .run i next, s =>
    match exec i s with
    | .next t =>
      match t.resp with
      | some ⟨.ok, payload⟩ => runScript (next payload.toNat) t
      | _ => t
    | .fault _ => s
    | .refused _ => s

/-- One script for each element of a list, in order, then `next`. -/
def eachThen {α : Type} (xs : List α) (one : α → Script → Script) (next : Script) : Script :=
  xs.foldr one next

/-- `Strips` (45_pass_sequencer.md R262): first row and height, four rows or what is left. -/
def stripRows (h : Nat) : List (Nat × Nat) :=
  (List.range ((h + 3) / 4)).map fun k => (4 * k, min 4 (h - 4 * k))

/-- A visit to each coefficient, strip by strip, column by column, row by row
(45_pass_sequencer.md R262). -/
def eachCoefficient (h w : Nat) (visit : Nat → Nat → Script → Script) : Script :=
  eachThen (stripRows h) (fun strip =>
    eachThen (List.range w) fun c =>
      eachThen (List.range strip.2) fun j => visit (strip.1 + j) c) .done

/-- `Mag` (45_pass_sequencer.md R268). -/
def magScript (dir : Dir) (i r c ctx : Nat) (next : Bool → Script) : Script :=
  match dir with
  | .encode => .run (.bpBitAt i r c) fun b => .run (.mqeCode (b == 1) ctx) fun _ => next (b == 1)
  | .decode => .run (.mqdDecode ctx) fun b => .run (.bpSetBit i r c (b == 1)) fun _ => next (b == 1)

/-- `Sign` (45_pass_sequencer.md R266): the label is in bits 4:0 of the answer of `SIG.SIGNCTX`, the
xor bit in bit 5; the decision is the sign xor that bit. -/
def signScript (dir : Dir) (r c : Nat) (next : Script) : Script :=
  .run (.sigSignCtx r c) fun answer =>
    let label := answer % 32
    let x := answer / 32 == 1
    match dir with
    | .encode => .run (.bpSignAt r c) fun sgn =>
        .run (.mqeCode ((sgn == 1) != x) label) fun _ =>
          .run (.sigSetSig r c (sgn == 1)) fun _ => next
    | .decode => .run (.mqdDecode label) fun y =>
        .run (.bpSetSign r c ((y == 1) != x)) fun _ =>
          .run (.sigSetSig r c ((y == 1) != x)) fun _ => next

/-- A coefficient's magnitude decision, its sign if that is 1, and its coded mark
(45_pass_sequencer.md R263, R265). -/
def coefficientScript (dir : Dir) (i r c ctx : Nat) (next : Script) : Script :=
  let mark := Script.run (.bpMarkCoded i r c) fun _ => next
  magScript dir i r c ctx fun b => if b then signScript dir r c mark else mark

/-- `SigPass` (45_pass_sequencer.md R263). -/
def sigPassScript (dir : Dir) (i : Nat) (sb : SubBand) (h w : Nat) : Script :=
  eachCoefficient h w fun r c next =>
    .run (.sigIsSig r c) fun sg => if sg = 1 then next else
    .run (.bpIsCoded i r c) fun cd => if cd = 1 then next else
    .run (.sigSpCtx r c sb) fun ctx => if ctx = 0 then next else
    coefficientScript dir i r c ctx next

/-- `RefPass` (45_pass_sequencer.md R264). -/
def refPassScript (dir : Dir) (i : Nat) (h w : Nat) : Script :=
  eachCoefficient h w fun r c next =>
    .run (.sigIsSig r c) fun sg => if sg = 0 then next else
    .run (.bpIsCoded i r c) fun cd => if cd = 1 then next else
    .run (.sigRefCtx r c) fun ctx =>
    magScript dir i r c ctx fun _ => .run (.bpMarkCoded i r c) fun _ => next

/-- The run-length decision and, where it is 1, the pointer (45_pass_sequencer.md R265); `found` goes on
with the row it names, `absent` where there is none. -/
def runLengthScript (dir : Dir) (i r0 c : Nat) (found : Nat → Script) (absent : Script) : Script :=
  match dir with
  | .encode => .run (.bpStripFnz i r0 c) fun f =>
      .run (.mqeCode (f != 0) 17) fun _ => if f = 0 then absent else
      .run (.mqeCodeNum (f % 4) 2 18) fun _ => found (f % 4)
  | .decode => .run (.mqdDecode 17) fun b => if b = 0 then absent else
      .run (.mqdDecodeNum 2 18) fun k => .run (.bpSetBit i (r0 + k) c true) fun _ => found k

/-- A strip column of `Cleanup` (45_pass_sequencer.md R265): run-length mode in a strip of four rows, all
uncoded and under label ZERO, else row by row. -/
def cleanupColumnScript (dir : Dir) (i : Nat) (sb : SubBand) (r0 height c : Nat) (next : Script) :
    Script :=
  let mark := fun n => eachThen (List.range n) fun j next =>
    .run (.bpMarkCoded i (r0 + j) c) fun _ => next
  let rows := fun start => eachThen ((List.range height).drop start) (fun j next =>
    .run (.bpIsCoded i (r0 + j) c) fun cd => if cd = 1 then next else
    .run (.sigSpCtx (r0 + j) c sb) fun ctx => coefficientScript dir i (r0 + j) c ctx next) next
  if height = 4 then
    .run (.bpStripUnc i r0 c) fun unc => if unc = 0 then rows 0 else
    .run (.sigStripZ sb r0 c) fun all => if all = 0 then rows 0 else
    runLengthScript dir i r0 c
      (fun k => signScript dir (r0 + k) c (mark (k + 1) (rows (k + 1)))) (mark 4 next)
  else rows 0

/-- `Cleanup` (45_pass_sequencer.md R265). -/
def cleanupScript (dir : Dir) (i : Nat) (sb : SubBand) (h w : Nat) : Script :=
  eachThen (stripRows h) (fun strip =>
    eachThen (List.range w) fun c => cleanupColumnScript dir i sb strip.1 strip.2 c) .done

/-! ### The expansion of the block operations -/

/-- The commands of `PlaneLoop` (45_pass_sequencer.md R261) for depth `d`. -/
def planeCommands (dir : Dir) (d : Nat) : List Instr :=
  (List.range d).reverse.flatMap fun i =>
    (.bpNewPlane i :: if i + 1 = d then [] else [.ebSigPass dir i, .ebRefPass dir i])
      ++ [.ebCleanup dir i]

/-- `EB.ENCODE` issued as commands (45_pass_sequencer.md R260, R271). -/
def encodeCommands (d : Nat) : List Instr :=
  [.ptReset, .sigReset, .mqeInit] ++ planeCommands .encode d ++ [.mqeFlush, .mqeMarkEnd]

/-- `EB.DECODE` issued as commands (45_pass_sequencer.md R267, R271). -/
def decodeCommands (d : Nat) : List Instr :=
  [.ptReset, .sigReset, .mqdInit] ++ planeCommands .decode d ++ [.mqdSkipEnd]

end Sys2Proof.Safety
end

