-- ==== Sys2Proof/Certificates/Slice0/Obligations.lean ====
section
/-! DEFINITION. The statements for the provers.  Each docstring names the rule of spec/ it
formalises; a clause that rests on a choice of the model says so and names the log entry. -/

open Sys2Proof Sys2Proof.Machine Sys2Proof.Safety

/-! ### Encoding -/

/-- 30_encoding.md R96, R97: every command with operands that fit their fields is read back from its
word, every operand at every value. -/
def Obligations.DecodeOfEncode : Prop :=
  ∀ i : Instr, i.wellFormed = true → decode (encode i) = .command i

/-- 30_encoding.md R96, R99: a word that is a command is the word of that command, whose operands fit
their fields: no bit of a command word is dropped and no two words mean the same command. -/
def Obligations.EncodeOfDecode : Prop :=
  ∀ (w : Word) (i : Instr), decode w = .command i → i.wellFormed = true ∧ encode i = w

/-- 30_encoding.md R96, R97: words written out field by field from the formats decode to the commands
they stand for, one of each family and format. -/
def Obligations.WrittenWordsDecode : Prop :=
  decode (BitVec.ofNat 32 3) = .illegal .opcode ∧
  decode (0b000001#6 ++ 0#26) = .command .ptReset ∧
  decode (0b000011#6 ++ 0#19 ++ 1#1 ++ 0#1 ++ 17#5) = .command (.ptTrans 17 false true) ∧
  decode (0b001010#6 ++ 5#10 ++ 1023#10 ++ 0#4 ++ 2#2) = .command (.sigSpCtx 5 1023 .hl) ∧
  decode (0b010010#6 ++ 3#10 ++ 1#10 ++ 1#1 ++ 30#5) = .command (.bpSetBit 30 3 1 true) ∧
  decode (0b100010#6 ++ 0xBEEF#16 ++ 16#5 ++ 18#5) = .command (.mqeCodeNum 0xBEEF 16 18) ∧
  decode (0b101001#6 ++ 0#21 ++ 9#5) = .command (.mqdDecode 9) ∧
  decode (0b110100#6 ++ 0#20 ++ 1#1 ++ 7#5) = .command (.ebCleanup .decode 7) ∧
  decode (0b111000#6 ++ 6#6 ++ 0xFFFFF#20) = .command (.cfgSet 6 0xFFFFF)

/-- 30_encoding.md R97, R98, 60_exceptions.md R316: a word decodes to a command exactly where its opcode
is assigned and the fields its format says are zero are zero; any other word, the all-zero word among
them, raises `ILLEGAL_CMD` and changes nothing else; while `FAULT` is 1 the sticky refusal comes first,
unless the opcode is `CFG.GET`'s. -/
def Obligations.IllegalWordsFault : Prop :=
  (∀ w : Word, (∃ i, decode w = .command i) ↔ isCommandWord w) ∧ ¬ isCommandWord 0 ∧
  ∀ (s : State) (w : Word), ¬ isCommandWord w →
    (s.status.fault = false → runWord w s = faultNext .illegalCmd s) ∧
    (s.status.fault = true → field w.toNat 31 26 ≠ 0x39 →
      runWord w s = .next { s with
        resp := some ⟨.protocolFault, BitVec.ofNat 32 (faultCodeField s.status.faultCode)⟩ }) ∧
    (s.status.fault = true → field w.toNat 31 26 = 0x39 →
      runWord w s = .next { s with resp := some ⟨.protocolFault, 1⟩ })

/-! ### Steps -/

/-- 00_scope.md R12, R13: a step takes the host's next command word and runs the command it decodes
to, on the state that has it taken off the queue; with nothing queued the block waits.  46_config_ops.md
R302, 20_memory.md R76: what the host does between commands, in a session too, reaches `MEM`, `IN`, `RP`
and `OUT` and nothing of the block: it writes a word, sets `IN`, drains, truncates or replaces `OUT`.
The queue is the model's own (notes/assumptions/7.md, notes/assumptions/8.md), and so
is the word it gives with `IN` on who wrote it (notes/assumptions/23.md). -/
def Obligations.StepRunsDecodedCommand : Prop :=
  ∀ (s : State) (rest : List HostEvent),
    (∀ w i, s.hostq = .command w :: rest → decode w = .command i →
      step s = exec i { s with hostq := rest }) ∧
    (∀ w, s.hostq = .command w :: rest → ¬ isCommandWord w →
      step s = runWord w { s with hostq := rest }) ∧
    (∀ nbits n i, decode (BitVec.ofNat 32 n) = .command i →
      step (s.withFetchWord nbits n) = exec i s) ∧
    (s.hostq = [] → step s = .next s) ∧
    (∀ addr v, s.hostq = .writeMem addr v :: rest →
      ∃ m, step s = .next { s with hostq := rest, mem := m } ∧
        ∀ a, cellsGet unwrittenWord m a = if a = addr then v else wordAt s a) ∧
    (∀ bytes rp foreign, s.hostq = .setIn bytes rp foreign :: rest →
      step s = .next { s with hostq := rest, inp := bytes, rp := rp, inForeign := foreign }) ∧
    (∀ n, s.hostq = .drainOut n :: rest →
      step s = .next { s with hostq := rest, out := s.out.drop n }) ∧
    (∀ bytes, s.hostq = .setOut bytes :: rest →
      step s = .next { s with hostq := rest, out := bytes })

/-- 70_reset_and_hazards.md R340, 10_state.md R39: hardware reset makes the configuration registers
and every field of `STATUS` 0, so `GeomOK` is false, leaves `MEM`, `OUT`, `IN`, `RP` as they were, and
is the only step that clears `FAULT`; the code stays the first one. -/
def Obligations.HardResetAndStickyFault : Prop :=
  (∀ (s : State) (rest : List HostEvent), s.hostq = .hardReset :: rest →
    ∃ t, step s = .next t ∧
      t.cfg = ⟨0, 0, 0, .ll, 0, 0, 0⟩ ∧
      t.status = ⟨.idle, false, false, false, false, none, none, false⟩ ∧
      statusNat t.status = 0 ∧ geomOK t = false ∧
      t.mem = s.mem ∧ t.out = s.out ∧ t.inp = s.inp ∧ t.rp = s.rp) ∧
  (∀ s t : State, s.status.fault = true → (∀ rest, s.hostq ≠ .hardReset :: rest) →
    step s = .next t → t.status.fault = true ∧ t.status.faultCode = s.status.faultCode)

/-! ### Outcomes -/

/-- 60_exceptions.md R315, R321: while `FAULT` is 1 every command but `CFG.GET` is refused with the
first code and changes no state; `CFG.GET` is answered, and one that itself faults answers its own
code and leaves the first code. -/
def Obligations.StickyFaultRefusal : Prop :=
  ∀ (s : State) (i : Instr), s.status.fault = true →
    ((∀ reg, i ≠ .cfgGet reg) →
      exec i s = .next { s with
        resp := some ⟨.protocolFault, BitVec.ofNat 32 (faultCodeField s.status.faultCode)⟩ }) ∧
    (∀ reg, i = .cfgGet reg → ∃ resp, exec i s = .next { s with resp := some resp } ∧
      exec (.cfgGet 7) s = okNext (BitVec.ofNat 32 (statusNat s.status)) s ∧
      (34 < reg → resp = ⟨.protocolFault, 11⟩))

/-- 60_exceptions.md R314, R315: a command that ends in a ProtocolFault while `FAULT` was 0 has had no
effect but those of the fault: `FAULT`, its code and the response.  `EB.CLEANUP` is left out: its
internal `SIG.SETSIG` may fault in the middle (45_pass_sequencer.md R269). -/
def Obligations.ProtocolFaultsArePrecise : Prop :=
  ∀ (i : Instr) (s t : State) (payload : Word), s.status.fault = false →
    (∀ dir p, i ≠ .ebCleanup dir p) → exec i s = .next t →
    t.resp = some ⟨.protocolFault, payload⟩ →
    ∃ code, exec i s = faultNext code s ∧ payload = BitVec.ofNat 32 (faultCodeNat code)

/-- 45_pass_sequencer.md R269, R260, R267: the checks of the sequencer's operations in their order, and
that nothing inside `EB.ENCODE`, `EB.DECODE`, `EB.SIGPASS`, `EB.REFPASS` fails a check of its own;
`EB.CLEANUP` can, and only with `ALREADY_SIGNIFICANT`. -/
def Obligations.SequencerChecks : Prop :=
  ∀ (s t : State) (dir : Dir) (p : Nat) (i : Instr), s.status.fault = false →
    let mode := (match dir with | .encode => MqMode.encoding | .decode => MqMode.decoding)
    let pass := i ∈ [Instr.ebSigPass dir p, .ebRefPass dir p, .ebCleanup dir p]
    let block := i ∈ [Instr.ebEncode, .ebDecode]
    (pass ∨ block → geomOK s = false → exec i s = faultNext .badConfig s) ∧
    (block → geomOK s = true → s.status.mqMode ≠ .idle → exec i s = faultNext .alreadyStarted s) ∧
    (pass → geomOK s = true → s.status.mqMode ≠ mode → exec i s = faultNext .notStarted s) ∧
    (pass → geomOK s = true → s.status.mqMode = mode →
      ¬ (s.status.ptValid = true ∧ s.status.sigValid = true ∧ s.status.planeLive = true) →
      exec i s = faultNext .notInitialised s) ∧
    (pass → geomOK s = true → s.status.mqMode = mode →
      s.status.ptValid = true → s.status.sigValid = true → s.status.planeLive = true →
      ¬ (p < s.D ∧ p = s.curPlane.toNat) → exec i s = faultNext .badPlane s) ∧
    (block → geomOK s = true → s.status.mqMode = .idle → exec i s = .next t →
      t.status.fault = false) ∧
    (pass → geomOK s = true → s.status.mqMode = mode →
      s.status.ptValid = true → s.status.sigValid = true → s.status.planeLive = true →
      p < s.D → p = s.curPlane.toNat → exec i s = .next t →
      t.status.fault = false ∨
        (i = .ebCleanup dir p ∧ t.status.faultCode = some .alreadySignificant))

/-- 60_exceptions.md R317, 10_state.md R40: a DecodeFailure or IOFailure ends the session, clears the
three validity bits, records itself in `DECFAIL` or `IOFAIL`, does not set `FAULT`, and leaves the
configuration. -/
def Obligations.FailureEndsSession : Prop :=
  ∀ (i : Instr) (s t : State) (payload : Word), s.status.fault = false → exec i s = .next t →
    (t.resp = some ⟨.decodeFailure, payload⟩ →
      (payload = 1 ∨ payload = 2) ∧
      t.status.decFail = some (if payload = 1 then .truncated else .garbage) ∧
      t.status.mqMode = .idle ∧ t.status.ptValid = false ∧ t.status.sigValid = false ∧
      t.status.planeLive = false ∧ t.status.fault = false ∧ t.cfg = s.cfg) ∧
    (t.resp = some ⟨.ioFailure, payload⟩ →
      payload = 0 ∧ t.status.ioFail = true ∧
      t.status.mqMode = .idle ∧ t.status.ptValid = false ∧ t.status.sigValid = false ∧
      t.status.planeLive = false ∧ t.status.fault = false ∧ t.cfg = s.cfg)

/-- 60_exceptions.md R312, R313: `GARBAGE` comes from `MQD.SKIPEND` and `EB.DECODE` only, `TRUNCATED`
from operations that take bytes only, and `IOFAILURE` from operations that use a byte port only;
with ports that do not fail there is none. -/
def Obligations.WhoRaisesWhat : Prop :=
  ∀ (i : Instr) (s t : State) (payload : Word), exec i s = .next t →
    (t.resp = some ⟨.decodeFailure, 2⟩ → i = .mqdSkipEnd ∨ i = .ebDecode) ∧
    (t.resp = some ⟨.decodeFailure, 1⟩ →
      i = .mqdInit ∨ (∃ ctx, i = .mqdDecode ctx) ∨ (∃ n ctx, i = .mqdDecodeNum n ctx) ∨
      i = .mqdSkipEnd ∨ i = .ebDecode ∨
      ∃ p, i = .ebSigPass .decode p ∨ i = .ebRefPass .decode p ∨ i = .ebCleanup .decode p) ∧
    (t.resp = some ⟨.ioFailure, payload⟩ →
      ¬ quietPorts s ∧
      (i ∈ [.mqeFlush, .mqeMarkEnd, .mqdInit, .mqdSkipEnd, .ebEncode, .ebDecode] ∨
       (∃ b ctx, i = .mqeCode b ctx) ∨ (∃ v n ctx, i = .mqeCodeNum v n ctx) ∨
       (∃ ctx, i = .mqdDecode ctx) ∨ (∃ n ctx, i = .mqdDecodeNum n ctx) ∨
       ∃ dir p, i = .ebSigPass dir p ∨ i = .ebRefPass dir p ∨ i = .ebCleanup dir p))

/-! ### PT -/

/-- 40_probability_table.md R121: `PT.RESET` puts every context in state 0 with MPS 0, but ZERO in 4,
RUN_LENGTH in 3 and UNIFORM in 46, and sets `PT_VALID`, in any mode; nothing else changes. -/
def Obligations.PtResetWritesInitialStates : Prop :=
  ∀ s : State, s.status.fault = false →
    ∃ pt : Vector PtEntry 19,
      exec .ptReset s = okNext 0 { s with pt := pt, status := { s.status with ptValid := true } } ∧
      ∀ k e, pt[k]? = some e → e.mps = false ∧
        e.idx = (if k = 0 then 4 else if k = 17 then 3 else if k = 18 then 46 else 0)

/-- 40_probability_table.md R124, R125, R120: `PT.EST` answers the estimate and the MPS of the context's
state and changes no state.  `PT.TRANS` moves its context to the MPS successor on a match and to the
LPS successor on a mismatch, inverting the MPS bit where the state before the move says so and `sw`
is 1; no other context and nothing else changes. -/
def Obligations.PtEstAndTransOneContext : Prop :=
  ∀ (s : State) (ctx : Nat) (m sw : Bool) (e : PtEntry), s.status.fault = false →
    s.status.ptValid = true → s.pt[ctx]? = some e →
    exec (.ptEst ctx) s
      = okNext (BitVec.ofNat 32 ((qe e.idx).toNat + if e.mps then 2 ^ 16 else 0)) s ∧
    ∃ pt : Vector PtEntry 19, exec (.ptTrans ctx m sw) s = okNext 0 { s with pt := pt } ∧
      (∀ k, k ≠ ctx → pt[k]? = s.pt[k]?) ∧
      (m = true → pt[ctx]? = some ⟨nmps e.idx, e.mps⟩) ∧
      (m = false → switchMps e.idx = true → sw = true →
        pt[ctx]? = some ⟨nlps e.idx, !e.mps⟩) ∧
      (m = false → (switchMps e.idx = false ∨ sw = false) →
        pt[ctx]? = some ⟨nlps e.idx, e.mps⟩)

/-- 40_probability_table.md R123: the four tables, row by row. -/
def Obligations.ProbabilityTableRows : Prop :=
  (List.finRange 47).map (fun i => ((qe i).toNat, (nmps i).val, (nlps i).val, switchMps i))
    = probabilityRows

/-- 40_probability_table.md R126: while `PT_VALID` is 1, UNIFORM stands in state 46 with MPS 0, after
every step: every decision under it is coded with the same estimate. -/
def Obligations.UniformNeverAdapts : Prop :=
  ∀ s t : State, UniformFixed s → step s = .next t → UniformFixed t

/-! ### SIG -/

/-- 41_significance_table.md R141: `SIG.RESET` makes every coefficient insignificant, every `FIRST` 1,
every sum 0, and sets `SIG_VALID`; with `GeomOK` false it is `BAD_CONFIG`. -/
def Obligations.SigResetForgets : Prop :=
  ∀ s : State, s.status.fault = false →
    (geomOK s = false → exec .sigReset s = faultNext .badConfig s) ∧
    (geomOK s = true →
      ∃ t, exec .sigReset s
          = okNext 0 { s with sig := t, status := { s.status with sigValid := true } } ∧
        ∀ r c, sigstAt t r c = .insignificant ∧ firstAt t r c = true ∧
          sumHAt t r c = 0 ∧ sumVAt t r c = 0 ∧ sumDAt t r c = 0)

/-- 41_significance_table.md R142, R151: `SIG.ISSIG` answers whether the coefficient is significant,
`SIG.STRIPZ` whether the sums of the four rows from r on are all 0, whatever the sub-band; neither
changes state. -/
def Obligations.SignificanceQueries : Prop :=
  ∀ (s : State) (r c : Nat) (sb : SubBand), SigReady s r c →
    exec (.sigIsSig r c) s = okNext (if sigstAt s.sig r c = .insignificant then 0 else 1) s ∧
    (r + 3 < s.H →
      ((∀ j < 4, sumHAt s.sig (r + j) c = 0 ∧ sumVAt s.sig (r + j) c = 0 ∧
          sumDAt s.sig (r + j) c = 0) → exec (.sigStripZ sb r c) s = okNext 1 s) ∧
      ((∃ j < 4, sumHAt s.sig (r + j) c ≠ 0 ∨ sumVAt s.sig (r + j) c ≠ 0 ∨
          sumDAt s.sig (r + j) c ≠ 0) → exec (.sigStripZ sb r c) s = okNext 0 s))

/-- 41_significance_table.md R144, R145, R146: the significance-propagation label of the three sums,
row by row of the two tables, with the two sums exchanged for HL only; no state changes. -/
def Obligations.SpCtxFollowsTables : Prop :=
  ∀ (s : State) (r c : Nat) (sb : SubBand), SigReady s r c →
    ∃ label, exec (.sigSpCtx r c sb) s = okNext (BitVec.ofNat 32 label) s ∧
      let h := sumHAt s.sig r c
      let v := sumVAt s.sig r c
      let d := sumDAt s.sig r c
      match sb with
      | .ll => LabelLL h v d label
      | .lh => LabelLL h v d label
      | .hl => LabelLL v h d label
      | .hh => LabelHH d (h + v) label

/-- 41_significance_table.md R147, R148: the sign label and its xor bit from the clamped signed sums
over the horizontal and the vertical neighbours, row by row of the table; no state changes. -/
def Obligations.SignCtxFollowsTable : Prop :=
  ∀ (s : State) (r c : Nat), SigReady s r c →
    ∃ (label : Nat) (x : Bool),
      exec (.sigSignCtx r c) s = okNext (BitVec.ofNat 32 (label + if x then 32 else 0)) s ∧
      (clampOne (chiAt s r (c - 1) + chiAt s r (c + 1)),
        clampOne (chiAt s (r - 1) c + chiAt s (r + 1) c), label, x) ∈ signRows

/-- 41_significance_table.md R149: `SIG.REFCTX` answers FOURTEEN or FIFTEEN the first time and consumes
the flag, SIXTEEN from then on; no other flag and nothing else changes. -/
def Obligations.RefCtxConsumesFirst : Prop :=
  ∀ (s : State) (r c : Nat), SigReady s r c →
    (firstAt s.sig r c = true →
      ∃ f, exec (.sigRefCtx r c) s
          = okNext (if sumHAt s.sig r c + sumVAt s.sig r c + sumDAt s.sig r c = 0 then 14 else 15)
              { s with sig := { s.sig with first := f } } ∧
        cellsGet true f (cellIndex r c) = false ∧
        ∀ r' c', r' < s.H → c' < s.W → (r' ≠ r ∨ c' ≠ c) →
          cellsGet true f (cellIndex r' c') = firstAt s.sig r' c') ∧
    (firstAt s.sig r c = false → exec (.sigRefCtx r c) s = okNext 16 s)

/-- 41_significance_table.md R150: `SIG.SETSIG` marks an insignificant coefficient with its sign and
adds 1 to the counters of its neighbours inside the block, each in the direction in which it sees the
coefficient; no other counter, no `FIRST` flag and nothing else changes.  On a significant coefficient
it is `ALREADY_SIGNIFICANT`. -/
def Obligations.SetSigMarksAndCounts : Prop :=
  ∀ (s : State) (r c : Nat) (neg : Bool), SigReady s r c →
    (sigstAt s.sig r c = .insignificant →
      ∃ t : SigTable, exec (.sigSetSig r c neg) s = okNext 0 { s with sig := t } ∧
        t.first = s.sig.first ∧
        ∀ r' c', r' < s.H → c' < s.W →
          sigstAt t r' c' = (if r' = r ∧ c' = c then (if neg then .negative else .positive)
            else sigstAt s.sig r' c') ∧
          sumHAt t r' c' = sumHAt s.sig r' c'
            + (if r' = r ∧ (c' + 1 = c ∨ c' = c + 1) then 1 else 0) ∧
          sumVAt t r' c' = sumVAt s.sig r' c'
            + (if (r' + 1 = r ∨ r' = r + 1) ∧ c' = c then 1 else 0) ∧
          sumDAt t r' c' = sumDAt s.sig r' c'
            + (if (r' + 1 = r ∨ r' = r + 1) ∧ (c' + 1 = c ∨ c' = c + 1) then 1 else 0)) ∧
    (sigstAt s.sig r c ≠ .insignificant →
      exec (.sigSetSig r c neg) s = faultNext .alreadySignificant s)

/-- 41_significance_table.md R143: the checks of every `SIG.*` operation with a position, in their
order. -/
def Obligations.SigChecksInOrder : Prop :=
  ∀ (s : State) (r c : Nat) (sb : SubBand) (neg : Bool) (i : Instr), s.status.fault = false →
    i ∈ [Instr.sigIsSig r c, .sigSpCtx r c sb, .sigSignCtx r c, .sigRefCtx r c,
      .sigSetSig r c neg, .sigStripZ sb r c] →
    (geomOK s = false → exec i s = faultNext .badConfig s) ∧
    (geomOK s = true → s.status.sigValid = false → exec i s = faultNext .notInitialised s) ∧
    (geomOK s = true → s.status.sigValid = true → (s.H ≤ r ∨ s.W ≤ c) →
      exec i s = faultNext .badCoord s) ∧
    (SigReady s r c → i = .sigStripZ sb r c → s.H ≤ r + 3 → exec i s = faultNext .badCoord s)

/-- 41_significance_table.md R152, 10_state.md R32: while `SIG_VALID` is 1 the cached sums are the
counts of significant neighbours inside the block, after every step. -/
def Obligations.CachedSumsMatchNeighbours : Prop :=
  ∀ s t : State, SumsMatch s → step s = .next t → SumsMatch t

/-- 10_state.md R31, 45_pass_sequencer.md R272 (c): significance is monotonic: no command but
`SIG.RESET` and the two that begin a block changes the state of a significant coefficient.  That this
holds after a DecodeFailure or IOFailure too, where 60_exceptions.md R317 leaves the table undefined, is
the model's choice (notes/assumptions/16.md). -/
def Obligations.SignificanceIsMonotonic : Prop :=
  ∀ (i : Instr) (s t : State), exec i s = .next t →
    i ≠ .sigReset → i ≠ .ebEncode → i ≠ .ebDecode →
    ∀ r c, sigstAt s.sig r c ≠ .insignificant → sigstAt t.sig r c = sigstAt s.sig r c

/-! ### BP -/

/-- 42_block_plane_view.md R171: `BP.NEWPLANE` makes plane i the live one with no coefficient coded;
`MEM` and everything else stay; i ≥ D is `BAD_PLANE`, after `BAD_CONFIG`. -/
def Obligations.NewPlaneClearsCoded : Prop :=
  ∀ (s : State) (i : Nat), s.status.fault = false →
    (geomOK s = false → exec (.bpNewPlane i) s = faultNext .badConfig s) ∧
    (geomOK s = true → s.D ≤ i → exec (.bpNewPlane i) s = faultNext .badPlane s) ∧
    (geomOK s = true → i < s.D →
      ∃ t : State, exec (.bpNewPlane i) s = okNext 0 { s with
          curPlane := t.curPlane, coded := t.coded
          status := { s.status with planeLive := true } } ∧
        t.curPlane.toNat = i ∧ ∀ r c, codedAt t r c = false)

/-- 42_block_plane_view.md R172, R174, 20_memory.md R60: `BP.BITAT` answers bit i and `BP.SIGNAT` bit D
of the word at `(CFG_ROWOFF + r) * CFG_STRIDE + CFG_COLOFF + c`; no state changes. -/
def Obligations.BitAndSignReads : Prop :=
  ∀ (s : State) (i r c : Nat), BpReady s r c →
    let w := wordAt s ((s.cfg.rowOff.toNat + r) * s.cfg.stride.toNat + s.cfg.colOff.toNat + c)
    (i < s.D → exec (.bpBitAt i r c) s = okNext (if w.getLsbD i then 1 else 0) s) ∧
    exec (.bpSignAt r c) s = okNext (if w.getLsbD s.D then 1 else 0) s

/-- 42_block_plane_view.md R173, R175: `BP.SETBIT` stores b in bit i and `BP.SETSIGN` in bit D of the
coefficient's word; the word's 31 other bits, every other word and everything else stay. -/
def Obligations.BitStoresChangeOneBit : Prop :=
  ∀ (s : State) (i r c : Nat) (b : Bool), BpReady s r c →
    (i < s.D → ∃ m, exec (.bpSetBit i r c b) s = okNext 0 { s with mem := m } ∧
      (∀ a, a ≠ memAddr s r c → cellsGet unwrittenWord m a = wordAt s a) ∧
      ∀ k < 32, (cellsGet unwrittenWord m (memAddr s r c)).getLsbD k
        = if k = i then b else (wordAt s (memAddr s r c)).getLsbD k) ∧
    ∃ m, exec (.bpSetSign r c b) s = okNext 0 { s with mem := m } ∧
      (∀ a, a ≠ memAddr s r c → cellsGet unwrittenWord m a = wordAt s a) ∧
      ∀ k < 32, (cellsGet unwrittenWord m (memAddr s r c)).getLsbD k
        = if k = s.D then b else (wordAt s (memAddr s r c)).getLsbD k

/-- 42_block_plane_view.md R176, R177, R181: `BP.ISCODED` answers the coefficient's coded flag,
`BP.STRIPUNC` whether the flags of the four rows from r on are all 0, `BP.MARKCODED` sets the flag and
leaves every other flag and everything else. -/
def Obligations.CodedFlags : Prop :=
  ∀ (s : State) (i r c : Nat), LiveReady s i r c →
    exec (.bpIsCoded i r c) s = okNext (if codedAt s r c then 1 else 0) s ∧
    (r + 3 < s.H →
      exec (.bpStripUnc i r c) s
        = okNext (if codedAt s r c = false ∧ codedAt s (r + 1) c = false ∧
            codedAt s (r + 2) c = false ∧ codedAt s (r + 3) c = false then 1 else 0) s) ∧
    ∃ t : State, exec (.bpMarkCoded i r c) s = okNext 0 { s with coded := t.coded } ∧
      codedAt t r c = true ∧
      ∀ r' c', r' < s.H → c' < s.W → (r' ≠ r ∨ c' ≠ c) → codedAt t r' c' = codedAt s r' c'

/-- 42_block_plane_view.md R178, R179, R180, R184 (c): the strip geometry queries answer H/4, H%4 and
4 times H/4, which with the partial strip make H; no state changes; with `GeomOK` false they are
`BAD_CONFIG`. -/
def Obligations.StripGeometry : Prop :=
  ∀ s : State, s.status.fault = false →
    (geomOK s = true →
      exec .bpNFull s = okNext (BitVec.ofNat 32 (s.H / 4)) s ∧
      exec .bpLastH s = okNext (BitVec.ofNat 32 (s.H % 4)) s ∧
      exec .bpLastOff s = okNext (BitVec.ofNat 32 (s.H / 4 * 4)) s) ∧
    (geomOK s = false →
      exec .bpNFull s = faultNext .badConfig s ∧ exec .bpLastH s = faultNext .badConfig s ∧
      exec .bpLastOff s = faultNext .badConfig s)

/-- 42_block_plane_view.md R182: `BP.STRIPFNZ` answers the first of the four rows from r on whose bit
in plane i is 1, or none; no state changes. -/
def Obligations.StripFnzFindsFirstRow : Prop :=
  ∀ (s : State) (i r c : Nat), BpReady s r c → i < s.D → r + 3 < s.H →
    let bit := fun j => (wordAt s (memAddr s (r + j) c)).getLsbD i
    ((∀ j < 4, bit j = false) → exec (.bpStripFnz i r c) s = okNext 0 s) ∧
    ∀ k < 4, bit k = true → (∀ j < k, bit j = false) →
      exec (.bpStripFnz i r c) s = okNext (BitVec.ofNat 32 (4 + k)) s

/-- 42_block_plane_view.md R183: the checks of the `BP.*` operations with a position, in their order:
geometry, the live plane where the operation needs one, the plane, the position, the strip. -/
def Obligations.BpChecksInOrder : Prop :=
  ∀ (s : State) (p r c : Nat) (b : Bool) (i : Instr), s.status.fault = false →
    let live := i ∈ [Instr.bpIsCoded p r c, .bpMarkCoded p r c, .bpStripUnc p r c]
    let plane := i ∈ [Instr.bpBitAt p r c, .bpSetBit p r c b, .bpStripFnz p r c]
    let sign := i ∈ [Instr.bpSignAt r c, .bpSetSign r c b]
    (live ∨ plane ∨ sign → geomOK s = false → exec i s = faultNext .badConfig s) ∧
    (live → geomOK s = true → s.status.planeLive = false →
      exec i s = faultNext .notInitialised s) ∧
    (live → geomOK s = true → s.status.planeLive = true → (s.D ≤ p ∨ p ≠ s.curPlane.toNat) →
      exec i s = faultNext .badPlane s) ∧
    (plane → geomOK s = true → s.D ≤ p → exec i s = faultNext .badPlane s) ∧
    (live → geomOK s = true → s.status.planeLive = true → p < s.D → p = s.curPlane.toNat →
      (s.H ≤ r ∨ s.W ≤ c) → exec i s = faultNext .badCoord s) ∧
    (plane → geomOK s = true → p < s.D → (s.H ≤ r ∨ s.W ≤ c) →
      exec i s = faultNext .badCoord s) ∧
    (sign → geomOK s = true → (s.H ≤ r ∨ s.W ≤ c) → exec i s = faultNext .badCoord s) ∧
    (i = .bpStripUnc p r c → LiveReady s p r c → s.H ≤ r + 3 →
      exec i s = faultNext .badCoord s) ∧
    (i = .bpStripFnz p r c → BpReady s r c → p < s.D → s.H ≤ r + 3 →
      exec i s = faultNext .badCoord s)

/-- 42_block_plane_view.md R184 (a): a bit set reads back; no bit of another plane or position and no
sign changes; and the same with the roles of bit and sign exchanged. -/
def Obligations.StoredBitsReadBack : Prop :=
  ∀ (s t : State) (i r c : Nat) (b : Bool), BpReady s r c → i < s.D →
    (exec (.bpSetBit i r c b) s = .next t →
      exec (.bpBitAt i r c) t = okNext (if b then 1 else 0) t ∧
      ∀ i' r' c', r' < s.H → c' < s.W →
        (∃ v, exec (.bpSignAt r' c') s = okNext v s ∧ exec (.bpSignAt r' c') t = okNext v t) ∧
        (i' < s.D → (i' ≠ i ∨ r' ≠ r ∨ c' ≠ c) →
          ∃ v, exec (.bpBitAt i' r' c') s = okNext v s ∧
            exec (.bpBitAt i' r' c') t = okNext v t)) ∧
    (exec (.bpSetSign r c b) s = .next t →
      exec (.bpSignAt r c) t = okNext (if b then 1 else 0) t ∧
      ∀ i' r' c', r' < s.H → c' < s.W →
        (i' < s.D → ∃ v, exec (.bpBitAt i' r' c') s = okNext v s ∧
          exec (.bpBitAt i' r' c') t = okNext v t) ∧
        ((r' ≠ r ∨ c' ≠ c) →
          ∃ v, exec (.bpSignAt r' c') s = okNext v s ∧ exec (.bpSignAt r' c') t = okNext v t))

/-- 45_pass_sequencer.md R262, 42_block_plane_view.md R184 (d): the scan order visits every coefficient
of the block exactly once, and nothing outside it: strip by strip, inside a strip column by column,
inside a column row by row. -/
def Obligations.ScanVisitsEachOnce : Prop :=
  ∀ h w : Nat, (scanOrder h w).Nodup ∧
    (∀ r c, (r, c) ∈ scanOrder h w ↔ r < h ∧ c < w) ∧
    (scanOrder h w).Pairwise fun p q =>
      p.1 / 4 < q.1 / 4 ∨ (p.1 / 4 = q.1 / 4 ∧ (p.2 < q.2 ∨ (p.2 = q.2 ∧ p.1 < q.1)))

/-! ### MQE -/

/-- 40_probability_table.md R122, 43_mq_encoder.md R201, R202, R205, R206, R207, 44_mq_decoder.md R231,
R232, R235, R236: the checks of the operations on a context and of the coder, in their order; with a
session of either kind open `MQE.INIT` and `MQD.INIT` are `ALREADY_STARTED`. -/
def Obligations.CoderChecksInOrder : Prop :=
  ∀ (s : State) (b m sw : Bool) (v n ctx : Nat) (mode : MqMode) (i : Instr),
    s.status.fault = false →
    let free := i ∈ [Instr.ptEst ctx, .ptTrans ctx m sw]
    let symbol := (i ∈ [Instr.mqeCode b ctx, .mqeCodeNum v n ctx] ∧ mode = .encoding) ∨
      (i ∈ [Instr.mqdDecode ctx, .mqdDecodeNum n ctx] ∧ mode = .decoding)
    let num := i ∈ [Instr.mqeCodeNum v n ctx, .mqdDecodeNum n ctx]
    let other := (i ∈ [Instr.mqeFlush, .mqeMarkEnd] ∧ mode = .encoding) ∨
      (i = .mqdSkipEnd ∧ mode = .decoding)
    (symbol ∨ other → s.status.mqMode ≠ mode → exec i s = faultNext .notStarted s) ∧
    (symbol → s.status.mqMode = mode → s.status.ptValid = false →
      exec i s = faultNext .notInitialised s) ∧
    (free → s.status.ptValid = false → exec i s = faultNext .notInitialised s) ∧
    (symbol → s.status.mqMode = mode → s.status.ptValid = true → 18 < ctx →
      exec i s = faultNext .badContext s) ∧
    (free → s.status.ptValid = true → 18 < ctx → exec i s = faultNext .badContext s) ∧
    (symbol → num → s.status.mqMode = mode → s.status.ptValid = true → ctx ≤ 18 → 16 < n →
      exec i s = faultNext .badOperand s) ∧
    (i ∈ [Instr.mqeInit, .mqdInit] → s.status.mqMode ≠ .idle →
      exec i s = faultNext .alreadyStarted s)

/-- 43_mq_encoder.md R201: `MQE.INIT` with no session open gives the five coder registers their values,
opens an encoding session and clears `IOFAIL`; `OUT`, the probability state and everything else stay.
With a session of either kind open it is `ALREADY_STARTED`. -/
def Obligations.MqeInitOpensSession : Prop :=
  ∀ s : State, s.status.fault = false →
    (s.status.mqMode = .idle → exec .mqeInit s = okNext 0 { s with
      coder := ⟨0x8000, 0, 0, 12, -1⟩
      status := { s.status with mqMode := .encoding, ioFail := false } }) ∧
    (s.status.mqMode ≠ .idle → exec .mqeInit s = faultNext .alreadyStarted s)

/-- 43_mq_encoder.md R202, R203, R204, R208: `MQE.CODE` where the interval stays at or above 0x8000 adds
the estimate to C, takes it from A and changes nothing else; in every other case it takes the half the
bit is routed to, with the conditional exchange, moves the context's state once, by the bit compared
with the stored MPS, and doubles A back to 0x8000 or more, at most 15 times: A, C, T, CT, L and the at
most two bytes appended are those of that many doublings, with a byte transfer wherever CT reaches 0;
before the first of them C and CT are only shifted and counted down.  The encoder's registers are in
the range of R208, and no port fails. -/
def Obligations.MqeCodeOneDecision : Prop :=
  ∀ (s : State) (b : Bool) (ctx : Nat) (e : PtEntry), s.status.fault = false →
    s.status.mqMode = .encoding → s.status.ptValid = true → s.pt[ctx]? = some e →
    EncoderRegsOk s → quietPorts s →
    let p := qe e.idx
    let rest := s.coder.a - p
    let upper := if rest < p then !e.mps else e.mps
    let a := if b = upper then rest else p
    let c := if b = upper then s.coder.c + p.setWidth 28 else s.coder.c
    let moved : PtEntry := if b = e.mps then ⟨nmps e.idx, e.mps⟩
      else ⟨nlps e.idx, if switchMps e.idx then !e.mps else e.mps⟩
    (0x8000 ≤ a → exec (.mqeCode b ctx) s
      = okNext 0 { s with coder := { s.coder with a := a, c := c } }) ∧
    (a < 0x8000 → ∃ (t : State) (k : Nat) (bs : List Byte),
      exec (.mqeCode b ctx) s = okNext 0 { s with
        pt := s.pt.setIfInBounds ctx moved, coder := t.coder
        out := s.out ++ bs, portCalls := s.portCalls + bs.length } ∧
      (t.coder, bs) = encoderDoubled k { s.coder with a := a, c := c } ∧
      1 ≤ k ∧ k ≤ 15 ∧ bs.length ≤ 2 ∧ 0x8000 ≤ t.coder.a ∧ t.coder.a.toNat = a.toNat * 2 ^ k ∧
      (k < s.coder.ct.toNat → bs = [] ∧
        t.coder = { s.coder with
          a := t.coder.a, c := c <<< k, ct := s.coder.ct - BitVec.ofNat 4 k }))

/-- 43_mq_encoder.md R203, R204: `TransferByte` and the `PutByte` in it, on a port that does not fail:
the pending byte, with the carry unless it is 0xFF, is appended, unless it is the session's first;
after 0xFF the next byte takes bits 27:20 of C and CT is 7, else bits 26:19 and CT is 8; the bits
taken are cleared. -/
def Obligations.TransferByteStuffsAndCarries : Prop :=
  ∀ s : State, quietPorts s →
    let c := s.coder.c.toNat
    let carry := if s.coder.t = 0xFF then 0 else c / 2 ^ 27
    let low := if s.coder.t = 0xFF then c else c % 2 ^ 27
    let byte := s.coder.t + BitVec.ofNat 8 carry
    transferByte s = .ok () { s with
      out := if 0 ≤ s.coder.l then s.out ++ [byte] else s.out
      portCalls := if 0 ≤ s.coder.l then s.portCalls + 1 else s.portCalls
      coder :=
        { a := s.coder.a
          l := s.coder.l + 1
          t := BitVec.ofNat 8 (if byte = 0xFF then low / 2 ^ 20 else low / 2 ^ 19)
          c := BitVec.ofNat 28 (if byte = 0xFF then low % 2 ^ 20 else low % 2 ^ 19)
          ct := if byte = 0xFF then 7 else 8 } }

/-- 43_mq_encoder.md R205, 20_memory.md R71 (d): `MQE.CODENUM` is `MQE.CODE` of the bits of the value,
the highest first, under one context: of no bits it changes nothing; of n + 1 bits it is `MQE.CODE` of
bit n, and, if that ends `ok`, `MQE.CODENUM` of the n bits below; on ports that do not fail it ends
`ok`.  What the two leave alike after an IOFailure rests on notes/assumptions/16.md. -/
def Obligations.CodeNumIsABitSequence : Prop :=
  ∀ (s u : State) (v n ctx : Nat), s.status.fault = false → s.status.mqMode = .encoding →
    s.status.ptValid = true → ctx ≤ 18 →
    exec (.mqeCodeNum v 0 ctx) s = okNext 0 s ∧
    (n + 1 ≤ 16 → exec (.mqeCode (v.testBit n) ctx) s = .next u →
      (endsOk u → exec (.mqeCodeNum v (n + 1) ctx) s = exec (.mqeCodeNum v n ctx) u) ∧
      (¬ endsOk u → exec (.mqeCodeNum v (n + 1) ctx) s = .next u)) ∧
    (n ≤ 16 → quietPorts s → ∃ (t : State) (bs : List Byte),
      exec (.mqeCodeNum v n ctx) s = okNext 0 { s with
        pt := t.pt, coder := t.coder, out := s.out ++ bs, portCalls := t.portCalls } ∧
      ∀ k, k ≠ ctx → t.pt[k]? = s.pt[k]?)

/-- 43_mq_encoder.md R206, R203, R204: on ports that do not fail `MQE.FLUSH` ends `ok` in the same
session: C is shifted left by CT, and one, two or three byte transfers, each but the last followed by
such a shift, move the pending byte and the leading bits of C out, down to bit 16 of C at least; the byte
the last transfer loads into T stays there.  At most three bytes are appended; A, the probability state
and everything but the coder and `OUT` stay; with nothing yet to move out nothing is appended.  The encoder's registers are in the range of R208. -/
def Obligations.FlushCompletes : Prop :=
  ∀ s : State, s.status.fault = false → s.status.mqMode = .encoding → EncoderRegsOk s →
    quietPorts s →
    ∃ (k : Coder) (bs : List Byte), (k, bs) = flushed s.coder ∧
      exec .mqeFlush s = okNext 0 { s with
        coder := k, out := s.out ++ bs, portCalls := s.portCalls + bs.length } ∧
      bs.length ≤ 3 ∧ k.a = s.coder.a ∧ (7 = k.ct ∨ 8 = k.ct) ∧
      (bs.length : Int) = k.l - max 0 s.coder.l ∧
      (s.coder.ct = 12 → s.coder.l = -1 → bs = [])

/-- 43_mq_encoder.md R207: `MQE.MARKEND` appends 0xFF, 0xA1 and closes the session; L and the other
coder registers keep their values; with no encoding session open it is `NOT_STARTED`.  60_exceptions.md
R313, R317: a port that fails at the first or at the second byte is an IOFailure.  Which call fails is an
input of the model (notes/assumptions/6.md), and that the coder, the probability state and the tables
keep their values after it, where R317 leaves them undefined, is the model's choice
(notes/assumptions/16.md). -/
def Obligations.MarkEndClosesSegment : Prop :=
  ∀ s : State, s.status.fault = false →
    let failed := { s.status with
      mqMode := MqMode.idle, ptValid := false, sigValid := false, planeLive := false
      ioFail := true }
    (s.status.mqMode ≠ .encoding → exec .mqeMarkEnd s = faultNext .notStarted s) ∧
    (s.status.mqMode = .encoding → s.portCalls ∉ s.portFails → s.portCalls + 1 ∉ s.portFails →
      exec .mqeMarkEnd s = okNext 0 { s with
        out := s.out ++ [0xFF, 0xA1], portCalls := s.portCalls + 2
        status := { s.status with mqMode := .idle } }) ∧
    (s.status.mqMode = .encoding → s.portCalls ∈ s.portFails →
      exec .mqeMarkEnd s = .next { s with
        portCalls := s.portCalls + 1, status := failed, resp := some ⟨.ioFailure, 0⟩ }) ∧
    (s.status.mqMode = .encoding → s.portCalls ∉ s.portFails → s.portCalls + 1 ∈ s.portFails →
      exec .mqeMarkEnd s = .next { s with
        out := s.out ++ [0xFF], portCalls := s.portCalls + 2, status := failed
        resp := some ⟨.ioFailure, 0⟩ })

/-- 43_mq_encoder.md R208, 30_encoding.md R95: in an open encoding session, after every step, A is at
least 0x8000, CT from 1 to 12, L at least -1, and C + A small enough that no set bit leaves a 28-bit C;
and, after every step in which the host does not write `OUT` (20_memory.md R76 forbids it), in the
session's bytes a byte after 0xFF is at most 0x8F. -/
def Obligations.EncoderRegistersStayInRange : Prop :=
  (∀ s t : State, EncoderRegsOk s → step s = .next t → EncoderRegsOk t) ∧
  (∀ s t : State, EncoderOk s →
    (s.status.mqMode = .encoding → ∀ bytes rest, s.hostq ≠ .setOut bytes :: rest) →
    step s = .next t → EncoderOk t) ∧
  (∀ s : State, EncoderRegsOk s → s.status.mqMode = .encoding →
    s.coder.c.toNat + s.coder.a.toNat ≤ 2 ^ (28 - s.coder.ct.toNat) ∧
    s.coder.c.toNat * 2 ^ s.coder.ct.toNat < 2 ^ 28)

/-- 43_mq_encoder.md R209: what an `MQE.*` operation answers, leaves in the coder and the probability
state and appends to `OUT` is a function of the coder, the probability state and `STATUS`, and of
nothing else; the two states may differ in everything else, `OUT` itself included. -/
def Obligations.EncoderIsDeterministic : Prop :=
  ∀ (i : Instr) (s₁ s₂ t₁ t₂ : State) (v n ctx : Nat) (b : Bool),
    i ∈ [Instr.mqeInit, .mqeCode b ctx, .mqeCodeNum v n ctx, .mqeFlush, .mqeMarkEnd] →
    s₁.coder = s₂.coder → s₁.pt = s₂.pt → s₁.status = s₂.status →
    quietPorts s₁ → quietPorts s₂ → exec i s₁ = .next t₁ → exec i s₂ = .next t₂ →
    t₁.coder = t₂.coder ∧ t₁.pt = t₂.pt ∧ t₁.status = t₂.status ∧ t₁.resp = t₂.resp ∧
    ∃ bs, t₁.out = s₁.out ++ bs ∧ t₂.out = s₂.out ++ bs

/-! ### MQD -/

/-- 44_mq_decoder.md R231, R233: `MQD.INIT` takes two bytes, one where the segment is only a marker,
puts them in C one bit below the top, the second one position higher after 0xFF, opens a decoding
session and clears `DECFAIL` and `IOFAIL`; with fewer than two bytes left it is `TRUNCATED` and no
session is open.  No port fails. -/
def Obligations.MqdInitFillsRegister : Prop :=
  ∀ (s : State) (b₀ b₁ : Byte), s.status.fault = false → s.status.mqMode = .idle → quietPorts s →
    let opened := { s.status with mqMode := MqMode.decoding, decFail := none, ioFail := false }
    (s.inp[s.rp]? = some b₀ → s.inp[s.rp + 1]? = some b₁ →
      (b₀ ≠ 0xFF → exec .mqdInit s = okNext 0 { s with
        coder := ⟨0x8000, BitVec.ofNat 28 ((b₀.toNat * 2 ^ 8 + b₁.toNat) * 2 ^ 7), b₁, 1, 2⟩
        rp0 := s.rp, rp := s.rp + 2, portCalls := s.portCalls + 4, diverged := false
        status := opened }) ∧
      (b₀ = 0xFF → b₁ ≤ 0x8F → exec .mqdInit s = okNext 0 { s with
        coder := ⟨0x8000, BitVec.ofNat 28 ((0xFF00 + b₁.toNat * 2) * 2 ^ 7), b₁, 0, 2⟩
        rp0 := s.rp, rp := s.rp + 2, portCalls := s.portCalls + 4, diverged := false
        status := opened }) ∧
      (b₀ = 0xFF → 0x8F < b₁ → exec .mqdInit s = okNext 0 { s with
        coder := ⟨0x8000, 0x7FFF80, 0xFF, 1, 1⟩
        rp0 := s.rp, rp := s.rp + 1, portCalls := s.portCalls + 3, diverged := false
        status := opened })) ∧
    (s.inp.length ≤ s.rp + 1 → ∃ t, exec .mqdInit s = .next t ∧
      t.resp = some ⟨.decodeFailure, 1⟩ ∧ t.status.mqMode = .idle ∧
      t.status.decFail = some .truncated ∧ t.out = s.out ∧ t.mem = s.mem ∧ t.inp = s.inp)

/-- 44_mq_decoder.md R232, R233, R234, R237: `MQD.DECODE` with two bytes left, or a marker ahead, ends
`ok`: it answers the half the code word lies in, lower exactly where `C_active` is below the estimate,
with the encoder's conditional exchange, and takes the estimate from `C_active` in the upper half; where
the interval stays at or above 0x8000 it takes no byte and moves no context; else it moves the context
once and doubles A back, at most 15 times and with at most two bytes taken: A, C, T, CT, L and RP are
those of that many turns of `RenormOnce`, a byte looked at wherever CT is 0.  The decoder is in a state
R237 allows, and no port fails.  On input that an encoder wrote this is so whatever label is asked for
(70_reset_and_hazards.md R350; that C is the low 24 bits is 10_state.md R25); on input that no encoder
wrote, after a set bit has left C, the answer is a free value, and of it, and of the C left before the
doublings, nothing is then said (notes/assumptions/10.md, notes/assumptions/23.md). -/
def Obligations.MqdDecodeOneDecision : Prop :=
  ∀ (s : State) (ctx : Nat) (e : PtEntry), s.status.fault = false →
    s.status.mqMode = .decoding → s.status.ptValid = true → s.pt[ctx]? = some e →
    DecoderOk s → quietPorts s → (s.rp + 2 ≤ s.inp.length ∨ MarkerAhead s) →
    let p := qe e.idx
    let rest := s.coder.a - p
    let upper := if rest < p then !e.mps else e.mps
    let active := s.coder.c.toNat / 2 ^ 8
    ∃ (b : Bool) (c : BitVec 28) (free : Nat),
      let a := if b = upper then rest else p
      let halved := { s with coder := { s.coder with a := a, c := c }, freeBits := free }
      let moved : PtEntry := if b = e.mps then ⟨nmps e.idx, e.mps⟩
        else ⟨nlps e.idx, if switchMps e.idx then !e.mps else e.mps⟩
      (s.diverged = false ∨ s.inForeign = false → b = (if active < p.toNat then !upper else upper) ∧
        c.toNat = (if b = upper then s.coder.c.toNat - p.toNat * 2 ^ 8 else s.coder.c.toNat) ∧
        free = s.freeBits) ∧
      (0x8000 ≤ a → exec (.mqdDecode ctx) s = okNext (if b then 1 else 0) halved) ∧
      (a < 0x8000 → ∃ (k : Nat) (t : State), 1 ≤ k ∧ k ≤ 15 ∧
        t = decoderDoubled k { halved with pt := s.pt.setIfInBounds ctx moved } ∧
        exec (.mqdDecode ctx) s = okNext (if b then 1 else 0) t ∧
        0x8000 ≤ t.coder.a ∧ t.coder.a.toNat = a.toNat * 2 ^ k ∧
        s.rp ≤ t.rp ∧ t.rp ≤ s.rp + 2 ∧ (t.rp : Int) = s.rp + (t.coder.l - s.coder.l))

/-- 44_mq_decoder.md R235: `MQD.DECODENUM` is `MQD.DECODE` n times under one context, the first bit the
highest of the value: of no bits it answers 0 and changes nothing; of n + 1 bits it is `MQD.DECODE`,
and, if that ends `ok`, `MQD.DECODENUM` of n bits, with the values put together where that ends `ok`, and
as that ends where it does not; with two bytes left for each bit, or a marker ahead, it ends `ok` with a
value below 2^n.  What the two leave alike after a failure rests on notes/assumptions/16.md. -/
def Obligations.DecodeNumIsABitSequence : Prop :=
  ∀ (s u : State) (n ctx : Nat), s.status.fault = false → s.status.mqMode = .decoding →
    s.status.ptValid = true → ctx ≤ 18 →
    exec (.mqdDecodeNum 0 ctx) s = okNext 0 s ∧
    (n + 1 ≤ 16 → exec (.mqdDecode ctx) s = .next u →
      (∀ b t v, u.resp = some ⟨.ok, BitVec.ofNat 32 b⟩ → b < 2 → v < 2 ^ n →
        exec (.mqdDecodeNum n ctx) u = okNext (BitVec.ofNat 32 v) t →
        exec (.mqdDecodeNum (n + 1) ctx) s = okNext (BitVec.ofNat 32 (b * 2 ^ n + v)) t) ∧
      (∀ t, endsOk u → exec (.mqdDecodeNum n ctx) u = .next t → ¬ endsOk t →
        exec (.mqdDecodeNum (n + 1) ctx) s = .next t) ∧
      (¬ endsOk u → exec (.mqdDecodeNum (n + 1) ctx) s = .next u)) ∧
    (n ≤ 16 → DecoderOk s → quietPorts s → (s.rp + 2 * n ≤ s.inp.length ∨ MarkerAhead s) →
      ∃ (t : State) (v : Nat), v < 2 ^ n ∧
        exec (.mqdDecodeNum n ctx) s = okNext (BitVec.ofNat 32 v) { s with
          pt := t.pt, coder := t.coder, rp := t.rp, portCalls := t.portCalls
          diverged := t.diverged, freeBits := t.freeBits } ∧
        ∀ k, k ≠ ctx → t.pt[k]? = s.pt[k]?)

/-- 44_mq_decoder.md R236, 20_memory.md R69, R70: `MQD.SKIPEND` looks from the decoder's position for
0xFF, the byte taken last or a later one, followed by 0xA1; k bytes before it count 8k garbage bits; it
stands just after the marker and closes the session.  More than `CODE_VALUE_BITS` - 2 garbage bits are
`GARBAGE`, the end of `IN` before a marker is `TRUNCATED`.  No port fails. -/
def Obligations.SkipEndFindsMarker : Prop :=
  ∀ (s : State) (k : Nat), s.status.fault = false → s.status.mqMode = .decoding → quietPorts s →
    let before := fun j => if j = 0 then some s.coder.t else s.inp[s.rp + j - 1]?
    let marker := fun j => before j = some 0xFF ∧ s.inp[s.rp + j]? = some 0xA1
    ((∀ j < k, ¬ marker j) → marker k → 8 * k + 2 ≤ max 2 s.params.codeValueBits →
      exec .mqdSkipEnd s = okNext (BitVec.ofNat 32 (8 * k)) { s with
        coder := { s.coder with t := 0xFF, l := s.coder.l + k + 1 }
        rp := s.rp + k + 1, portCalls := s.portCalls + 2 * k + 2
        status := { s.status with mqMode := .idle } }) ∧
    ((∀ j ≤ k, s.rp + j < s.inp.length ∧ ¬ marker j) → 8 * k + 2 ≤ max 2 s.params.codeValueBits →
      s.params.codeValueBits < 8 * k + 10 →
      ∃ t, exec .mqdSkipEnd s = .next t ∧ t.resp = some ⟨.decodeFailure, 2⟩ ∧
        t.status.decFail = some .garbage ∧ t.status.mqMode = .idle ∧ t.rp = s.rp + k) ∧
    ((∀ j < k, ¬ marker j) → s.rp + k = s.inp.length →
      8 * k + 2 ≤ max 2 s.params.codeValueBits →
      ∃ t, exec .mqdSkipEnd s = .next t ∧ t.resp = some ⟨.decodeFailure, 1⟩ ∧
        t.status.decFail = some .truncated ∧ t.status.mqMode = .idle ∧ t.rp = s.rp + k)

/-- 44_mq_decoder.md R237: in an open decoding session, after every step in which the host does not
reposition `IN` (20_memory.md R76 forbids it), A is at least 0x8000, CT at most 7, L at least 1, C below
2^24 and RP = RP0 + L.  That C is masked to 24 bits is the model's choice among those R237 gives
(notes/assumptions/10.md). -/
def Obligations.DecoderRegistersStayInRange : Prop :=
  ∀ s t : State, DecoderOk s → (∀ bytes rp foreign rest, s.hostq ≠ .setIn bytes rp foreign :: rest) →
    step s = .next t → DecoderOk t

/-- 44_mq_decoder.md R232: the decoder mirrors the encoder: with the same interval length and the same
probability state on both sides, coding a bit and decoding that bit under the same label leave the same
interval length and the same probability state, whatever the rest of the two states. -/
def Obligations.DecoderMirrorsEncoder : Prop :=
  ∀ (s d t u : State) (b : Bool) (ctx : Nat), s.status.fault = false → d.status.fault = false →
    s.coder.a = d.coder.a → 0x8000 ≤ s.coder.a → s.pt = d.pt →
    exec (.mqeCode b ctx) s = .next t → exec (.mqdDecode ctx) d = .next u →
    t.resp = some ⟨.ok, 0⟩ → u.resp = some ⟨.ok, if b then 1 else 0⟩ →
    t.coder.a = u.coder.a ∧ t.pt = u.pt ∧ 0x8000 ≤ t.coder.a

/-- 20_memory.md R67, R68: every command only appends to `OUT`, never changes `IN`, never moves RP
backwards and never past the end of `IN`; only the encoding commands append a byte, so that a decoding
command appends none, and only the decoding commands take one, so that an encoding command takes
none. -/
def Obligations.StreamsOnlyMoveForward : Prop :=
  ∀ (i : Instr) (s t : State), exec i s = .next t →
    (∃ bs, t.out = s.out ++ bs) ∧ t.inp = s.inp ∧ s.rp ≤ t.rp ∧
    (s.rp ≤ s.inp.length → t.rp ≤ s.inp.length) ∧
    (t.out = s.out ∨ i ∈ [.mqeFlush, .mqeMarkEnd, .ebEncode] ∨ (∃ b ctx, i = .mqeCode b ctx) ∨
      (∃ v n ctx, i = .mqeCodeNum v n ctx) ∨
      ∃ p, i = .ebSigPass .encode p ∨ i = .ebRefPass .encode p ∨ i = .ebCleanup .encode p) ∧
    (t.rp = s.rp ∨ i ∈ [.mqdInit, .mqdSkipEnd, .ebDecode] ∨ (∃ ctx, i = .mqdDecode ctx) ∨
      (∃ n ctx, i = .mqdDecodeNum n ctx) ∨
      ∃ p, i = .ebSigPass .decode p ∨ i = .ebRefPass .decode p ∨ i = .ebCleanup .decode p)

/-! ### EB -/

/-- 45_pass_sequencer.md R260, R272 (a), 30_encoding.md R94, R95: on a legal configuration, with no
session open and ports that do not fail, `EB.ENCODE` ends `ok` for every block: it appends one segment,
a body in which a byte after 0xFF is at most 0x8F, then 0xFF, 0xA1; `MEM` is not written; at the end
every coefficient is coded, plane 0 is current and the three validity bits are 1. -/
def Obligations.EncodeBlockCompletes : Prop :=
  ∀ s : State, s.status.fault = false → geomOK s = true → s.status.mqMode = .idle → quietPorts s →
    ∃ (t : State) (body : List Byte),
      exec .ebEncode s = okNext 0 { s with
        status := { s.status with
          ptValid := true, sigValid := true, planeLive := true, ioFail := false }
        coder := t.coder, pt := t.pt, sig := t.sig, curPlane := 0, coded := t.coded
        out := s.out ++ body ++ [0xFF, 0xA1], portCalls := t.portCalls } ∧
      Stuffed body ∧ ∀ r c, r < s.H → c < s.W → codedAt t r c = true

/-- 45_pass_sequencer.md R267, 44_mq_decoder.md R233, R236: with the first marker `FF A1` k bytes
ahead `EB.DECODE` on a legal configuration runs every pass to its end, and then is `GARBAGE` or ends
`ok` with RP just after the marker and every coefficient coded.  It ends `ok` where the k bytes are
within the tolerance, as they are in the empty segment (k = 0): then the garbage is at most 8k bits and
nothing but the coder, the tables, the plane, `MEM`, RP and `STATUS` changes.  No port fails. -/
def Obligations.DecodeBlockCompletes : Prop :=
  ∀ (s : State) (k : Nat), s.status.fault = false → geomOK s = true → s.status.mqMode = .idle →
    quietPorts s →
    let marker := fun j => s.inp[s.rp + j]? = some 0xFF ∧ s.inp[s.rp + j + 1]? = some 0xA1
    marker k → (∀ j < k, ¬ marker j) →
    (∃ t, exec .ebDecode s = .next t ∧ t.status.fault = false ∧
      (t.resp = some ⟨.decodeFailure, 2⟩ ∨
        (endsOk t ∧ t.rp = s.rp + k + 2 ∧ ∀ r c, r < s.H → c < s.W → codedAt t r c = true))) ∧
    (8 * k + 2 ≤ max 2 s.params.codeValueBits →
      ∃ (t : State) (g : Nat), g ≤ k ∧
        exec .ebDecode s = okNext (BitVec.ofNat 32 (8 * g)) { s with
          status := { s.status with
            ptValid := true, sigValid := true, planeLive := true, decFail := none
            ioFail := false }
          coder := t.coder, pt := t.pt, sig := t.sig, curPlane := 0, coded := t.coded, mem := t.mem
          rp0 := s.rp, rp := s.rp + k + 2, portCalls := t.portCalls, diverged := t.diverged
          freeBits := t.freeBits })

/-- 45_pass_sequencer.md R263, R264, R265, R269, R272 (a): on ports that do not fail, and, decoding,
with a marker ahead, however far, the three passes run to their end in either direction.  `EB.SIGPASS`
leaves every `FIRST` flag, `EB.REFPASS` every significance state and sum; after `EB.REFPASS` every
significant coefficient is coded; `EB.CLEANUP`, started with every significant coefficient coded, leaves
every coefficient coded.  An encoding pass changes the coder, the probability state, the tables, the
coded flags and `OUT` and nothing else; a decoding pass changes `MEM`, RP and the model's free bits
instead of `OUT`.  Which decisions a pass makes, HandDrivenBlockIsTheSame says. -/
def Obligations.PassesComplete : Prop :=
  ∀ (dir : Dir) (i : Nat) (s : State), PassReady dir i s →
    let after := fun (t : State) =>
      let u := { s with
        coder := t.coder, pt := t.pt, sig := t.sig, coded := t.coded, portCalls := t.portCalls }
      match dir with
      | .encode => { u with out := t.out }
      | .decode => { u with mem := t.mem, rp := t.rp, diverged := t.diverged, freeBits := t.freeBits }
    (∃ t, exec (.ebSigPass dir i) s = okNext 0 (after t) ∧ t.sig.first = s.sig.first) ∧
    (∃ t, exec (.ebRefPass dir i) s = okNext 0 (after t) ∧
      t.sig = { s.sig with first := t.sig.first } ∧
      ∀ r c, r < s.H → c < s.W → isSignificant s.sig r c = true → codedAt t r c = true) ∧
    ((∀ r c, r < s.H → c < s.W → isSignificant s.sig r c = true → codedAt s r c = true) →
      ∃ t, exec (.ebCleanup dir i) s = okNext 0 (after t) ∧ t.sig.first = s.sig.first ∧
        ∀ r c, r < s.H → c < s.W → codedAt t r c = true)

/-- 45_pass_sequencer.md R271: a block driven by hand, its expansion issued as commands, leaves exactly
the state and the bytes of `EB.ENCODE` or `EB.DECODE`, wherever that ends `ok`.  R262 to R266, R268: and
a pass whose checks hold is the sequence of unit commands its rule writes out, each chosen by what the
ones before it answered: at every coefficient in scan order the tests, the label, the magnitude
decision, the sign decision xor the bit of `SIG.SIGNCTX`, the coded mark, and in the cleanup pass the
run-length decision and its pointer; it ends as they end, `ok` with no result or as the first that
does not.  What is left alike after a failure rests on notes/assumptions/16.md. -/
def Obligations.HandDrivenBlockIsTheSame : Prop :=
  (∀ s t : State, s.status.fault = false → endsOk t →
    (exec .ebEncode s = .next t → runAll (encodeCommands s.D) s = t) ∧
    (exec .ebDecode s = .next t → runAll (decodeCommands s.D) s = t)) ∧
  ∀ (dir : Dir) (i : Nat) (s : State), PassChecked dir i s →
    exec (.ebSigPass dir i) s = .next (runScript (sigPassScript dir i s.cfg.sb s.H s.W) s) ∧
    exec (.ebRefPass dir i) s = .next (runScript (refPassScript dir i s.H s.W) s) ∧
    exec (.ebCleanup dir i) s = .next (runScript (cleanupScript dir i s.cfg.sb s.H s.W) s)

/-- 45_pass_sequencer.md R272 (f), 43_mq_encoder.md R209, 20_memory.md R60: what `EB.ENCODE` appends
depends on the block's bits D:0, H, W, D and the sub-band only: two machines that agree on these append
the same segment, wherever their blocks lie in `MEM` and whatever else they hold. -/
def Obligations.EncodeDependsOnBlockOnly : Prop :=
  ∀ s₁ s₂ t₁ t₂ : State,
    s₁.status.fault = false → s₂.status.fault = false → geomOK s₁ = true → geomOK s₂ = true →
    s₁.status.mqMode = .idle → s₂.status.mqMode = .idle → quietPorts s₁ → quietPorts s₂ →
    s₁.cfg.h = s₂.cfg.h → s₁.cfg.w = s₂.cfg.w → s₁.cfg.d = s₂.cfg.d → s₁.cfg.sb = s₂.cfg.sb →
    (∀ r c k, r < s₁.H → c < s₁.W → k ≤ s₁.D →
      (wordAt s₁ (memAddr s₁ r c)).getLsbD k = (wordAt s₂ (memAddr s₂ r c)).getLsbD k) →
    exec .ebEncode s₁ = .next t₁ → exec .ebEncode s₂ = .next t₂ →
    t₁.pt = t₂.pt ∧ ∃ segment, t₁.out = s₁.out ++ segment ∧ t₂.out = s₂.out ++ segment

/-- 20_memory.md R60, R62, R63, 45_pass_sequencer.md R260: no command changes a word of `MEM` outside
the block or a bit above D of any word; only `BP.SETBIT`, `BP.SETSIGN` and the decoding sequencer
operations change `MEM` at all. -/
def Obligations.OnlyBlockBitsChange : Prop :=
  ∀ (i : Instr) (s t : State), exec i s = .next t →
    (∀ a, (∀ r c, r < s.H → c < s.W → a ≠ memAddr s r c) → wordAt t a = wordAt s a) ∧
    (∀ a k, s.D < k → (wordAt t a).getLsbD k = (wordAt s a).getLsbD k) ∧
    (t.mem = s.mem ∨ i = .ebDecode ∨ (∃ p r c b, i = .bpSetBit p r c b) ∨
      (∃ r c b, i = .bpSetSign r c b) ∨
      ∃ p, i = .ebSigPass .decode p ∨ i = .ebRefPass .decode p ∨ i = .ebCleanup .decode p)

/-! ### CFG -/

/-- 46_config_ops.md R300, 10_state.md R21: `CFG.SET` of registers 0 to 6 with a value of the
register's width, outside a session, stores it, so that `CFG.GET` of that register answers it and of the
six others what it answered before, and clears `SIG_VALID` and `PLANE_LIVE`; nothing but the
configuration registers and those two bits changes.  In a session it is `ALREADY_STARTED`; a register
above 6 or a value too wide is `BAD_OPERAND`. -/
def Obligations.CfgSetStoresRegister : Prop :=
  ∀ (s : State) (reg val width : Nat), s.status.fault = false →
    (s.status.mqMode ≠ .idle → exec (.cfgSet reg val) s = faultNext .alreadyStarted s) ∧
    (s.status.mqMode = .idle → 6 < reg → exec (.cfgSet reg val) s = faultNext .badOperand s) ∧
    (s.status.mqMode = .idle → [11, 11, 5, 2, 20, 20, 20][reg]? = some width →
      (2 ^ width ≤ val → exec (.cfgSet reg val) s = faultNext .badOperand s) ∧
      (val < 2 ^ width → ∃ t : State, exec (.cfgSet reg val) s = .next t ∧
        t = { s with
          cfg := t.cfg, status := { s.status with sigValid := false, planeLive := false }
          resp := some ⟨.ok, 0⟩ } ∧
        exec (.cfgGet reg) t = okNext (BitVec.ofNat 32 val) t ∧
        ∀ reg', reg' ≤ 6 → reg' ≠ reg → ∃ v,
          exec (.cfgGet reg') s = okNext v s ∧ exec (.cfgGet reg') t = okNext v t))

/-- 46_config_ops.md R301, 10_state.md R22, R26, R39: `CFG.GET` answers every register the block has and
changes no state, `FAULT` or not; the coder registers only in a session, `CUR_PLANE` only with a live
plane, the probability state only while it is valid; any other number is `BAD_OPERAND`.  `STATUS` is
answered as its 13 bits, in them the numbers 60_exceptions.md R311, R312 give the codes.  30_encoding.md
R100: the host reads the outcome of a command as a number from 0 to 3, and its payload. -/
def Obligations.CfgGetReadsRegisters : Prop :=
  ([FaultCode.illegalCmd, .badContext, .badCoord, .badPlane, .badStateIndex, .notStarted,
      .alreadyStarted, .alreadySignificant, .notInitialised, .badConfig, .badOperand].map
      faultCodeNat = [1, 2, 3, 4, 5, 6, 7, 8, 9, 10, 11] ∧
    faultCodeField none = 0 ∧ ∀ code, faultCodeField (some code) = faultCodeNat code) ∧
  (∀ (s : State) (kind : RespKind) (payload : Word), s.resp = some ⟨kind, payload⟩ →
    responseRead s = some
      (match kind with | .ok => 0 | .protocolFault => 1 | .decodeFailure => 2 | .ioFailure => 3,
        payload)) ∧
  (∀ st : Status,
    field (statusNat st) 1 0 =
      (match st.mqMode with | .idle => 0 | .encoding => 1 | .decoding => 2) ∧
    bitField (statusNat st) 2 = st.ptValid ∧ bitField (statusNat st) 3 = st.sigValid ∧
    bitField (statusNat st) 4 = st.planeLive ∧ bitField (statusNat st) 5 = st.fault ∧
    field (statusNat st) 9 6 = faultCodeField st.faultCode ∧
    field (statusNat st) 11 10 =
      (match st.decFail with | none => 0 | some .truncated => 1 | some .garbage => 2) ∧
    bitField (statusNat st) 12 = st.ioFail ∧ statusNat st < 2 ^ 13) ∧
  ∀ s : State,
    exec (.cfgGet 0) s = okNext (s.cfg.h.setWidth 32) s ∧
    exec (.cfgGet 1) s = okNext (s.cfg.w.setWidth 32) s ∧
    exec (.cfgGet 2) s = okNext (s.cfg.d.setWidth 32) s ∧
    exec (.cfgGet 3) s
      = okNext (match s.cfg.sb with | .ll => 0 | .lh => 1 | .hl => 2 | .hh => 3) s ∧
    exec (.cfgGet 4) s = okNext (s.cfg.rowOff.setWidth 32) s ∧
    exec (.cfgGet 5) s = okNext (s.cfg.colOff.setWidth 32) s ∧
    exec (.cfgGet 6) s = okNext (s.cfg.stride.setWidth 32) s ∧
    exec (.cfgGet 7) s = okNext (BitVec.ofNat 32 (statusNat s.status)) s ∧
    (s.status.mqMode ≠ .idle →
      exec (.cfgGet 8) s = okNext (s.coder.a.setWidth 32) s ∧
      exec (.cfgGet 9) s = okNext (s.coder.c.setWidth 32) s ∧
      exec (.cfgGet 10) s = okNext (s.coder.t.setWidth 32) s ∧
      exec (.cfgGet 11) s = okNext (s.coder.ct.setWidth 32) s ∧
      exec (.cfgGet 12) s = okNext (BitVec.ofInt 32 s.coder.l) s) ∧
    (s.status.mqMode = .idle → ∀ reg, 8 ≤ reg → reg ≤ 12 →
      exec (.cfgGet reg) s = .next (takeProtocolFault .notStarted s)) ∧
    (s.status.planeLive = true → exec (.cfgGet 13) s = okNext (s.curPlane.setWidth 32) s) ∧
    (s.status.planeLive = false →
      exec (.cfgGet 13) s = .next (takeProtocolFault .notInitialised s)) ∧
    exec (.cfgGet 14) s = okNext (BitVec.ofNat 32 s.rp) s ∧
    exec (.cfgGet 15) s = okNext (BitVec.ofNat 32 s.out.length) s ∧
    (∀ ctx e, s.pt[ctx]? = some e →
      (s.status.ptValid = true → exec (.cfgGet (16 + ctx)) s
        = okNext (BitVec.ofNat 32 (e.idx.val + if e.mps then 64 else 0)) s) ∧
      (s.status.ptValid = false →
        exec (.cfgGet (16 + ctx)) s = .next (takeProtocolFault .notInitialised s))) ∧
    ∀ reg, 34 < reg → exec (.cfgGet reg) s = .next (takeProtocolFault .badOperand s)

/-! ### The whole machine -/

/-- 10_state.md R36, 40_probability_table.md R127, 41_significance_table.md R140,
42_block_plane_view.md R170: which commands can change which state: the configuration registers only
`CFG.SET`; the probability state only `PT.RESET`, `PT.TRANS`, the coder's decisions and the sequencer;
the significance table only `SIG.RESET`, `SIG.REFCTX`, `SIG.SETSIG` and the sequencer; the plane only
`BP.NEWPLANE`, `BP.MARKCODED` and the sequencer; the coder registers only `MQE.*`, `MQD.*` and the
sequencer.  That a command that ends in a DecodeFailure or IOFailure (`MQE.MARKEND`, `MQD.SKIPEND`) keeps
the rest of this state, which 60_exceptions.md R317 leaves undefined, is the model's choice
(notes/assumptions/16.md).  What the host holds (the parameters, the port oracle, the queue, who wrote
`IN`) no command changes, and on input that an encoder wrote no command takes a free bit
(70_reset_and_hazards.md R350; notes/assumptions/23.md). -/
def Obligations.UnitsTouchOnlyTheirState : Prop :=
  ∀ (i : Instr) (s t : State), exec i s = .next t →
    let eb := i = .ebEncode ∨ i = .ebDecode ∨
      ∃ dir p, i = .ebSigPass dir p ∨ i = .ebRefPass dir p ∨ i = .ebCleanup dir p
    let decision := (∃ b ctx, i = .mqeCode b ctx) ∨ (∃ v n ctx, i = .mqeCodeNum v n ctx) ∨
      (∃ ctx, i = .mqdDecode ctx) ∨ ∃ n ctx, i = .mqdDecodeNum n ctx
    (t.cfg = s.cfg ∨ ∃ reg val, i = .cfgSet reg val) ∧
    (t.pt = s.pt ∨ i = .ptReset ∨ (∃ ctx m sw, i = .ptTrans ctx m sw) ∨ decision ∨ eb) ∧
    (t.sig = s.sig ∨ i = .sigReset ∨ (∃ r c, i = .sigRefCtx r c) ∨
      (∃ r c neg, i = .sigSetSig r c neg) ∨ eb) ∧
    (t.curPlane = s.curPlane ∨ (∃ p, i = .bpNewPlane p) ∨ i = .ebEncode ∨ i = .ebDecode) ∧
    (t.coded = s.coded ∨ (∃ p, i = .bpNewPlane p) ∨ (∃ p r c, i = .bpMarkCoded p r c) ∨ eb) ∧
    (t.coder = s.coder ∨ i = .mqeInit ∨ i = .mqeFlush ∨ i = .mqdInit ∨ i = .mqdSkipEnd ∨
      decision ∨ eb) ∧
    t.params = s.params ∧ t.portFails = s.portFails ∧ t.hostq = s.hostq ∧
    t.inForeign = s.inForeign ∧
    (t.freeBits = s.freeBits ∨ (s.inForeign = true ∧
      ((∃ ctx, i = .mqdDecode ctx) ∨ (∃ n ctx, i = .mqdDecodeNum n ctx) ∨ i = .ebDecode ∨
        ∃ p, i = .ebSigPass .decode p ∨ i = .ebRefPass .decode p ∨ i = .ebCleanup .decode p)))

/-- The model's own invariant (notes/assumptions/5.md, notes/assumptions/12.md): `MEM` and the
per-coefficient arrays keep their canonical form after every step, so that equal contents are equal
data. -/
def Obligations.CanonicalArraysKept : Prop :=
  ∀ s t : State, Canonical s → step s = .next t → Canonical t

/-- The state after reset meets every invariant stated here, and has the values 10_state.md R39 gives:
the configuration registers and `STATUS` 0, so `GeomOK` is false. -/
def Obligations.ResetMeetsInvariants : Prop :=
  Canonical State.reset ∧ SumsMatch State.reset ∧ EncoderRegsOk State.reset ∧
  EncoderOk State.reset ∧ DecoderOk State.reset ∧
  UniformFixed State.reset ∧ State.reset.cfg = ⟨0, 0, 0, .ll, 0, 0, 0⟩ ∧
  State.reset.status = ⟨.idle, false, false, false, false, none, none, false⟩ ∧
  geomOK State.reset = false
end

