-- ==== Sys2Proof/Laws/Cells.lean ====
section
/-! SUPPORT. Sparse arrays: reading after a write, the canonical form kept by every write, and two
canonical arrays that read the same being the same list. -/

namespace Sys2Proof.Machine

variable {α : Type}

/-- Reading after dropping: the default there, as before elsewhere. -/
theorem cellsGet_cellsDrop (d : α) (m : Cells α) (a b : Nat) :
    cellsGet d (cellsDrop m a) b = if b = a then d else cellsGet d m b := by
  induction m with
  | nil => simp [cellsGet, cellsDrop]
  | cons p m ih =>
    obtain ⟨k, v⟩ := p
    simp only [cellsDrop, cellsGet]
    split_ifs <;> simp_all [cellsGet]

/-- Reading after listing a value: that value there, as before elsewhere. -/
theorem cellsGet_cellsPut (d : α) (m : Cells α) (a : Nat) (x : α) (b : Nat) :
    cellsGet d (cellsPut m a x) b = if b = a then x else cellsGet d m b := by
  induction m with
  | nil => simp [cellsGet, cellsPut, eq_comm]
  | cons p m ih =>
    obtain ⟨k, v⟩ := p
    simp only [cellsPut, cellsGet]
    split_ifs <;> simp_all [cellsGet] <;> omega

/-- Reading after a write: the value written there, as before elsewhere. -/
@[simp] theorem cellsGet_cellsSet [DecidableEq α] (d : α) (m : Cells α) (a : Nat) (x : α) (b : Nat) :
    cellsGet d (cellsSet d m a x) b = if b = a then x else cellsGet d m b := by
  unfold cellsSet
  split_ifs <;> simp_all [cellsGet_cellsDrop, cellsGet_cellsPut]

@[simp] theorem cellsGet_nil (d : α) (a : Nat) : cellsGet d ([] : Cells α) a = d := rfl

variable [DecidableEq α]

/-- A lower bound may be lowered. -/
theorem cellsAbove_weaken {d : α} {lo lo' : Option Nat} {m : Cells α}
    (hlo : ∀ b, lo' = some b → ∃ a, lo = some a ∧ b ≤ a) (h : cellsAbove d lo m = true) :
    cellsAbove d lo' m = true := by
  cases m with
  | nil => rfl
  | cons p m =>
    obtain ⟨k, v⟩ := p
    simp only [cellsAbove, Bool.and_eq_true] at h ⊢
    refine ⟨⟨?_, h.1.2⟩, h.2⟩
    cases lo' with
    | none => rfl
    | some b =>
      obtain ⟨a, rfl, hab⟩ := hlo b rfl
      have := h.1.1
      simp only [decide_eq_true_eq] at this ⊢
      omega

/-- Dropping an index keeps the canonical form above a bound. -/
theorem cellsAbove_cellsDrop {d : α} {lo : Option Nat} {m : Cells α} (a : Nat)
    (h : cellsAbove d lo m = true) : cellsAbove d lo (cellsDrop m a) = true := by
  induction m generalizing lo with
  | nil => rfl
  | cons p m ih =>
    obtain ⟨k, v⟩ := p
    simp only [cellsAbove, Bool.and_eq_true] at h
    simp only [cellsDrop]
    split_ifs
    · refine ih (cellsAbove_weaken ?_ h.2)
      rintro b rfl
      exact ⟨k, rfl, by simpa using Nat.le_of_lt (by simpa using h.1.1)⟩
    · simp only [cellsAbove, Bool.and_eq_true]
      exact ⟨h.1, ih h.2⟩

/-- Listing a value that is not the default keeps the canonical form above a bound. -/
theorem cellsAbove_cellsPut {d : α} {lo : Option Nat} {m : Cells α} (a : Nat) {x : α} (hx : x ≠ d)
    (hlo : ∀ b, lo = some b → b < a) (h : cellsAbove d lo m = true) :
    cellsAbove d lo (cellsPut m a x) = true := by
  induction m generalizing lo with
  | nil =>
    cases lo with
    | none => simp [cellsPut, cellsAbove, hx]
    | some b => simpa [cellsPut, cellsAbove, hx] using hlo b rfl
  | cons p m ih =>
    obtain ⟨k, v⟩ := p
    simp only [cellsAbove, Bool.and_eq_true] at h
    simp only [cellsPut]
    split_ifs with h1 h2
    · simp only [cellsAbove, Bool.and_eq_true]
      refine ⟨⟨?_, by simpa using hx⟩, ⟨by simpa using h1, h.1.2⟩, h.2⟩
      cases lo with
      | none => rfl
      | some b => simpa using hlo b rfl
    · subst h2
      simp only [cellsAbove, Bool.and_eq_true]
      exact ⟨⟨h.1.1, by simpa using hx⟩, h.2⟩
    · simp only [cellsAbove, Bool.and_eq_true]
      refine ⟨h.1, ih ?_ h.2⟩
      rintro b ⟨⟩
      omega

/-- A write keeps the canonical form. -/
theorem cellsWf_cellsSet {d : α} {m : Cells α} (a : Nat) (x : α) (h : cellsWf d m = true) :
    cellsWf d (cellsSet d m a x) = true := by
  unfold cellsSet
  split_ifs with hx
  · exact cellsAbove_cellsDrop a h
  · exact cellsAbove_cellsPut a hx (by simp) h

theorem cellsWf_nil (d : α) : cellsWf d ([] : Cells α) = true := rfl

/-- Below its bound a canonical array reads the default. -/
theorem cellsGet_of_cellsAbove {d : α} {b a : Nat} {m : Cells α}
    (h : cellsAbove d (some b) m = true) (hab : a ≤ b) : cellsGet d m a = d := by
  induction m generalizing b with
  | nil => rfl
  | cons p m ih =>
    obtain ⟨k, v⟩ := p
    simp only [cellsAbove, Bool.and_eq_true, decide_eq_true_eq] at h
    have hka : k ≠ a := by omega
    simp only [cellsGet, hka, if_false]
    exact ih h.2 (by omega)

/-- Two arrays canonical above one bound that read the same are the same list. -/
theorem cellsAbove_ext {d : α} {lo : Option Nat} {m n : Cells α} (hm : cellsAbove d lo m = true)
    (hn : cellsAbove d lo n = true) (h : ∀ a, cellsGet d m a = cellsGet d n a) : m = n := by
  induction m generalizing lo n with
  | nil =>
    cases n with
    | nil => rfl
    | cons q n =>
      have hq := h q.1
      simp [cellsGet, cellsAbove] at hq hn
      exact absurd hq.symm hn.1.2
  | cons p m ih =>
    obtain ⟨k, v⟩ := p
    cases n with
    | nil =>
      have hp := h k
      simp [cellsGet, cellsAbove] at hp hm
      exact absurd hp hm.1.2
    | cons q n =>
      obtain ⟨l, w⟩ := q
      simp only [cellsAbove, Bool.and_eq_true, decide_eq_true_eq] at hm hn
      have hkl : k = l := by
        rcases Nat.lt_trichotomy k l with hlt | heq | hgt
        · have hp := h k
          have hne : l ≠ k := by omega
          simp only [cellsGet, if_true, hne, if_false] at hp
          rw [cellsGet_of_cellsAbove hn.2 (by omega)] at hp
          exact absurd hp hm.1.2
        · exact heq
        · have hp := h l
          have hne : k ≠ l := by omega
          simp only [cellsGet, if_true, hne, if_false] at hp
          rw [cellsGet_of_cellsAbove hm.2 (by omega)] at hp
          exact absurd hp.symm hn.1.2
      subst hkl
      have hv := h k
      simp only [cellsGet, if_true] at hv
      subst hv
      congr 1
      refine ih hm.2 hn.2 fun a => ?_
      have ha := h a
      simp only [cellsGet] at ha
      by_cases hka : k = a
      · subst hka
        rw [cellsGet_of_cellsAbove hm.2 le_rfl, cellsGet_of_cellsAbove hn.2 le_rfl]
      · simpa only [hka, if_false] using ha

/-- Equal contents are equal data. -/
theorem cellsWf_ext {d : α} {m n : Cells α} (hm : cellsWf d m = true) (hn : cellsWf d n = true)
    (h : ∀ a, cellsGet d m a = cellsGet d n a) : m = n :=
  cellsAbove_ext hm hn h

/-- The index of a coefficient names its row and its column. -/
theorem cellIndex_inj {r c r' c' : Nat} (hc : c < 2048) (hc' : c' < 2048) :
    cellIndex r c = cellIndex r' c' ↔ r = r' ∧ c = c' := by
  unfold cellIndex
  omega

end Sys2Proof.Machine
end

