-- ==== Sys2Proof/Laws/State.lean ====
section
/-! SUPPORT. What each update of the state writes and what it leaves: one lemma per update, one
conjunct per field, all true by definition. -/

namespace Sys2Proof.Machine

@[simp] theorem setMqMode_fields (m : MqMode) (s : State) :
    (setMqMode m s).params = s.params ∧
    (setMqMode m s).cfg = s.cfg ∧
    (setMqMode m s).status = { s.status with mqMode := m } ∧
    (setMqMode m s).coder = s.coder ∧
    (setMqMode m s).rp0 = s.rp0 ∧
    (setMqMode m s).pt = s.pt ∧
    (setMqMode m s).sig = s.sig ∧
    (setMqMode m s).curPlane = s.curPlane ∧
    (setMqMode m s).coded = s.coded ∧
    (setMqMode m s).mem = s.mem ∧
    (setMqMode m s).out = s.out ∧
    (setMqMode m s).inp = s.inp ∧
    (setMqMode m s).rp = s.rp ∧
    (setMqMode m s).portFails = s.portFails ∧
    (setMqMode m s).portCalls = s.portCalls ∧
    (setMqMode m s).inForeign = s.inForeign ∧
    (setMqMode m s).diverged = s.diverged ∧
    (setMqMode m s).freeBits = s.freeBits ∧
    (setMqMode m s).hostq = s.hostq ∧
    (setMqMode m s).resp = s.resp :=
  ⟨rfl, rfl, rfl, rfl, rfl, rfl, rfl, rfl, rfl, rfl, rfl, rfl, rfl, rfl, rfl, rfl,
    rfl, rfl, rfl, rfl⟩

@[simp] theorem setPtValid_fields (b : Bool) (s : State) :
    (setPtValid b s).params = s.params ∧
    (setPtValid b s).cfg = s.cfg ∧
    (setPtValid b s).status = { s.status with ptValid := b } ∧
    (setPtValid b s).coder = s.coder ∧
    (setPtValid b s).rp0 = s.rp0 ∧
    (setPtValid b s).pt = s.pt ∧
    (setPtValid b s).sig = s.sig ∧
    (setPtValid b s).curPlane = s.curPlane ∧
    (setPtValid b s).coded = s.coded ∧
    (setPtValid b s).mem = s.mem ∧
    (setPtValid b s).out = s.out ∧
    (setPtValid b s).inp = s.inp ∧
    (setPtValid b s).rp = s.rp ∧
    (setPtValid b s).portFails = s.portFails ∧
    (setPtValid b s).portCalls = s.portCalls ∧
    (setPtValid b s).inForeign = s.inForeign ∧
    (setPtValid b s).diverged = s.diverged ∧
    (setPtValid b s).freeBits = s.freeBits ∧
    (setPtValid b s).hostq = s.hostq ∧
    (setPtValid b s).resp = s.resp :=
  ⟨rfl, rfl, rfl, rfl, rfl, rfl, rfl, rfl, rfl, rfl, rfl, rfl, rfl, rfl, rfl, rfl,
    rfl, rfl, rfl, rfl⟩

@[simp] theorem setSigValid_fields (b : Bool) (s : State) :
    (setSigValid b s).params = s.params ∧
    (setSigValid b s).cfg = s.cfg ∧
    (setSigValid b s).status = { s.status with sigValid := b } ∧
    (setSigValid b s).coder = s.coder ∧
    (setSigValid b s).rp0 = s.rp0 ∧
    (setSigValid b s).pt = s.pt ∧
    (setSigValid b s).sig = s.sig ∧
    (setSigValid b s).curPlane = s.curPlane ∧
    (setSigValid b s).coded = s.coded ∧
    (setSigValid b s).mem = s.mem ∧
    (setSigValid b s).out = s.out ∧
    (setSigValid b s).inp = s.inp ∧
    (setSigValid b s).rp = s.rp ∧
    (setSigValid b s).portFails = s.portFails ∧
    (setSigValid b s).portCalls = s.portCalls ∧
    (setSigValid b s).inForeign = s.inForeign ∧
    (setSigValid b s).diverged = s.diverged ∧
    (setSigValid b s).freeBits = s.freeBits ∧
    (setSigValid b s).hostq = s.hostq ∧
    (setSigValid b s).resp = s.resp :=
  ⟨rfl, rfl, rfl, rfl, rfl, rfl, rfl, rfl, rfl, rfl, rfl, rfl, rfl, rfl, rfl, rfl,
    rfl, rfl, rfl, rfl⟩

@[simp] theorem setPlaneLive_fields (b : Bool) (s : State) :
    (setPlaneLive b s).params = s.params ∧
    (setPlaneLive b s).cfg = s.cfg ∧
    (setPlaneLive b s).status = { s.status with planeLive := b } ∧
    (setPlaneLive b s).coder = s.coder ∧
    (setPlaneLive b s).rp0 = s.rp0 ∧
    (setPlaneLive b s).pt = s.pt ∧
    (setPlaneLive b s).sig = s.sig ∧
    (setPlaneLive b s).curPlane = s.curPlane ∧
    (setPlaneLive b s).coded = s.coded ∧
    (setPlaneLive b s).mem = s.mem ∧
    (setPlaneLive b s).out = s.out ∧
    (setPlaneLive b s).inp = s.inp ∧
    (setPlaneLive b s).rp = s.rp ∧
    (setPlaneLive b s).portFails = s.portFails ∧
    (setPlaneLive b s).portCalls = s.portCalls ∧
    (setPlaneLive b s).inForeign = s.inForeign ∧
    (setPlaneLive b s).diverged = s.diverged ∧
    (setPlaneLive b s).freeBits = s.freeBits ∧
    (setPlaneLive b s).hostq = s.hostq ∧
    (setPlaneLive b s).resp = s.resp :=
  ⟨rfl, rfl, rfl, rfl, rfl, rfl, rfl, rfl, rfl, rfl, rfl, rfl, rfl, rfl, rfl, rfl,
    rfl, rfl, rfl, rfl⟩

@[simp] theorem setIoFail_fields (b : Bool) (s : State) :
    (setIoFail b s).params = s.params ∧
    (setIoFail b s).cfg = s.cfg ∧
    (setIoFail b s).status = { s.status with ioFail := b } ∧
    (setIoFail b s).coder = s.coder ∧
    (setIoFail b s).rp0 = s.rp0 ∧
    (setIoFail b s).pt = s.pt ∧
    (setIoFail b s).sig = s.sig ∧
    (setIoFail b s).curPlane = s.curPlane ∧
    (setIoFail b s).coded = s.coded ∧
    (setIoFail b s).mem = s.mem ∧
    (setIoFail b s).out = s.out ∧
    (setIoFail b s).inp = s.inp ∧
    (setIoFail b s).rp = s.rp ∧
    (setIoFail b s).portFails = s.portFails ∧
    (setIoFail b s).portCalls = s.portCalls ∧
    (setIoFail b s).inForeign = s.inForeign ∧
    (setIoFail b s).diverged = s.diverged ∧
    (setIoFail b s).freeBits = s.freeBits ∧
    (setIoFail b s).hostq = s.hostq ∧
    (setIoFail b s).resp = s.resp :=
  ⟨rfl, rfl, rfl, rfl, rfl, rfl, rfl, rfl, rfl, rfl, rfl, rfl, rfl, rfl, rfl, rfl,
    rfl, rfl, rfl, rfl⟩

@[simp] theorem setDecFail_fields (code : Option DecFail) (s : State) :
    (setDecFail code s).params = s.params ∧
    (setDecFail code s).cfg = s.cfg ∧
    (setDecFail code s).status = { s.status with decFail := code } ∧
    (setDecFail code s).coder = s.coder ∧
    (setDecFail code s).rp0 = s.rp0 ∧
    (setDecFail code s).pt = s.pt ∧
    (setDecFail code s).sig = s.sig ∧
    (setDecFail code s).curPlane = s.curPlane ∧
    (setDecFail code s).coded = s.coded ∧
    (setDecFail code s).mem = s.mem ∧
    (setDecFail code s).out = s.out ∧
    (setDecFail code s).inp = s.inp ∧
    (setDecFail code s).rp = s.rp ∧
    (setDecFail code s).portFails = s.portFails ∧
    (setDecFail code s).portCalls = s.portCalls ∧
    (setDecFail code s).inForeign = s.inForeign ∧
    (setDecFail code s).diverged = s.diverged ∧
    (setDecFail code s).freeBits = s.freeBits ∧
    (setDecFail code s).hostq = s.hostq ∧
    (setDecFail code s).resp = s.resp :=
  ⟨rfl, rfl, rfl, rfl, rfl, rfl, rfl, rfl, rfl, rfl, rfl, rfl, rfl, rfl, rfl, rfl,
    rfl, rfl, rfl, rfl⟩

@[simp] theorem setFault_fields (code : FaultCode) (s : State) :
    (setFault code s).params = s.params ∧
    (setFault code s).cfg = s.cfg ∧
    (setFault code s).status = { s.status with fault := true, faultCode := if s.status.fault then s.status.faultCode else some code } ∧
    (setFault code s).coder = s.coder ∧
    (setFault code s).rp0 = s.rp0 ∧
    (setFault code s).pt = s.pt ∧
    (setFault code s).sig = s.sig ∧
    (setFault code s).curPlane = s.curPlane ∧
    (setFault code s).coded = s.coded ∧
    (setFault code s).mem = s.mem ∧
    (setFault code s).out = s.out ∧
    (setFault code s).inp = s.inp ∧
    (setFault code s).rp = s.rp ∧
    (setFault code s).portFails = s.portFails ∧
    (setFault code s).portCalls = s.portCalls ∧
    (setFault code s).inForeign = s.inForeign ∧
    (setFault code s).diverged = s.diverged ∧
    (setFault code s).freeBits = s.freeBits ∧
    (setFault code s).hostq = s.hostq ∧
    (setFault code s).resp = s.resp :=
  ⟨rfl, rfl, rfl, rfl, rfl, rfl, rfl, rfl, rfl, rfl, rfl, rfl, rfl, rfl, rfl, rfl,
    rfl, rfl, rfl, rfl⟩

@[simp] theorem clearValidity_fields (s : State) :
    (clearValidity s).params = s.params ∧
    (clearValidity s).cfg = s.cfg ∧
    (clearValidity s).status = { s.status with mqMode := .idle, ptValid := false, sigValid := false, planeLive := false } ∧
    (clearValidity s).coder = s.coder ∧
    (clearValidity s).rp0 = s.rp0 ∧
    (clearValidity s).pt = s.pt ∧
    (clearValidity s).sig = s.sig ∧
    (clearValidity s).curPlane = s.curPlane ∧
    (clearValidity s).coded = s.coded ∧
    (clearValidity s).mem = s.mem ∧
    (clearValidity s).out = s.out ∧
    (clearValidity s).inp = s.inp ∧
    (clearValidity s).rp = s.rp ∧
    (clearValidity s).portFails = s.portFails ∧
    (clearValidity s).portCalls = s.portCalls ∧
    (clearValidity s).inForeign = s.inForeign ∧
    (clearValidity s).diverged = s.diverged ∧
    (clearValidity s).freeBits = s.freeBits ∧
    (clearValidity s).hostq = s.hostq ∧
    (clearValidity s).resp = s.resp :=
  ⟨rfl, rfl, rfl, rfl, rfl, rfl, rfl, rfl, rfl, rfl, rfl, rfl, rfl, rfl, rfl, rfl,
    rfl, rfl, rfl, rfl⟩

@[simp] theorem setWord_fields (addr : Nat) (v : Word) (s : State) :
    (setWord addr v s).params = s.params ∧
    (setWord addr v s).cfg = s.cfg ∧
    (setWord addr v s).status = s.status ∧
    (setWord addr v s).coder = s.coder ∧
    (setWord addr v s).rp0 = s.rp0 ∧
    (setWord addr v s).pt = s.pt ∧
    (setWord addr v s).sig = s.sig ∧
    (setWord addr v s).curPlane = s.curPlane ∧
    (setWord addr v s).coded = s.coded ∧
    (setWord addr v s).mem = cellsSet unwrittenWord s.mem addr v ∧
    (setWord addr v s).out = s.out ∧
    (setWord addr v s).inp = s.inp ∧
    (setWord addr v s).rp = s.rp ∧
    (setWord addr v s).portFails = s.portFails ∧
    (setWord addr v s).portCalls = s.portCalls ∧
    (setWord addr v s).inForeign = s.inForeign ∧
    (setWord addr v s).diverged = s.diverged ∧
    (setWord addr v s).freeBits = s.freeBits ∧
    (setWord addr v s).hostq = s.hostq ∧
    (setWord addr v s).resp = s.resp :=
  ⟨rfl, rfl, rfl, rfl, rfl, rfl, rfl, rfl, rfl, rfl, rfl, rfl, rfl, rfl, rfl, rfl,
    rfl, rfl, rfl, rfl⟩

@[simp] theorem respond_fields (kind : RespKind) (payload : Word) (s : State) :
    (respond kind payload s).params = s.params ∧
    (respond kind payload s).cfg = s.cfg ∧
    (respond kind payload s).status = s.status ∧
    (respond kind payload s).coder = s.coder ∧
    (respond kind payload s).rp0 = s.rp0 ∧
    (respond kind payload s).pt = s.pt ∧
    (respond kind payload s).sig = s.sig ∧
    (respond kind payload s).curPlane = s.curPlane ∧
    (respond kind payload s).coded = s.coded ∧
    (respond kind payload s).mem = s.mem ∧
    (respond kind payload s).out = s.out ∧
    (respond kind payload s).inp = s.inp ∧
    (respond kind payload s).rp = s.rp ∧
    (respond kind payload s).portFails = s.portFails ∧
    (respond kind payload s).portCalls = s.portCalls ∧
    (respond kind payload s).inForeign = s.inForeign ∧
    (respond kind payload s).diverged = s.diverged ∧
    (respond kind payload s).freeBits = s.freeBits ∧
    (respond kind payload s).hostq = s.hostq ∧
    (respond kind payload s).resp = some ⟨kind, payload⟩ :=
  ⟨rfl, rfl, rfl, rfl, rfl, rfl, rfl, rfl, rfl, rfl, rfl, rfl, rfl, rfl, rfl, rfl,
    rfl, rfl, rfl, rfl⟩

@[simp] theorem setPt_fields (ctx : Nat) (e : PtEntry) (s : State) :
    (setPt ctx e s).params = s.params ∧
    (setPt ctx e s).cfg = s.cfg ∧
    (setPt ctx e s).status = s.status ∧
    (setPt ctx e s).coder = s.coder ∧
    (setPt ctx e s).rp0 = s.rp0 ∧
    (setPt ctx e s).pt = s.pt.setIfInBounds ctx e ∧
    (setPt ctx e s).sig = s.sig ∧
    (setPt ctx e s).curPlane = s.curPlane ∧
    (setPt ctx e s).coded = s.coded ∧
    (setPt ctx e s).mem = s.mem ∧
    (setPt ctx e s).out = s.out ∧
    (setPt ctx e s).inp = s.inp ∧
    (setPt ctx e s).rp = s.rp ∧
    (setPt ctx e s).portFails = s.portFails ∧
    (setPt ctx e s).portCalls = s.portCalls ∧
    (setPt ctx e s).inForeign = s.inForeign ∧
    (setPt ctx e s).diverged = s.diverged ∧
    (setPt ctx e s).freeBits = s.freeBits ∧
    (setPt ctx e s).hostq = s.hostq ∧
    (setPt ctx e s).resp = s.resp :=
  ⟨rfl, rfl, rfl, rfl, rfl, rfl, rfl, rfl, rfl, rfl, rfl, rfl, rfl, rfl, rfl, rfl,
    rfl, rfl, rfl, rfl⟩

@[simp] theorem markCoded_fields (r c : Nat) (s : State) :
    (markCoded r c s).params = s.params ∧
    (markCoded r c s).cfg = s.cfg ∧
    (markCoded r c s).status = s.status ∧
    (markCoded r c s).coder = s.coder ∧
    (markCoded r c s).rp0 = s.rp0 ∧
    (markCoded r c s).pt = s.pt ∧
    (markCoded r c s).sig = s.sig ∧
    (markCoded r c s).curPlane = s.curPlane ∧
    (markCoded r c s).coded = cellsSet false s.coded (cellIndex r c) true ∧
    (markCoded r c s).mem = s.mem ∧
    (markCoded r c s).out = s.out ∧
    (markCoded r c s).inp = s.inp ∧
    (markCoded r c s).rp = s.rp ∧
    (markCoded r c s).portFails = s.portFails ∧
    (markCoded r c s).portCalls = s.portCalls ∧
    (markCoded r c s).inForeign = s.inForeign ∧
    (markCoded r c s).diverged = s.diverged ∧
    (markCoded r c s).freeBits = s.freeBits ∧
    (markCoded r c s).hostq = s.hostq ∧
    (markCoded r c s).resp = s.resp :=
  ⟨rfl, rfl, rfl, rfl, rfl, rfl, rfl, rfl, rfl, rfl, rfl, rfl, rfl, rfl, rfl, rfl,
    rfl, rfl, rfl, rfl⟩

@[simp] theorem setA_fields (a : BitVec 16) (s : State) :
    (setA a s).params = s.params ∧
    (setA a s).cfg = s.cfg ∧
    (setA a s).status = s.status ∧
    (setA a s).coder = { s.coder with a := a } ∧
    (setA a s).rp0 = s.rp0 ∧
    (setA a s).pt = s.pt ∧
    (setA a s).sig = s.sig ∧
    (setA a s).curPlane = s.curPlane ∧
    (setA a s).coded = s.coded ∧
    (setA a s).mem = s.mem ∧
    (setA a s).out = s.out ∧
    (setA a s).inp = s.inp ∧
    (setA a s).rp = s.rp ∧
    (setA a s).portFails = s.portFails ∧
    (setA a s).portCalls = s.portCalls ∧
    (setA a s).inForeign = s.inForeign ∧
    (setA a s).diverged = s.diverged ∧
    (setA a s).freeBits = s.freeBits ∧
    (setA a s).hostq = s.hostq ∧
    (setA a s).resp = s.resp :=
  ⟨rfl, rfl, rfl, rfl, rfl, rfl, rfl, rfl, rfl, rfl, rfl, rfl, rfl, rfl, rfl, rfl,
    rfl, rfl, rfl, rfl⟩

@[simp] theorem setC_fields (c : BitVec 28) (s : State) :
    (setC c s).params = s.params ∧
    (setC c s).cfg = s.cfg ∧
    (setC c s).status = s.status ∧
    (setC c s).coder = { s.coder with c := c } ∧
    (setC c s).rp0 = s.rp0 ∧
    (setC c s).pt = s.pt ∧
    (setC c s).sig = s.sig ∧
    (setC c s).curPlane = s.curPlane ∧
    (setC c s).coded = s.coded ∧
    (setC c s).mem = s.mem ∧
    (setC c s).out = s.out ∧
    (setC c s).inp = s.inp ∧
    (setC c s).rp = s.rp ∧
    (setC c s).portFails = s.portFails ∧
    (setC c s).portCalls = s.portCalls ∧
    (setC c s).inForeign = s.inForeign ∧
    (setC c s).diverged = s.diverged ∧
    (setC c s).freeBits = s.freeBits ∧
    (setC c s).hostq = s.hostq ∧
    (setC c s).resp = s.resp :=
  ⟨rfl, rfl, rfl, rfl, rfl, rfl, rfl, rfl, rfl, rfl, rfl, rfl, rfl, rfl, rfl, rfl,
    rfl, rfl, rfl, rfl⟩

@[simp] theorem setT_fields (t : BitVec 8) (s : State) :
    (setT t s).params = s.params ∧
    (setT t s).cfg = s.cfg ∧
    (setT t s).status = s.status ∧
    (setT t s).coder = { s.coder with t := t } ∧
    (setT t s).rp0 = s.rp0 ∧
    (setT t s).pt = s.pt ∧
    (setT t s).sig = s.sig ∧
    (setT t s).curPlane = s.curPlane ∧
    (setT t s).coded = s.coded ∧
    (setT t s).mem = s.mem ∧
    (setT t s).out = s.out ∧
    (setT t s).inp = s.inp ∧
    (setT t s).rp = s.rp ∧
    (setT t s).portFails = s.portFails ∧
    (setT t s).portCalls = s.portCalls ∧
    (setT t s).inForeign = s.inForeign ∧
    (setT t s).diverged = s.diverged ∧
    (setT t s).freeBits = s.freeBits ∧
    (setT t s).hostq = s.hostq ∧
    (setT t s).resp = s.resp :=
  ⟨rfl, rfl, rfl, rfl, rfl, rfl, rfl, rfl, rfl, rfl, rfl, rfl, rfl, rfl, rfl, rfl,
    rfl, rfl, rfl, rfl⟩

@[simp] theorem setCt_fields (ct : BitVec 4) (s : State) :
    (setCt ct s).params = s.params ∧
    (setCt ct s).cfg = s.cfg ∧
    (setCt ct s).status = s.status ∧
    (setCt ct s).coder = { s.coder with ct := ct } ∧
    (setCt ct s).rp0 = s.rp0 ∧
    (setCt ct s).pt = s.pt ∧
    (setCt ct s).sig = s.sig ∧
    (setCt ct s).curPlane = s.curPlane ∧
    (setCt ct s).coded = s.coded ∧
    (setCt ct s).mem = s.mem ∧
    (setCt ct s).out = s.out ∧
    (setCt ct s).inp = s.inp ∧
    (setCt ct s).rp = s.rp ∧
    (setCt ct s).portFails = s.portFails ∧
    (setCt ct s).portCalls = s.portCalls ∧
    (setCt ct s).inForeign = s.inForeign ∧
    (setCt ct s).diverged = s.diverged ∧
    (setCt ct s).freeBits = s.freeBits ∧
    (setCt ct s).hostq = s.hostq ∧
    (setCt ct s).resp = s.resp :=
  ⟨rfl, rfl, rfl, rfl, rfl, rfl, rfl, rfl, rfl, rfl, rfl, rfl, rfl, rfl, rfl, rfl,
    rfl, rfl, rfl, rfl⟩

@[simp] theorem setL_fields (l : Int) (s : State) :
    (setL l s).params = s.params ∧
    (setL l s).cfg = s.cfg ∧
    (setL l s).status = s.status ∧
    (setL l s).coder = { s.coder with l := l } ∧
    (setL l s).rp0 = s.rp0 ∧
    (setL l s).pt = s.pt ∧
    (setL l s).sig = s.sig ∧
    (setL l s).curPlane = s.curPlane ∧
    (setL l s).coded = s.coded ∧
    (setL l s).mem = s.mem ∧
    (setL l s).out = s.out ∧
    (setL l s).inp = s.inp ∧
    (setL l s).rp = s.rp ∧
    (setL l s).portFails = s.portFails ∧
    (setL l s).portCalls = s.portCalls ∧
    (setL l s).inForeign = s.inForeign ∧
    (setL l s).diverged = s.diverged ∧
    (setL l s).freeBits = s.freeBits ∧
    (setL l s).hostq = s.hostq ∧
    (setL l s).resp = s.resp :=
  ⟨rfl, rfl, rfl, rfl, rfl, rfl, rfl, rfl, rfl, rfl, rfl, rfl, rfl, rfl, rfl, rfl,
    rfl, rfl, rfl, rfl⟩

@[simp] theorem setDecC_fields (v : Nat) (s : State) :
    (setDecC v s).params = s.params ∧
    (setDecC v s).cfg = s.cfg ∧
    (setDecC v s).status = s.status ∧
    (setDecC v s).coder = { s.coder with c := BitVec.ofNat 28 (v % 2 ^ 24) } ∧
    (setDecC v s).rp0 = s.rp0 ∧
    (setDecC v s).pt = s.pt ∧
    (setDecC v s).sig = s.sig ∧
    (setDecC v s).curPlane = s.curPlane ∧
    (setDecC v s).coded = s.coded ∧
    (setDecC v s).mem = s.mem ∧
    (setDecC v s).out = s.out ∧
    (setDecC v s).inp = s.inp ∧
    (setDecC v s).rp = s.rp ∧
    (setDecC v s).portFails = s.portFails ∧
    (setDecC v s).portCalls = s.portCalls ∧
    (setDecC v s).inForeign = s.inForeign ∧
    (setDecC v s).diverged = (s.diverged || decide (2 ^ 24 ≤ v)) ∧
    (setDecC v s).freeBits = s.freeBits ∧
    (setDecC v s).hostq = s.hostq ∧
    (setDecC v s).resp = s.resp :=
  ⟨rfl, rfl, rfl, rfl, rfl, rfl, rfl, rfl, rfl, rfl, rfl, rfl, rfl, rfl, rfl, rfl,
    rfl, rfl, rfl, rfl⟩

@[simp] theorem hostSetIn_fields (bytes : List Byte) (rp : Nat) (foreign : Bool) (s : State) :
    (hostSetIn bytes rp foreign s).params = s.params ∧
    (hostSetIn bytes rp foreign s).cfg = s.cfg ∧
    (hostSetIn bytes rp foreign s).status = s.status ∧
    (hostSetIn bytes rp foreign s).coder = s.coder ∧
    (hostSetIn bytes rp foreign s).rp0 = s.rp0 ∧
    (hostSetIn bytes rp foreign s).pt = s.pt ∧
    (hostSetIn bytes rp foreign s).sig = s.sig ∧
    (hostSetIn bytes rp foreign s).curPlane = s.curPlane ∧
    (hostSetIn bytes rp foreign s).coded = s.coded ∧
    (hostSetIn bytes rp foreign s).mem = s.mem ∧
    (hostSetIn bytes rp foreign s).out = s.out ∧
    (hostSetIn bytes rp foreign s).inp = bytes ∧
    (hostSetIn bytes rp foreign s).rp = rp ∧
    (hostSetIn bytes rp foreign s).portFails = s.portFails ∧
    (hostSetIn bytes rp foreign s).portCalls = s.portCalls ∧
    (hostSetIn bytes rp foreign s).inForeign = foreign ∧
    (hostSetIn bytes rp foreign s).diverged = s.diverged ∧
    (hostSetIn bytes rp foreign s).freeBits = s.freeBits ∧
    (hostSetIn bytes rp foreign s).hostq = s.hostq ∧
    (hostSetIn bytes rp foreign s).resp = s.resp :=
  ⟨rfl, rfl, rfl, rfl, rfl, rfl, rfl, rfl, rfl, rfl, rfl, rfl, rfl, rfl, rfl, rfl,
    rfl, rfl, rfl, rfl⟩

@[simp] theorem hostDrainOut_fields (n : Nat) (s : State) :
    (hostDrainOut n s).params = s.params ∧
    (hostDrainOut n s).cfg = s.cfg ∧
    (hostDrainOut n s).status = s.status ∧
    (hostDrainOut n s).coder = s.coder ∧
    (hostDrainOut n s).rp0 = s.rp0 ∧
    (hostDrainOut n s).pt = s.pt ∧
    (hostDrainOut n s).sig = s.sig ∧
    (hostDrainOut n s).curPlane = s.curPlane ∧
    (hostDrainOut n s).coded = s.coded ∧
    (hostDrainOut n s).mem = s.mem ∧
    (hostDrainOut n s).out = s.out.drop n ∧
    (hostDrainOut n s).inp = s.inp ∧
    (hostDrainOut n s).rp = s.rp ∧
    (hostDrainOut n s).portFails = s.portFails ∧
    (hostDrainOut n s).portCalls = s.portCalls ∧
    (hostDrainOut n s).inForeign = s.inForeign ∧
    (hostDrainOut n s).diverged = s.diverged ∧
    (hostDrainOut n s).freeBits = s.freeBits ∧
    (hostDrainOut n s).hostq = s.hostq ∧
    (hostDrainOut n s).resp = s.resp :=
  ⟨rfl, rfl, rfl, rfl, rfl, rfl, rfl, rfl, rfl, rfl, rfl, rfl, rfl, rfl, rfl, rfl,
    rfl, rfl, rfl, rfl⟩

@[simp] theorem hostSetOut_fields (bytes : List Byte) (s : State) :
    (hostSetOut bytes s).params = s.params ∧
    (hostSetOut bytes s).cfg = s.cfg ∧
    (hostSetOut bytes s).status = s.status ∧
    (hostSetOut bytes s).coder = s.coder ∧
    (hostSetOut bytes s).rp0 = s.rp0 ∧
    (hostSetOut bytes s).pt = s.pt ∧
    (hostSetOut bytes s).sig = s.sig ∧
    (hostSetOut bytes s).curPlane = s.curPlane ∧
    (hostSetOut bytes s).coded = s.coded ∧
    (hostSetOut bytes s).mem = s.mem ∧
    (hostSetOut bytes s).out = bytes ∧
    (hostSetOut bytes s).inp = s.inp ∧
    (hostSetOut bytes s).rp = s.rp ∧
    (hostSetOut bytes s).portFails = s.portFails ∧
    (hostSetOut bytes s).portCalls = s.portCalls ∧
    (hostSetOut bytes s).inForeign = s.inForeign ∧
    (hostSetOut bytes s).diverged = s.diverged ∧
    (hostSetOut bytes s).freeBits = s.freeBits ∧
    (hostSetOut bytes s).hostq = s.hostq ∧
    (hostSetOut bytes s).resp = s.resp :=
  ⟨rfl, rfl, rfl, rfl, rfl, rfl, rfl, rfl, rfl, rfl, rfl, rfl, rfl, rfl, rfl, rfl,
    rfl, rfl, rfl, rfl⟩

@[simp] theorem popHost_fields (rest : List HostEvent) (s : State) :
    (popHost rest s).params = s.params ∧
    (popHost rest s).cfg = s.cfg ∧
    (popHost rest s).status = s.status ∧
    (popHost rest s).coder = s.coder ∧
    (popHost rest s).rp0 = s.rp0 ∧
    (popHost rest s).pt = s.pt ∧
    (popHost rest s).sig = s.sig ∧
    (popHost rest s).curPlane = s.curPlane ∧
    (popHost rest s).coded = s.coded ∧
    (popHost rest s).mem = s.mem ∧
    (popHost rest s).out = s.out ∧
    (popHost rest s).inp = s.inp ∧
    (popHost rest s).rp = s.rp ∧
    (popHost rest s).portFails = s.portFails ∧
    (popHost rest s).portCalls = s.portCalls ∧
    (popHost rest s).inForeign = s.inForeign ∧
    (popHost rest s).diverged = s.diverged ∧
    (popHost rest s).freeBits = s.freeBits ∧
    (popHost rest s).hostq = rest ∧
    (popHost rest s).resp = s.resp :=
  ⟨rfl, rfl, rfl, rfl, rfl, rfl, rfl, rfl, rfl, rfl, rfl, rfl, rfl, rfl, rfl, rfl,
    rfl, rfl, rfl, rfl⟩

@[simp] theorem pushCommand_fields (w : Word) (s : State) :
    (pushCommand w s).params = s.params ∧
    (pushCommand w s).cfg = s.cfg ∧
    (pushCommand w s).status = s.status ∧
    (pushCommand w s).coder = s.coder ∧
    (pushCommand w s).rp0 = s.rp0 ∧
    (pushCommand w s).pt = s.pt ∧
    (pushCommand w s).sig = s.sig ∧
    (pushCommand w s).curPlane = s.curPlane ∧
    (pushCommand w s).coded = s.coded ∧
    (pushCommand w s).mem = s.mem ∧
    (pushCommand w s).out = s.out ∧
    (pushCommand w s).inp = s.inp ∧
    (pushCommand w s).rp = s.rp ∧
    (pushCommand w s).portFails = s.portFails ∧
    (pushCommand w s).portCalls = s.portCalls ∧
    (pushCommand w s).inForeign = s.inForeign ∧
    (pushCommand w s).diverged = s.diverged ∧
    (pushCommand w s).freeBits = s.freeBits ∧
    (pushCommand w s).hostq = .command w :: s.hostq ∧
    (pushCommand w s).resp = s.resp :=
  ⟨rfl, rfl, rfl, rfl, rfl, rfl, rfl, rfl, rfl, rfl, rfl, rfl, rfl, rfl, rfl, rfl,
    rfl, rfl, rfl, rfl⟩

end Sys2Proof.Machine
end

