-- ==== Sys2Proof/Laws/Ops.lean ====
section
/-! SUPPORT. How an operation runs, step by step; the calculus that carries a relation between the
state before and the state after through any operation built from smaller ones; and what each shared
operation can do. -/

namespace Sys2Proof.Machine

/-! ### Running an operation -/

/-- The state an operation leaves, however it ends. -/
def endState {α : Type} : EStateM.Result Raise State α → State
  | .ok _ s => s
  | .error _ s => s

@[simp] theorem endState_ok {α : Type} (a : α) (s : State) :
    endState (.ok a s : EStateM.Result Raise State α) = s := rfl

@[simp] theorem endState_error {α : Type} (e : Raise) (s : State) :
    endState (.error e s : EStateM.Result Raise State α) = s := rfl

@[simp] theorem run_pure {α : Type} (a : α) (s : State) : (pure a : Op α) s = .ok a s := rfl

theorem run_bind {α β : Type} (x : Op α) (f : α → Op β) (s : State) :
    (x >>= f) s = match x s with
      | .ok a s' => f a s'
      | .error e s' => .error e s' := by
  change EStateM.bind x f s = _
  unfold EStateM.bind
  cases x s <;> rfl

theorem run_map {α β : Type} (f : α → β) (x : Op α) (s : State) :
    (f <$> x) s = match x s with
      | .ok a s' => .ok (f a) s'
      | .error e s' => .error e s' := by
  change EStateM.map f x s = _
  unfold EStateM.map
  cases x s <;> rfl

@[simp] theorem run_getS (s : State) : getS s = .ok s s := rfl

@[simp] theorem run_modS (f : State → State) (s : State) : modS f s = .ok () (f s) := rfl

@[simp] theorem run_raise {α : Type} (e : Raise) (s : State) :
    (raise e : Op α) s = .error e s := rfl

theorem run_require (cond : Bool) (code : FaultCode) (s : State) :
    require cond code s = if cond then .ok () s else .error (.protocolFault code) s := rfl

@[simp] theorem run_require_true {cond : Bool} (code : FaultCode) (s : State) (h : cond = true) :
    require cond code s = .ok () s := by simp [require, h]

@[simp] theorem run_require_false {cond : Bool} (code : FaultCode) (s : State) (h : cond = false) :
    require cond code s = .error (.protocolFault code) s := by simp [require, h]

theorem run_doIf (c : Prop) [Decidable c] (x : Op Unit) (s : State) :
    doIf c x s = if c then x s else .ok () s := by
  unfold doIf
  split <;> rfl

@[simp] theorem run_forEach_nil {α : Type} (body : α → Op Unit) (s : State) :
    forEach [] body s = .ok () s := rfl

theorem run_forEach_cons {α : Type} (x : α) (xs : List α) (body : α → Op Unit) (s : State) :
    forEach (x :: xs) body s = match body x s with
      | .ok _ s' => forEach xs body s'
      | .error e s' => .error e s' := by
  simp only [forEach, run_bind]
  cases body x s <;> rfl

/-- An operation that ends `ok` hands its result on. -/
theorem run_bind_ok {α β : Type} {x : Op α} {f : α → Op β} {s s' : State} {a : α}
    (h : x s = .ok a s') : (x >>= f) s = f a s' := by simp [run_bind, h]

/-- An operation that raises ends the whole. -/
theorem run_bind_error {α β : Type} {x : Op α} {f : α → Op β} {s s' : State} {e : Raise}
    (h : x s = .error e s') : (x >>= f) s = .error e s' := by simp [run_bind, h]

/-- A sequence ends `ok` only where both parts do. -/
theorem run_bind_eq_ok {α β : Type} {x : Op α} {f : α → Op β} {s t : State} {b : β} :
    (x >>= f) s = .ok b t ↔ ∃ a u, x s = .ok a u ∧ f a u = .ok b t := by
  rw [run_bind]
  cases x s <;> simp

/-- A sequence raises where its first part does, or its second after it. -/
theorem run_bind_eq_error {α β : Type} {x : Op α} {f : α → Op β} {s t : State} {e : Raise} :
    (x >>= f) s = .error e t ↔
      x s = .error e t ∨ ∃ a u, x s = .ok a u ∧ f a u = .error e t := by
  rw [run_bind]
  cases x s <;> simp

theorem require_eq_ok {cond : Bool} {code : FaultCode} {s t : State} {u : Unit} :
    require cond code s = .ok u t ↔ cond = true ∧ s = t := by
  cases cond <;> simp [require]

theorem require_eq_error {cond : Bool} {code : FaultCode} {s t : State} {e : Raise} :
    require cond code s = .error e t ↔ cond = false ∧ e = .protocolFault code ∧ s = t := by
  cases cond <;> simp [require, eq_comm]

/-! ### Carrying a relation through an operation -/

/-- Whatever happens, the state before and the state after stand in the relation `R`. -/
def Keeps {α : Type} (R : State → State → Prop) (x : Op α) : Prop := ∀ s, R s (endState (x s))

/-- A relation that holds of doing nothing, and of two steps if of each. -/
structure Chains (R : State → State → Prop) : Prop where
  refl : ∀ s, R s s
  trans : ∀ {s t u}, R s t → R t u → R s u

section Keeps

variable {α β : Type} {R : State → State → Prop}

theorem Keeps.pure (hR : Chains R) (a : α) : Keeps R (pure a : Op α) := fun s => hR.refl s

theorem Keeps.raise (hR : Chains R) (e : Raise) : Keeps R (raise e : Op α) := fun s => hR.refl s

theorem Keeps.getS (hR : Chains R) : Keeps R getS := fun s => hR.refl s

theorem Keeps.modS {f : State → State} (h : ∀ s, R s (f s)) : Keeps R (modS f) := h

theorem Keeps.require (hR : Chains R) (cond : Bool) (code : FaultCode) :
    Keeps R (require cond code) := fun s => by
  cases cond <;> exact hR.refl s

theorem Keeps.bind (hR : Chains R) {x : Op α} {f : α → Op β} (hx : Keeps R x)
    (hf : ∀ a, Keeps R (f a)) : Keeps R (x >>= f) := fun s => by
  have h := hx s
  rw [run_bind]
  cases hxs : x s with
  | ok a s' =>
    rw [hxs] at h
    exact hR.trans h (hf a s')
  | error e s' =>
    rw [hxs] at h
    exact h

/-- Reading the state first: the rest may use that it runs on that very state. -/
theorem Keeps.getS_bind {f : State → Op β} (hf : ∀ s, R s (endState (f s s))) :
    Keeps R (Machine.getS >>= f) := hf

theorem Keeps.ite {c : Prop} [Decidable c] {x y : Op α} (hx : Keeps R x) (hy : Keeps R y) :
    Keeps R (if c then x else y) := by
  split <;> assumption

theorem Keeps.doIf (hR : Chains R) {c : Prop} [Decidable c] {x : Op Unit} (hx : Keeps R x) :
    Keeps R (doIf c x) :=
  Keeps.ite hx (Keeps.pure hR ())

theorem Keeps.forEach (hR : Chains R) {γ : Type} {xs : List γ} {body : γ → Op Unit}
    (h : ∀ x, Keeps R (body x)) : Keeps R (forEach xs body) := by
  induction xs with
  | nil => exact Keeps.pure hR ()
  | cons x xs ih => exact Keeps.bind hR (h x) fun _ => ih

/-- A weaker relation. -/
theorem Keeps.mono {S : State → State → Prop} {x : Op α} (hx : Keeps R x)
    (h : ∀ s t, R s t → S s t) : Keeps S x := fun s => h _ _ (hx s)

end Keeps

/-! ### What the shared operations can do -/

/-- An operation that changes no state. -/
abbrev ReadsOnly {α : Type} (x : Op α) : Prop := Keeps (fun s t => t = s) x

theorem chains_eq : Chains fun s t => t = s := ⟨fun _ => rfl, fun h k => k.trans h⟩

/-- An operation that changes no state keeps every relation. -/
theorem ReadsOnly.keeps {α : Type} {R : State → State → Prop} {x : Op α} (h : ReadsOnly x)
    (hR : Chains R) : Keeps R x := fun s => by rw [h s]; exact hR.refl s

theorem requireCoord_readsOnly (r c : Nat) : ReadsOnly (requireCoord r c) :=
  Keeps.bind chains_eq (Keeps.getS chains_eq) fun _ => Keeps.require chains_eq _ _

theorem memRead_readsOnly (r c : Nat) : ReadsOnly (memRead r c) :=
  Keeps.bind chains_eq (requireCoord_readsOnly r c) fun _ =>
    Keeps.bind chains_eq (Keeps.getS chains_eq) fun _ => Keeps.pure chains_eq _

/-- Everything `MemRead` does (20_memory.md R61). -/
theorem run_memRead (r c : Nat) (s : State) :
    memRead r c s = if r < s.H ∧ c < s.W then .ok (wordAt s (memAddr s r c)) s
      else .error (.protocolFault .badCoord) s := by
  simp only [memRead, requireCoord, run_bind, run_getS, require, Bool.and_eq_true, decide_eq_true_eq]
  split_ifs <;> simp

/-- Everything `MemWrite` does (20_memory.md R62). -/
theorem run_memWrite (r c : Nat) (v : Word) (s : State) :
    memWrite r c v s = if r < s.H ∧ c < s.W then .ok () (setWord (memAddr s r c) v s)
      else .error (.protocolFault .badCoord) s := by
  simp only [memWrite, requireCoord, run_bind, run_getS, require, Bool.and_eq_true,
    decide_eq_true_eq]
  split_ifs <;> simp

/-- Everything `PutOut` does (20_memory.md R67). -/
theorem run_putOut (b : Byte) (s : State) :
    putOut b s = if s.portCalls ∈ s.portFails then
        .error .ioFailure { s with portCalls := s.portCalls + 1 }
      else .ok () { s with portCalls := s.portCalls + 1, out := s.out ++ [b] } := by
  simp only [putOut, portCall, run_bind, List.contains_iff_mem]
  split_ifs <;> simp

/-- Everything `PeekIn` does (20_memory.md R68). -/
theorem run_peekIn (s : State) :
    peekIn s = if s.portCalls ∈ s.portFails then
        .error .ioFailure { s with portCalls := s.portCalls + 1 }
      else .ok s.inp[s.rp]? { s with portCalls := s.portCalls + 1 } := by
  simp only [peekIn, portCall, run_bind, List.contains_iff_mem]
  split_ifs <;> simp

/-- Everything `TakeIn` does (20_memory.md R68, R69). -/
theorem run_takeIn (s : State) :
    takeIn s = if s.portCalls ∈ s.portFails then
        .error .ioFailure { s with portCalls := s.portCalls + 1 }
      else match s.inp[s.rp]? with
        | none => .error (.decodeFailure .truncated) { s with portCalls := s.portCalls + 1 }
        | some b => .ok b { s with portCalls := s.portCalls + 1, rp := s.rp + 1 } := by
  simp only [takeIn, portCall, run_bind, List.contains_iff_mem]
  split_ifs
  · rfl
  · simp only [run_getS]
    cases s.inp[s.rp]? <;> simp [run_bind]

/-- Reading a word after a write of a word. -/
@[simp] theorem wordAt_setWord (a b : Nat) (v : Word) (s : State) :
    wordAt (setWord a v s) b = if b = a then v else wordAt s b := by
  simp [wordAt]

/-- A write keeps the canonical form of `MEM`. -/
theorem memory_wf_setWord (a : Nat) (v : Word) {s : State} (h : Memory.wf s.mem = true) :
    Memory.wf (setWord a v s).mem = true :=
  cellsWf_cellsSet a v h

/-- `MEM` after reset is canonical. -/
theorem memory_wf_reset : Memory.wf State.reset.mem = true := rfl

/-- Whatever an operation does, a command answers a next state. -/
theorem command_eq (op : Op Word) (s : State) :
    command op s = .next (if s.status.fault then refuseSticky s else settle op s) := rfl

/-- A command whose operation ends `ok` while `FAULT` is 0. -/
theorem command_ok {op : Op Word} {s t : State} {p : Word} (hf : s.status.fault = false)
    (h : op s = .ok p t) : command op s = .next (respond .ok p t) := by
  simp [command, settle, hf, h]

/-- A command whose operation raises while `FAULT` is 0. -/
theorem command_error {op : Op Word} {s t : State} {e : Raise} (hf : s.status.fault = false)
    (h : op s = .error e t) : command op s = .next (takeRaise e t) := by
  simp [command, settle, hf, h]

/-- A command while `FAULT` is 1. -/
theorem command_sticky {op : Op Word} {s : State} (hf : s.status.fault = true) :
    command op s = .next (refuseSticky s) := by
  simp [command, hf]

/-- Everything a command can do to the state: its operation's doing, then one of the four ways to
end (60_exceptions.md R310). -/
theorem command_keeps {R : State → State → Prop} (hR : Chains R) {op : Op Word}
    (hop : Keeps R op) (hresp : ∀ k p s, R s (respond k p s))
    (hpf : ∀ code s, R s (takeProtocolFault code s))
    (hdf : ∀ code s, R s (takeDecodeFailure code s)) (hio : ∀ s, R s (takeIoFailure s))
    {s t : State} (h : command op s = .next t) : R s t := by
  simp only [command, Host.Outcome.next.injEq] at h
  subst h
  split
  · exact hresp _ _ s
  · have hs := hop s
    unfold settle
    cases hop' : op s with
    | ok p s' =>
      rw [hop'] at hs
      exact hR.trans hs (hresp _ _ s')
    | error e s' =>
      rw [hop'] at hs
      refine hR.trans hs ?_
      cases e with
      | protocolFault code => exact hpf code s'
      | decodeFailure code => exact hdf code s'
      | ioFailure => exact hio s'

end Sys2Proof.Machine
end

