-- ==== Sys2Proof/Laws/Coder.lean ====
section
/-! SUPPORT. What the operations over the byte ports do on ports that do not fail, and what the coder's
procedures over them do there. -/

namespace Sys2Proof.Machine

open Sys2Proof.Safety

variable {s : State}

theorem quietPorts_contains (h : quietPorts s) : s.portFails.contains s.portCalls = false := by
  rw [Bool.eq_false_iff]
  intro hc
  have := h _ (List.contains_iff_mem.mp hc)
  omega

/-- Later calls of quiet ports are quiet. -/
theorem quietPorts_mono {t : State} (h : quietPorts s) (hf : t.portFails = s.portFails)
    (hc : s.portCalls ≤ t.portCalls) : quietPorts t := fun n hn =>
  lt_of_lt_of_le (h n (hf ▸ hn)) hc

theorem portCall_quiet (h : quietPorts s) :
    portCall s = .ok () { s with portCalls := s.portCalls + 1 } := by
  simp only [portCall, quietPorts_contains h, Bool.false_eq_true, if_false]

theorem putOut_quiet (h : quietPorts s) (b : Byte) :
    putOut b s = .ok () { s with portCalls := s.portCalls + 1, out := s.out ++ [b] } := by
  rw [putOut, run_bind, portCall_quiet h]
  rfl

theorem peekIn_quiet (h : quietPorts s) :
    peekIn s = .ok s.inp[s.rp]? { s with portCalls := s.portCalls + 1 } := by
  rw [peekIn, run_bind, portCall_quiet h]
  rfl

theorem takeIn_quiet (h : quietPorts s) {b : Byte} (hb : s.inp[s.rp]? = some b) :
    takeIn s = .ok b { s with portCalls := s.portCalls + 1, rp := s.rp + 1 } := by
  rw [takeIn, run_bind, portCall_quiet h]
  simp only [run_bind, run_getS, hb, run_modS, run_pure]

/-- `PutByte` (43_mq_encoder.md R203): the pending byte goes out, unless it is the session's first. -/
theorem putByte_quiet (h : quietPorts s) :
    putByte s = .ok () { s with
      out := if 0 ≤ s.coder.l then s.out ++ [s.coder.t] else s.out
      portCalls := if 0 ≤ s.coder.l then s.portCalls + 1 else s.portCalls
      coder := { s.coder with l := s.coder.l + 1 } } := by
  simp only [putByte, run_bind, run_getS, run_doIf]
  by_cases hl : 0 ≤ s.coder.l
  · simp only [if_pos hl, putOut_quiet h, run_modS, setL]
  · simp only [if_neg hl, run_modS, setL]

/-- `FillLSBs` (44_mq_decoder.md R233) at the end of `IN`. -/
theorem fillLSBs_end (h : quietPorts s) (hn : s.inp[s.rp]? = none) :
    fillLSBs s = .error (.decodeFailure .truncated)
      { setCt 8 s with portCalls := s.portCalls + 1 } := by
  have hq : quietPorts (setCt 8 s) := quietPorts_mono h rfl le_rfl
  have hn' : (setCt 8 s).inp[(setCt 8 s).rp]? = none := hn
  simp only [fillLSBs, run_bind, run_modS, peekIn_quiet hq, hn', run_raise]
  rfl

/-- `FillLSBs` at a marker: 1 bits, no byte taken. -/
theorem fillLSBs_marker (h : quietPorts s) {n : Byte} (hn : s.inp[s.rp]? = some n)
    (ht : s.coder.t = 0xFF) (hm : 0x8F < n) :
    fillLSBs s = .ok () (setDecC (decC s + 0xFF)
      { setCt 8 s with portCalls := s.portCalls + 1 }) := by
  have hq : quietPorts (setCt 8 s) := quietPorts_mono h rfl le_rfl
  have hn' : (setCt 8 s).inp[(setCt 8 s).rp]? = some n := hn
  simp only [fillLSBs, run_bind, run_modS, peekIn_quiet hq, hn', run_getS]
  rw [if_pos ⟨ht, hm⟩]
  rfl

/-- `FillLSBs` at a byte of the body: it is taken, one position higher after 0xFF. -/
theorem fillLSBs_body (h : quietPorts s) {n : Byte} (hn : s.inp[s.rp]? = some n)
    (hb : ¬ (s.coder.t = 0xFF ∧ 0x8F < n)) :
    fillLSBs s = .ok ()
      (setDecC (decC s + n.toNat * 2 ^ (if s.coder.t = 0xFF then 1 else 0))
        { s with
          coder := { s.coder with
            ct := if s.coder.t = 0xFF then 7 else 8, t := n, l := s.coder.l + 1 }
          portCalls := s.portCalls + 2
          rp := s.rp + 1 }) := by
  have hq : quietPorts (setCt 8 s) := quietPorts_mono h rfl le_rfl
  have hn' : (setCt 8 s).inp[(setCt 8 s).rp]? = some n := hn
  have hb' : ¬ ((setCt 8 s).coder.t = 0xFF ∧ 0x8F < n) := hb
  simp only [fillLSBs, run_bind, run_modS, peekIn_quiet hq, hn', run_getS, if_neg hb', run_doIf]
  by_cases ht : s.coder.t = 0xFF
  · have ht' : (setCt 8 s).coder.t = 0xFF := ht
    simp only [if_pos ht']
    have hr := takeIn_quiet (s := setCt 7 { setCt 8 s with portCalls := (setCt 8 s).portCalls + 1 })
      (quietPorts_mono (s := s) h rfl (Nat.le_succ _)) (b := n) hn
    dsimp only at hr
    simp only [hr]
    simp only [if_pos ht]
    rfl
  · have ht' : ¬ (setCt 8 s).coder.t = 0xFF := ht
    simp only [if_neg ht']
    have hr := takeIn_quiet (s := { setCt 8 s with portCalls := (setCt 8 s).portCalls + 1 })
      (quietPorts_mono (s := s) h rfl (Nat.le_succ _)) (b := n) hn
    dsimp only at hr
    simp only [hr]
    simp only [if_neg ht]
    rfl

end Sys2Proof.Machine

namespace Sys2Proof.Safety

/-- What R208 says of the registers, without the session's bytes. -/
theorem EncoderOk.regs {s : Machine.State} (h : EncoderOk s) : EncoderRegsOk s := fun m =>
  have ⟨a, ct, ct', l, c, _⟩ := h m
  ⟨a, ct, ct', l, c⟩

end Sys2Proof.Safety
end

