-- ==== Sys2Proof/Laws/Frame.lean ====
section
/-! SUPPORT. Which operations only read, and how a relation that the state-changing unit operations
keep is kept by every operation, every command and every step: the induction over the sequencer's
loops and the case split over the commands, done once. -/

namespace Sys2Proof.Machine

variable {R : State → State → Prop}

/-! ### Operations that only read -/

theorem requireGeom_readsOnly : ReadsOnly requireGeom :=
  Keeps.bind chains_eq (Keeps.getS chains_eq) fun _ => Keeps.require chains_eq _ _

theorem requireIdle_readsOnly : ReadsOnly requireIdle :=
  Keeps.bind chains_eq (Keeps.getS chains_eq) fun _ => Keeps.require chains_eq _ _

theorem requireMode_readsOnly (m : MqMode) : ReadsOnly (requireMode m) :=
  Keeps.bind chains_eq (Keeps.getS chains_eq) fun _ => Keeps.require chains_eq _ _

theorem requirePt_readsOnly (ctx : Nat) : ReadsOnly (requirePt ctx) :=
  Keeps.bind chains_eq (Keeps.getS chains_eq) fun _ =>
    Keeps.bind chains_eq (Keeps.require chains_eq _ _) fun _ => Keeps.require chains_eq _ _

theorem requireNbits_readsOnly (n : Nat) : ReadsOnly (requireNbits n) :=
  Keeps.require chains_eq _ _

theorem requireSig_readsOnly (r c : Nat) : ReadsOnly (requireSig r c) :=
  Keeps.bind chains_eq requireGeom_readsOnly fun _ =>
    Keeps.bind chains_eq (Keeps.getS chains_eq) fun _ =>
      Keeps.bind chains_eq (Keeps.require chains_eq _ _) fun _ => requireCoord_readsOnly r c

theorem requireStrip_readsOnly (r : Nat) : ReadsOnly (requireStrip r) :=
  Keeps.bind chains_eq (Keeps.getS chains_eq) fun _ => Keeps.require chains_eq _ _

theorem requirePlane_readsOnly (i : Nat) : ReadsOnly (requirePlane i) :=
  Keeps.bind chains_eq (Keeps.getS chains_eq) fun _ => Keeps.require chains_eq _ _

theorem requireBit_readsOnly (i r c : Nat) : ReadsOnly (requireBit i r c) :=
  Keeps.bind chains_eq requireGeom_readsOnly fun _ =>
    Keeps.bind chains_eq (requirePlane_readsOnly i) fun _ => requireCoord_readsOnly r c

theorem requireSign_readsOnly (r c : Nat) : ReadsOnly (requireSign r c) :=
  Keeps.bind chains_eq requireGeom_readsOnly fun _ => requireCoord_readsOnly r c

theorem requireLive_readsOnly (i r c : Nat) : ReadsOnly (requireLive i r c) :=
  Keeps.bind chains_eq requireGeom_readsOnly fun _ =>
    Keeps.bind chains_eq (Keeps.getS chains_eq) fun _ =>
      Keeps.bind chains_eq (Keeps.require chains_eq _ _) fun _ =>
        Keeps.bind chains_eq (requirePlane_readsOnly i) fun _ =>
          Keeps.bind chains_eq (Keeps.require chains_eq _ _) fun _ => requireCoord_readsOnly r c

theorem requirePass_readsOnly (dir : Dir) (i : Nat) : ReadsOnly (requirePass dir i) :=
  Keeps.bind chains_eq requireGeom_readsOnly fun _ =>
    Keeps.bind chains_eq (requireMode_readsOnly _) fun _ =>
      Keeps.bind chains_eq (Keeps.getS chains_eq) fun _ =>
        Keeps.bind chains_eq (Keeps.require chains_eq _ _) fun _ => Keeps.require chains_eq _ _

theorem ptEst_readsOnly (ctx : Nat) : ReadsOnly (ptEst ctx) :=
  Keeps.bind chains_eq (requirePt_readsOnly ctx) fun _ =>
    Keeps.bind chains_eq (Keeps.getS chains_eq) fun _ => Keeps.pure chains_eq _

theorem sigIsSig_readsOnly (r c : Nat) : ReadsOnly (sigIsSig r c) :=
  Keeps.bind chains_eq (requireSig_readsOnly r c) fun _ =>
    Keeps.bind chains_eq (Keeps.getS chains_eq) fun _ => Keeps.pure chains_eq _

theorem sigSpCtx_readsOnly (r c : Nat) (sb : SubBand) : ReadsOnly (sigSpCtx r c sb) :=
  Keeps.bind chains_eq (requireSig_readsOnly r c) fun _ =>
    Keeps.bind chains_eq (Keeps.getS chains_eq) fun _ => Keeps.pure chains_eq _

theorem sigSignCtx_readsOnly (r c : Nat) : ReadsOnly (sigSignCtx r c) :=
  Keeps.bind chains_eq (requireSig_readsOnly r c) fun _ =>
    Keeps.bind chains_eq (Keeps.getS chains_eq) fun _ => Keeps.pure chains_eq _

theorem sigStripZ_readsOnly (sb : SubBand) (r c : Nat) : ReadsOnly (sigStripZ sb r c) :=
  Keeps.bind chains_eq (requireSig_readsOnly r c) fun _ =>
    Keeps.bind chains_eq (requireStrip_readsOnly r) fun _ =>
      Keeps.bind chains_eq (Keeps.getS chains_eq) fun _ => Keeps.pure chains_eq _

theorem bpBitAt_readsOnly (i r c : Nat) : ReadsOnly (bpBitAt i r c) :=
  Keeps.bind chains_eq (requireBit_readsOnly i r c) fun _ =>
    Keeps.bind chains_eq (memRead_readsOnly r c) fun _ => Keeps.pure chains_eq _

theorem bpSignAt_readsOnly (r c : Nat) : ReadsOnly (bpSignAt r c) :=
  Keeps.bind chains_eq (requireSign_readsOnly r c) fun _ =>
    Keeps.bind chains_eq (Keeps.getS chains_eq) fun _ =>
      Keeps.bind chains_eq (memRead_readsOnly r c) fun _ => Keeps.pure chains_eq _

theorem bpIsCoded_readsOnly (i r c : Nat) : ReadsOnly (bpIsCoded i r c) :=
  Keeps.bind chains_eq (requireLive_readsOnly i r c) fun _ =>
    Keeps.bind chains_eq (Keeps.getS chains_eq) fun _ => Keeps.pure chains_eq _

theorem bpNFull_readsOnly : ReadsOnly bpNFull :=
  Keeps.bind chains_eq requireGeom_readsOnly fun _ =>
    Keeps.bind chains_eq (Keeps.getS chains_eq) fun _ => Keeps.pure chains_eq _

theorem bpLastH_readsOnly : ReadsOnly bpLastH :=
  Keeps.bind chains_eq requireGeom_readsOnly fun _ =>
    Keeps.bind chains_eq (Keeps.getS chains_eq) fun _ => Keeps.pure chains_eq _

theorem bpLastOff_readsOnly : ReadsOnly bpLastOff :=
  Keeps.bind chains_eq requireGeom_readsOnly fun _ =>
    Keeps.bind chains_eq (Keeps.getS chains_eq) fun _ => Keeps.pure chains_eq _

theorem bpStripUnc_readsOnly (i r c : Nat) : ReadsOnly (bpStripUnc i r c) :=
  Keeps.bind chains_eq (requireLive_readsOnly i r c) fun _ =>
    Keeps.bind chains_eq (requireStrip_readsOnly r) fun _ =>
      Keeps.bind chains_eq (Keeps.getS chains_eq) fun _ => Keeps.pure chains_eq _

theorem firstSetRow_readsOnly (i r c j n : Nat) : ReadsOnly (firstSetRow i r c j n) := by
  induction n generalizing j with
  | zero => exact Keeps.pure chains_eq _
  | succ n ih =>
    exact Keeps.bind chains_eq (memRead_readsOnly _ _) fun _ =>
      Keeps.ite (Keeps.pure chains_eq _) (ih (j + 1))

theorem bpStripFnz_readsOnly (i r c : Nat) : ReadsOnly (bpStripFnz i r c) :=
  Keeps.bind chains_eq (requireBit_readsOnly i r c) fun _ =>
    Keeps.bind chains_eq (requireStrip_readsOnly r) fun _ => firstSetRow_readsOnly i r c 0 4

theorem runMode_readsOnly (i : Nat) (sb : SubBand) (r0 c : Nat) (full : Bool) :
    ReadsOnly (runMode i sb r0 c full) :=
  Keeps.ite
    (Keeps.bind chains_eq (bpStripUnc_readsOnly i r0 c) fun _ =>
      Keeps.ite (sigStripZ_readsOnly sb r0 c) (Keeps.pure chains_eq _))
    (Keeps.pure chains_eq _)

theorem cfgGet_readsOnly (reg : Nat) : ReadsOnly (cfgGet reg) := by
  unfold cfgGet
  refine Keeps.bind chains_eq (Keeps.getS chains_eq) fun s => ?_
  repeat' first
    | exact Keeps.pure chains_eq _
    | exact Keeps.require chains_eq _ _
    | exact Keeps.raise chains_eq _
    | refine Keeps.bind chains_eq ?_ fun _ => ?_
    | refine Keeps.ite ?_ ?_

/-! ### Relations the coder keeps -/

/-- A relation that every single update of the coder, its probability state and its streams
keeps. -/
structure CoderKeeps (R : State → State → Prop) : Prop extends Chains R where
  coder : ∀ s k, R s { s with coder := k }
  pt : ∀ s v, R s { s with pt := v }
  calls : ∀ s n, R s { s with portCalls := n }
  out : ∀ s b, R s { s with out := s.out ++ [b] }
  take : ∀ s b, s.inp[s.rp]? = some b → R s { s with rp := s.rp + 1 }
  diverged : ∀ s b, R s { s with diverged := b }
  /-- a free bit is taken only in a diverged session on input that no encoder wrote -/
  freeBits : ∀ s, s.diverged = true → s.inForeign = true →
    R s { s with freeBits := s.freeBits + 1 }
  rp0 : ∀ s n, R s { s with rp0 := n }
  mode : ∀ s m, R s (setMqMode m s)
  ioFail : ∀ s b, R s (setIoFail b s)
  decFail : ∀ s d, R s (setDecFail d s)

namespace CoderKeeps

variable (K : CoderKeeps R)
include K

theorem setA (a : BitVec 16) (s : State) : R s (setA a s) := K.coder s _
theorem setC (c : BitVec 28) (s : State) : R s (setC c s) := K.coder s _
theorem setT (t : BitVec 8) (s : State) : R s (setT t s) := K.coder s _
theorem setCt (ct : BitVec 4) (s : State) : R s (setCt ct s) := K.coder s _
theorem setL (l : Int) (s : State) : R s (setL l s) := K.coder s _

theorem setDecC (v : Nat) (s : State) : R s (setDecC v s) :=
  K.trans (K.setC _ s) (K.diverged _ _)

theorem putOut (b : Byte) : Keeps R (putOut b) := fun s => by
  rw [run_putOut]
  split
  · exact K.calls s _
  · exact K.trans (K.calls s (s.portCalls + 1)) (K.out _ b)

theorem peekIn : Keeps R peekIn := fun s => by
  rw [run_peekIn]
  split <;> exact K.calls s _

theorem takeIn : Keeps R takeIn := fun s => by
  rw [run_takeIn]
  split
  · exact K.calls s _
  · split
    · exact K.calls s _
    · rename_i b hb
      exact K.trans (K.calls s (s.portCalls + 1)) (K.take _ b hb)

theorem ptTrans (ctx : Nat) (m sw : Bool) : Keeps R (ptTrans ctx m sw) :=
  Keeps.bind K.toChains ((requirePt_readsOnly ctx).keeps K.toChains) fun _ =>
    Keeps.modS fun s => K.pt s _

theorem putByte : Keeps R putByte :=
  Keeps.bind K.toChains (Keeps.getS K.toChains) fun _ =>
    Keeps.bind K.toChains (Keeps.doIf K.toChains (K.putOut _)) fun _ =>
      Keeps.modS fun s => K.setL _ s

theorem loadSeven (s : State) : R s (loadSeven s) :=
  K.trans (K.setT _ s) (K.trans (K.setC _ _) (K.setCt _ _))

theorem loadEight (s : State) : R s (loadEight s) :=
  K.trans (K.setT _ s) (K.trans (K.setC _ _) (K.setCt _ _))

theorem addCarry (s : State) : R s (addCarry s) := K.trans (K.setT _ s) (K.setC _ _)

theorem transferByte : Keeps R transferByte :=
  Keeps.bind K.toChains (Keeps.getS K.toChains) fun _ => Keeps.ite
    (Keeps.bind K.toChains K.putByte fun _ => Keeps.modS K.loadSeven)
    (Keeps.bind K.toChains (Keeps.modS K.addCarry) fun _ =>
      Keeps.bind K.toChains K.putByte fun _ =>
        Keeps.bind K.toChains (Keeps.getS K.toChains) fun _ =>
          Keeps.ite (Keeps.modS K.loadSeven) (Keeps.modS K.loadEight))

theorem doubleOnce (s : State) : R s (doubleOnce s) :=
  K.trans (K.setA _ s) (K.trans (K.setC _ _) (K.setCt _ _))

theorem encRenorm (n : Nat) : Keeps R (encRenorm n) := by
  induction n with
  | zero => exact Keeps.pure K.toChains _
  | succ n ih =>
    exact Keeps.bind K.toChains (Keeps.getS K.toChains) fun _ => Keeps.doIf K.toChains
      (Keeps.bind K.toChains (Keeps.modS K.doubleOnce) fun _ =>
        Keeps.bind K.toChains (Keeps.getS K.toChains) fun _ =>
          Keeps.bind K.toChains (Keeps.doIf K.toChains K.transferByte) fun _ => ih)

theorem mqeInit : Keeps R mqeInit :=
  Keeps.bind K.toChains (requireIdle_readsOnly.keeps K.toChains) fun _ =>
    Keeps.modS fun s => K.trans (K.coder s _) (K.trans (K.mode _ _) (K.ioFail _ _))

theorem mqeCode (b : Bool) (ctx : Nat) : Keeps R (mqeCode b ctx) :=
  Keeps.bind K.toChains ((requireMode_readsOnly _).keeps K.toChains) fun _ =>
    Keeps.bind K.toChains ((requirePt_readsOnly ctx).keeps K.toChains) fun _ =>
      Keeps.bind K.toChains (Keeps.getS K.toChains) fun _ =>
        Keeps.bind K.toChains (Keeps.modS fun s => K.trans (K.setA _ s) (K.setC _ _)) fun _ =>
          Keeps.doIf K.toChains
            (Keeps.bind K.toChains (K.ptTrans ctx _ _) fun _ => K.encRenorm 15)

theorem flushLoop (n : Nat) (nbits : Int) : Keeps R (flushLoop n nbits) := by
  induction n generalizing nbits with
  | zero => exact Keeps.pure K.toChains _
  | succ n ih =>
    exact Keeps.doIf K.toChains
      (Keeps.bind K.toChains K.transferByte fun _ =>
        Keeps.bind K.toChains (Keeps.getS K.toChains) fun _ =>
          Keeps.bind K.toChains (Keeps.modS fun s => K.setC _ s) fun _ => ih _)

theorem mqeFlush : Keeps R mqeFlush :=
  Keeps.bind K.toChains ((requireMode_readsOnly _).keeps K.toChains) fun _ =>
    Keeps.bind K.toChains (Keeps.getS K.toChains) fun _ =>
      Keeps.bind K.toChains (Keeps.modS fun s => K.setC _ s) fun _ =>
        Keeps.bind K.toChains (K.flushLoop _ _) fun _ => K.transferByte

theorem mqeMarkEnd : Keeps R mqeMarkEnd :=
  Keeps.bind K.toChains ((requireMode_readsOnly _).keeps K.toChains) fun _ =>
    Keeps.bind K.toChains (K.putOut _) fun _ =>
      Keeps.bind K.toChains (K.putOut _) fun _ => Keeps.modS fun s => K.mode s _

theorem fillLSBs : Keeps R fillLSBs :=
  Keeps.bind K.toChains (Keeps.modS fun s => K.setCt _ s) fun _ =>
    Keeps.bind K.toChains K.peekIn fun n => by
      cases n with
      | none => exact Keeps.raise K.toChains _
      | some n =>
        exact Keeps.bind K.toChains (Keeps.getS K.toChains) fun _ =>
          Keeps.ite (Keeps.modS fun s => K.setDecC _ s)
            (Keeps.bind K.toChains
              (Keeps.doIf K.toChains (Keeps.modS fun s => K.setCt _ s)) fun _ =>
                Keeps.bind K.toChains K.takeIn fun _ =>
                  Keeps.bind K.toChains
                    (Keeps.modS fun s => K.trans (K.setT _ s) (K.setL _ _)) fun _ =>
                      Keeps.modS fun s => K.setDecC _ s)

theorem renormOnce : Keeps R renormOnce :=
  Keeps.bind K.toChains (Keeps.getS K.toChains) fun _ =>
    Keeps.bind K.toChains (Keeps.doIf K.toChains K.fillLSBs) fun _ =>
      Keeps.modS fun s => K.trans (K.setA _ s) (K.trans (K.setDecC _ _) (K.setCt _ _))

theorem decRenorm (n : Nat) : Keeps R (decRenorm n) := by
  induction n with
  | zero => exact Keeps.pure K.toChains _
  | succ n ih =>
    exact Keeps.bind K.toChains (Keeps.getS K.toChains) fun _ => Keeps.doIf K.toChains
      (Keeps.bind K.toChains K.renormOnce fun _ => ih)

theorem mqdInit : Keeps R mqdInit :=
  Keeps.bind K.toChains (requireIdle_readsOnly.keeps K.toChains) fun _ =>
    Keeps.bind K.toChains
      (Keeps.modS fun s =>
        K.trans (K.rp0 s s.rp) (K.trans (K.diverged _ false)
          (K.trans (K.coder _ _) (K.trans (K.ioFail _ _) (K.decFail _ _))))) fun _ =>
      Keeps.bind K.toChains K.fillLSBs fun _ =>
        Keeps.bind K.toChains (Keeps.modS fun s => K.setDecC _ s) fun _ =>
          Keeps.bind K.toChains K.fillLSBs fun _ =>
            Keeps.bind K.toChains (Keeps.modS fun s => K.setDecC _ s) fun _ =>
              Keeps.bind K.toChains
                (Keeps.modS fun s => K.trans (K.setCt _ s) (K.setA _ _)) fun _ =>
                  Keeps.modS fun s => K.mode s _

theorem inLower (p : BitVec 16) : Keeps R (inLower p) := fun s => by
  unfold Machine.inLower
  split
  · rename_i hf
    rw [Bool.and_eq_true] at hf
    exact K.freeBits s hf.1 hf.2
  · exact K.refl s

theorem mqdDecode (ctx : Nat) : Keeps R (mqdDecode ctx) :=
  Keeps.bind K.toChains ((requireMode_readsOnly _).keeps K.toChains) fun _ =>
    Keeps.bind K.toChains ((requirePt_readsOnly ctx).keeps K.toChains) fun _ =>
      Keeps.bind K.toChains (Keeps.getS K.toChains) fun _ =>
        Keeps.bind K.toChains (K.inLower _) fun lower =>
          Keeps.bind K.toChains
            (Keeps.modS fun s => by
              cases lower
              · exact K.trans (K.setDecC _ s) (K.setA _ _)
              · exact K.setA _ s) fun _ =>
            Keeps.bind K.toChains
              (Keeps.doIf K.toChains
                (Keeps.bind K.toChains (K.ptTrans ctx _ _) fun _ => K.decRenorm 15)) fun _ =>
              Keeps.pure K.toChains _

theorem takeToT : Keeps R takeToT :=
  Keeps.bind K.toChains K.takeIn fun _ =>
    Keeps.modS fun s => K.trans (K.setT _ s) (K.setL _ _)

theorem skipScan (n g : Nat) : Keeps R (skipScan n g) := by
  induction n generalizing g with
  | zero => exact Keeps.raise K.toChains _
  | succ n ih =>
    refine Keeps.bind K.toChains K.peekIn fun b => ?_
    cases b with
    | none => exact Keeps.raise K.toChains _
    | some b =>
      exact Keeps.bind K.toChains (Keeps.getS K.toChains) fun _ => Keeps.ite
        (Keeps.bind K.toChains K.takeIn fun _ =>
          Keeps.bind K.toChains (Keeps.modS fun s => K.setL _ s) fun _ => Keeps.pure K.toChains _)
        (Keeps.ite (Keeps.raise K.toChains _)
          (Keeps.bind K.toChains K.takeToT fun _ => ih _))

theorem mqdSkipEnd : Keeps R mqdSkipEnd :=
  Keeps.bind K.toChains ((requireMode_readsOnly _).keeps K.toChains) fun _ =>
    Keeps.bind K.toChains (Keeps.getS K.toChains) fun _ =>
      Keeps.bind K.toChains (K.skipScan _ _) fun _ =>
        Keeps.bind K.toChains (Keeps.modS fun s => K.mode s _) fun _ => Keeps.pure K.toChains _

end CoderKeeps

/-! ### Relations every operation keeps -/

/-- A relation that every state-changing unit operation keeps. -/
structure UnitKeeps (R : State → State → Prop) : Prop extends Chains R where
  ptReset : Keeps R ptReset
  ptTrans : ∀ ctx m sw, Keeps R (ptTrans ctx m sw)
  sigReset : Keeps R sigReset
  sigRefCtx : ∀ r c, Keeps R (sigRefCtx r c)
  sigSetSig : ∀ r c neg, Keeps R (sigSetSig r c neg)
  bpNewPlane : ∀ i, Keeps R (bpNewPlane i)
  bpSetBit : ∀ i r c b, Keeps R (bpSetBit i r c b)
  bpSetSign : ∀ r c b, Keeps R (bpSetSign r c b)
  bpMarkCoded : ∀ i r c, Keeps R (bpMarkCoded i r c)
  mqeInit : Keeps R mqeInit
  mqeCode : ∀ b ctx, Keeps R (mqeCode b ctx)
  mqeFlush : Keeps R mqeFlush
  mqeMarkEnd : Keeps R mqeMarkEnd
  mqdInit : Keeps R mqdInit
  mqdDecode : ∀ ctx, Keeps R (mqdDecode ctx)
  mqdSkipEnd : Keeps R mqdSkipEnd

namespace UnitKeeps

variable (K : UnitKeeps R)
include K

theorem codeBits (value ctx n : Nat) : Keeps R (codeBits value ctx n) := by
  induction n with
  | zero => exact Keeps.pure K.toChains _
  | succ n ih => exact Keeps.bind K.toChains (K.mqeCode _ ctx) fun _ => ih

theorem mqeCodeNum (value nbits ctx : Nat) : Keeps R (mqeCodeNum value nbits ctx) :=
  Keeps.bind K.toChains ((requireMode_readsOnly _).keeps K.toChains) fun _ =>
    Keeps.bind K.toChains ((requirePt_readsOnly ctx).keeps K.toChains) fun _ =>
      Keeps.bind K.toChains ((requireNbits_readsOnly nbits).keeps K.toChains) fun _ =>
        K.codeBits value ctx nbits

theorem decodeBits (ctx n v : Nat) : Keeps R (decodeBits ctx n v) := by
  induction n generalizing v with
  | zero => exact Keeps.pure K.toChains _
  | succ n ih => exact Keeps.bind K.toChains (K.mqdDecode ctx) fun _ => ih _

theorem mqdDecodeNum (nbits ctx : Nat) : Keeps R (mqdDecodeNum nbits ctx) :=
  Keeps.bind K.toChains ((requireMode_readsOnly _).keeps K.toChains) fun _ =>
    Keeps.bind K.toChains ((requirePt_readsOnly ctx).keeps K.toChains) fun _ =>
      Keeps.bind K.toChains ((requireNbits_readsOnly nbits).keeps K.toChains) fun _ =>
        K.decodeBits ctx nbits 0

theorem magStep (dir : Dir) (i r c ctx : Nat) : Keeps R (magStep dir i r c ctx) := by
  cases dir
  · exact Keeps.bind K.toChains ((bpBitAt_readsOnly i r c).keeps K.toChains) fun _ =>
      Keeps.bind K.toChains (K.mqeCode _ _) fun _ => Keeps.pure K.toChains _
  · exact Keeps.bind K.toChains (K.mqdDecode ctx) fun _ =>
      Keeps.bind K.toChains (K.bpSetBit i r c _) fun _ => Keeps.pure K.toChains _

theorem signStep (dir : Dir) (r c : Nat) : Keeps R (signStep dir r c) := by
  refine Keeps.bind K.toChains ((sigSignCtx_readsOnly r c).keeps K.toChains) fun p => ?_
  cases dir
  · exact Keeps.bind K.toChains ((bpSignAt_readsOnly r c).keeps K.toChains) fun _ =>
      Keeps.bind K.toChains (K.mqeCode _ _) fun _ => K.sigSetSig r c _
  · exact Keeps.bind K.toChains (K.mqdDecode _) fun _ =>
      Keeps.bind K.toChains (K.bpSetSign r c _) fun _ => K.sigSetSig r c _

theorem codeCoefficient (dir : Dir) (i r c ctx : Nat) : Keeps R (codeCoefficient dir i r c ctx) :=
  Keeps.bind K.toChains (K.magStep dir i r c ctx) fun _ =>
    Keeps.bind K.toChains (Keeps.doIf K.toChains (K.signStep dir r c)) fun _ =>
      K.bpMarkCoded i r c

theorem sigVisit (dir : Dir) (i : Nat) (sb : SubBand) (p : Nat × Nat) :
    Keeps R (sigVisit dir i sb p) :=
  Keeps.bind K.toChains ((sigIsSig_readsOnly _ _).keeps K.toChains) fun _ =>
    Keeps.doIf K.toChains
      (Keeps.bind K.toChains ((bpIsCoded_readsOnly _ _ _).keeps K.toChains) fun _ =>
        Keeps.doIf K.toChains
          (Keeps.bind K.toChains ((sigSpCtx_readsOnly _ _ _).keeps K.toChains) fun _ =>
            Keeps.doIf K.toChains (K.codeCoefficient dir i _ _ _)))

theorem sigPass (dir : Dir) (i : Nat) : Keeps R (sigPass dir i) :=
  Keeps.bind K.toChains ((requirePass_readsOnly dir i).keeps K.toChains) fun _ =>
    Keeps.bind K.toChains (Keeps.getS K.toChains) fun _ =>
      Keeps.forEach K.toChains fun p => K.sigVisit dir i _ p

theorem refVisit (dir : Dir) (i : Nat) (p : Nat × Nat) : Keeps R (refVisit dir i p) :=
  Keeps.bind K.toChains ((sigIsSig_readsOnly _ _).keeps K.toChains) fun _ =>
    Keeps.doIf K.toChains
      (Keeps.bind K.toChains ((bpIsCoded_readsOnly _ _ _).keeps K.toChains) fun _ =>
        Keeps.doIf K.toChains
          (Keeps.bind K.toChains (K.sigRefCtx _ _) fun _ =>
            Keeps.bind K.toChains (K.magStep dir i _ _ _) fun _ => K.bpMarkCoded i _ _))

theorem refPass (dir : Dir) (i : Nat) : Keeps R (refPass dir i) :=
  Keeps.bind K.toChains ((requirePass_readsOnly dir i).keeps K.toChains) fun _ =>
    Keeps.bind K.toChains (Keeps.getS K.toChains) fun _ =>
      Keeps.forEach K.toChains fun p => K.refVisit dir i p

theorem cleanVisit (dir : Dir) (i : Nat) (sb : SubBand) (r c : Nat) :
    Keeps R (cleanVisit dir i sb r c) :=
  Keeps.bind K.toChains ((bpIsCoded_readsOnly _ _ _).keeps K.toChains) fun _ =>
    Keeps.doIf K.toChains
      (Keeps.bind K.toChains ((sigSpCtx_readsOnly _ _ _).keeps K.toChains) fun _ =>
        K.codeCoefficient dir i r c _)

theorem runLength (dir : Dir) (i r0 c : Nat) : Keeps R (runLength dir i r0 c) := by
  cases dir
  · refine Keeps.bind K.toChains ((bpStripFnz_readsOnly i r0 c).keeps K.toChains) fun f => ?_
    refine Keeps.bind K.toChains (K.mqeCode _ _) fun _ => ?_
    cases f with
    | none => exact Keeps.pure K.toChains _
    | some k =>
      exact Keeps.bind K.toChains (K.mqeCodeNum k 2 _) fun _ => Keeps.pure K.toChains _
  · exact Keeps.bind K.toChains (K.mqdDecode _) fun _ => Keeps.ite
      (Keeps.bind K.toChains (K.mqdDecodeNum 2 _) fun _ =>
        Keeps.bind K.toChains (K.bpSetBit i _ c true) fun _ => Keeps.pure K.toChains _)
      (Keeps.pure K.toChains _)

theorem cleanColumn (dir : Dir) (i : Nat) (sb : SubBand) (r0 h : Nat) (full : Bool) (c : Nat) :
    Keeps R (cleanColumn dir i sb r0 h full c) := by
  refine Keeps.bind K.toChains ((runMode_readsOnly i sb r0 c full).keeps K.toChains) fun _ => ?_
  refine Keeps.ite (Keeps.bind K.toChains (K.runLength dir i r0 c) fun f => ?_)
    (Keeps.forEach K.toChains fun j => K.cleanVisit dir i sb _ c)
  cases f with
  | none => exact Keeps.forEach K.toChains fun j => K.bpMarkCoded i _ c
  | some k =>
    exact Keeps.bind K.toChains (K.signStep dir _ c) fun _ =>
      Keeps.bind K.toChains (Keeps.forEach K.toChains fun j => K.bpMarkCoded i _ c) fun _ =>
        Keeps.forEach K.toChains fun j => K.cleanVisit dir i sb _ c

theorem cleanup (dir : Dir) (i : Nat) : Keeps R (cleanup dir i) :=
  Keeps.bind K.toChains ((requirePass_readsOnly dir i).keeps K.toChains) fun _ =>
    Keeps.bind K.toChains (Keeps.getS K.toChains) fun _ =>
      Keeps.forEach K.toChains fun _ =>
        Keeps.forEach K.toChains fun c => K.cleanColumn dir i _ _ _ _ c

theorem planePasses (dir : Dir) (top i : Nat) : Keeps R (planePasses dir top i) :=
  Keeps.bind K.toChains (K.bpNewPlane i) fun _ =>
    Keeps.bind K.toChains
      (Keeps.doIf K.toChains
        (Keeps.bind K.toChains (K.sigPass dir i) fun _ => K.refPass dir i)) fun _ =>
      K.cleanup dir i

theorem planeLoop (dir : Dir) (top n : Nat) : Keeps R (planeLoop dir top n) := by
  induction n with
  | zero => exact Keeps.pure K.toChains _
  | succ n ih => exact Keeps.bind K.toChains (K.planePasses dir top n) fun _ => ih

theorem ebEncode : Keeps R ebEncode :=
  Keeps.bind K.toChains (requireGeom_readsOnly.keeps K.toChains) fun _ =>
    Keeps.bind K.toChains (requireIdle_readsOnly.keeps K.toChains) fun _ =>
      Keeps.bind K.toChains K.ptReset fun _ =>
        Keeps.bind K.toChains K.sigReset fun _ =>
          Keeps.bind K.toChains K.mqeInit fun _ =>
            Keeps.bind K.toChains (Keeps.getS K.toChains) fun _ =>
              Keeps.bind K.toChains (K.planeLoop _ _ _) fun _ =>
                Keeps.bind K.toChains K.mqeFlush fun _ => K.mqeMarkEnd

theorem ebDecode : Keeps R ebDecode :=
  Keeps.bind K.toChains (requireGeom_readsOnly.keeps K.toChains) fun _ =>
    Keeps.bind K.toChains (requireIdle_readsOnly.keeps K.toChains) fun _ =>
      Keeps.bind K.toChains K.ptReset fun _ =>
        Keeps.bind K.toChains K.sigReset fun _ =>
          Keeps.bind K.toChains K.mqdInit fun _ =>
            Keeps.bind K.toChains (Keeps.getS K.toChains) fun _ =>
              Keeps.bind K.toChains (K.planeLoop _ _ _) fun _ => K.mqdSkipEnd

end UnitKeeps

/-- A relation that every state-changing unit operation and every way to end a command keep. -/
structure AnswerKeeps (R : State → State → Prop) : Prop extends UnitKeeps R where
  respond : ∀ k p s, R s (respond k p s)
  protocolFault : ∀ code s, R s (takeProtocolFault code s)
  decodeFailure : ∀ code s, R s (takeDecodeFailure code s)
  ioFailure : ∀ s, R s (takeIoFailure s)

namespace AnswerKeeps

variable (K : AnswerKeeps R)
include K

/-- An operation, then the result turned into a payload, as a command. -/
theorem ofOp {α : Type} {x : Op α} (hx : Keeps R x) (f : α → Word) {s t : State}
    (h : command (do let a ← x; pure (f a)) s = .next t) : R s t :=
  command_keeps K.toChains (Keeps.bind K.toChains hx fun _ => Keeps.pure K.toChains _)
    K.respond K.protocolFault K.decodeFailure K.ioFailure h

theorem illegalWord (w : Word) (s : State) : R s (illegalWord w s) := by
  unfold Machine.illegalWord
  split
  · exact K.respond _ _ s
  · exact K.protocolFault _ s

/-- Every command keeps the relation, `CFG.SET` if its operation does. -/
theorem exec {i : Instr} {s t : State} (hcfg : ∀ reg val, i = .cfgSet reg val →
    Keeps R (cfgSet reg val)) (h : exec i s = .next t) : R s t := by
  have ro {α : Type} {x : Op α} (hx : ReadsOnly x) : Keeps R x := hx.keeps K.toChains
  cases i with
  | ptReset => exact K.ofOp K.ptReset _ h
  | ptEst ctx => exact K.ofOp (ro (ptEst_readsOnly ctx)) (fun p => estPayload p.1 p.2) h
  | ptTrans ctx m sw => exact K.ofOp (K.ptTrans ctx m sw) _ h
  | sigReset => exact K.ofOp K.sigReset _ h
  | sigIsSig r c => exact K.ofOp (ro (sigIsSig_readsOnly r c)) _ h
  | sigSpCtx r c sb => exact K.ofOp (ro (sigSpCtx_readsOnly r c sb)) _ h
  | sigSignCtx r c => exact K.ofOp (ro (sigSignCtx_readsOnly r c)) (fun p => signPayload p.1 p.2) h
  | sigRefCtx r c => exact K.ofOp (K.sigRefCtx r c) _ h
  | sigSetSig r c neg => exact K.ofOp (K.sigSetSig r c neg) _ h
  | sigStripZ sb r c => exact K.ofOp (ro (sigStripZ_readsOnly sb r c)) _ h
  | bpNewPlane i => exact K.ofOp (K.bpNewPlane i) _ h
  | bpBitAt i r c => exact K.ofOp (ro (bpBitAt_readsOnly i r c)) _ h
  | bpSetBit i r c b => exact K.ofOp (K.bpSetBit i r c b) _ h
  | bpSignAt r c => exact K.ofOp (ro (bpSignAt_readsOnly r c)) _ h
  | bpSetSign r c b => exact K.ofOp (K.bpSetSign r c b) _ h
  | bpIsCoded i r c => exact K.ofOp (ro (bpIsCoded_readsOnly i r c)) _ h
  | bpMarkCoded i r c => exact K.ofOp (K.bpMarkCoded i r c) _ h
  | bpNFull => exact K.ofOp (ro bpNFull_readsOnly) _ h
  | bpLastH => exact K.ofOp (ro bpLastH_readsOnly) _ h
  | bpLastOff => exact K.ofOp (ro bpLastOff_readsOnly) _ h
  | bpStripUnc i r c => exact K.ofOp (ro (bpStripUnc_readsOnly i r c)) _ h
  | bpStripFnz i r c => exact K.ofOp (ro (bpStripFnz_readsOnly i r c)) _ h
  | mqeInit => exact K.ofOp K.mqeInit _ h
  | mqeCode b ctx => exact K.ofOp (K.mqeCode b ctx) _ h
  | mqeCodeNum value nbits ctx => exact K.ofOp (K.mqeCodeNum value nbits ctx) _ h
  | mqeFlush => exact K.ofOp K.mqeFlush _ h
  | mqeMarkEnd => exact K.ofOp K.mqeMarkEnd _ h
  | mqdInit => exact K.ofOp K.mqdInit _ h
  | mqdDecode ctx => exact K.ofOp (K.mqdDecode ctx) _ h
  | mqdDecodeNum nbits ctx => exact K.ofOp (K.mqdDecodeNum nbits ctx) _ h
  | mqdSkipEnd => exact K.ofOp K.mqdSkipEnd _ h
  | ebEncode => exact K.ofOp K.ebEncode _ h
  | ebDecode => exact K.ofOp K.ebDecode _ h
  | ebSigPass dir i => exact K.ofOp (K.sigPass dir i) _ h
  | ebRefPass dir i => exact K.ofOp (K.refPass dir i) _ h
  | ebCleanup dir i => exact K.ofOp (K.cleanup dir i) _ h
  | cfgSet reg val => exact K.ofOp (hcfg reg val rfl) _ h
  | cfgGet reg =>
    have hs := cfgGet_readsOnly reg s
    simp only [Machine.exec, execCfgGet, commandAlways, Host.Outcome.next.injEq] at h
    subst h
    unfold settle
    cases hr : cfgGet reg s with
    | ok p s' =>
      rw [hr] at hs
      change s' = s at hs
      subst hs
      exact K.respond _ _ s'
    | error e s' =>
      rw [hr] at hs
      change s' = s at hs
      subst hs
      cases e with
      | protocolFault code => exact K.protocolFault code s'
      | decodeFailure code => exact K.decodeFailure code s'
      | ioFailure => exact K.ioFailure s'

end AnswerKeeps

/-- A relation that every command keeps. -/
structure CommandKeeps (R : State → State → Prop) : Prop extends AnswerKeeps R where
  cfgSet : ∀ reg val, Keeps R (cfgSet reg val)

/-- Every command keeps the relation. -/
theorem CommandKeeps.exec (K : CommandKeeps R) {i : Instr} {s t : State}
    (h : exec i s = .next t) : R s t :=
  K.toAnswerKeeps.exec (fun reg val _ => K.cfgSet reg val) h

/-- A relation that every step keeps. -/
structure StepKeeps (R : State → State → Prop) : Prop extends CommandKeeps R where
  pop : ∀ s rest, R s (popHost rest s)
  reset : ∀ s, R s (hardReset s)
  writeMem : ∀ s addr v, R s (setWord addr v s)
  setIn : ∀ s bytes rp foreign, R s (hostSetIn bytes rp foreign s)
  drainOut : ∀ s n, R s (hostDrainOut n s)
  setOut : ∀ s bytes, R s (hostSetOut bytes s)

/-- Every step keeps the relation. -/
theorem StepKeeps.step (K : StepKeeps R) {s t : State} (h : step s = .next t) : R s t := by
  unfold Machine.step at h
  split at h
  · cases h; exact K.refl s
  · rename_i w rest _
    refine K.trans (K.pop s rest) ?_
    unfold runWord at h
    split at h
    · exact K.toCommandKeeps.exec h
    · cases h; exact K.toAnswerKeeps.illegalWord _ _
  · cases h; exact K.trans (K.pop s _) (K.reset _)
  · cases h; exact K.trans (K.pop s _) (K.writeMem _ _ _)
  · cases h; exact K.trans (K.pop s _) (K.setIn _ _ _ _)
  · cases h; exact K.trans (K.pop s _) (K.drainOut _ _)
  · cases h; exact K.trans (K.pop s _) (K.setOut _ _)

/-- An invariant of single states as a relation: it is carried over. -/
theorem chains_preserves (I : State → Prop) : Chains fun s t => I s → I t :=
  ⟨fun _ h => h, fun h k hs => k (h hs)⟩

end Sys2Proof.Machine
end

