-- ==== Sys2Proof/Laws/Pair.lean ====
section
/-! SUPPORT. Two runs side by side: operations that behave alike on states that stand in a relation,
and how the sequencer's operations behave alike if the unit operations do.  For claims that an outcome
does not depend on some part of the state. -/

namespace Sys2Proof.Machine

/-- Two results that are alike: both end `ok` with the same result, or both raise the same, and the
states they leave stand in the relation. -/
def Alike {α : Type} (R : State → State → Prop) :
    EStateM.Result Raise State α → EStateM.Result Raise State α → Prop
  | .ok a s, .ok b t => a = b ∧ R s t
  | .error e s, .error f t => e = f ∧ R s t
  | _, _ => False

/-- An operation that behaves alike on states that stand in the relation. -/
def Agrees {α : Type} (R : State → State → Prop) (x : Op α) : Prop :=
  ∀ s t, R s t → Alike R (x s) (x t)

section Agrees

variable {α β : Type} {R : State → State → Prop}

theorem Agrees.pure (a : α) : Agrees R (pure a : Op α) := fun _ _ h => ⟨rfl, h⟩

theorem Agrees.raise (e : Raise) : Agrees R (raise e : Op α) := fun _ _ h => ⟨rfl, h⟩

theorem Agrees.modS {f : State → State} (hf : ∀ s t, R s t → R (f s) (f t)) :
    Agrees R (modS f) := fun s t h => ⟨rfl, hf s t h⟩

theorem Agrees.require (cond : Bool) (code : FaultCode) : Agrees R (require cond code) :=
  fun _ _ h => by cases cond <;> exact ⟨rfl, h⟩

theorem Agrees.bind {x : Op α} {f : α → Op β} (hx : Agrees R x) (hf : ∀ a, Agrees R (f a)) :
    Agrees R (x >>= f) := fun s t h => by
  have hst := hx s t h
  rw [run_bind, run_bind]
  cases hs : x s <;> cases ht : x t <;> rw [hs, ht] at hst
  · obtain ⟨rfl, hR⟩ := hst
    exact hf _ _ _ hR
  · exact hst.elim
  · exact hst.elim
  · exact hst

/-- Reading the state first: the rest need only behave alike on two states in the relation. -/
theorem Agrees.getS_bind {f : State → Op β}
    (hf : ∀ s t, R s t → Alike R (f s s) (f t t)) : Agrees R (getS >>= f) := hf

/-- Reading some part of the state on which related states agree. -/
theorem Agrees.read {γ : Type} (g : State → γ) (hg : ∀ s t, R s t → g s = g t) {f : γ → Op β}
    (hf : ∀ a, Agrees R (f a)) : Agrees R (Machine.getS >>= fun s => f (g s)) := fun s t h => by
  have key : ∀ c, g s = c → Alike R (f (g s) s) (f c t) := by
    rintro _ rfl
    exact hf (g s) s t h
  exact key _ (hg s t h)

theorem Agrees.ite {c : Prop} [Decidable c] {x y : Op α} (hx : Agrees R x) (hy : Agrees R y) :
    Agrees R (if c then x else y) := by
  split <;> assumption

theorem Agrees.doIf {c : Prop} [Decidable c] {x : Op Unit} (hx : Agrees R x) :
    Agrees R (doIf c x) := Agrees.ite hx (Agrees.pure ())

theorem Agrees.forEach {γ : Type} {xs : List γ} {body : γ → Op Unit}
    (h : ∀ x, Agrees R (body x)) : Agrees R (forEach xs body) := by
  induction xs with
  | nil => exact Agrees.pure ()
  | cons x xs ih => exact Agrees.bind (h x) fun _ => ih

end Agrees

/-- A relation on which every unit operation of the sequencer behaves alike. -/
structure UnitAgrees (R : State → State → Prop) : Prop where
  height : ∀ s t, R s t → s.H = t.H
  width : ∀ s t, R s t → s.W = t.W
  depth : ∀ s t, R s t → s.D = t.D
  subBand : ∀ s t, R s t → s.cfg.sb = t.cfg.sb
  geom : Agrees R requireGeom
  idle : Agrees R requireIdle
  mode : ∀ m, Agrees R (requireMode m)
  ptOk : ∀ ctx, Agrees R (requirePt ctx)
  passOk : ∀ dir i, Agrees R (requirePass dir i)
  ptReset : Agrees R ptReset
  sigReset : Agrees R sigReset
  sigIsSig : ∀ r c, Agrees R (sigIsSig r c)
  sigSpCtx : ∀ r c sb, Agrees R (sigSpCtx r c sb)
  sigSignCtx : ∀ r c, Agrees R (sigSignCtx r c)
  sigRefCtx : ∀ r c, Agrees R (sigRefCtx r c)
  sigSetSig : ∀ r c neg, Agrees R (sigSetSig r c neg)
  sigStripZ : ∀ sb r c, Agrees R (sigStripZ sb r c)
  bpNewPlane : ∀ i, Agrees R (bpNewPlane i)
  bpBitAt : ∀ i r c, Agrees R (bpBitAt i r c)
  bpSetBit : ∀ i r c b, Agrees R (bpSetBit i r c b)
  bpSignAt : ∀ r c, Agrees R (bpSignAt r c)
  bpSetSign : ∀ r c b, Agrees R (bpSetSign r c b)
  bpIsCoded : ∀ i r c, Agrees R (bpIsCoded i r c)
  bpMarkCoded : ∀ i r c, Agrees R (bpMarkCoded i r c)
  bpStripUnc : ∀ i r c, Agrees R (bpStripUnc i r c)
  bpStripFnz : ∀ i r c, Agrees R (bpStripFnz i r c)
  mqeInit : Agrees R mqeInit
  mqeCode : ∀ b ctx, Agrees R (mqeCode b ctx)
  mqeFlush : Agrees R mqeFlush
  mqeMarkEnd : Agrees R mqeMarkEnd
  mqdInit : Agrees R mqdInit
  mqdDecode : ∀ ctx, Agrees R (mqdDecode ctx)
  mqdSkipEnd : Agrees R mqdSkipEnd

namespace UnitAgrees

variable {R : State → State → Prop} (K : UnitAgrees R)
include K

theorem codeBits (value ctx n : Nat) : Agrees R (codeBits value ctx n) := by
  induction n with
  | zero => exact Agrees.pure _
  | succ n ih => exact Agrees.bind (K.mqeCode _ ctx) fun _ => ih

theorem mqeCodeNum (value nbits ctx : Nat) : Agrees R (mqeCodeNum value nbits ctx) :=
  Agrees.bind (K.mode _) fun _ => Agrees.bind (K.ptOk ctx) fun _ =>
    Agrees.bind (Agrees.require _ _) fun _ => K.codeBits value ctx nbits

theorem decodeBits (ctx n v : Nat) : Agrees R (decodeBits ctx n v) := by
  induction n generalizing v with
  | zero => exact Agrees.pure _
  | succ n ih => exact Agrees.bind (K.mqdDecode ctx) fun _ => ih _

theorem mqdDecodeNum (nbits ctx : Nat) : Agrees R (mqdDecodeNum nbits ctx) :=
  Agrees.bind (K.mode _) fun _ => Agrees.bind (K.ptOk ctx) fun _ =>
    Agrees.bind (Agrees.require _ _) fun _ => K.decodeBits ctx nbits 0

theorem magStep (dir : Dir) (i r c ctx : Nat) : Agrees R (magStep dir i r c ctx) := by
  cases dir
  · exact Agrees.bind (K.bpBitAt i r c) fun _ => Agrees.bind (K.mqeCode _ _) fun _ => Agrees.pure _
  · exact Agrees.bind (K.mqdDecode ctx) fun _ => Agrees.bind (K.bpSetBit i r c _) fun _ =>
      Agrees.pure _

theorem signStep (dir : Dir) (r c : Nat) : Agrees R (signStep dir r c) := by
  refine Agrees.bind (K.sigSignCtx r c) fun p => ?_
  cases dir
  · exact Agrees.bind (K.bpSignAt r c) fun _ => Agrees.bind (K.mqeCode _ _) fun _ =>
      K.sigSetSig r c _
  · exact Agrees.bind (K.mqdDecode _) fun _ => Agrees.bind (K.bpSetSign r c _) fun _ =>
      K.sigSetSig r c _

theorem codeCoefficient (dir : Dir) (i r c ctx : Nat) :
    Agrees R (codeCoefficient dir i r c ctx) :=
  Agrees.bind (K.magStep dir i r c ctx) fun _ =>
    Agrees.bind (Agrees.doIf (K.signStep dir r c)) fun _ => K.bpMarkCoded i r c

theorem sigVisit (dir : Dir) (i : Nat) (sb : SubBand) (p : Nat × Nat) :
    Agrees R (sigVisit dir i sb p) :=
  Agrees.bind (K.sigIsSig _ _) fun _ => Agrees.doIf <|
    Agrees.bind (K.bpIsCoded _ _ _) fun _ => Agrees.doIf <|
      Agrees.bind (K.sigSpCtx _ _ _) fun _ => Agrees.doIf (K.codeCoefficient dir i _ _ _)

theorem sigPass (dir : Dir) (i : Nat) : Agrees R (sigPass dir i) :=
  Agrees.bind (K.passOk dir i) fun _ =>
    Agrees.read (fun s => (s.H, s.W, s.cfg.sb))
      (fun s t h => by simp only [K.height s t h, K.width s t h, K.subBand s t h])
      (f := fun g => Machine.forEach (scanOrder g.1 g.2.1) (Machine.sigVisit dir i g.2.2))
      fun _ => Agrees.forEach fun p => K.sigVisit dir i _ p

theorem refVisit (dir : Dir) (i : Nat) (p : Nat × Nat) : Agrees R (refVisit dir i p) :=
  Agrees.bind (K.sigIsSig _ _) fun _ => Agrees.doIf <|
    Agrees.bind (K.bpIsCoded _ _ _) fun _ => Agrees.doIf <|
      Agrees.bind (K.sigRefCtx _ _) fun _ =>
        Agrees.bind (K.magStep dir i _ _ _) fun _ => K.bpMarkCoded i _ _

theorem refPass (dir : Dir) (i : Nat) : Agrees R (refPass dir i) :=
  Agrees.bind (K.passOk dir i) fun _ =>
    Agrees.read (fun s => (s.H, s.W))
      (fun s t h => by simp only [K.height s t h, K.width s t h])
      (f := fun g => Machine.forEach (scanOrder g.1 g.2) (Machine.refVisit dir i))
      fun _ => Agrees.forEach fun p => K.refVisit dir i p

theorem cleanVisit (dir : Dir) (i : Nat) (sb : SubBand) (r c : Nat) :
    Agrees R (cleanVisit dir i sb r c) :=
  Agrees.bind (K.bpIsCoded _ _ _) fun _ => Agrees.doIf <|
    Agrees.bind (K.sigSpCtx _ _ _) fun _ => K.codeCoefficient dir i r c _

theorem runLength (dir : Dir) (i r0 c : Nat) : Agrees R (runLength dir i r0 c) := by
  cases dir
  · refine Agrees.bind (K.bpStripFnz i r0 c) fun f => Agrees.bind (K.mqeCode _ _) fun _ => ?_
    cases f with
    | none => exact Agrees.pure _
    | some k => exact Agrees.bind (K.mqeCodeNum k 2 _) fun _ => Agrees.pure _
  · exact Agrees.bind (K.mqdDecode _) fun _ => Agrees.ite
      (Agrees.bind (K.mqdDecodeNum 2 _) fun _ =>
        Agrees.bind (K.bpSetBit i _ c true) fun _ => Agrees.pure _)
      (Agrees.pure _)

theorem runMode (i : Nat) (sb : SubBand) (r0 c : Nat) (full : Bool) :
    Agrees R (runMode i sb r0 c full) :=
  Agrees.ite
    (Agrees.bind (K.bpStripUnc i r0 c) fun _ => Agrees.ite (K.sigStripZ sb r0 c) (Agrees.pure _))
    (Agrees.pure _)

theorem cleanColumn (dir : Dir) (i : Nat) (sb : SubBand) (r0 h : Nat) (full : Bool) (c : Nat) :
    Agrees R (cleanColumn dir i sb r0 h full c) := by
  refine Agrees.bind (K.runMode i sb r0 c full) fun _ => ?_
  refine Agrees.ite (Agrees.bind (K.runLength dir i r0 c) fun f => ?_)
    (Agrees.forEach fun j => K.cleanVisit dir i sb _ c)
  cases f with
  | none => exact Agrees.forEach fun j => K.bpMarkCoded i _ c
  | some k =>
    exact Agrees.bind (K.signStep dir _ c) fun _ =>
      Agrees.bind (Agrees.forEach fun j => K.bpMarkCoded i _ c) fun _ =>
        Agrees.forEach fun j => K.cleanVisit dir i sb _ c

theorem cleanup (dir : Dir) (i : Nat) : Agrees R (cleanup dir i) :=
  Agrees.bind (K.passOk dir i) fun _ =>
    Agrees.read (fun s => (s.H, s.W, s.cfg.sb))
      (fun s t h => by simp only [K.height s t h, K.width s t h, K.subBand s t h])
      (f := fun g => Machine.forEach (strips g.1) fun st =>
        Machine.forEach (List.range g.2.1) fun c =>
          Machine.cleanColumn dir i g.2.2 st.1 st.2.1 st.2.2 c)
      fun _ => Agrees.forEach fun _ => Agrees.forEach fun c => K.cleanColumn dir i _ _ _ _ c

theorem planePasses (dir : Dir) (top i : Nat) : Agrees R (planePasses dir top i) :=
  Agrees.bind (K.bpNewPlane i) fun _ =>
    Agrees.bind (Agrees.doIf (Agrees.bind (K.sigPass dir i) fun _ => K.refPass dir i)) fun _ =>
      K.cleanup dir i

theorem planeLoop (dir : Dir) (top n : Nat) : Agrees R (planeLoop dir top n) := by
  induction n with
  | zero => exact Agrees.pure _
  | succ n ih => exact Agrees.bind (K.planePasses dir top n) fun _ => ih

theorem ebEncode : Agrees R ebEncode :=
  Agrees.bind K.geom fun _ => Agrees.bind K.idle fun _ => Agrees.bind K.ptReset fun _ =>
    Agrees.bind K.sigReset fun _ => Agrees.bind K.mqeInit fun _ =>
      Agrees.read (fun s => s.D) (fun s t h => K.depth s t h)
        (f := fun d => do
          Machine.planeLoop .encode (d - 1) d
          Machine.mqeFlush
          Machine.mqeMarkEnd)
        fun _ => Agrees.bind (K.planeLoop _ _ _) fun _ =>
          Agrees.bind K.mqeFlush fun _ => K.mqeMarkEnd

theorem ebDecode : Agrees R ebDecode :=
  Agrees.bind K.geom fun _ => Agrees.bind K.idle fun _ => Agrees.bind K.ptReset fun _ =>
    Agrees.bind K.sigReset fun _ => Agrees.bind K.mqdInit fun _ =>
      Agrees.read (fun s => s.D) (fun s t h => K.depth s t h)
        (f := fun d => do
          Machine.planeLoop .decode (d - 1) d
          Machine.mqdSkipEnd)
        fun _ => Agrees.bind (K.planeLoop _ _ _) fun _ => K.mqdSkipEnd

end UnitAgrees

end Sys2Proof.Machine
end

