-- ==== Sys2Proof/Laws/PerInstr.lean ====
section
/-! SUPPORT. Per command: the decoder reads back what the encoder wrote, every operand at every value
its field admits (30_encoding.md R96, R97). -/

namespace Sys2Proof.Laws.RoundTrip

/-- The command is read back from its word. -/
def Statement (i : Instr) : Prop := i.wellFormed = true → decode (encode i) = .command i

theorem bitNat_lt (b : Bool) : bitNat b < 2 := by cases b <;> decide

theorem bitNat_eq_one (b : Bool) : (bitNat b == 1) = b := by cases b <;> rfl

theorem subBandId_lt (sb : SubBand) : subBandId sb < 4 := by cases sb <;> decide

theorem subBandOf_subBandId (sb : SubBand) : subBandOf (subBandId sb) = sb := by cases sb <;> rfl

theorem dirOf_dirBit (dir : Dir) : dirOf (dirBit dir) = dir := by cases dir <;> rfl

/-- A number below 2^32 is its own word. -/
theorem decode_ofNat {n : Nat} (h : n < 2 ^ 32) : decode (BitVec.ofNat 32 n) = decodeNat n := by
  rw [decode, BitVec.toNat_ofNat, Nat.mod_eq_of_lt h]

/-- The fields of a word of format N. -/
theorem fields_encN {op : Nat} (ho : op < 64) :
    encN op < 2 ^ 32 ∧ field (encN op) 31 26 = op ∧ field (encN op) 25 0 = 0 := by
  simp only [encN, field]
  omega

/-- The fields of a word of format C. -/
theorem fields_encC {op ctx : Nat} (sw b : Bool) (ho : op < 64) (hc : ctx < 32) :
    encC op sw b ctx < 2 ^ 32 ∧ field (encC op sw b ctx) 31 26 = op ∧
    field (encC op sw b ctx) 25 7 = 0 ∧ bitField (encC op sw b ctx) 6 = sw ∧
    bitField (encC op sw b ctx) 5 = b ∧ field (encC op sw b ctx) 4 0 = ctx ∧
    (sw = false → field (encC op sw b ctx) 25 6 = 0) ∧
    (sw = false → b = false → field (encC op sw b ctx) 25 5 = 0) := by
  cases sw <;> cases b <;> and_intros <;> intros <;> try contradiction
  all_goals
    simp only [encC, field, bitField, bitNat, Bool.false_eq_true, if_true, if_false, beq_iff_eq,
      beq_eq_false_iff_ne]
    omega

/-- The fields of a word of format V. -/
theorem fields_encV {op value nbits ctx : Nat} (ho : op < 64) (hv : value < 65536)
    (hn : nbits < 32) (hc : ctx < 32) :
    encV op value nbits ctx < 2 ^ 32 ∧ field (encV op value nbits ctx) 31 26 = op ∧
    field (encV op value nbits ctx) 25 10 = value ∧ field (encV op value nbits ctx) 9 5 = nbits ∧
    field (encV op value nbits ctx) 4 0 = ctx := by
  simp only [encV, field]
  omega

/-- The fields of a word of format P. -/
theorem fields_encP {op r c lo : Nat} (hi : Bool) (ho : op < 64) (hr : r < 1024) (hc : c < 1024)
    (hl : lo < 32) :
    encP op r c hi lo < 2 ^ 32 ∧ field (encP op r c hi lo) 31 26 = op ∧
    field (encP op r c hi lo) 25 16 = r ∧ field (encP op r c hi lo) 15 6 = c ∧
    bitField (encP op r c hi lo) 5 = hi ∧ field (encP op r c hi lo) 4 0 = lo ∧
    (hi = false → field (encP op r c hi lo) 5 5 = 0) ∧
    (hi = false → field (encP op r c hi lo) 5 0 = lo) ∧
    (hi = false → field (encP op r c hi lo) 5 1 = lo / 2) ∧
    (hi = false → field (encP op r c hi lo) 5 2 = lo / 4) ∧
    field (encP op r c hi lo) 1 0 = lo % 4 ∧ bitField (encP op r c hi lo) 0 = (lo % 2 == 1) ∧
    (r = 0 → c = 0 → field (encP op r c hi lo) 25 6 = 0) ∧
    (r = 0 → c = 0 → hi = false → field (encP op r c hi lo) 25 5 = 0) := by
  cases hi <;> and_intros <;> intros <;> try contradiction
  all_goals
    simp only [encP, field, bitField, bitNat, Bool.false_eq_true, if_true, if_false, beq_iff_eq,
      beq_eq_false_iff_ne]
    first | omega | (congr 1; omega)

/-- The fields of a word of format G. -/
theorem fields_encG {op reg val : Nat} (ho : op < 64) (hr : reg < 64) (hv : val < 1048576) :
    encG op reg val < 2 ^ 32 ∧ field (encG op reg val) 31 26 = op ∧
    field (encG op reg val) 25 20 = reg ∧ field (encG op reg val) 19 0 = val := by
  simp only [encG, field]
  omega

/-- `PT.RESET`. -/
theorem ptReset : Statement .ptReset := fun _ => by
  obtain ⟨hlt, hop, hz⟩ := fields_encN (op := 0x01) (by decide)
  simp [encode, encodeNat, decode_ofNat hlt, decodeNat, hop, hz, ifZero]

/-- `PT.EST`. -/
theorem ptEst (ctx : Nat) : Statement (.ptEst ctx) := fun h => by
  simp only [Instr.wellFormed, wfCtx, decide_eq_true_eq] at h
  obtain ⟨hlt, hop, -, -, -, hctx, -, hz5⟩ := fields_encC (op := 0x02) false false (by decide) h
  simp [encode, encodeNat, decode_ofNat hlt, decodeNat, hop, hctx, hz5 rfl rfl, ifZero]

/-- `PT.TRANS`. -/
theorem ptTrans (ctx : Nat) (m sw : Bool) : Statement (.ptTrans ctx m sw) := fun h => by
  simp only [Instr.wellFormed, wfCtx, decide_eq_true_eq] at h
  obtain ⟨hlt, hop, hz, hsw, hb, hctx, -, -⟩ := fields_encC (op := 0x03) sw m (by decide) h
  simp [encode, encodeNat, decode_ofNat hlt, decodeNat, hop, hctx, hsw, hb, hz, ifZero]

/-- `SIG.RESET`. -/
theorem sigReset : Statement .sigReset := fun _ => by
  obtain ⟨hlt, hop, hz⟩ := fields_encN (op := 0x08) (by decide)
  simp [encode, encodeNat, decode_ofNat hlt, decodeNat, hop, hz, ifZero]

/-- `SIG.ISSIG`. -/
theorem sigIsSig (r c : Nat) : Statement (.sigIsSig r c) := fun h => by
  simp only [Instr.wellFormed, wfPos, Bool.and_eq_true, decide_eq_true_eq] at h
  obtain ⟨hlt, hop, hr, hc, -, -, -, h50, -, -, -, -, -, -⟩ :=
    fields_encP (op := 0x09) (r := r) (c := c) (lo := 0) false (by decide) h.1 h.2 (by decide)
  simp [encode, encodeNat, decode_ofNat hlt, decodeNat, hop, hr, hc, h50 rfl, ifZero]

/-- `SIG.SPCTX`. -/
theorem sigSpCtx (r c : Nat) (sb : SubBand) : Statement (.sigSpCtx r c sb) := fun h => by
  simp only [Instr.wellFormed, wfPos, Bool.and_eq_true, decide_eq_true_eq] at h
  obtain ⟨hlt, hop, hr, hc, -, -, -, -, -, h52, h10, -, -, -⟩ :=
    fields_encP (op := 0x0A) (r := r) (c := c) (lo := (subBandId sb)) false (by decide) h.1 h.2 (Nat.lt_trans (subBandId_lt sb) (by decide))
  simp [encode, encodeNat, decode_ofNat hlt, decodeNat, hop, hr, hc, h52 rfl, h10, Nat.div_eq_of_lt (subBandId_lt sb), Nat.mod_eq_of_lt (subBandId_lt sb), subBandOf_subBandId, ifZero]

/-- `SIG.SIGNCTX`. -/
theorem sigSignCtx (r c : Nat) : Statement (.sigSignCtx r c) := fun h => by
  simp only [Instr.wellFormed, wfPos, Bool.and_eq_true, decide_eq_true_eq] at h
  obtain ⟨hlt, hop, hr, hc, -, -, -, h50, -, -, -, -, -, -⟩ :=
    fields_encP (op := 0x0B) (r := r) (c := c) (lo := 0) false (by decide) h.1 h.2 (by decide)
  simp [encode, encodeNat, decode_ofNat hlt, decodeNat, hop, hr, hc, h50 rfl, ifZero]

/-- `SIG.REFCTX`. -/
theorem sigRefCtx (r c : Nat) : Statement (.sigRefCtx r c) := fun h => by
  simp only [Instr.wellFormed, wfPos, Bool.and_eq_true, decide_eq_true_eq] at h
  obtain ⟨hlt, hop, hr, hc, -, -, -, h50, -, -, -, -, -, -⟩ :=
    fields_encP (op := 0x0C) (r := r) (c := c) (lo := 0) false (by decide) h.1 h.2 (by decide)
  simp [encode, encodeNat, decode_ofNat hlt, decodeNat, hop, hr, hc, h50 rfl, ifZero]

/-- `SIG.SETSIG`. -/
theorem sigSetSig (r c : Nat) (neg : Bool) : Statement (.sigSetSig r c neg) := fun h => by
  simp only [Instr.wellFormed, wfPos, Bool.and_eq_true, decide_eq_true_eq] at h
  obtain ⟨hlt, hop, hr, hc, -, -, -, -, h51, -, -, h0, -, -⟩ :=
    fields_encP (op := 0x0D) (r := r) (c := c) (lo := (bitNat neg)) false (by decide) h.1 h.2 (Nat.lt_trans (bitNat_lt neg) (by decide))
  simp [encode, encodeNat, decode_ofNat hlt, decodeNat, hop, hr, hc, h51 rfl, h0, Nat.div_eq_of_lt (bitNat_lt neg), Nat.mod_eq_of_lt (bitNat_lt neg), bitNat_eq_one, ifZero]

/-- `SIG.STRIPZ`. -/
theorem sigStripZ (sb : SubBand) (r c : Nat) : Statement (.sigStripZ sb r c) := fun h => by
  simp only [Instr.wellFormed, wfPos, Bool.and_eq_true, decide_eq_true_eq] at h
  obtain ⟨hlt, hop, hr, hc, -, -, -, -, -, h52, h10, -, -, -⟩ :=
    fields_encP (op := 0x0E) (r := r) (c := c) (lo := (subBandId sb)) false (by decide) h.1 h.2 (Nat.lt_trans (subBandId_lt sb) (by decide))
  simp [encode, encodeNat, decode_ofNat hlt, decodeNat, hop, hr, hc, h52 rfl, h10, Nat.div_eq_of_lt (subBandId_lt sb), Nat.mod_eq_of_lt (subBandId_lt sb), subBandOf_subBandId, ifZero]

/-- `BP.NEWPLANE`. -/
theorem bpNewPlane (i : Nat) : Statement (.bpNewPlane i) := fun h => by
  simp only [Instr.wellFormed, wfPlane, decide_eq_true_eq] at h
  obtain ⟨hlt, hop, -, -, -, hlo, -, -, -, -, -, -, -, h255⟩ :=
    fields_encP (op := 0x10) (r := 0) (c := 0) (lo := i) false (by decide) (by decide) (by decide) h
  simp [encode, encodeNat, decode_ofNat hlt, decodeNat, hop, hlo, h255 rfl rfl rfl, ifZero]

/-- `BP.BITAT`. -/
theorem bpBitAt (i r c : Nat) : Statement (.bpBitAt i r c) := fun h => by
  simp only [Instr.wellFormed, wfPlane, wfPos, Bool.and_eq_true, decide_eq_true_eq] at h
  obtain ⟨hlt, hop, hr, hc, -, hlo, h55, -, -, -, -, -, -, -⟩ :=
    fields_encP (op := 0x11) (r := r) (c := c) (lo := i) false (by decide) h.2.1 h.2.2 h.1
  simp [encode, encodeNat, decode_ofNat hlt, decodeNat, hop, hr, hc, hlo, h55 rfl, ifZero]

/-- `BP.SETBIT`. -/
theorem bpSetBit (i r c : Nat) (b : Bool) : Statement (.bpSetBit i r c b) := fun h => by
  simp only [Instr.wellFormed, wfPlane, wfPos, Bool.and_eq_true, decide_eq_true_eq] at h
  obtain ⟨hlt, hop, hr, hc, hhi, hlo, -, -, -, -, -, -, -, -⟩ :=
    fields_encP (op := 0x12) (r := r) (c := c) (lo := i) b (by decide) h.2.1 h.2.2 h.1
  simp [encode, encodeNat, decode_ofNat hlt, decodeNat, hop, hr, hc, hhi, hlo]

/-- `BP.SIGNAT`. -/
theorem bpSignAt (r c : Nat) : Statement (.bpSignAt r c) := fun h => by
  simp only [Instr.wellFormed, wfPos, Bool.and_eq_true, decide_eq_true_eq] at h
  obtain ⟨hlt, hop, hr, hc, -, -, -, h50, -, -, -, -, -, -⟩ :=
    fields_encP (op := 0x13) (r := r) (c := c) (lo := 0) false (by decide) h.1 h.2 (by decide)
  simp [encode, encodeNat, decode_ofNat hlt, decodeNat, hop, hr, hc, h50 rfl, ifZero]

/-- `BP.SETSIGN`. -/
theorem bpSetSign (r c : Nat) (b : Bool) : Statement (.bpSetSign r c b) := fun h => by
  simp only [Instr.wellFormed, wfPos, Bool.and_eq_true, decide_eq_true_eq] at h
  obtain ⟨hlt, hop, hr, hc, hhi, hlo, -, -, -, -, -, -, -, -⟩ :=
    fields_encP (op := 0x14) (r := r) (c := c) (lo := 0) b (by decide) h.1 h.2 (by decide)
  simp [encode, encodeNat, decode_ofNat hlt, decodeNat, hop, hr, hc, hhi, hlo, ifZero]

/-- `BP.ISCODED`. -/
theorem bpIsCoded (i r c : Nat) : Statement (.bpIsCoded i r c) := fun h => by
  simp only [Instr.wellFormed, wfPlane, wfPos, Bool.and_eq_true, decide_eq_true_eq] at h
  obtain ⟨hlt, hop, hr, hc, -, hlo, h55, -, -, -, -, -, -, -⟩ :=
    fields_encP (op := 0x15) (r := r) (c := c) (lo := i) false (by decide) h.2.1 h.2.2 h.1
  simp [encode, encodeNat, decode_ofNat hlt, decodeNat, hop, hr, hc, hlo, h55 rfl, ifZero]

/-- `BP.MARKCODED`. -/
theorem bpMarkCoded (i r c : Nat) : Statement (.bpMarkCoded i r c) := fun h => by
  simp only [Instr.wellFormed, wfPlane, wfPos, Bool.and_eq_true, decide_eq_true_eq] at h
  obtain ⟨hlt, hop, hr, hc, -, hlo, h55, -, -, -, -, -, -, -⟩ :=
    fields_encP (op := 0x16) (r := r) (c := c) (lo := i) false (by decide) h.2.1 h.2.2 h.1
  simp [encode, encodeNat, decode_ofNat hlt, decodeNat, hop, hr, hc, hlo, h55 rfl, ifZero]

/-- `BP.NFULL`. -/
theorem bpNFull : Statement .bpNFull := fun _ => by
  obtain ⟨hlt, hop, hz⟩ := fields_encN (op := 0x17) (by decide)
  simp [encode, encodeNat, decode_ofNat hlt, decodeNat, hop, hz, ifZero]

/-- `BP.LASTH`. -/
theorem bpLastH : Statement .bpLastH := fun _ => by
  obtain ⟨hlt, hop, hz⟩ := fields_encN (op := 0x18) (by decide)
  simp [encode, encodeNat, decode_ofNat hlt, decodeNat, hop, hz, ifZero]

/-- `BP.LASTOFF`. -/
theorem bpLastOff : Statement .bpLastOff := fun _ => by
  obtain ⟨hlt, hop, hz⟩ := fields_encN (op := 0x19) (by decide)
  simp [encode, encodeNat, decode_ofNat hlt, decodeNat, hop, hz, ifZero]

/-- `BP.STRIPUNC`. -/
theorem bpStripUnc (i r c : Nat) : Statement (.bpStripUnc i r c) := fun h => by
  simp only [Instr.wellFormed, wfPlane, wfPos, Bool.and_eq_true, decide_eq_true_eq] at h
  obtain ⟨hlt, hop, hr, hc, -, hlo, h55, -, -, -, -, -, -, -⟩ :=
    fields_encP (op := 0x1A) (r := r) (c := c) (lo := i) false (by decide) h.2.1 h.2.2 h.1
  simp [encode, encodeNat, decode_ofNat hlt, decodeNat, hop, hr, hc, hlo, h55 rfl, ifZero]

/-- `BP.STRIPFNZ`. -/
theorem bpStripFnz (i r c : Nat) : Statement (.bpStripFnz i r c) := fun h => by
  simp only [Instr.wellFormed, wfPlane, wfPos, Bool.and_eq_true, decide_eq_true_eq] at h
  obtain ⟨hlt, hop, hr, hc, -, hlo, h55, -, -, -, -, -, -, -⟩ :=
    fields_encP (op := 0x1B) (r := r) (c := c) (lo := i) false (by decide) h.2.1 h.2.2 h.1
  simp [encode, encodeNat, decode_ofNat hlt, decodeNat, hop, hr, hc, hlo, h55 rfl, ifZero]

/-- `MQE.INIT`. -/
theorem mqeInit : Statement .mqeInit := fun _ => by
  obtain ⟨hlt, hop, hz⟩ := fields_encN (op := 0x20) (by decide)
  simp [encode, encodeNat, decode_ofNat hlt, decodeNat, hop, hz, ifZero]

/-- `MQE.CODE`. -/
theorem mqeCode (b : Bool) (ctx : Nat) : Statement (.mqeCode b ctx) := fun h => by
  simp only [Instr.wellFormed, wfCtx, decide_eq_true_eq] at h
  obtain ⟨hlt, hop, -, -, hb, hctx, hz6, -⟩ := fields_encC (op := 0x21) false b (by decide) h
  simp [encode, encodeNat, decode_ofNat hlt, decodeNat, hop, hctx, hb, hz6 rfl, ifZero]

/-- `MQE.CODENUM`. -/
theorem mqeCodeNum (value nbits ctx : Nat) : Statement (.mqeCodeNum value nbits ctx) := fun h => by
  simp only [Instr.wellFormed, wfCtx, Bool.and_eq_true, decide_eq_true_eq] at h
  obtain ⟨hlt, hop, hv, hn, hctx⟩ := fields_encV (op := 0x22) (by decide) h.1.1 h.1.2 h.2
  simp [encode, encodeNat, decode_ofNat hlt, decodeNat, hop, hv, hn, hctx]

/-- `MQE.FLUSH`. -/
theorem mqeFlush : Statement .mqeFlush := fun _ => by
  obtain ⟨hlt, hop, hz⟩ := fields_encN (op := 0x23) (by decide)
  simp [encode, encodeNat, decode_ofNat hlt, decodeNat, hop, hz, ifZero]

/-- `MQE.MARKEND`. -/
theorem mqeMarkEnd : Statement .mqeMarkEnd := fun _ => by
  obtain ⟨hlt, hop, hz⟩ := fields_encN (op := 0x24) (by decide)
  simp [encode, encodeNat, decode_ofNat hlt, decodeNat, hop, hz, ifZero]

/-- `MQD.INIT`. -/
theorem mqdInit : Statement .mqdInit := fun _ => by
  obtain ⟨hlt, hop, hz⟩ := fields_encN (op := 0x28) (by decide)
  simp [encode, encodeNat, decode_ofNat hlt, decodeNat, hop, hz, ifZero]

/-- `MQD.DECODE`. -/
theorem mqdDecode (ctx : Nat) : Statement (.mqdDecode ctx) := fun h => by
  simp only [Instr.wellFormed, wfCtx, decide_eq_true_eq] at h
  obtain ⟨hlt, hop, -, -, -, hctx, -, hz5⟩ := fields_encC (op := 0x29) false false (by decide) h
  simp [encode, encodeNat, decode_ofNat hlt, decodeNat, hop, hctx, hz5 rfl rfl, ifZero]

/-- `MQD.DECODENUM`. -/
theorem mqdDecodeNum (nbits ctx : Nat) : Statement (.mqdDecodeNum nbits ctx) := fun h => by
  simp only [Instr.wellFormed, wfCtx, Bool.and_eq_true, decide_eq_true_eq] at h
  obtain ⟨hlt, hop, hv, hn, hctx⟩ :=
    fields_encV (op := 0x2A) (value := 0) (by decide) (by decide) h.1 h.2
  simp [encode, encodeNat, decode_ofNat hlt, decodeNat, hop, hv, hn, hctx, ifZero]

/-- `MQD.SKIPEND`. -/
theorem mqdSkipEnd : Statement .mqdSkipEnd := fun _ => by
  obtain ⟨hlt, hop, hz⟩ := fields_encN (op := 0x2B) (by decide)
  simp [encode, encodeNat, decode_ofNat hlt, decodeNat, hop, hz, ifZero]

/-- `EB.ENCODE`. -/
theorem ebEncode : Statement .ebEncode := fun _ => by
  obtain ⟨hlt, hop, hz⟩ := fields_encN (op := 0x30) (by decide)
  simp [encode, encodeNat, decode_ofNat hlt, decodeNat, hop, hz, ifZero]

/-- `EB.DECODE`. -/
theorem ebDecode : Statement .ebDecode := fun _ => by
  obtain ⟨hlt, hop, hz⟩ := fields_encN (op := 0x31) (by decide)
  simp [encode, encodeNat, decode_ofNat hlt, decodeNat, hop, hz, ifZero]

/-- `EB.SIGPASS`. -/
theorem ebSigPass (dir : Dir) (i : Nat) : Statement (.ebSigPass dir i) := fun h => by
  simp only [Instr.wellFormed, wfPlane, decide_eq_true_eq] at h
  obtain ⟨hlt, hop, -, -, hhi, hlo, -, -, -, -, -, -, h256, -⟩ :=
    fields_encP (op := 0x32) (r := 0) (c := 0) (lo := i) (dirBit dir) (by decide) (by decide) (by decide) h
  simp [encode, encodeNat, decode_ofNat hlt, decodeNat, hop, hlo, hhi, h256 rfl rfl, dirOf_dirBit, ifZero]

/-- `EB.REFPASS`. -/
theorem ebRefPass (dir : Dir) (i : Nat) : Statement (.ebRefPass dir i) := fun h => by
  simp only [Instr.wellFormed, wfPlane, decide_eq_true_eq] at h
  obtain ⟨hlt, hop, -, -, hhi, hlo, -, -, -, -, -, -, h256, -⟩ :=
    fields_encP (op := 0x33) (r := 0) (c := 0) (lo := i) (dirBit dir) (by decide) (by decide) (by decide) h
  simp [encode, encodeNat, decode_ofNat hlt, decodeNat, hop, hlo, hhi, h256 rfl rfl, dirOf_dirBit, ifZero]

/-- `EB.CLEANUP`. -/
theorem ebCleanup (dir : Dir) (i : Nat) : Statement (.ebCleanup dir i) := fun h => by
  simp only [Instr.wellFormed, wfPlane, decide_eq_true_eq] at h
  obtain ⟨hlt, hop, -, -, hhi, hlo, -, -, -, -, -, -, h256, -⟩ :=
    fields_encP (op := 0x34) (r := 0) (c := 0) (lo := i) (dirBit dir) (by decide) (by decide) (by decide) h
  simp [encode, encodeNat, decode_ofNat hlt, decodeNat, hop, hlo, hhi, h256 rfl rfl, dirOf_dirBit, ifZero]

/-- `CFG.SET`. -/
theorem cfgSet (reg val : Nat) : Statement (.cfgSet reg val) := fun h => by
  simp only [Instr.wellFormed, Bool.and_eq_true, decide_eq_true_eq] at h
  obtain ⟨hlt, hop, hr, hv⟩ := fields_encG (op := 0x38) (by decide) h.1 h.2
  simp [encode, encodeNat, decode_ofNat hlt, decodeNat, hop, hr, hv]

/-- `CFG.GET`. -/
theorem cfgGet (reg : Nat) : Statement (.cfgGet reg) := fun h => by
  simp only [Instr.wellFormed, decide_eq_true_eq] at h
  obtain ⟨hlt, hop, hr, hv⟩ := fields_encG (op := 0x39) (val := 0) (by decide) h (by decide)
  simp [encode, encodeNat, decode_ofNat hlt, decodeNat, hop, hr, hv, ifZero]

end Sys2Proof.Laws.RoundTrip
end

