-- ==== Sys2Proof/Laws/Script.lean ====
section
/-! SUPPORT. The small lemmas of the scripts and of the coder's registers as functions, so that no later
proof unfolds them. -/

namespace Sys2Proof.Safety

open Sys2Proof.Machine

/-! ### Scripts -/

@[simp] theorem runScript_done (s : State) :
    runScript .done s = { s with resp := some ⟨.ok, 0⟩ } := rfl

/-- A command that ends `ok` hands its payload on. -/
theorem runScript_ok {i : Instr} {next : Nat → Script} {s t : State} {payload : Word}
    (h : exec i s = .next t) (hr : t.resp = some ⟨.ok, payload⟩) :
    runScript (.run i next) s = runScript (next payload.toNat) t := by
  simp only [runScript, h, hr]

/-- A command that ends otherwise ends the script. -/
theorem runScript_stop {i : Instr} {next : Nat → Script} {s t : State} {kind : RespKind}
    {payload : Word} (h : exec i s = .next t) (hr : t.resp = some ⟨kind, payload⟩)
    (hk : kind ≠ .ok) : runScript (.run i next) s = t := by
  simp only [runScript, h, hr]
  cases kind <;> first | exact absurd rfl hk | rfl

@[simp] theorem eachThen_nil {α : Type} (one : α → Script → Script) (next : Script) :
    eachThen [] one next = next := rfl

@[simp] theorem eachThen_cons {α : Type} (x : α) (xs : List α) (one : α → Script → Script)
    (next : Script) : eachThen (x :: xs) one next = one x (eachThen xs one next) := rfl

theorem eachThen_append {α : Type} (xs ys : List α) (one : α → Script → Script) (next : Script) :
    eachThen (xs ++ ys) one next = eachThen xs one (eachThen ys one next) :=
  List.foldr_append ..

theorem eachThen_flatMap {α β : Type} (xs : List α) (f : α → List β) (one : β → Script → Script)
    (next : Script) :
    eachThen (xs.flatMap f) one next = eachThen xs (fun x => eachThen (f x) one) next := by
  induction xs with
  | nil => rfl
  | cons x xs ih => rw [List.flatMap_cons, eachThen_append, ih, eachThen_cons]

theorem eachThen_map {α β : Type} (xs : List α) (f : α → β) (one : β → Script → Script)
    (next : Script) : eachThen (xs.map f) one next = eachThen xs (fun x => one (f x)) next :=
  List.foldr_map ..

/-- The strips as they are written in 45_pass_sequencer.md R262 and as heights of at most four. -/
theorem strips_eq_stripRows (h : Nat) :
    strips h = (stripRows h).map fun p => (p.1, p.2, decide (p.2 = 4)) := by
  unfold strips stripRows
  rw [List.map_map]
  by_cases hp : 0 < h % 4
  · have e : (h + 3) / 4 = h / 4 + 1 := by omega
    rw [if_pos hp, e, List.range_succ, List.map_append]
    congr 1
    · refine List.map_congr_left fun k hk => ?_
      have hk := List.mem_range.mp hk
      have : min 4 (h - 4 * k) = 4 := by omega
      simp only [Function.comp_apply, this, decide_true]
    · have hm : min 4 (h - 4 * (h / 4)) = h % 4 := by omega
      have hn : h % 4 ≠ 4 := by omega
      simp only [List.map_cons, List.map_nil, Function.comp_apply, hm, hn, decide_false,
        Nat.mul_comm]
  · have e : (h + 3) / 4 = h / 4 := by omega
    rw [if_neg hp, e, List.append_nil]
    refine List.map_congr_left fun k hk => ?_
    have hk := List.mem_range.mp hk
    have : min 4 (h - 4 * k) = 4 := by omega
    simp only [Function.comp_apply, this, decide_true]

/-- A visit to each coefficient is one script for each position of the scan order. -/
theorem eachCoefficient_eq_scanOrder (h w : Nat) (visit : Nat → Nat → Script → Script) :
    eachCoefficient h w visit = eachThen (scanOrder h w) (fun p => visit p.1 p.2) .done := by
  rw [scanOrder, strips_eq_stripRows, eachThen_flatMap, eachThen_map]
  refine congrArg (fun one => eachThen (stripRows h) one .done)
    (funext fun strip => funext fun next => ?_)
  rw [eachThen_flatMap]
  refine congrArg (fun one => eachThen (List.range w) one next)
    (funext fun c => funext fun next => ?_)
  rw [eachThen_map]

/-! ### The coder's registers -/

@[simp] theorem encoderDoubled_zero (k : Coder) : encoderDoubled 0 k = (k, []) := rfl

/-- A doubling at whose end CT is not 0 moves no byte. -/
theorem encoderDoubled_succ {k : Coder} (n : Nat) (h : k.ct - 1 ≠ 0) :
    encoderDoubled (n + 1) k
      = encoderDoubled n { k with a := k.a <<< 1, c := k.c <<< 1, ct := k.ct - 1 } := by
  simp only [encoderDoubled, h, if_false]

@[simp] theorem decoderDoubled_zero (s : State) : decoderDoubled 0 s = s := rfl

@[simp] theorem withDecoderC_fields (v : Nat) (s : State) :
    (withDecoderC v s).coder = { s.coder with c := BitVec.ofNat 28 (v % 2 ^ 24) } ∧
    (withDecoderC v s).pt = s.pt ∧ (withDecoderC v s).inp = s.inp ∧
    (withDecoderC v s).rp = s.rp ∧ (withDecoderC v s).out = s.out ∧
    (withDecoderC v s).portFails = s.portFails ∧ (withDecoderC v s).portCalls = s.portCalls ∧
    (withDecoderC v s).freeBits = s.freeBits ∧ (withDecoderC v s).status = s.status ∧
    (withDecoderC v s).inForeign = s.inForeign ∧
    (withDecoderC v s).diverged = (s.diverged || decide (2 ^ 24 ≤ v)) :=
  ⟨rfl, rfl, rfl, rfl, rfl, rfl, rfl, rfl, rfl, rfl, rfl⟩

end Sys2Proof.Safety
end

