-- ==== Sys2Proof/Laws/Units.lean ====
section
/-! SUPPORT. Everything the checks can do, as one chain each, and what each unit operation does where
its checks pass: the lemmas that proofs about the sequencer cite instead of unfolding them. -/

namespace Sys2Proof.Machine

open Sys2Proof.Safety

/-! ### Checks -/

theorem run_requireGeom (s : State) :
    requireGeom s = if geomOK s = true then .ok () s
      else .error (.protocolFault .badConfig) s := rfl

theorem run_requireIdle (s : State) :
    requireIdle s = if s.status.mqMode = .idle then .ok () s
      else .error (.protocolFault .alreadyStarted) s := by
  simp [requireIdle, run_bind, require]

theorem run_requireMode (m : MqMode) (s : State) :
    requireMode m s = if s.status.mqMode = m then .ok () s
      else .error (.protocolFault .notStarted) s := by
  simp [requireMode, run_bind, require]

theorem run_requirePt (ctx : Nat) (s : State) :
    requirePt ctx s = if s.status.ptValid = true then
        if ctx ≤ 18 then .ok () s else .error (.protocolFault .badContext) s
      else .error (.protocolFault .notInitialised) s := by
  simp only [requirePt, run_bind, run_getS, require, decide_eq_true_eq]
  split_ifs <;> rfl

theorem run_requireCoord (r c : Nat) (s : State) :
    requireCoord r c s = if r < s.H ∧ c < s.W then .ok () s
      else .error (.protocolFault .badCoord) s := by
  simp [requireCoord, run_bind, require]

theorem run_requirePlane (i : Nat) (s : State) :
    requirePlane i s = if i < s.D then .ok () s else .error (.protocolFault .badPlane) s := by
  simp [requirePlane, run_bind, require]

theorem run_requireStrip (r : Nat) (s : State) :
    requireStrip r s = if r + 3 < s.H then .ok () s else .error (.protocolFault .badCoord) s := by
  simp [requireStrip, run_bind, require]

theorem run_requireSig (r c : Nat) (s : State) :
    requireSig r c s = if geomOK s = true then
        if s.status.sigValid = true then
          if r < s.H ∧ c < s.W then .ok () s else .error (.protocolFault .badCoord) s
        else .error (.protocolFault .notInitialised) s
      else .error (.protocolFault .badConfig) s := by
  simp only [requireSig, run_bind, run_requireGeom, run_requireCoord, run_getS, require]
  split_ifs <;> simp [*]

theorem run_requireBit (i r c : Nat) (s : State) :
    requireBit i r c s = if geomOK s = true then
        if i < s.D then
          if r < s.H ∧ c < s.W then .ok () s else .error (.protocolFault .badCoord) s
        else .error (.protocolFault .badPlane) s
      else .error (.protocolFault .badConfig) s := by
  simp only [requireBit, run_bind, run_requireGeom, run_requirePlane, run_requireCoord]
  split_ifs <;> simp [*]

theorem run_requireSign (r c : Nat) (s : State) :
    requireSign r c s = if geomOK s = true then
        if r < s.H ∧ c < s.W then .ok () s else .error (.protocolFault .badCoord) s
      else .error (.protocolFault .badConfig) s := by
  simp only [requireSign, run_bind, run_requireGeom, run_requireCoord]
  split_ifs <;> simp [*]

theorem run_requireLive (i r c : Nat) (s : State) :
    requireLive i r c s = if geomOK s = true then
        if s.status.planeLive = true then
          if i < s.D then
            if i = s.curPlane.toNat then
              if r < s.H ∧ c < s.W then .ok () s else .error (.protocolFault .badCoord) s
            else .error (.protocolFault .badPlane) s
          else .error (.protocolFault .badPlane) s
        else .error (.protocolFault .notInitialised) s
      else .error (.protocolFault .badConfig) s := by
  simp only [requireLive, run_bind, run_requireGeom, run_requirePlane, run_requireCoord, run_getS,
    require, decide_eq_true_eq]
  split_ifs <;> first | (simp [*]; done) | simp_all

theorem run_requirePass (dir : Dir) (i : Nat) (s : State) :
    requirePass dir i s = if geomOK s = true then
        if s.status.mqMode = dirMode dir then
          if s.status.ptValid = true ∧ s.status.sigValid = true ∧ s.status.planeLive = true then
            if i < s.D ∧ i = s.curPlane.toNat then .ok () s
            else .error (.protocolFault .badPlane) s
          else .error (.protocolFault .notInitialised) s
        else .error (.protocolFault .notStarted) s
      else .error (.protocolFault .badConfig) s := by
  simp only [requirePass, run_bind, run_requireGeom, run_requireMode, run_getS, require,
    Bool.and_eq_true, decide_eq_true_eq, and_assoc]
  split_ifs <;> first | (simp [*]; done) | (simp_all; omega)

/-! ### Operations whose checks pass -/

section Sig

variable {s : State} {r c : Nat} (h : SigReady s r c)
include h

theorem requireSig_ok : requireSig r c s = .ok () s := by
  simp [run_requireSig, h.geom, h.valid, h.row, h.col]

theorem sigIsSig_ok : sigIsSig r c s = .ok (isSignificant s.sig r c) s := by
  simp [sigIsSig, run_bind, run_map, requireSig_ok h]

theorem sigSpCtx_ok (sb : SubBand) : sigSpCtx r c sb s = .ok (labelAt s r c sb) s := by
  simp [sigSpCtx, run_bind, run_map, requireSig_ok h]

theorem sigSignCtx_ok : sigSignCtx r c s =
    .ok (signClass (contribution s.sig (hNbrs s.W r c)) (contribution s.sig (vNbrs s.H r c))) s := by
  simp [sigSignCtx, run_bind, run_map, requireSig_ok h]

theorem sigRefCtx_ok : sigRefCtx r c s =
    if firstAt s.sig r c = true then
      .ok (if sumHAt s.sig r c + sumVAt s.sig r c + sumDAt s.sig r c = 0 then 14 else 15)
        { s with sig := consumeFirst r c s.sig }
    else .ok 16 s := by
  simp only [sigRefCtx, run_bind, requireSig_ok h, run_getS]
  split_ifs <;> rfl

theorem sigSetSig_ok (neg : Bool) : sigSetSig r c neg s =
    if isSignificant s.sig r c = true then .error (.protocolFault .alreadySignificant) s
    else .ok () { s with sig := markSignificant s.H s.W r c neg s.sig } := by
  simp only [sigSetSig, run_bind, requireSig_ok h, run_getS, require, Bool.not_eq_true']
  cases isSignificant s.sig r c <;> rfl

theorem sigStripZ_ok (sb : SubBand) (hr : r + 3 < s.H) : sigStripZ sb r c s =
    .ok ((List.range 4).all fun j => labelAt s (r + j) c sb == lblZero) s := by
  simp [sigStripZ, run_bind, run_map, requireSig_ok h, run_requireStrip, hr]

end Sig

section Bp

variable {s : State} {i r c : Nat}

theorem bpBitAt_ok (h : BpReady s r c) (hi : i < s.D) :
    bpBitAt i r c s = .ok ((wordAt s (memAddr s r c)).getLsbD i) s := by
  simp [bpBitAt, run_bind, run_map, run_requireBit, run_memRead, h.geom, h.row, h.col, hi]

theorem bpSetBit_ok (h : BpReady s r c) (hi : i < s.D) (b : Bool) :
    bpSetBit i r c b s = .ok ()
      (setWord (memAddr s r c) (replaceBit (wordAt s (memAddr s r c)) i b) s) := by
  simp [bpSetBit, run_bind, run_requireBit, run_memRead, run_memWrite, h.geom, h.row, h.col, hi]

theorem bpSignAt_ok (h : BpReady s r c) :
    bpSignAt r c s = .ok ((wordAt s (memAddr s r c)).getLsbD s.D) s := by
  simp [bpSignAt, run_bind, run_map, run_requireSign, run_memRead, h.geom, h.row, h.col]

theorem bpSetSign_ok (h : BpReady s r c) (b : Bool) :
    bpSetSign r c b s = .ok ()
      (setWord (memAddr s r c) (replaceBit (wordAt s (memAddr s r c)) s.D b) s) := by
  simp [bpSetSign, run_bind, run_requireSign, run_memRead, run_memWrite, h.geom, h.row, h.col]

theorem requireLive_ok (h : LiveReady s i r c) : requireLive i r c s = .ok () s := by
  simp [run_requireLive, h.geom, h.live, h.plane, ← h.current, h.row, h.col]

theorem bpIsCoded_ok (h : LiveReady s i r c) : bpIsCoded i r c s = .ok (codedAt s r c) s := by
  simp [bpIsCoded, run_bind, run_map, requireLive_ok h]

theorem bpMarkCoded_ok (h : LiveReady s i r c) :
    bpMarkCoded i r c s = .ok () (markCoded r c s) := by
  simp [bpMarkCoded, run_bind, requireLive_ok h]

theorem bpStripUnc_ok (h : LiveReady s i r c) (hr : r + 3 < s.H) :
    bpStripUnc i r c s = .ok ((List.range 4).all fun j => !codedAt s (r + j) c) s := by
  simp [bpStripUnc, run_bind, run_map, requireLive_ok h, run_requireStrip, hr]

/-- The bits of a word with one bit replaced (42_block_plane_view.md R173, R175). -/
theorem getLsbD_replaceBit (w : Word) (i : Nat) (b : Bool) (k : Nat) (hk : k < 32) :
    (replaceBit w i b).getLsbD k = if k = i then b else w.getLsbD k := by
  unfold replaceBit
  cases b <;> by_cases h : k = i
  · subst h
    simp [hk]
  · rcases Nat.lt_or_gt_of_ne h with h' | h'
    · simp [hk, h, h']
    · have : k - i ≠ 0 := by omega
      simp [hk, h, this]
  · subst h
    simp [hk]
  · rcases Nat.lt_or_gt_of_ne h with h' | h'
    · simp [hk, h, h']
    · have : k - i ≠ 0 := by omega
      simp [hk, h, this]

/-- Distinct positions of a legal block lie at distinct addresses (20_memory.md R60). -/
theorem memAddr_inj {r' c' : Nat} (hg : geomOK s = true) (hc : c < s.W) (hc' : c' < s.W) :
    memAddr s r c = memAddr s r' c' ↔ r = r' ∧ c = c' := by
  refine ⟨fun h => ?_, by rintro ⟨rfl, rfl⟩; rfl⟩
  simp only [geomOK, Bool.and_eq_true, decide_eq_true_eq] at hg
  have hs := hg.2
  simp only [memAddr] at h
  have hrow : s.cfg.rowOff.toNat + r = s.cfg.rowOff.toNat + r' := by
    by_contra hne
    rcases Nat.lt_or_gt_of_ne hne with hlt | hgt
    · have := Nat.mul_le_mul_right s.cfg.stride.toNat hlt
      rw [Nat.add_mul _ 1] at this
      omega
    · have := Nat.mul_le_mul_right s.cfg.stride.toNat hgt
      rw [Nat.add_mul _ 1] at this
      omega
  rw [hrow] at h
  omega

end Bp

/-! ### Neighbours and their counters -/

/-- What `bumpAll` adds at an index: how often the index stands in the list of positions. -/
theorem cellsGet_bumpAll (ps : List (Nat × Nat)) (m : Cells Nat) (k : Nat) :
    cellsGet 0 (bumpAll ps m) k
      = cellsGet 0 m k + ps.countP fun p => cellIndex p.1 p.2 == k := by
  induction ps generalizing m with
  | nil => simp [bumpAll]
  | cons p ps ih =>
    rw [bumpAll, ih, cellsGet_cellsSet, List.countP_cons]
    by_cases h : cellIndex p.1 p.2 = k
    · simp [h]; omega
    · simp [h, Ne.symm h]

theorem mem_hNbrs {w r c : Nat} {p : Nat × Nat} (hc : c < w) :
    p ∈ hNbrs w r c ↔ p.1 = r ∧ (p.2 + 1 = c ∨ p.2 = c + 1) ∧ p.2 < w := by
  obtain ⟨a, b⟩ := p
  unfold hNbrs
  split <;> split <;> simp <;> omega

theorem mem_vNbrs {h r c : Nat} {p : Nat × Nat} (hr : r < h) :
    p ∈ vNbrs h r c ↔ (p.1 + 1 = r ∨ p.1 = r + 1) ∧ p.1 < h ∧ p.2 = c := by
  obtain ⟨a, b⟩ := p
  unfold vNbrs
  split <;> split <;> simp <;> omega

theorem mem_dNbrs {h w r c : Nat} {p : Nat × Nat} (hr : r < h) (hc : c < w) :
    p ∈ dNbrs h w r c ↔ (p.1 + 1 = r ∨ p.1 = r + 1) ∧ p.1 < h ∧
      (p.2 + 1 = c ∨ p.2 = c + 1) ∧ p.2 < w := by
  unfold dNbrs
  simp only [List.mem_flatMap, mem_vNbrs hr]
  constructor
  · rintro ⟨q, ⟨h1, h2, rfl⟩, hp⟩
    rw [mem_hNbrs hc] at hp
    omega
  · rintro ⟨h1, h2, h3⟩
    refine ⟨(p.1, c), ⟨h1, h2, rfl⟩, ?_⟩
    rw [mem_hNbrs hc]
    exact ⟨rfl, h3⟩

theorem nodup_hNbrs (w r c : Nat) : (hNbrs w r c).Nodup := by
  unfold hNbrs
  split <;> split <;> simp

theorem nodup_vNbrs (h r c : Nat) : (vNbrs h r c).Nodup := by
  unfold vNbrs
  split <;> split <;> simp

end Sys2Proof.Machine
end

