-- ==== Sys2Proof/Tests/Slice0.lean ====
section
/-! SUPPORT. Tests: ill-formed commands are refused, words written out from the spec decode, single
commands on small states give what the spec's vectors say (95_test_vectors.md, and the examples of the
rules), and every hypothesis of a statement is met by a concrete state. -/

namespace Sys2Proof.Tests

set_option Elab.async false

open Sys2Proof.Machine Sys2Proof.Safety

/-! ### Ill-formed commands (30_encoding.md R96) -/

theorem test_wf_ctx_too_wide :
    (Instr.ptEst 32).wellFormed = false ∧ (Instr.ptTrans 32 true true).wellFormed = false ∧
    (Instr.mqeCode true 32).wellFormed = false ∧ (Instr.mqeCodeNum 0 0 32).wellFormed = false ∧
    (Instr.mqdDecode 32).wellFormed = false ∧ (Instr.mqdDecodeNum 0 32).wellFormed = false := by
  decide

theorem test_wf_sig_pos_too_wide :
    (Instr.sigIsSig 1024 0).wellFormed = false ∧ (Instr.sigIsSig 0 1024).wellFormed = false ∧
    (Instr.sigSpCtx 1024 0 .ll).wellFormed = false ∧
    (Instr.sigSignCtx 0 1024).wellFormed = false ∧ (Instr.sigRefCtx 1024 0).wellFormed = false ∧
    (Instr.sigSetSig 0 1024 true).wellFormed = false ∧
    (Instr.sigStripZ .hh 1024 0).wellFormed = false := by decide

theorem test_wf_bp_pos_too_wide :
    (Instr.bpBitAt 0 1024 0).wellFormed = false ∧ (Instr.bpSetBit 0 0 1024 true).wellFormed = false ∧
    (Instr.bpSignAt 1024 0).wellFormed = false ∧ (Instr.bpSetSign 0 1024 true).wellFormed = false ∧
    (Instr.bpIsCoded 0 1024 0).wellFormed = false ∧
    (Instr.bpMarkCoded 0 0 1024).wellFormed = false ∧
    (Instr.bpStripUnc 0 1024 0).wellFormed = false ∧
    (Instr.bpStripFnz 0 0 1024).wellFormed = false := by decide

theorem test_wf_plane_too_wide :
    (Instr.bpNewPlane 32).wellFormed = false ∧ (Instr.bpBitAt 32 0 0).wellFormed = false ∧
    (Instr.bpSetBit 32 0 0 true).wellFormed = false ∧ (Instr.bpIsCoded 32 0 0).wellFormed = false ∧
    (Instr.bpMarkCoded 32 0 0).wellFormed = false ∧ (Instr.bpStripUnc 32 0 0).wellFormed = false ∧
    (Instr.bpStripFnz 32 0 0).wellFormed = false ∧
    (Instr.ebSigPass .encode 32).wellFormed = false ∧
    (Instr.ebRefPass .decode 32).wellFormed = false ∧
    (Instr.ebCleanup .encode 32).wellFormed = false := by decide

theorem test_wf_value_too_wide :
    (Instr.mqeCodeNum 65536 0 0).wellFormed = false ∧ (Instr.mqeCodeNum 0 32 0).wellFormed = false ∧
    (Instr.mqdDecodeNum 32 0).wellFormed = false ∧ (Instr.cfgSet 64 0).wellFormed = false ∧
    (Instr.cfgSet 0 1048576).wellFormed = false ∧ (Instr.cfgGet 64).wellFormed = false := by decide

/-! ### Decoding, every constructor: words written field by field from 30_encoding.md R96 and R97 -/

theorem test_decode_pt :
    decode (0b000001#6 ++ 0#26) = .command .ptReset ∧
    decode (0b000010#6 ++ 0#21 ++ 19#5) = .command (.ptEst 19) ∧
    decode (0b000011#6 ++ 0#19 ++ 1#1 ++ 0#1 ++ 17#5) = .command (.ptTrans 17 false true) ∧
    decode (0b000011#6 ++ 0#19 ++ 0#1 ++ 1#1 ++ 1#5) = .command (.ptTrans 1 true false) := by decide

theorem test_decode_sig :
    decode (0b001000#6 ++ 0#26) = .command .sigReset ∧
    decode (0b001001#6 ++ 2#10 ++ 512#10 ++ 0#6) = .command (.sigIsSig 2 512) ∧
    decode (0b001010#6 ++ 5#10 ++ 1023#10 ++ 0#4 ++ 2#2) = .command (.sigSpCtx 5 1023 .hl) ∧
    decode (0b001011#6 ++ 0#10 ++ 1#10 ++ 0#6) = .command (.sigSignCtx 0 1) ∧
    decode (0b001100#6 ++ 1023#10 ++ 0#10 ++ 0#6) = .command (.sigRefCtx 1023 0) ∧
    decode (0b001101#6 ++ 0#10 ++ 3#10 ++ 0#5 ++ 1#1) = .command (.sigSetSig 0 3 true) ∧
    decode (0b001110#6 ++ 4#10 ++ 1#10 ++ 0#4 ++ 3#2) = .command (.sigStripZ .hh 4 1) := by decide

theorem test_decode_bp :
    decode (0b010000#6 ++ 0#20 ++ 0#1 ++ 31#5) = .command (.bpNewPlane 31) ∧
    decode (0b010001#6 ++ 6#10 ++ 7#10 ++ 0#1 ++ 2#5) = .command (.bpBitAt 2 6 7) ∧
    decode (0b010010#6 ++ 3#10 ++ 1#10 ++ 1#1 ++ 30#5) = .command (.bpSetBit 30 3 1 true) ∧
    decode (0b010011#6 ++ 8#10 ++ 9#10 ++ 0#6) = .command (.bpSignAt 8 9) ∧
    decode (0b010100#6 ++ 8#10 ++ 9#10 ++ 1#1 ++ 0#5) = .command (.bpSetSign 8 9 true) ∧
    decode (0b010101#6 ++ 1#10 ++ 2#10 ++ 0#1 ++ 3#5) = .command (.bpIsCoded 3 1 2) ∧
    decode (0b010110#6 ++ 1#10 ++ 2#10 ++ 0#1 ++ 3#5) = .command (.bpMarkCoded 3 1 2) ∧
    decode (0b010111#6 ++ 0#26) = .command .bpNFull ∧
    decode (0b011000#6 ++ 0#26) = .command .bpLastH ∧
    decode (0b011001#6 ++ 0#26) = .command .bpLastOff ∧
    decode (0b011010#6 ++ 4#10 ++ 2#10 ++ 0#1 ++ 1#5) = .command (.bpStripUnc 1 4 2) ∧
    decode (0b011011#6 ++ 4#10 ++ 2#10 ++ 0#1 ++ 1#5) = .command (.bpStripFnz 1 4 2) := by decide

theorem test_decode_mq :
    decode (0b100000#6 ++ 0#26) = .command .mqeInit ∧
    decode (0b100001#6 ++ 0#20 ++ 1#1 ++ 17#5) = .command (.mqeCode true 17) ∧
    decode (0b100010#6 ++ 0xBEEF#16 ++ 16#5 ++ 18#5) = .command (.mqeCodeNum 0xBEEF 16 18) ∧
    decode (0b100011#6 ++ 0#26) = .command .mqeFlush ∧
    decode (0b100100#6 ++ 0#26) = .command .mqeMarkEnd ∧
    decode (0b101000#6 ++ 0#26) = .command .mqdInit ∧
    decode (0b101001#6 ++ 0#21 ++ 9#5) = .command (.mqdDecode 9) ∧
    decode (0b101010#6 ++ 0#16 ++ 8#5 ++ 18#5) = .command (.mqdDecodeNum 8 18) ∧
    decode (0b101011#6 ++ 0#26) = .command .mqdSkipEnd := by decide

theorem test_decode_eb_cfg :
    decode (0b110000#6 ++ 0#26) = .command .ebEncode ∧
    decode (0b110001#6 ++ 0#26) = .command .ebDecode ∧
    decode (0b110010#6 ++ 0#20 ++ 0#1 ++ 1#5) = .command (.ebSigPass .encode 1) ∧
    decode (0b110011#6 ++ 0#20 ++ 1#1 ++ 2#5) = .command (.ebRefPass .decode 2) ∧
    decode (0b110100#6 ++ 0#20 ++ 1#1 ++ 7#5) = .command (.ebCleanup .decode 7) ∧
    decode (0b111000#6 ++ 6#6 ++ 0xFFFFF#20) = .command (.cfgSet 6 0xFFFFF) ∧
    decode (0b111001#6 ++ 34#6 ++ 0#20) = .command (.cfgGet 34) := by decide

/-- Words printed in 95_test_vectors.md, sections 2 and 3. -/
theorem test_decode_printed_words :
    decode 0x28010002 = .command (.sigSpCtx 1 0 .hl) ∧
    decode 0x34000001 = .command (.sigSetSig 0 0 true) ∧
    decode 0x30010040 = .command (.sigRefCtx 1 1) ∧
    decode 0x84000033 = .command (.mqeCode true 19) ∧
    decode 0x88003D12 = .command (.mqeCodeNum 0x0F 8 18) ∧
    decode 0xA8000112 = .command (.mqdDecodeNum 8 18) ∧
    decode 0xE0600002 = .command (.cfgSet 6 2) ∧ decode 0xE6100000 = .command (.cfgGet 33) := by
  decide

/-- Illegal words printed in 95_test_vectors.md: PT-4, D-8, CFG-2; and the all-zero word (R98). -/
theorem test_decode_illegal_words :
    decode 0 = .illegal .opcode ∧ decode 0x08000080 = .illegal .mustBeZero ∧
    decode 0x04000001 = .illegal .mustBeZero ∧ decode 0xA8000452 = .illegal .mustBeZero ∧
    decode 0xE4700001 = .illegal .mustBeZero ∧ decode 0xFC000000 = .illegal .opcode := by decide

/-! ### Small states -/

/-- The state a command leaves. -/
def after (i : Instr) (s : State) : State :=
  match exec i s with
  | .next t => t
  | .fault _ => s
  | .refused _ => s

theorem exec_after (i : Instr) (s : State) : exec i s = .next (after i s) := by cases i <;> rfl

/-- The state a step leaves. -/
def stepped (s : State) : State :=
  match step s with
  | .next t => t
  | .fault _ => s
  | .refused _ => s

theorem step_stepped (s : State) : step s = .next (stepped s) := by
  obtain ⟨t, h⟩ : ∃ t, step s = .next t := by
    unfold step
    split
    · exact ⟨_, rfl⟩
    · unfold runWord
      split
      · exact ⟨_, exec_after _ _⟩
      · exact ⟨_, rfl⟩
    all_goals exact ⟨_, rfl⟩
  simp only [stepped, h]

/-- A block of `h` rows, `w` columns and depth `d`, one row after another from word 0. -/
def block (h w d : Nat) (sb : SubBand := .ll) (mem : Cells Word := []) : State :=
  { State.reset with
    cfg := ⟨BitVec.ofNat 11 h, BitVec.ofNat 11 w, BitVec.ofNat 5 d, sb, 0, 0, BitVec.ofNat 20 w⟩
    mem := mem }

/-- With the 19 initial probability states (95_test_vectors.md PT-1). -/
def withPt (s : State) : State :=
  { s with pt := ptInitial, status := { s.status with ptValid := true } }

/-- With a valid significance table. -/
def withSig (s : State) : State := { s with status := { s.status with sigValid := true } }

/-- With plane `i` live. -/
def live (i : Nat) (s : State) : State :=
  { s with curPlane := BitVec.ofNat 5 i, status := { s.status with planeLive := true } }

/-- In an encoding session just opened. -/
def encoding (s : State) : State :=
  { s with
    coder := ⟨0x8000, 0, 0, 12, -1⟩
    status := { s.status with mqMode := .encoding } }

/-- With these bytes in `IN`. -/
def feed (bytes : List Byte) (s : State) : State := { s with inp := bytes }

/-- In a decoding session on the empty segment (95_test_vectors.md D-1). -/
def decoding (s : State) : State :=
  { s with
    coder := ⟨0x8000, 0x7FFF80, 0xFF, 1, 1⟩
    inp := [0xFF, 0xA1]
    rp := 1
    status := { s.status with mqMode := .decoding } }

/-- With `FAULT` set by a `NOT_STARTED`. -/
def faulted (s : State) : State :=
  { s with status := { s.status with fault := true, faultCode := some .notStarted } }

/-- The response to a command. -/
def answer (i : Instr) (s : State) : Option Response := (after i s).resp

/-- The response `ok` with this payload. -/
def ok (payload : Word) : Option Response := some ⟨.ok, payload⟩

/-- The response ProtocolFault with this code. -/
def pf (code : Word) : Option Response := some ⟨.protocolFault, code⟩

/-- The probability state of a context as a pair. -/
def ptPair (s : State) (ctx : Nat) : Nat × Bool := ((ptAt s ctx).idx.val, (ptAt s ctx).mps)

/-- The state after `MQE.CODE` or `MQE.FLUSH` as the vectors print it: A, C, T, CT, L. -/
def coderRow (s : State) : Nat × Nat × Nat × Nat × Int :=
  (s.coder.a.toNat, s.coder.c.toNat, s.coder.t.toNat, s.coder.ct.toNat, s.coder.l)

/-! ### PT: vectors PT-1, PT-2, PT-4 -/

theorem test_ptReset_initial_states :
    ((after .ptReset State.reset).pt.toList.map fun e => e.idx.val)
      = [4, 0, 0, 0, 0, 0, 0, 0, 0, 0, 0, 0, 0, 0, 0, 0, 0, 3, 46] ∧
    statusNat (after .ptReset State.reset).status = 0x004 := by decide +kernel

theorem test_ptEst_payloads :
    answer (.ptEst 0) (withPt State.reset) = ok 0x00000521 ∧
    answer (.ptEst 17) (withPt State.reset) = ok 0x00000AC1 ∧
    answer (.ptEst 1) (after (.ptTrans 1 false true) (withPt State.reset)) = ok 0x00013401 := by
  decide +kernel

theorem test_ptEst_faults :
    answer (.ptEst 0) State.reset = pf 9 ∧ answer (.ptEst 19) (withPt State.reset) = pf 2 := by
  decide +kernel

theorem test_ptTrans_switches_only_if_asked :
    ptPair (after (.ptTrans 1 false true) (withPt State.reset)) 1 = (1, true) ∧
    ptPair (after (.ptTrans 1 false false) (withPt State.reset)) 1 = (1, false) ∧
    ptPair (after (.ptTrans 1 true true) (withPt State.reset)) 1 = (1, false) := by decide +kernel

theorem test_ptTrans_rows_three_and_four :
    ptPair (after (.ptTrans 0 false true) (withPt State.reset)) 0 = (29, false) ∧
    ptPair (after (.ptTrans 0 true true) (withPt State.reset)) 0 = (5, false) ∧
    ptPair (after (.ptTrans 17 false true) (withPt State.reset)) 17 = (12, false) := by
  decide +kernel

/-! ### SIG: vectors S-4, S-5 -/

/-- S-4 after its operations 2 and 8: (1, 1) positive, (0, 0) negative in a 3 by 3 block. -/
def threeByThree : State :=
  after (.sigSetSig 0 0 true) (after (.sigSetSig 1 1 false) (withSig (block 3 3 1)))

theorem test_sigReset_needs_geometry :
    answer .sigReset State.reset = pf 10 ∧
    statusNat (after .sigReset (block 3 3 1)).status = 0x008 := by decide +kernel

theorem test_sigIsSig : answer (.sigIsSig 0 0) threeByThree = ok 1 ∧
    answer (.sigIsSig 2 2) threeByThree = ok 0 := by decide +kernel

theorem test_sigSpCtx_hl_exchanges_sums :
    answer (.sigSpCtx 0 1 .ll) (after (.sigSetSig 1 1 false) (withSig (block 3 3 1))) = ok 3 ∧
    answer (.sigSpCtx 0 1 .hl) (after (.sigSetSig 1 1 false) (withSig (block 3 3 1))) = ok 5 ∧
    answer (.sigSpCtx 0 0 .hh) (after (.sigSetSig 1 1 false) (withSig (block 3 3 1))) = ok 3 := by
  decide +kernel

theorem test_sigSpCtx_two_neighbours :
    answer (.sigSpCtx 0 1 .lh) threeByThree = ok 7 ∧
    answer (.sigSpCtx 1 0 .hh) threeByThree = ok 2 := by decide +kernel

theorem test_sigSignCtx :
    answer (.sigSignCtx 0 1) threeByThree = ok 0x2B ∧
    answer (.sigSignCtx 1 0) threeByThree = ok 0x0B ∧
    answer (.sigSignCtx 2 2) threeByThree = ok 0x09 := by decide +kernel

theorem test_sigRefCtx_fifteen_then_sixteen :
    answer (.sigRefCtx 1 1) threeByThree = ok 15 ∧
    answer (.sigRefCtx 1 1) (after (.sigRefCtx 1 1) threeByThree) = ok 16 := by decide +kernel

theorem test_sigRefCtx_fourteen :
    answer (.sigRefCtx 2 2) (after (.sigSetSig 2 2 false) (withSig (block 3 3 1))) = ok 14 := by
  decide +kernel

theorem test_sigSetSig_counts_at_a_corner :
    sumHAt threeByThree.sig 0 1 = 1 ∧ sumVAt threeByThree.sig 1 0 = 1 ∧
    sumDAt threeByThree.sig 1 1 = 1 ∧ sigstAt threeByThree.sig 0 0 = .negative := by decide +kernel

theorem test_sigSetSig_twice :
    answer (.sigSetSig 1 1 true) threeByThree = pf 8 ∧
    sigstAt (after (.sigSetSig 1 1 true) threeByThree).sig 1 1 = .positive := by decide +kernel

theorem test_sigStripZ_looks_at_neighbours_below :
    answer (.sigStripZ .ll 0 0) (withSig (block 5 2 1)) = ok 1 ∧
    answer (.sigStripZ .ll 0 1) (after (.sigSetSig 4 0 false) (withSig (block 5 2 1))) = ok 0 ∧
    answer (.sigStripZ .hh 2 0) (withSig (block 5 2 1)) = pf 3 := by decide +kernel

/-! ### BP: vectors BP-1 to BP-4 -/

theorem test_bpNewPlane_clears_flags :
    codedAt (after (.bpNewPlane 0) (after (.bpMarkCoded 1 2 0) (live 1 (block 5 1 2)))) 2 0 = false ∧
    answer (.bpNewPlane 2) (block 5 1 2) = pf 4 := by decide +kernel

theorem test_bpBitAt :
    answer (.bpBitAt 0 0 0) (block 1 1 3 .ll [(0, 0xD)]) = ok 1 ∧
    answer (.bpBitAt 1 0 0) (block 1 1 3 .ll [(0, 0xD)]) = ok 0 ∧
    answer (.bpBitAt 3 0 0) (block 1 1 3 .ll [(0, 0xD)]) = pf 4 := by decide +kernel

theorem test_bpSetBit :
    wordAt (after (.bpSetBit 1 0 0 true) (block 1 1 3 .ll [(0, 0xD)])) 0 = 0xF ∧
    wordAt (after (.bpSetBit 0 0 0 false) (block 1 1 3 .ll [(0, 0xABCD000D)])) 0 = 0xABCD000C := by
  decide +kernel

/-- CFG-3: with `CFG_ROWOFF` 2, `CFG_COLOFF` 3, `CFG_STRIDE` 10 the word of (1, 0) is word 33
(20_memory.md R60). -/
theorem test_bpSetBit_addresses_with_offsets :
    wordAt (after (.bpSetBit 0 1 0 true)
      { State.reset with cfg := ⟨4, 2, 2, .ll, 2, 3, 10⟩ }) 33 = 1 := by decide +kernel

theorem test_bpSignAt :
    answer (.bpSignAt 0 0) (block 1 1 3 .ll [(0, 0xD)]) = ok 1 ∧
    answer (.bpSignAt 0 0) (block 1 1 3 .ll [(0, 0xABCD0005)]) = ok 0 := by decide +kernel

theorem test_bpSetSign :
    wordAt (after (.bpSetSign 0 0 true) (block 1 1 3 .ll [(0, 0xABCD0005)])) 0 = 0xABCD000D ∧
    wordAt (after (.bpSetSign 0 0 true) (block 1 1 31 .ll [(0, 0x7FFFFFFF)])) 0 = 0xFFFFFFFF := by
  decide +kernel

theorem test_bpIsCoded_checks_plane :
    answer (.bpIsCoded 1 4 0) (live 1 (block 5 1 2)) = ok 0 ∧
    answer (.bpIsCoded 0 2 0) (live 1 (block 5 1 2)) = pf 4 ∧
    answer (.bpIsCoded 1 0 0) (block 5 1 2) = pf 9 := by decide +kernel

theorem test_bpMarkCoded :
    answer (.bpIsCoded 1 2 0) (after (.bpMarkCoded 1 2 0) (live 1 (block 5 1 2))) = ok 1 := by
  decide +kernel

theorem test_bpStrip_helpers :
    (answer .bpNFull (block 7 1 1), answer .bpLastH (block 7 1 1), answer .bpLastOff (block 7 1 1))
      = (ok 1, ok 3, ok 4) ∧
    (answer .bpNFull (block 64 1 1), answer .bpLastH (block 64 1 1),
      answer .bpLastOff (block 64 1 1)) = (ok 16, ok 0, ok 64) := by decide +kernel

theorem test_bpStripUnc :
    answer (.bpStripUnc 1 0 0) (live 1 (block 5 1 2)) = ok 1 ∧
    answer (.bpStripUnc 1 0 0) (after (.bpMarkCoded 1 2 0) (live 1 (block 5 1 2))) = ok 0 := by
  decide +kernel

theorem test_bpStripFnz :
    answer (.bpStripFnz 1 0 0) (block 5 1 2 .ll [(2, 1), (3, 3), (4, 2)]) = ok 7 ∧
    answer (.bpStripFnz 0 0 0) (block 5 1 2 .ll [(2, 1), (3, 3), (4, 2)]) = ok 6 ∧
    answer (.bpStripFnz 1 2 0) (block 5 1 2 .ll [(2, 1), (3, 3), (4, 2)]) = pf 3 := by
  decide +kernel

/-! ### MQE: vectors V-MQ-1 to V-MQ-10 -/

theorem test_mqeInit : coderRow (after .mqeInit (withPt State.reset)) = (0x8000, 0, 0, 12, -1) ∧
    answer .mqeInit (encoding State.reset) = pf 7 := by decide +kernel

theorem test_mqeCode_more_probable :
    coderRow (after (.mqeCode false 0) (encoding (withPt State.reset)))
      = (0xF5BE, 0xA42, 0, 11, -1) ∧
    ptPair (after (.mqeCode false 0) (encoding (withPt State.reset))) 0 = (5, false) := by
  decide +kernel

/-- V-MQ-5, first decision: conditional exchange and inversion of the MPS. -/
theorem test_mqeCode_exchange :
    coderRow (after (.mqeCode true 1) (encoding (withPt State.reset)))
      = (0xA7FC, 0x15804, 0, 10, -1) ∧
    ptPair (after (.mqeCode true 1) (encoding (withPt State.reset))) 1 = (1, true) := by
  decide +kernel

/-- V-MQ-9 and program P1. -/
theorem test_mqeCodeNum :
    coderRow (after (.mqeCodeNum 0x0F 8 18) (encoding (withPt State.reset)))
      = (0xAC02, 0x4B40E0, 0, 4, -1) ∧
    answer (.mqeCodeNum 0 17 18) (encoding (withPt State.reset)) = pf 11 := by decide +kernel

/-- V-MQ-6 before its flush: a 0xFF byte in the body. -/
def beforeFlush : State :=
  { encoding (withPt State.reset) with coder := ⟨0xAD08, 0xFF52F8, 0, 3, -1⟩ }

theorem test_mqeFlush_stuffs :
    coderRow (after .mqeFlush beforeFlush) = (0xAD08, 0, 0x7C, 8, 2) ∧
    (after .mqeFlush beforeFlush).out = [0xFF, 0x29] := by decide +kernel

/-- V-MQ-7 before its flush: the carry into the pending byte. -/
theorem test_mqeFlush_carries :
    (after .mqeFlush { beforeFlush with coder := ⟨0xAC02, 0x0107B72, 0xFE, 7, 0⟩ }).out
      = [0xFF, 0x03] := by decide +kernel

theorem test_mqeMarkEnd :
    (after .mqeMarkEnd beforeFlush).out = [0xFF, 0xA1] ∧
    answer .mqeMarkEnd State.reset = pf 6 := by decide +kernel

/-! ### MQD: vectors D-1 to D-8 -/

theorem test_mqdInit_marker_and_stuffing :
    coderRow (after .mqdInit (feed [0xFF, 0xA1] State.reset)) = (0x8000, 0x7FFF80, 0xFF, 1, 1) ∧
    coderRow (after .mqdInit (feed [0xFF, 0x29, 0xFF, 0xA1] State.reset))
      = (0x8000, 0x7FA900, 0x29, 0, 2) := by decide +kernel

theorem test_mqdInit_truncated :
    answer .mqdInit (feed [0xAC] State.reset) = some ⟨.decodeFailure, 1⟩ ∧
    statusNat (after .mqdInit (feed [0xAC] (withPt State.reset))).status = 0x400 := by decide +kernel

/-- D-3: five doublings, the refill at the marker. -/
def decodeThree : State := after .mqdInit (feed [0x00, 0xFF, 0xA1] (withPt State.reset))

theorem test_mqdDecode_less_probable :
    answer (.mqdDecode 0) decodeThree = ok 1 ∧
    coderRow (after (.mqdDecode 0) decodeThree) = (0xA420, 0x0FFFF0, 0xFF, 4, 2) ∧
    ptPair (after (.mqdDecode 0) decodeThree) 0 = (29, false) := by decide +kernel

/-- On an encoder's segment the bit comes from the rules, though a set bit has left C
(70_reset_and_hazards.md R350). -/
theorem test_mqdDecode_encoders_segment :
    answer (.mqdDecode 0) { decodeThree with diverged := true, inForeign := false } = ok 1 := by
  decide +kernel

/-- D-5, first decision: the refill after 0xFF. -/
theorem test_mqdDecode_after_stuffing :
    coderRow (after (.mqdDecode 18) (after .mqdInit
      (feed [0xFF, 0x29, 0xFF, 0xA1] (withPt State.reset)))) = (0xA7FC, 0xA6A3FC, 0xFF, 6, 3) := by
  decide +kernel

/-- D-5c. -/
theorem test_mqdDecodeNum :
    answer (.mqdDecodeNum 8 18) (after .mqdInit (feed [0x96, 0xFF, 0xA1] (withPt State.reset)))
      = ok 0x0F ∧
    answer (.mqdDecodeNum 17 18) (decoding (withPt State.reset)) = pf 11 := by decide +kernel

theorem test_mqdSkipEnd_at_marker :
    answer .mqdSkipEnd (decoding State.reset) = ok 0 ∧
    (after .mqdSkipEnd (decoding State.reset)).rp = 2 := by decide +kernel

/-- D-6, its second row: one byte more than `CODE_VALUE_BITS` 32 tolerates. -/
theorem test_mqdSkipEnd_garbage :
    answer .mqdSkipEnd (after .mqdInit (feed [0xAC, 0, 0, 0, 0xFF, 0xA1] State.reset)) = ok 24 ∧
    answer .mqdSkipEnd (after .mqdInit (feed [0xAC, 0, 0, 0, 0, 0xFF, 0xA1] State.reset))
      = some ⟨.decodeFailure, 2⟩ := by decide +kernel

/-! ### EB: vectors B1n, B3, B6n and B7 -/

/-- The block of B3. -/
def blockThree : State := block 4 2 2 .hl [(1, 3), (4, 6), (6, 1)]

theorem test_ebEncode_hl_block :
    (after .ebEncode blockThree).out = [0x06, 0xBA, 0x8A, 0xC7, 0xFF, 0xA1] ∧
    statusNat (after .ebEncode blockThree).status = 0x01C ∧
    ptPair (after .ebEncode blockThree) 0 = (29, false) := by decide +kernel

theorem test_ebEncode_deepest_plane :
    (after .ebEncode (block 1 1 31 .ll [(0, 0xFFFFFFFF)])).out = [0x0A, 0x2C, 0xFF, 0xA1] := by
  decide +kernel

theorem test_ebDecode_hl_block :
    (after .ebDecode (feed [0x06, 0xBA, 0x8A, 0xC7, 0xFF, 0xA1] (block 4 2 2 .hl []))).mem
      = [(1, 3), (4, 6), (6, 1)] := by decide +kernel

theorem test_ebDecode_failures :
    answer .ebDecode (feed [0x06, 0xBA] (block 4 2 2 .hl [])) = some ⟨.decodeFailure, 1⟩ ∧
    statusNat (after .ebDecode (feed [0, 0, 0, 0, 0, 0, 0xFF, 0xA1] (block 1 1 1))).status
      = 0x800 := by decide +kernel

/-- A machine ready for the passes of plane `i`, encoding. -/
def passReady (i : Nat) (s : State) : State := encoding (live i (withSig (withPt s)))

/-- R273: plane 1 of B3, the ten decisions of its cleanup pass. -/
def blockThreePlaneOne : State := after (.ebCleanup .encode 1) (passReady 1 blockThree)

theorem test_ebCleanup_run_length_and_sign :
    sigstAt blockThreePlaneOne.sig 2 0 = .negative ∧ sigstAt blockThreePlaneOne.sig 0 1 = .positive ∧
    ptPair blockThreePlaneOne 17 = (12, false) ∧ ptPair blockThreePlaneOne 9 = (6, true) ∧
    codedAt blockThreePlaneOne 3 1 = true := by decide +kernel

theorem test_ebCleanup_direction :
    answer (.ebCleanup .decode 0) (passReady 0 (block 1 1 1)) = pf 6 := by decide +kernel

/-- R273: the significance pass of plane 0 of B3 makes (3, 0) significant and leaves (0, 1) and
(2, 0), which were significant before, uncoded. -/
def blockThreeSigPass : State :=
  after (.ebSigPass .encode 0) (live 0 { blockThreePlaneOne with coded := [] })

theorem test_ebSigPass_finds_neighbour :
    sigstAt blockThreeSigPass.sig 3 0 = .positive ∧ codedAt blockThreeSigPass 2 0 = false ∧
    codedAt blockThreeSigPass 0 1 = false ∧ codedAt blockThreeSigPass 1 1 = true := by decide +kernel

theorem test_ebRefPass_refines_the_rest :
    ptPair (after (.ebRefPass .encode 0) blockThreeSigPass) 15 = (1, false) ∧
    ptPair (after (.ebRefPass .encode 0) blockThreeSigPass) 14 = (1, true) ∧
    codedAt (after (.ebRefPass .encode 0) blockThreeSigPass) 2 0 = true := by decide +kernel

/-! ### CFG and the fault mechanism: vectors CFG-1, CFG-2, F-1, program P5 -/

theorem test_cfgSet_widths :
    answer (.cfgSet 2 31) State.reset = ok 0 ∧ answer (.cfgSet 2 32) State.reset = pf 11 ∧
    answer (.cfgSet 7 0) State.reset = pf 11 ∧
    answer (.cfgSet 1 2) (encoding State.reset) = pf 7 := by decide +kernel

theorem test_cfgSet_invalidates :
    statusNat (after (.cfgSet 0 4) (live 0 (withSig (withPt (block 4 2 2))))).status = 0x004 := by
  decide +kernel

theorem test_cfgGet_registers :
    answer (.cfgGet 12) (encoding State.reset) = ok 0xFFFFFFFF ∧
    answer (.cfgGet 34) (withPt State.reset) = ok 46 ∧
    answer (.cfgGet 7) (live 1 (withSig (withPt (block 4 2 2)))) = ok 0x01C := by decide +kernel

theorem test_cfgGet_faults :
    answer (.cfgGet 8) State.reset = pf 6 ∧ answer (.cfgGet 35) State.reset = pf 11 ∧
    statusNat (after (.cfgGet 40) (faulted (withPt State.reset))).status = 0x1A4 := by decide +kernel

theorem test_fault_is_sticky :
    statusNat (after .mqeFlush (withPt State.reset)).status = 0x1A4 ∧
    answer .mqeInit (after .mqeFlush (withPt State.reset)) = pf 6 ∧
    (after .mqeInit (after .mqeFlush (withPt State.reset))).status.mqMode = .idle := by
  decide +kernel

theorem test_hardReset_clears_fault :
    statusNat (stepped { faulted (withPt State.reset) with hostq := [.hardReset] }).status = 0 := by
  decide +kernel

/-- A host that truncates `OUT` in a session is executed as written (U16). -/
theorem test_setOut_truncates :
    (stepped { encoding State.reset with out := [1, 2], hostq := [.setOut [1]] }).out = [1] := by
  decide +kernel

theorem test_outcome_values :
    responseRead (after .mqeFlush State.reset) = some (1, 6) ∧
    responseRead (after .mqdInit (feed [0xAC] State.reset)) = some (2, 1) ∧
    responseRead (after .mqeMarkEnd { encoding State.reset with portFails := [0] }) = some (3, 0) ∧
    responseRead (after .ptReset State.reset) = some (0, 0) := by decide +kernel

theorem test_step_runs_queued_word :
    (stepped (State.reset.withFetchWord 32 0x04000000)).status.ptValid = true := by decide +kernel

theorem test_ioFailure_status :
    statusNat (after .mqeMarkEnd { encoding State.reset with portFails := [0] }).status = 0x1000 := by
  decide +kernel

/-! ### Witnesses: concrete states that meet the hypotheses of the statements, clause by clause.  A
theorem `witness_X` is about the statement `Obligations.X`. -/

theorem quiet_of_nil {s : State} (h : s.portFails = []) : quietPorts s := by
  intro n hn
  rw [h] at hn
  cases hn

theorem exec_okNext {i : Instr} {s : State} {v : Word} (h : answer i s = ok v) :
    exec i s = okNext v (after i s) := by
  have key : ∀ t : State, t.resp = some ⟨.ok, v⟩ → .next t = okNext v t := by
    rintro ⟨⟩ rfl
    rfl
  rw [exec_after, key _ h]

theorem not_endsOk {s : State} {k : RespKind} {v : Word} (h : s.resp = some ⟨k, v⟩)
    (hk : k ≠ .ok) : ¬ endsOk s := by
  rintro ⟨p, hp⟩
  rw [h] at hp
  simp only [Option.some.injEq, Response.mk.injEq] at hp
  exact hk hp.1

theorem encoderOk_fresh {s : State} (hl : s.coder.l ≤ 0)
    (h : 0x8000 ≤ s.coder.a.toNat ∧ 1 ≤ s.coder.ct.toNat ∧ s.coder.ct.toNat ≤ 12 ∧
      -1 ≤ s.coder.l ∧
      (s.coder.c.toNat + s.coder.a.toNat) * 2 ^ s.coder.ct.toNat ≤ 9 * 2 ^ 24) : EncoderOk s := by
  intro _
  have e : sessionBytes s = [] := by
    have : s.coder.l.toNat = 0 := by omega
    simp [sessionBytes, this]
  refine ⟨h.1, h.2.1, h.2.2.1, h.2.2.2.1, h.2.2.2.2, ?_, ?_⟩
  · rw [e]
    intro k x hk
    simp at hk
  · rw [e]
    intro hk
    simp at hk

/-! Placing a command changes nothing the invariants look at. -/

theorem sumsMatch_place {s : State} (n w : Nat) (h : SumsMatch s) :
    SumsMatch (s.withFetchWord n w) := h

theorem decoderOk_place {s : State} (n w : Nat) (h : DecoderOk s) :
    DecoderOk (s.withFetchWord n w) := h

theorem encoderOk_place {s : State} (n w : Nat) (h : EncoderOk s) :
    EncoderOk (s.withFetchWord n w) := h

theorem uniformFixed_place {s : State} (n w : Nat) (h : UniformFixed s) :
    UniformFixed (s.withFetchWord n w) := h

theorem canonical_place {s : State} (n w : Nat) (h : Canonical s) :
    Canonical (s.withFetchWord n w) := h

theorem hostq_place (s : State) (n w : Nat) :
    (s.withFetchWord n w).hostq = .command (BitVec.ofNat 32 w) :: s.hostq := rfl

/-- A machine with every unit valid, H = 5, W = 3, D = 3, plane 2 live. -/
def full : State := live 2 (withSig (withPt (block 5 3 3)))

theorem sigReady_full {r c : Nat} (hr : r < 5) (hc : c < 3) : SigReady full r c :=
  ⟨rfl, by decide +kernel, rfl, hr, hc⟩

theorem bpReady_full {r c : Nat} (hr : r < 5) (hc : c < 3) : BpReady full r c :=
  ⟨rfl, by decide +kernel, hr, hc⟩

theorem liveReady_full {r c : Nat} (hr : r < 5) (hc : c < 3) : LiveReady full 2 r c :=
  ⟨bpReady_full hr hc, rfl, by decide +kernel, by decide +kernel⟩

theorem witness_DecodeOfEncode :
    (Instr.cfgSet 63 1048575).wellFormed = true ∧ (Instr.mqeCodeNum 65535 31 31).wellFormed = true ∧
    (Instr.bpSetBit 31 1023 1023 true).wellFormed = true ∧
    (Instr.ebCleanup .decode 31).wellFormed = true := by decide

theorem witness_EncodeOfDecode :
    decode 0xE3FFFFFF = .command (.cfgSet 63 1048575) ∧
    decode 0x8BFFFFFF = .command (.mqeCodeNum 65535 31 31) ∧
    decode 0x4BFFFFFF = .command (.bpSetBit 31 1023 1023 true) := by decide

theorem not_commandWord {w : Word} {why : IllegalWord}
    (h : ∀ row ∈ commandTable, field w.toNat 31 26 = row.1 →
      ∃ z, row.2 = some z ∧ field w.toNat z.1 z.2 ≠ 0) (_ : decode w = .illegal why) :
    ¬ isCommandWord w := by
  rintro ⟨row, hrow, hop, hz⟩
  obtain ⟨z, e, hne⟩ := h row hrow hop
  exact hne (hz z e)

theorem unassigned_word : ¬ isCommandWord 0xFC000000 := by
  refine not_commandWord (why := .opcode) (fun row hrow hop => ?_) (by decide)
  have : ∀ row ∈ commandTable, field (0xFC000000 : Word).toNat 31 26 ≠ row.1 := by decide
  exact absurd hop (this row hrow)

theorem nonzero_word : ¬ isCommandWord 0xE4700001 := by
  refine not_commandWord (why := .mustBeZero) (fun row hrow hop => ?_) (by decide)
  have : ∀ row ∈ commandTable, field (0xE4700001 : Word).toNat 31 26 = row.1 →
      row.2 = some (19, 0) := by decide
  exact ⟨(19, 0), this row hrow hop, by decide⟩

theorem witness_IllegalWordsFault :
    (¬ isCommandWord 0xFC000000 ∧ State.reset.status.fault = false) ∧
    (¬ isCommandWord 0xFC000000 ∧ (faulted State.reset).status.fault = true ∧
      field (0xFC000000 : Word).toNat 31 26 ≠ 0x39) ∧
    (¬ isCommandWord 0xE4700001 ∧ (faulted State.reset).status.fault = true ∧
      field (0xE4700001 : Word).toNat 31 26 = 0x39) :=
  ⟨⟨unassigned_word, rfl⟩, ⟨unassigned_word, rfl, by decide⟩, ⟨nonzero_word, rfl, by decide⟩⟩

theorem witness_StepRunsDecodedCommand :
    ((State.reset.withFetchWord 32 0x04000000).hostq = [.command 0x04000000] ∧
      decode 0x04000000 = .command .ptReset) ∧
    ((State.reset.withFetchWord 32 0xFC000000).hostq = [.command 0xFC000000] ∧
      ¬ isCommandWord 0xFC000000) ∧
    decode (BitVec.ofNat 32 0xE4700000) = .command (.cfgGet 7) ∧ State.reset.hostq = [] ∧
    (∃ s : State, s.hostq = [.writeMem 0 1]) ∧ (∃ s : State, s.hostq = [.setIn [] 0 true]) ∧
    (∃ s : State, s.hostq = [.drainOut 1]) ∧
    ∃ s : State, s.hostq = [.setOut [1]] ∧ s.status.mqMode = .encoding :=
  ⟨⟨rfl, by decide⟩, ⟨rfl, unassigned_word⟩, by decide, rfl,
    ⟨{ State.reset with hostq := [.writeMem 0 1] }, rfl⟩,
    ⟨{ State.reset with hostq := [.setIn [] 0 true] }, rfl⟩,
    ⟨{ State.reset with hostq := [.drainOut 1] }, rfl⟩,
    ⟨{ encoding State.reset with hostq := [.setOut [1]] }, rfl, rfl⟩⟩

theorem witness_HardResetAndStickyFault :
    (∃ s : State, s.hostq = [.hardReset]) ∧
    ∃ s t : State, s.status.fault = true ∧ (∀ rest, s.hostq ≠ .hardReset :: rest) ∧
      step s = .next t :=
  ⟨⟨{ State.reset with hostq := [.hardReset] }, rfl⟩,
    (faulted State.reset).withFetchWord 32 0x04000000, _, rfl,
    fun rest h => (by cases h), step_stepped _⟩

theorem witness_StickyFaultRefusal :
    (faulted State.reset).status.fault = true ∧ (∀ reg, Instr.ptReset ≠ .cfgGet reg) ∧ 34 < 35 :=
  ⟨rfl, fun _ h => (by cases h), by decide⟩

theorem witness_ProtocolFaultsArePrecise :
    State.reset.status.fault = false ∧ (∀ dir p, Instr.mqeFlush ≠ .ebCleanup dir p) ∧
    exec .mqeFlush State.reset = .next (after .mqeFlush State.reset) ∧
    (after .mqeFlush State.reset).resp = some ⟨.protocolFault, 6⟩ :=
  ⟨rfl, fun _ _ h => (by cases h), exec_after _ _, by decide +kernel⟩

/-- The seven clauses, in their order; the last two also for a pass and for a block that end. -/
theorem witness_SequencerChecks :
    geomOK State.reset = false ∧
    (geomOK (encoding full) = true ∧ (encoding full).status.mqMode ≠ .idle) ∧
    (geomOK full = true ∧ full.status.mqMode ≠ .encoding) ∧
    (geomOK (encoding (block 5 3 3)) = true ∧
      (encoding (block 5 3 3)).status.mqMode = .encoding ∧
      ¬ ((encoding (block 5 3 3)).status.ptValid = true ∧
        (encoding (block 5 3 3)).status.sigValid = true ∧
        (encoding (block 5 3 3)).status.planeLive = true)) ∧
    (¬ (3 < (encoding full).D ∧ 3 = (encoding full).curPlane.toNat) ∧
      ¬ (1 < (encoding full).D ∧ 1 = (encoding full).curPlane.toNat)) ∧
    (geomOK blockThree = true ∧ blockThree.status.mqMode = .idle ∧
      exec .ebEncode blockThree = .next (after .ebEncode blockThree)) ∧
    (2 < (encoding full).D ∧ 2 = (encoding full).curPlane.toNat ∧
      exec (.ebCleanup .encode 2) (encoding full)
        = .next (after (.ebCleanup .encode 2) (encoding full))) := by
  refine ⟨by decide +kernel, by decide +kernel, by decide +kernel, by decide +kernel,
    by decide +kernel, ⟨by decide +kernel, by decide +kernel, exec_after _ _⟩,
    ⟨by decide +kernel, by decide +kernel, exec_after _ _⟩⟩

/-- The excepted case: a second visit of the cleanup pass meets a significant coefficient. -/
theorem witness_SequencerChecks_cleanup_faults :
    answer (.ebCleanup .encode 0)
      (after (.sigSetSig 0 0 false) (passReady 0 (block 1 1 1 .ll [(0, 1)]))) = pf 8 := by
  decide +kernel

theorem witness_FailureEndsSession :
    (after .mqdInit State.reset).resp = some ⟨.decodeFailure, 1⟩ ∧
    (after .mqdSkipEnd (feed [0, 0, 0, 0, 0] (decoding State.reset))).resp
      = some ⟨.decodeFailure, 2⟩ ∧
    (after .mqeMarkEnd { encoding State.reset with portFails := [0] }).resp
      = some ⟨.ioFailure, 0⟩ := by decide +kernel

theorem witness_WhoRaisesWhat :
    (after .mqdSkipEnd (feed [0, 0, 0, 0, 0] (decoding State.reset))).resp
      = some ⟨.decodeFailure, 2⟩ ∧
    (after (.mqdDecode 1) (after .mqdInit (feed [0xAC, 0x12] full))).resp = some ⟨.decodeFailure, 1⟩ ∧
    (after .mqdInit { State.reset with portFails := [0] }).resp = some ⟨.ioFailure, 0⟩ := by
  decide +kernel

theorem witness_PtEstAndTransOneContext :
    (withPt State.reset).status.fault = false ∧ (withPt State.reset).status.ptValid = true ∧
    (withPt State.reset).pt[0]? = some ⟨4, false⟩ ∧ (withPt State.reset).pt[18]? = some ⟨46, false⟩ ∧
    switchMps 0 = true ∧ switchMps 4 = false := by decide +kernel

theorem witness_UniformNeverAdapts :
    UniformFixed (withPt State.reset) ∧
    step ((encoding (withPt State.reset)).withFetchWord 32 0x84000032)
      = .next (stepped ((encoding (withPt State.reset)).withFetchWord 32 0x84000032)) ∧
    UniformFixed ((encoding (withPt State.reset)).withFetchWord 32 0x84000032) :=
  ⟨fun _ => rfl, step_stepped _, uniformFixed_place _ _ fun _ => rfl⟩

theorem witness_SigResetForgets :
    (geomOK State.reset = false ∧ State.reset.status.fault = false) ∧
    (geomOK threeByThree = true ∧ threeByThree.status.fault = false) := by decide +kernel

theorem witness_SignificanceQueries :
    SigReady full 1 0 ∧ 1 + 3 < full.H ∧
    (∀ j < 4, sumHAt full.sig (1 + j) 0 = 0 ∧ sumVAt full.sig (1 + j) 0 = 0 ∧
      sumDAt full.sig (1 + j) 0 = 0) ∧
    SigReady (after (.sigSetSig 0 0 true) full) 1 0 ∧
    ∃ j < 4, sumVAt (after (.sigSetSig 0 0 true) full).sig (1 + j) 0 ≠ 0 :=
  ⟨sigReady_full (by decide) (by decide), by decide +kernel, by decide +kernel,
    ⟨by decide +kernel, by decide +kernel, by decide +kernel, by decide +kernel, by decide +kernel⟩,
    0, by decide, by decide +kernel⟩

/-- Both ends of the block, and a state in which sums are not 0. -/
theorem witness_SpCtxFollowsTables :
    SigReady full 0 0 ∧ SigReady full 4 2 ∧ SigReady threeByThree 0 1 ∧
    sumHAt threeByThree.sig 0 1 = 1 ∧ sumVAt threeByThree.sig 0 1 = 1 :=
  ⟨sigReady_full (by decide) (by decide), sigReady_full (by decide) (by decide),
    ⟨by decide +kernel, by decide +kernel, by decide +kernel, by decide +kernel, by decide +kernel⟩,
    by decide +kernel, by decide +kernel⟩

theorem witness_SignCtxFollowsTable :
    SigReady full 4 2 ∧ SigReady threeByThree 0 1 ∧ chiAt threeByThree 0 0 = -1 ∧
    chiAt threeByThree 1 1 = 1 :=
  ⟨sigReady_full (by decide) (by decide),
    ⟨by decide +kernel, by decide +kernel, by decide +kernel, by decide +kernel, by decide +kernel⟩,
    by decide +kernel, by decide +kernel⟩

theorem witness_RefCtxConsumesFirst :
    SigReady full 4 2 ∧ firstAt full.sig 4 2 = true ∧
    SigReady (after (.sigRefCtx 4 2) full) 4 2 ∧
    firstAt (after (.sigRefCtx 4 2) full).sig 4 2 = false :=
  ⟨sigReady_full (by decide) (by decide), by decide +kernel,
    ⟨by decide +kernel, by decide +kernel, by decide +kernel, by decide +kernel, by decide +kernel⟩,
    by decide +kernel⟩

theorem witness_SetSigMarksAndCounts :
    SigReady full 4 2 ∧ sigstAt full.sig 4 2 = .insignificant ∧
    SigReady threeByThree 0 0 ∧ sigstAt threeByThree.sig 0 0 ≠ .insignificant :=
  ⟨sigReady_full (by decide) (by decide), by decide +kernel,
    ⟨by decide +kernel, by decide +kernel, by decide +kernel, by decide +kernel, by decide +kernel⟩,
    by decide +kernel⟩

theorem witness_SigChecksInOrder :
    State.reset.status.fault = false ∧ geomOK State.reset = false ∧
    (geomOK (block 5 3 3) = true ∧ (block 5 3 3).status.sigValid = false) ∧
    (geomOK full = true ∧ full.status.sigValid = true ∧ full.H ≤ 5 ∧ full.W ≤ 3) ∧
    (SigReady full 2 0 ∧ full.H ≤ 2 + 3) :=
  ⟨by decide +kernel, by decide +kernel, by decide +kernel, by decide +kernel,
    sigReady_full (by decide) (by decide), by decide +kernel⟩

theorem sumsMatch_threeByThree : SumsMatch threeByThree := by
  intro _ r c hr hc
  have hr' : r < 3 := hr
  have hc' : c < 3 := hc
  interval_cases r <;> interval_cases c <;> decide +kernel

theorem witness_CachedSumsMatchNeighbours :
    SumsMatch (threeByThree.withFetchWord 32 0x34020081) ∧
    decode 0x34020081 = .command (.sigSetSig 2 2 true) ∧
    step (threeByThree.withFetchWord 32 0x34020081)
      = .next (stepped (threeByThree.withFetchWord 32 0x34020081)) :=
  ⟨sumsMatch_place _ _ sumsMatch_threeByThree, by decide, step_stepped _⟩

theorem witness_SignificanceIsMonotonic :
    exec (.sigSetSig 2 2 true) threeByThree = .next (after (.sigSetSig 2 2 true) threeByThree) ∧
    Instr.sigSetSig 2 2 true ≠ .sigReset ∧ Instr.sigSetSig 2 2 true ≠ .ebEncode ∧
    Instr.sigSetSig 2 2 true ≠ .ebDecode ∧ sigstAt threeByThree.sig 0 0 ≠ .insignificant :=
  ⟨exec_after _ _, by decide, by decide, by decide, by decide +kernel⟩

theorem witness_NewPlaneClearsCoded :
    State.reset.status.fault = false ∧ geomOK State.reset = false ∧
    (full.status.fault = false ∧ geomOK full = true ∧ full.D ≤ 3 ∧ 2 < full.D) := by decide +kernel

theorem witness_BitAndSignReads : BpReady full 4 2 ∧ 2 < full.D :=
  ⟨bpReady_full (by decide) (by decide), by decide +kernel⟩

theorem witness_BitStoresChangeOneBit : BpReady full 0 0 ∧ BpReady full 4 2 ∧ 2 < full.D :=
  ⟨bpReady_full (by decide) (by decide), bpReady_full (by decide) (by decide), by decide +kernel⟩

theorem witness_CodedFlags : LiveReady full 2 1 2 ∧ 1 + 3 < full.H ∧ LiveReady full 2 4 2 :=
  ⟨liveReady_full (by decide) (by decide), by decide +kernel,
    liveReady_full (by decide) (by decide)⟩

theorem witness_StripGeometry :
    (full.status.fault = false ∧ geomOK full = true) ∧
    (State.reset.status.fault = false ∧ geomOK State.reset = false) := by decide +kernel

/-- Both clauses: no row with the bit, and row 3 the first one. -/
theorem witness_StripFnzFindsFirstRow :
    BpReady full 1 2 ∧ 2 < full.D ∧ 1 + 3 < full.H ∧
    (∀ j < 4, (wordAt full (memAddr full (1 + j) 2)).getLsbD 2 = false) ∧
    BpReady (block 5 1 2 .ll [(3, 3)]) 0 0 ∧ 1 < (block 5 1 2 .ll [(3, 3)]).D ∧
    (wordAt (block 5 1 2 .ll [(3, 3)]) (memAddr (block 5 1 2 .ll [(3, 3)]) (0 + 3) 0)).getLsbD 1
      = true ∧
    ∀ j < 3, (wordAt (block 5 1 2 .ll [(3, 3)])
      (memAddr (block 5 1 2 .ll [(3, 3)]) (0 + j) 0)).getLsbD 1 = false :=
  ⟨bpReady_full (by decide) (by decide), by decide +kernel, by decide +kernel, by decide +kernel,
    ⟨rfl, by decide +kernel, by decide +kernel, by decide +kernel⟩, by decide +kernel,
    by decide +kernel, by decide +kernel⟩

/-- The clauses in their order, at the bounds D = 3, H = 5, W = 3. -/
theorem witness_BpChecksInOrder :
    (State.reset.status.fault = false ∧ geomOK State.reset = false) ∧
    (geomOK (block 5 3 3) = true ∧ (block 5 3 3).status.planeLive = false) ∧
    (geomOK full = true ∧ full.status.planeLive = true ∧ full.D ≤ 3 ∧ 1 ≠ full.curPlane.toNat) ∧
    (2 < full.D ∧ 2 = full.curPlane.toNat ∧ full.H ≤ 5 ∧ full.W ≤ 3) ∧
    (LiveReady full 2 2 0 ∧ BpReady full 2 0 ∧ full.H ≤ 2 + 3) :=
  ⟨by decide +kernel, by decide +kernel, by decide +kernel, by decide +kernel,
    liveReady_full (by decide) (by decide), bpReady_full (by decide) (by decide),
    by decide +kernel⟩

theorem witness_StoredBitsReadBack :
    BpReady full 4 2 ∧ 2 < full.D ∧
    exec (.bpSetBit 2 4 2 true) full = .next (after (.bpSetBit 2 4 2 true) full) ∧
    exec (.bpSetSign 4 2 true) full = .next (after (.bpSetSign 4 2 true) full) :=
  ⟨bpReady_full (by decide) (by decide), by decide +kernel, exec_after _ _, exec_after _ _⟩

/-- The clauses in their order; labels 18 and 19, 16 and 17 bits. -/
theorem witness_CoderChecksInOrder :
    (full.status.fault = false ∧ full.status.mqMode ≠ .encoding ∧
      full.status.mqMode ≠ .decoding) ∧
    ((encoding State.reset).status.mqMode = .encoding ∧
      (encoding State.reset).status.ptValid = false) ∧
    ((decoding State.reset).status.mqMode = .decoding ∧
      (decoding State.reset).status.ptValid = false) ∧
    ((encoding full).status.ptValid = true ∧ 18 < 19 ∧ 18 ≤ 18 ∧ 16 < 17) ∧
    (encoding full).status.mqMode ≠ .idle := by decide +kernel

theorem witness_MqeInitOpensSession :
    State.reset.status.fault = false ∧ State.reset.status.mqMode = .idle ∧
    (decoding State.reset).status.mqMode ≠ .idle := by decide +kernel

/-- V-MQ-5 after its second decision. -/
def wideInterval : State :=
  { encoding (withPt State.reset) with coder := ⟨0xE7F6, 0x3180A, 0, 9, -1⟩ }

theorem encoderOk_encoding (s : State) : EncoderOk (encoding s) :=
  encoderOk_fresh (by show (-1 : Int) ≤ 0; decide)
    (show 0x8000 ≤ (0x8000 : BitVec 16).toNat ∧ 1 ≤ (12 : BitVec 4).toNat ∧
      (12 : BitVec 4).toNat ≤ 12 ∧ (-1 : Int) ≤ -1 ∧
      ((0 : BitVec 28).toNat + (0x8000 : BitVec 16).toNat) * 2 ^ (12 : BitVec 4).toNat
        ≤ 9 * 2 ^ 24 by decide)

/-- Both clauses: a decision that doubles nothing, and one that doubles. -/
theorem witness_MqeCodeOneDecision :
    (wideInterval.status.fault = false ∧ wideInterval.status.mqMode = .encoding ∧
      wideInterval.status.ptValid = true ∧ wideInterval.pt[0]? = some ⟨4, false⟩ ∧
      EncoderRegsOk wideInterval ∧ quietPorts wideInterval ∧
      0x8000 ≤ wideInterval.coder.a - qe 4 ∧ ¬ wideInterval.coder.a - qe 4 < qe 4) ∧
    ((encoding full).status.fault = false ∧ (encoding full).status.mqMode = .encoding ∧
      (encoding full).status.ptValid = true ∧ (encoding full).pt[18]? = some ⟨46, false⟩ ∧
      EncoderRegsOk (encoding full) ∧ quietPorts (encoding full) ∧
      (encoding full).coder.a - qe 46 < qe 46 ∧ qe 46 < 0x8000) :=
  ⟨⟨rfl, rfl, rfl, by decide +kernel,
      (encoderOk_fresh (by decide +kernel) (by decide +kernel)).regs,
      quiet_of_nil rfl, by decide +kernel, by decide +kernel⟩,
    ⟨rfl, rfl, rfl, by decide +kernel, (encoderOk_encoding _).regs, quiet_of_nil rfl,
      by decide +kernel, by decide +kernel⟩⟩

theorem witness_TransferByteStuffsAndCarries :
    quietPorts beforeFlush ∧
    quietPorts { beforeFlush with coder := ⟨0xAC02, 0x8107B72, 0xFE, 7, 0⟩ } :=
  ⟨quiet_of_nil rfl, quiet_of_nil rfl⟩

/-- A state whose next decision has to append a byte, on a port that fails. -/
def failingPort : State :=
  { encoding (withPt State.reset) with coder := ⟨0x8000, 0, 0, 1, 0⟩, portFails := [0] }

/-- Of no bits, of 16 bits, and the two ways the first bit can end. -/
theorem witness_CodeNumIsABitSequence :
    ((encoding full).status.fault = false ∧ (encoding full).status.mqMode = .encoding ∧
      (encoding full).status.ptValid = true ∧ 18 ≤ 18 ∧ 15 + 1 ≤ 16 ∧
      exec (.mqeCode ((0xFFFF : Nat).testBit 15) 18) (encoding full)
        = .next (after (.mqeCode true 18) (encoding full)) ∧
      endsOk (after (.mqeCode true 18) (encoding full)) ∧ quietPorts (encoding full)) ∧
    (exec (.mqeCode ((1 : Nat).testBit 0) 18) failingPort
        = .next (after (.mqeCode true 18) failingPort) ∧
      ¬ endsOk (after (.mqeCode true 18) failingPort)) :=
  ⟨⟨rfl, rfl, rfl, by decide, by decide, exec_after _ _, ⟨0, by decide +kernel⟩, quiet_of_nil rfl⟩,
    exec_after _ _, not_endsOk (k := .ioFailure) (v := 0) (by decide +kernel) (by decide)⟩

theorem witness_FlushCompletes :
    ((encoding State.reset).status.fault = false ∧
      (encoding State.reset).status.mqMode = .encoding ∧ EncoderRegsOk (encoding State.reset) ∧
      quietPorts (encoding State.reset) ∧ (encoding State.reset).coder.ct = 12 ∧
      (encoding State.reset).coder.l = -1) ∧
    (EncoderRegsOk beforeFlush ∧ quietPorts beforeFlush) :=
  ⟨⟨rfl, rfl, (encoderOk_encoding _).regs, quiet_of_nil rfl, rfl, rfl⟩,
    (encoderOk_fresh (by decide +kernel) (by decide +kernel)).regs, quiet_of_nil rfl⟩

theorem witness_MarkEndClosesSegment :
    (beforeFlush.status.fault = false ∧ (decoding State.reset).status.mqMode ≠ .encoding) ∧
    (beforeFlush.status.mqMode = .encoding ∧ beforeFlush.portCalls ∉ beforeFlush.portFails ∧
      beforeFlush.portCalls + 1 ∉ beforeFlush.portFails) ∧
    (failingPort.status.mqMode = .encoding ∧ failingPort.portCalls ∈ failingPort.portFails) ∧
    ({ failingPort with portFails := [1] }.portCalls ∉ [1] ∧
      { failingPort with portFails := [1] }.portCalls + 1 ∈ [1]) := by decide +kernel

theorem witness_EncoderRegistersStayInRange :
    EncoderOk (beforeFlush.withFetchWord 32 0x84000012) ∧
    (∀ bytes rest, (beforeFlush.withFetchWord 32 0x84000012).hostq ≠ .setOut bytes :: rest) ∧
    step (beforeFlush.withFetchWord 32 0x84000012)
      = .next (stepped (beforeFlush.withFetchWord 32 0x84000012)) ∧
    EncoderRegsOk beforeFlush ∧ beforeFlush.status.mqMode = .encoding :=
  ⟨encoderOk_place _ _ (encoderOk_fresh (by decide +kernel) (by decide +kernel)),
    fun _ _ h => (by rw [hostq_place] at h; cases h), step_stepped _,
    (encoderOk_fresh (by decide +kernel) (by decide +kernel)).regs, rfl⟩

/-- `beforeFlush` with other bytes in `OUT` and other words in `MEM`. -/
def otherHost : State := { beforeFlush with out := [0xFF], mem := [(7, 9)] }

theorem witness_EncoderIsDeterministic :
    beforeFlush.coder = otherHost.coder ∧ beforeFlush.pt = otherHost.pt ∧
    beforeFlush.status = otherHost.status ∧ quietPorts beforeFlush ∧ quietPorts otherHost ∧
    exec .mqeFlush beforeFlush = .next (after .mqeFlush beforeFlush) ∧
    exec .mqeFlush otherHost = .next (after .mqeFlush otherHost) :=
  ⟨rfl, rfl, rfl, quiet_of_nil rfl, quiet_of_nil rfl, exec_after _ _, exec_after _ _⟩

/-- The three ways the first two bytes can stand, and one byte only. -/
theorem witness_MqdInitFillsRegister :
    (full.status.fault = false ∧ full.status.mqMode = .idle ∧ quietPorts (feed [0xFE, 0xFF] full) ∧
      (feed [0xFE, 0xFF] full).inp[0]? = some 0xFE ∧ (feed [0xFE, 0xFF] full).inp[0 + 1]? = some 0xFF ∧
      (0xFE : Byte) ≠ 0xFF) ∧
    ((feed [0xFF, 0x8F] full).inp[0]? = some 0xFF ∧
      (feed [0xFF, 0x8F] full).inp[0 + 1]? = some 0x8F ∧ (0x8F : Byte) ≤ 0x8F) ∧
    ((feed [0xFF, 0x90] full).inp[0]? = some 0xFF ∧
      (feed [0xFF, 0x90] full).inp[0 + 1]? = some 0x90 ∧ (0x8F : Byte) < 0x90) ∧
    (feed [0xFF] full).inp.length ≤ (feed [0xFF] full).rp + 1 :=
  ⟨⟨rfl, rfl, quiet_of_nil rfl, by decide +kernel, by decide +kernel, by decide⟩,
    by decide +kernel, by decide +kernel, by decide +kernel⟩

/-- Two bytes taken, two bytes left. -/
def twoLeft : State := after .mqdInit (feed [0x96, 0x12, 0xFF, 0xA1] full)

theorem decoderOk_twoLeft : DecoderOk twoLeft := by
  unfold DecoderOk
  decide +kernel

theorem witness_MqdDecodeOneDecision :
    twoLeft.status.fault = false ∧ twoLeft.status.mqMode = .decoding ∧
    twoLeft.status.ptValid = true ∧ twoLeft.pt[18]? = some ⟨46, false⟩ ∧ DecoderOk twoLeft ∧
    quietPorts twoLeft ∧ twoLeft.rp + 2 ≤ twoLeft.inp.length ∧ twoLeft.diverged = false ∧
    MarkerAhead (decoding full) ∧
    (DecoderOk { twoLeft with diverged := true, inForeign := false } ∧
      quietPorts { twoLeft with diverged := true, inForeign := false }) :=
  ⟨by decide +kernel, by decide +kernel, by decide +kernel, by decide +kernel, decoderOk_twoLeft,
    quiet_of_nil (by decide +kernel), by decide +kernel, by decide +kernel,
    ⟨0, rfl, 0xA1, by decide +kernel, by decide⟩, decoderOk_twoLeft,
    quiet_of_nil (by decide +kernel)⟩

/-- Two bytes taken, none left, and a first decision that needs none. -/
def noneLeft : State := after .mqdInit (feed [0, 0] full)

/-- Of no bits, of two bits, of one bit with two bytes left, and a first and a second bit that end in
`TRUNCATED`. -/
theorem witness_DecodeNumIsABitSequence :
    (twoLeft.status.fault = false ∧ twoLeft.status.mqMode = .decoding ∧
      twoLeft.status.ptValid = true ∧ 18 ≤ 18 ∧
      exec (.mqdDecode 18) twoLeft = .next (after (.mqdDecode 18) twoLeft) ∧
      (after (.mqdDecode 18) twoLeft).resp = some ⟨.ok, BitVec.ofNat 32 0⟩ ∧
      exec (.mqdDecodeNum 1 18) (after (.mqdDecode 18) twoLeft)
        = okNext (BitVec.ofNat 32 0)
            (after (.mqdDecodeNum 1 18) (after (.mqdDecode 18) twoLeft))) ∧
    (DecoderOk twoLeft ∧ quietPorts twoLeft ∧ twoLeft.rp + 2 * 1 ≤ twoLeft.inp.length) ∧
    ¬ endsOk (after (.mqdDecode 1) (after .mqdInit (feed [0xAC, 0x12] full))) ∧
    (noneLeft.status.mqMode = .decoding ∧ endsOk (after (.mqdDecode 18) noneLeft) ∧
      ¬ endsOk (after (.mqdDecodeNum 1 18) (after (.mqdDecode 18) noneLeft))) :=
  ⟨⟨by decide +kernel, by decide +kernel, by decide +kernel, by decide, exec_after _ _,
      by decide +kernel, exec_okNext (by decide +kernel)⟩,
    ⟨decoderOk_twoLeft, quiet_of_nil (by decide +kernel), by decide +kernel⟩,
    not_endsOk (k := .decodeFailure) (v := 1) (by decide +kernel) (by decide),
    by decide +kernel, ⟨0, by decide +kernel⟩,
    not_endsOk (k := .decodeFailure) (v := 1) (by decide +kernel) (by decide)⟩

/-- The three clauses at the bounds: the marker at once; with `CODE_VALUE_BITS` 10 a second byte too
many; the end of `IN`. -/
theorem witness_SkipEndFindsMarker :
    ((decoding full).status.fault = false ∧ (decoding full).status.mqMode = .decoding ∧
      quietPorts (decoding full) ∧ (decoding full).coder.t = 0xFF ∧
      (decoding full).inp[1 + 0]? = some 0xA1) ∧
    (∀ j ≤ 1, (decoding full).rp + j < (feed [0xFF, 0, 0] (decoding full)).inp.length ∧
      (feed [0xFF, 0, 0] (decoding full)).inp[1 + j]? ≠ some 0xA1) ∧
    (8 * 1 + 2 ≤ max 2 10 ∧ 10 < 8 * 1 + 10) ∧
    ((feed [0xFF, 0] (decoding full)).rp + 1 = (feed [0xFF, 0] (decoding full)).inp.length ∧
      ∀ j < 1, (feed [0xFF, 0] (decoding full)).inp[1 + j]? ≠ some 0xA1) :=
  ⟨⟨rfl, rfl, quiet_of_nil rfl, rfl, by decide +kernel⟩, by decide +kernel, by decide,
    by decide +kernel⟩

theorem witness_DecoderRegistersStayInRange :
    DecoderOk (twoLeft.withFetchWord 32 0xA4000012) ∧
    (∀ bytes rp foreign rest,
      (twoLeft.withFetchWord 32 0xA4000012).hostq ≠ .setIn bytes rp foreign :: rest) ∧
    step (twoLeft.withFetchWord 32 0xA4000012)
      = .next (stepped (twoLeft.withFetchWord 32 0xA4000012)) :=
  ⟨decoderOk_place _ _ decoderOk_twoLeft, fun _ _ _ _ h => (by
    rw [hostq_place] at h
    cases h), step_stepped _⟩

/-- V-MQ-3 and D-3: the decision `1/0` on both sides. -/
theorem witness_DecoderMirrorsEncoder :
    (encoding (withPt State.reset)).status.fault = false ∧ decodeThree.status.fault = false ∧
    (encoding (withPt State.reset)).coder.a = decodeThree.coder.a ∧
    0x8000 ≤ (encoding (withPt State.reset)).coder.a ∧
    (encoding (withPt State.reset)).pt = decodeThree.pt ∧
    answer (.mqeCode true 0) (encoding (withPt State.reset)) = ok 0 ∧
    answer (.mqdDecode 0) decodeThree = ok (if true then 1 else 0) := by decide +kernel

theorem witness_StreamsOnlyMoveForward :
    exec (.mqdDecode 18) twoLeft = .next (after (.mqdDecode 18) twoLeft) ∧
    twoLeft.rp ≤ twoLeft.inp.length := ⟨exec_after _ _, by decide +kernel⟩

/-- The smallest block, and the largest with the deepest plane. -/
theorem witness_EncodeBlockCompletes :
    ((block 1 1 1).status.fault = false ∧ geomOK (block 1 1 1) = true ∧
      (block 1 1 1).status.mqMode = .idle ∧ quietPorts (block 1 1 1)) ∧
    (geomOK (block 1024 1024 31) = true ∧ quietPorts (block 1024 1024 31)) :=
  ⟨⟨rfl, by decide +kernel, rfl, quiet_of_nil rfl⟩, by decide +kernel, quiet_of_nil rfl⟩

/-- The empty segment; three bytes before the marker, the most that `CODE_VALUE_BITS` 32 tolerates. -/
theorem witness_DecodeBlockCompletes :
    (full.status.fault = false ∧ geomOK (feed [0xFF, 0xA1] full) = true ∧
      full.status.mqMode = .idle ∧ quietPorts (feed [0xFF, 0xA1] full) ∧
      (feed [0xFF, 0xA1] full).inp[full.rp + 0]? = some 0xFF ∧
      (feed [0xFF, 0xA1] full).inp[full.rp + 0 + 1]? = some 0xA1 ∧ 8 * 0 + 2 ≤ max 2 32) ∧
    (∀ j < 3, ¬ ((feed [0, 0, 0, 0xFF, 0xA1] full).inp[full.rp + j]? = some 0xFF ∧
      (feed [0, 0, 0, 0xFF, 0xA1] full).inp[full.rp + j + 1]? = some 0xA1)) ∧
    8 * 3 + 2 ≤ max 2 32 :=
  ⟨⟨rfl, by decide +kernel, rfl, quiet_of_nil rfl, by decide +kernel, by decide +kernel,
    by decide⟩, by decide +kernel, by decide⟩

theorem passChecked_encoding : PassChecked .encode 2 (encoding full) :=
  ⟨rfl, by decide +kernel, rfl, rfl, rfl, rfl, by decide +kernel, by decide +kernel⟩

theorem passChecked_decoding : PassChecked .decode 2 (decoding full) :=
  ⟨rfl, by decide +kernel, rfl, rfl, rfl, rfl, by decide +kernel, by decide +kernel⟩

/-- Two bytes taken, two left before a marker. -/
def bytesAhead : State :=
  live 2 (withSig (after .mqdInit (feed [0x24, 0x34, 0x56, 0x78, 0xFF, 0xA1] full)))

/-- Both directions, plane D - 1; nothing is significant, so every significant coefficient is coded;
a marker at once, and one with bytes before it, which the cleanup pass takes. -/
theorem witness_PassesComplete :
    PassReady .encode 2 (encoding full) ∧ PassReady .decode 2 (decoding full) ∧
    (PassReady .decode 2 bytesAhead ∧
      bytesAhead.rp < (after (.ebCleanup .decode 2) bytesAhead).rp) ∧
    ∀ r c, r < full.H → c < full.W → isSignificant full.sig r c = true →
      codedAt full r c = true :=
  ⟨⟨passChecked_encoding, quiet_of_nil rfl, fun h => by cases h⟩,
    ⟨passChecked_decoding, quiet_of_nil rfl,
      fun _ => ⟨0, rfl, 0xA1, by decide +kernel, by decide⟩⟩,
    ⟨⟨⟨by decide +kernel, by decide +kernel, by decide +kernel, by decide +kernel,
        by decide +kernel, rfl, by decide +kernel, by decide +kernel⟩,
      quiet_of_nil (by decide +kernel),
      fun _ => ⟨3, by decide +kernel, 0xA1, by decide +kernel, by decide⟩⟩, by decide +kernel⟩,
    fun _ _ _ _ h => by cases h⟩

theorem witness_HandDrivenBlockIsTheSame :
    (blockThree.status.fault = false ∧ endsOk (after .ebEncode blockThree) ∧
      exec .ebEncode blockThree = .next (after .ebEncode blockThree)) ∧
    (endsOk (after .ebDecode (feed [0xFF, 0xA1] full)) ∧
      exec .ebDecode (feed [0xFF, 0xA1] full) = .next (after .ebDecode (feed [0xFF, 0xA1] full))) ∧
    PassChecked .encode 2 (encoding full) ∧ PassChecked .decode 2 (decoding full) :=
  ⟨⟨rfl, ⟨0, by decide +kernel⟩, exec_after _ _⟩, ⟨⟨0, by decide +kernel⟩, exec_after _ _⟩,
    passChecked_encoding, passChecked_decoding⟩

/-- The block of B1 at word 0, and at word 5 with other bits above D and other bytes in `OUT`. -/
def smallBlock : State := block 1 1 1 .ll [(0, 1)]

/-- See `smallBlock`. -/
def movedBlock : State :=
  { State.reset with cfg := ⟨1, 1, 1, .ll, 5, 0, 1⟩, mem := [(5, 0xF1)], out := [7] }

theorem witness_EncodeDependsOnBlockOnly :
    smallBlock.status.fault = false ∧ movedBlock.status.fault = false ∧
    geomOK smallBlock = true ∧ geomOK movedBlock = true ∧
    smallBlock.status.mqMode = .idle ∧ movedBlock.status.mqMode = .idle ∧
    quietPorts smallBlock ∧ quietPorts movedBlock ∧
    smallBlock.cfg.h = movedBlock.cfg.h ∧ smallBlock.cfg.w = movedBlock.cfg.w ∧
    smallBlock.cfg.d = movedBlock.cfg.d ∧ smallBlock.cfg.sb = movedBlock.cfg.sb ∧
    (∀ r c k, r < smallBlock.H → c < smallBlock.W → k ≤ smallBlock.D →
      (wordAt smallBlock (memAddr smallBlock r c)).getLsbD k
        = (wordAt movedBlock (memAddr movedBlock r c)).getLsbD k) ∧
    exec .ebEncode smallBlock = .next (after .ebEncode smallBlock) ∧
    exec .ebEncode movedBlock = .next (after .ebEncode movedBlock) := by
  refine ⟨rfl, rfl, by decide +kernel, by decide +kernel, rfl, rfl, quiet_of_nil rfl,
    quiet_of_nil rfl, rfl, rfl, rfl, rfl, fun r c k hr hc hk => ?_, exec_after _ _, exec_after _ _⟩
  have hr' : r < 1 := hr
  have hc' : c < 1 := hc
  have hk' : k ≤ 1 := hk
  interval_cases r
  interval_cases c
  interval_cases k <;> decide +kernel

theorem witness_OnlyBlockBitsChange :
    exec (.bpSetBit 2 4 2 true) full = .next (after (.bpSetBit 2 4 2 true) full) ∧
    (∀ r c, r < full.H → c < full.W → 15 ≠ memAddr full r c) ∧ full.D < 4 := by
  refine ⟨exec_after _ _, fun r c hr hc h => ?_, by decide +kernel⟩
  have e : memAddr full r c = (0 + r) * 3 + 0 + c := rfl
  have hr' : r < 5 := hr
  have hc' : c < 3 := hc
  omega

/-- The clauses in their order, at the bounds of the register numbers and widths. -/
theorem witness_CfgSetStoresRegister :
    ((encoding State.reset).status.fault = false ∧ (encoding State.reset).status.mqMode ≠ .idle) ∧
    (State.reset.status.mqMode = .idle ∧ 6 < 7) ∧
    ([11, 11, 5, 2, 20, 20, 20][2]? = some 5 ∧ 2 ^ 5 ≤ 32) ∧
    ([11, 11, 5, 2, 20, 20, 20][6]? = some 20 ∧ 1048575 < 2 ^ 20) := by decide +kernel

theorem witness_CfgGetReadsRegisters :
    (encoding State.reset).status.mqMode ≠ .idle ∧ full.status.mqMode = .idle ∧
    full.status.planeLive = true ∧ State.reset.status.planeLive = false ∧
    full.pt[18]? = some ⟨46, false⟩ ∧ full.status.ptValid = true ∧
    State.reset.pt[18]? = some ⟨0, false⟩ ∧ State.reset.status.ptValid = false ∧ 34 < 35 := by
  decide +kernel

theorem witness_UnitsTouchOnlyTheirState :
    exec (.sigRefCtx 0 0) full = .next (after (.sigRefCtx 0 0) full) := exec_after _ _

theorem canonical_full : Canonical full := by
  unfold Canonical
  decide +kernel

theorem witness_CanonicalArraysKept :
    Canonical (full.withFetchWord 32 0x4800003F) ∧
    step (full.withFetchWord 32 0x4800003F) = .next (stepped (full.withFetchWord 32 0x4800003F)) :=
  ⟨canonical_place _ _ canonical_full, step_stepped _⟩

theorem witness_PtResetWritesInitialStates : State.reset.status.fault = false := rfl

end Sys2Proof.Tests
end

section
/-! PROOF. What one step does with the head of the host's queue, and 00_scope.md's statement about
it. -/

namespace Sys2Proof.Machine

/-- A word that decodes to a command runs that command. -/
theorem runWord_of_decode {w : Word} {i : Instr} (h : decode w = .command i) (s : State) :
    runWord w s = exec i s := by
  simp only [runWord, h]

theorem step_of_hostq_nil {s : State} (h : s.hostq = []) : step s = .next s := by
  simp only [step, h]

theorem step_of_command {s : State} {w : Word} {rest : List HostEvent}
    (h : s.hostq = .command w :: rest) : step s = runWord w (popHost rest s) := by
  simp only [step, h]

/-- Every event but a command word is the host's own action, on the state without that event. -/
theorem step_of_hostAct {s : State} {e : HostEvent} {rest : List HostEvent}
    (h : s.hostq = e :: rest) (he : ∀ w, e ≠ .command w) :
    step s = .next (hostAct e (popHost rest s)) := by
  cases e with
  | command w => exact absurd rfl (he w)
  | _ => simp only [step, h]

/-- A pushed command word taken off the queue again. -/
@[simp] theorem popHost_pushCommand (w : Word) (s : State) :
    popHost s.hostq (pushCommand w s) = s := rfl

/-- A step on a state made to fetch `n` runs the word `n`. -/
theorem step_withFetchWord (s : State) (nbits n : Nat) :
    step (s.withFetchWord nbits n) = runWord (BitVec.ofNat 32 n) s := by
  have hq : (s.withFetchWord nbits n).hostq = .command (BitVec.ofNat 32 n) :: s.hostq := rfl
  rw [step_of_command hq, State.withFetchWord, popHost_pushCommand]

/-- Settles O5: each clause is the case of the step that the head of the queue selects. -/
theorem stepRunsDecodedCommand : Obligations.StepRunsDecodedCommand := by
  intro s rest
  refine ⟨fun w i hq hd => ?_, fun w hq _ => step_of_command hq, fun nbits n i hd => ?_,
    step_of_hostq_nil, fun addr v hq => ?_, fun bytes rp foreign hq => ?_, fun n hq => ?_,
    fun bytes hq => ?_⟩
  · rw [step_of_command hq, runWord_of_decode hd]; rfl
  · rw [step_withFetchWord, runWord_of_decode hd]
  · exact ⟨cellsSet unwrittenWord s.mem addr v, step_of_hostAct hq (by simp),
      cellsGet_cellsSet unwrittenWord s.mem addr v⟩
  · exact step_of_hostAct hq (by simp)
  · exact step_of_hostAct hq (by simp)
  · exact step_of_hostAct hq (by simp)

end Sys2Proof.Machine
end

section
/-! PROOF. Which parts of the state each operation can write: one elementary update per write of the
model, its part, and that a relation which the updates of an operation's parts keep is kept by the
operation.  `CoderKeeps` asks about the probability state and the free bits for every operation of the
coder, and `UnitKeeps` about `SIG.RESET`, `BP.NEWPLANE` and both directions for every pass; claims of
what an operation leaves alone need to ask about its own parts only. -/

namespace Sys2Proof.Machine

/-! ### Elementary updates -/

/-- The parts of the state that the operations write, as 10_state.md R36 tells them apart; the
significance table is split by what is done to it. -/
inductive Part where
  | registers | session | probability | freeBits | sigReset | first | significant | plane | coded
  | memory | config
  deriving DecidableEq

/-- The single writes that operations are made of, each in its part. -/
inductive Update : Part → State → State → Prop where
  | coder (s k) : Update .registers s { s with coder := k }
  | portCalls (s n) : Update .session s { s with portCalls := n }
  | out (s b) : Update .session s { s with out := s.out ++ [b] }
  | take (s b) : s.inp[s.rp]? = some b → Update .session s { s with rp := s.rp + 1 }
  | diverged (s b) : Update .session s { s with diverged := b }
  | rp0 (s n) : Update .session s { s with rp0 := n }
  | mode (s m) : Update .session s (setMqMode m s)
  | ioFail (s b) : Update .session s (setIoFail b s)
  | decFail (s d) : Update .session s (setDecFail d s)
  | pt (s v) : Update .probability s { s with pt := v }
  | ptReset (s) : Update .probability s (setPtValid true { s with pt := ptInitial })
  | freeBit (s) : s.inForeign = true → Update .freeBits s { s with freeBits := s.freeBits + 1 }
  | sigReset (s) : Update .sigReset s (setSigValid true { s with sig := .empty })
  | consumeFirst (s r c) : Update .first s { s with sig := consumeFirst r c s.sig }
  | markSignificant (s r c neg) : r < s.H → c < s.W → isSignificant s.sig r c = false →
      Update .significant s { s with sig := markSignificant s.H s.W r c neg s.sig }
  | newPlane (s i) : Update .plane s
      (setPlaneLive true { s with curPlane := BitVec.ofNat 5 i, coded := [] })
  | markCoded (s r c) : Update .coded s (markCoded r c s)
  | word (s a v) : Update .memory s (setWord a v s)
  | config (s reg val) : Update .config s
      (setSigValid false (setPlaneLive false { s with cfg := setCfgReg reg val s.cfg }))

/-- A relation that every update of the listed parts keeps. -/
structure PartsKeep (ks : List Part) (R : State → State → Prop) : Prop extends Chains R where
  update : ∀ k ∈ ks, ∀ s t, Update k s t → R s t

/-- The parts a coded or decoded decision of a pass writes. -/
def decisionParts : Dir → List Part
  | .encode => [.registers, .session, .probability]
  | .decode => [.registers, .session, .probability, .freeBits, .memory]

/-- The parts a pass writes (45_pass_sequencer.md R263 to R266). -/
def passParts (dir : Dir) : List Part := [.first, .significant, .coded] ++ decisionParts dir

/-- The parts a block operation writes (45_pass_sequencer.md R260, R267). -/
def blockParts (dir : Dir) : List Part := [.sigReset, .plane] ++ passParts dir

namespace PartsKeep

variable {R : State → State → Prop} {ks : List Part}

theorem mono {js : List Part} (K : PartsKeep ks R) (h : js ⊆ ks) : PartsKeep js R where
  toChains := K.toChains
  update := fun k hk => K.update k (h hk)

/-- An operation that reads only keeps whatever the updates keep. -/
theorem readsOnly {α : Type} {x : Op α} (K : PartsKeep ks R) (hx : ReadsOnly x) : Keeps R x :=
  hx.keeps K.toChains

/-- An update done by `modS`. -/
theorem modS {f : State → State} {k : Part} (K : PartsKeep ks R) (hk : k ∈ ks)
    (h : ∀ s, Update k s (f s)) : Keeps R (modS f) :=
  fun s => K.update k hk s _ (h s)

/-! ### The coder's operations, without the probability state -/

section Session

variable (K : PartsKeep [.registers, .session] R)
include K

theorem coder (s : State) (k : Coder) : R s { s with coder := k } :=
  K.update .registers (by simp) _ _ (.coder s k)

theorem session {s t : State} (h : Update .session s t) : R s t :=
  K.update .session (by simp) _ _ h

theorem setDecC (v : Nat) (s : State) : R s (setDecC v s) :=
  K.trans (K.coder s _) (K.session (.diverged _ _))

theorem peekIn : Keeps R peekIn := fun s => by
  rw [run_peekIn]
  split <;> exact K.session (.portCalls s _)

theorem takeIn : Keeps R takeIn := fun s => by
  rw [run_takeIn]
  have called := K.session (.portCalls s (s.portCalls + 1))
  split
  · exact called
  · split
    · exact called
    · next b hb => exact K.trans called (K.session (.take _ b hb))

end Session

theorem putOut (K : PartsKeep [.session] R) (b : Byte) : Keeps R (putOut b) := fun s => by
  rw [run_putOut]
  have called := K.update .session (by simp) _ _ (.portCalls s (s.portCalls + 1))
  split
  · exact called
  · exact K.trans called (K.update .session (by simp) _ _ (.out _ b))

theorem mqeMarkEnd (K : PartsKeep [.session] R) : Keeps R mqeMarkEnd :=
  .bind K.toChains (K.readsOnly (requireMode_readsOnly _)) fun _ =>
    .bind K.toChains (K.putOut _) fun _ => .bind K.toChains (K.putOut _) fun _ =>
      K.modS (by simp) fun s => .mode s _

section Session

variable (K : PartsKeep [.registers, .session] R)
include K

theorem putByte : Keeps R putByte :=
  .bind K.toChains (.getS K.toChains) fun _ =>
    .bind K.toChains (.doIf K.toChains ((K.mono (by decide)).putOut _)) fun _ =>
      .modS fun s => K.coder s _

theorem transferByte : Keeps R transferByte :=
  .bind K.toChains (.getS K.toChains) fun _ => .ite
    (.bind K.toChains K.putByte fun _ => .modS fun s => K.coder s _)
    (.bind K.toChains (.modS fun s => K.coder s _) fun _ =>
      .bind K.toChains K.putByte fun _ => .bind K.toChains (.getS K.toChains) fun _ =>
        .ite (.modS fun s => K.coder s _) (.modS fun s => K.coder s _))

theorem encRenorm (n : Nat) : Keeps R (encRenorm n) := by
  induction n with
  | zero => exact .pure K.toChains _
  | succ n ih =>
    exact .bind K.toChains (.getS K.toChains) fun _ => .doIf K.toChains
      (.bind K.toChains (.modS fun s => K.coder s _) fun _ =>
        .bind K.toChains (.getS K.toChains) fun _ =>
          .bind K.toChains (.doIf K.toChains K.transferByte) fun _ => ih)

theorem mqeInit : Keeps R mqeInit :=
  .bind K.toChains (K.readsOnly requireIdle_readsOnly) fun _ => .modS fun s =>
    K.trans (K.coder s _) (K.trans (K.session (.mode _ _)) (K.session (.ioFail _ _)))

theorem flushLoop (n : Nat) (nbits : Int) : Keeps R (flushLoop n nbits) := by
  induction n generalizing nbits with
  | zero => exact .pure K.toChains _
  | succ n ih =>
    exact .doIf K.toChains (.bind K.toChains K.transferByte fun _ =>
      .bind K.toChains (.getS K.toChains) fun _ =>
        .bind K.toChains (.modS fun s => K.coder s _) fun _ => ih _)

theorem mqeFlush : Keeps R mqeFlush :=
  .bind K.toChains (K.readsOnly (requireMode_readsOnly _)) fun _ =>
    .bind K.toChains (.getS K.toChains) fun _ =>
      .bind K.toChains (.modS fun s => K.coder s _) fun _ =>
        .bind K.toChains (K.flushLoop _ _) fun _ => K.transferByte

theorem fillLSBs : Keeps R fillLSBs :=
  .bind K.toChains (.modS fun s => K.coder s _) fun _ => .bind K.toChains K.peekIn fun n => by
    cases n with
    | none => exact .raise K.toChains _
    | some n =>
      exact .bind K.toChains (.getS K.toChains) fun _ => .ite (.modS fun s => K.setDecC _ s)
        (.bind K.toChains (.doIf K.toChains (.modS fun s => K.coder s _)) fun _ =>
          .bind K.toChains K.takeIn fun _ => .bind K.toChains (.modS fun s => K.coder s _) fun _ =>
            .modS fun s => K.setDecC _ s)

theorem mqdInit : Keeps R mqdInit :=
  .bind K.toChains (K.readsOnly requireIdle_readsOnly) fun _ =>
    .bind K.toChains (.modS fun s =>
      K.trans (K.session (.rp0 s s.rp)) (K.trans (K.session (.diverged _ false))
        (K.trans (K.coder _ _)
          (K.trans (K.session (.ioFail _ _)) (K.session (.decFail _ _)))))) fun _ =>
      .bind K.toChains K.fillLSBs fun _ => .bind K.toChains (.modS fun s => K.setDecC _ s) fun _ =>
        .bind K.toChains K.fillLSBs fun _ =>
          .bind K.toChains (.modS fun s => K.setDecC _ s) fun _ =>
            .bind K.toChains (.modS fun s => K.coder s _) fun _ =>
              .modS fun s => K.session (.mode s _)

theorem skipScan (n g : Nat) : Keeps R (skipScan n g) := by
  induction n generalizing g with
  | zero => exact .raise K.toChains _
  | succ n ih =>
    refine .bind K.toChains K.peekIn fun b => ?_
    cases b with
    | none => exact .raise K.toChains _
    | some b =>
      exact .bind K.toChains (.getS K.toChains) fun _ => .ite
        (.bind K.toChains K.takeIn fun _ => .bind K.toChains (.modS fun s => K.coder s _) fun _ =>
          .pure K.toChains _)
        (.ite (.raise K.toChains _)
          (.bind K.toChains
            (.bind K.toChains K.takeIn fun _ => .modS fun s => K.coder s _) fun _ => ih _))

theorem mqdSkipEnd : Keeps R mqdSkipEnd :=
  .bind K.toChains (K.readsOnly (requireMode_readsOnly _)) fun _ =>
    .bind K.toChains (.getS K.toChains) fun _ => .bind K.toChains (K.skipScan _ _) fun _ =>
      .bind K.toChains (.modS fun s => K.session (.mode s _)) fun _ => .pure K.toChains _

end Session

/-! ### Decisions -/

theorem ptTrans (K : PartsKeep [.probability] R) (ctx : Nat) (m sw : Bool) :
    Keeps R (ptTrans ctx m sw) :=
  .bind K.toChains (K.readsOnly (requirePt_readsOnly ctx)) fun _ =>
    K.modS (by simp) fun s => .pt s _

section Encode

variable (K : PartsKeep [.registers, .session, .probability] R)
include K

theorem mqeCode (b : Bool) (ctx : Nat) : Keeps R (mqeCode b ctx) :=
  .bind K.toChains (K.readsOnly (requireMode_readsOnly _)) fun _ =>
    .bind K.toChains (K.readsOnly (requirePt_readsOnly ctx)) fun _ =>
      .bind K.toChains (.getS K.toChains) fun _ =>
        .bind K.toChains (K.modS (k := .registers) (by simp) fun s => .coder s _) fun _ =>
          .doIf K.toChains (.bind K.toChains ((K.mono (by decide)).ptTrans ctx _ _) fun _ =>
            (K.mono (by decide)).encRenorm 15)

theorem codeBits (value ctx n : Nat) : Keeps R (codeBits value ctx n) := by
  induction n with
  | zero => exact .pure K.toChains _
  | succ n ih => exact .bind K.toChains (K.mqeCode _ ctx) fun _ => ih

theorem mqeCodeNum (value nbits ctx : Nat) : Keeps R (mqeCodeNum value nbits ctx) :=
  .bind K.toChains (K.readsOnly (requireMode_readsOnly _)) fun _ =>
    .bind K.toChains (K.readsOnly (requirePt_readsOnly ctx)) fun _ =>
      .bind K.toChains (K.readsOnly (requireNbits_readsOnly nbits)) fun _ =>
        K.codeBits value ctx nbits

end Encode

section Decode

variable (K : PartsKeep [.registers, .session, .probability, .freeBits] R)
include K

/-- The updates of these parts are all that `CoderKeeps` asks about. -/
theorem coderKeeps : CoderKeeps R where
  toChains := K.toChains
  coder := fun s k => K.update .registers (by simp) _ _ (.coder s k)
  pt := fun s v => K.update .probability (by simp) _ _ (.pt s v)
  calls := fun s n => K.update .session (by simp) _ _ (.portCalls s n)
  out := fun s b => K.update .session (by simp) _ _ (.out s b)
  take := fun s b h => K.update .session (by simp) _ _ (.take s b h)
  diverged := fun s b => K.update .session (by simp) _ _ (.diverged s b)
  freeBits := fun s _ h => K.update .freeBits (by simp) _ _ (.freeBit s h)
  rp0 := fun s n => K.update .session (by simp) _ _ (.rp0 s n)
  mode := fun s m => K.update .session (by simp) _ _ (.mode s m)
  ioFail := fun s b => K.update .session (by simp) _ _ (.ioFail s b)
  decFail := fun s d => K.update .session (by simp) _ _ (.decFail s d)

theorem mqdDecode (ctx : Nat) : Keeps R (mqdDecode ctx) := K.coderKeeps.mqdDecode ctx

theorem decodeBits (ctx n v : Nat) : Keeps R (decodeBits ctx n v) := by
  induction n generalizing v with
  | zero => exact .pure K.toChains _
  | succ n ih => exact .bind K.toChains (K.mqdDecode ctx) fun _ => ih _

theorem mqdDecodeNum (nbits ctx : Nat) : Keeps R (mqdDecodeNum nbits ctx) :=
  .bind K.toChains (K.readsOnly (requireMode_readsOnly _)) fun _ =>
    .bind K.toChains (K.readsOnly (requirePt_readsOnly ctx)) fun _ =>
      .bind K.toChains (K.readsOnly (requireNbits_readsOnly nbits)) fun _ =>
        K.decodeBits ctx nbits 0

end Decode

/-! ### The other unit operations -/

theorem ptReset (K : PartsKeep [.probability] R) : Keeps R ptReset :=
  K.modS (by simp) fun s => .ptReset s

theorem sigReset (K : PartsKeep [.sigReset] R) : Keeps R sigReset :=
  .bind K.toChains (K.readsOnly requireGeom_readsOnly) fun _ => K.modS (by simp) fun s => .sigReset s

theorem sigRefCtx (K : PartsKeep [.first] R) (r c : Nat) : Keeps R (sigRefCtx r c) :=
  .bind K.toChains (K.readsOnly (requireSig_readsOnly r c)) fun _ =>
    .bind K.toChains (.getS K.toChains) fun _ => .ite
      (.bind K.toChains (K.modS (by simp) fun s => .consumeFirst s r c) fun _ =>
        .pure K.toChains _)
      (.pure K.toChains _)

/-- `SIG.SETSIG` writes only where its checks passed: inside the block, at a position that is not
significant. -/
theorem sigSetSig (K : PartsKeep [.significant] R) (r c : Nat) (neg : Bool) :
    Keeps R (sigSetSig r c neg) := fun s => by
  simp only [Machine.sigSetSig, run_bind, run_requireSig]
  split_ifs with hg hv hrc
  · simp only [run_getS, run_require]
    cases hs : isSignificant s.sig r c with
    | true => exact K.refl s
    | false => exact K.update .significant (by simp) _ _ (.markSignificant s r c neg hrc.1 hrc.2 hs)
  all_goals exact K.refl s

theorem bpNewPlane (K : PartsKeep [.plane] R) (i : Nat) : Keeps R (bpNewPlane i) :=
  .bind K.toChains (K.readsOnly requireGeom_readsOnly) fun _ =>
    .bind K.toChains (K.readsOnly (requirePlane_readsOnly i)) fun _ =>
      K.modS (by simp) fun s => .newPlane s i

theorem memWrite (K : PartsKeep [.memory] R) (r c : Nat) (v : Word) : Keeps R (memWrite r c v) :=
  .bind K.toChains (K.readsOnly (requireCoord_readsOnly r c)) fun _ =>
    K.modS (by simp) fun s => .word s _ v

theorem bpSetBit (K : PartsKeep [.memory] R) (i r c : Nat) (b : Bool) :
    Keeps R (bpSetBit i r c b) :=
  .bind K.toChains (K.readsOnly (requireBit_readsOnly i r c)) fun _ =>
    .bind K.toChains (K.readsOnly (memRead_readsOnly r c)) fun _ => K.memWrite r c _

theorem bpSetSign (K : PartsKeep [.memory] R) (r c : Nat) (b : Bool) :
    Keeps R (bpSetSign r c b) :=
  .bind K.toChains (K.readsOnly (requireSign_readsOnly r c)) fun _ =>
    .bind K.toChains (.getS K.toChains) fun _ =>
      .bind K.toChains (K.readsOnly (memRead_readsOnly r c)) fun _ => K.memWrite r c _

theorem bpMarkCoded (K : PartsKeep [.coded] R) (i r c : Nat) : Keeps R (bpMarkCoded i r c) :=
  .bind K.toChains (K.readsOnly (requireLive_readsOnly i r c)) fun _ =>
    K.modS (by simp) fun s => .markCoded s r c

theorem cfgSet (K : PartsKeep [.config] R) (reg val : Nat) : Keeps R (cfgSet reg val) :=
  .bind K.toChains (K.readsOnly requireIdle_readsOnly) fun _ =>
    .bind K.toChains (.require K.toChains _ _) fun _ =>
      .bind K.toChains (.require K.toChains _ _) fun _ =>
        K.modS (by simp) fun s => .config s reg val

/-! ### The sequencer, direction by direction -/

section Pass

variable {dir : Dir} (K : PartsKeep (passParts dir) R)
include K

theorem magStep (i r c ctx : Nat) : Keeps R (magStep dir i r c ctx) := by
  cases dir
  · exact .bind K.toChains (K.readsOnly (bpBitAt_readsOnly i r c)) fun _ =>
      .bind K.toChains ((K.mono (by decide)).mqeCode _ _) fun _ => .pure K.toChains _
  · exact .bind K.toChains ((K.mono (by decide)).mqdDecode ctx) fun _ =>
      .bind K.toChains ((K.mono (by decide)).bpSetBit i r c _) fun _ => .pure K.toChains _

theorem signStep (r c : Nat) : Keeps R (signStep dir r c) := by
  refine .bind K.toChains (K.readsOnly (sigSignCtx_readsOnly r c)) fun p => ?_
  cases dir
  · exact .bind K.toChains (K.readsOnly (bpSignAt_readsOnly r c)) fun _ =>
      .bind K.toChains ((K.mono (by decide)).mqeCode _ _) fun _ =>
        (K.mono (by decide)).sigSetSig r c _
  · exact .bind K.toChains ((K.mono (by decide)).mqdDecode _) fun _ =>
      .bind K.toChains ((K.mono (by decide)).bpSetSign r c _) fun _ =>
        (K.mono (by decide)).sigSetSig r c _

theorem markCoded (i r c : Nat) : Keeps R (Machine.bpMarkCoded i r c) :=
  (K.mono (by simp [passParts])).bpMarkCoded i r c

theorem codeCoefficient (i r c ctx : Nat) : Keeps R (codeCoefficient dir i r c ctx) :=
  .bind K.toChains (K.magStep i r c ctx) fun _ =>
    .bind K.toChains (.doIf K.toChains (K.signStep r c)) fun _ => K.markCoded i r c

theorem sigVisit (i : Nat) (sb : SubBand) (p : Nat × Nat) : Keeps R (sigVisit dir i sb p) :=
  .bind K.toChains (K.readsOnly (sigIsSig_readsOnly _ _)) fun _ => .doIf K.toChains
    (.bind K.toChains (K.readsOnly (bpIsCoded_readsOnly _ _ _)) fun _ => .doIf K.toChains
      (.bind K.toChains (K.readsOnly (sigSpCtx_readsOnly _ _ _)) fun _ => .doIf K.toChains
        (K.codeCoefficient i _ _ _)))

theorem sigPass (i : Nat) : Keeps R (sigPass dir i) :=
  .bind K.toChains (K.readsOnly (requirePass_readsOnly dir i)) fun _ =>
    .bind K.toChains (.getS K.toChains) fun _ => .forEach K.toChains fun p => K.sigVisit i _ p

theorem refVisit (i : Nat) (p : Nat × Nat) : Keeps R (refVisit dir i p) :=
  .bind K.toChains (K.readsOnly (sigIsSig_readsOnly _ _)) fun _ => .doIf K.toChains
    (.bind K.toChains (K.readsOnly (bpIsCoded_readsOnly _ _ _)) fun _ => .doIf K.toChains
      (.bind K.toChains ((K.mono (by simp [passParts])).sigRefCtx _ _) fun _ =>
        .bind K.toChains (K.magStep i _ _ _) fun _ => K.markCoded i _ _))

theorem refPass (i : Nat) : Keeps R (refPass dir i) :=
  .bind K.toChains (K.readsOnly (requirePass_readsOnly dir i)) fun _ =>
    .bind K.toChains (.getS K.toChains) fun _ => .forEach K.toChains fun p => K.refVisit i p

theorem cleanVisit (i : Nat) (sb : SubBand) (r c : Nat) : Keeps R (cleanVisit dir i sb r c) :=
  .bind K.toChains (K.readsOnly (bpIsCoded_readsOnly _ _ _)) fun _ => .doIf K.toChains
    (.bind K.toChains (K.readsOnly (sigSpCtx_readsOnly _ _ _)) fun _ => K.codeCoefficient i r c _)

theorem runLength (i r0 c : Nat) : Keeps R (runLength dir i r0 c) := by
  cases dir
  · refine .bind K.toChains (K.readsOnly (bpStripFnz_readsOnly i r0 c)) fun f =>
      .bind K.toChains ((K.mono (by decide)).mqeCode _ _) fun _ => ?_
    cases f with
    | none => exact .pure K.toChains _
    | some k =>
      exact .bind K.toChains ((K.mono (by decide)).mqeCodeNum k 2 _) fun _ => .pure K.toChains _
  · exact .bind K.toChains ((K.mono (by decide)).mqdDecode _) fun _ => .ite
      (.bind K.toChains ((K.mono (by decide)).mqdDecodeNum 2 _) fun _ =>
        .bind K.toChains ((K.mono (by decide)).bpSetBit i _ c true) fun _ => .pure K.toChains _)
      (.pure K.toChains _)

theorem cleanColumn (i : Nat) (sb : SubBand) (r0 h : Nat) (full : Bool) (c : Nat) :
    Keeps R (cleanColumn dir i sb r0 h full c) := by
  refine .bind K.toChains (K.readsOnly (runMode_readsOnly i sb r0 c full)) fun _ =>
    .ite (.bind K.toChains (K.runLength i r0 c) fun f => ?_)
      (.forEach K.toChains fun j => K.cleanVisit i sb _ c)
  cases f with
  | none => exact .forEach K.toChains fun j => K.markCoded i _ c
  | some k =>
    exact .bind K.toChains (K.signStep _ c) fun _ =>
      .bind K.toChains (.forEach K.toChains fun j => K.markCoded i _ c) fun _ =>
        .forEach K.toChains fun j => K.cleanVisit i sb _ c

theorem cleanup (i : Nat) : Keeps R (cleanup dir i) :=
  .bind K.toChains (K.readsOnly (requirePass_readsOnly dir i)) fun _ =>
    .bind K.toChains (.getS K.toChains) fun _ => .forEach K.toChains fun _ =>
      .forEach K.toChains fun c => K.cleanColumn i _ _ _ _ c

end Pass

section Block

variable {dir : Dir} (K : PartsKeep (blockParts dir) R)
include K

theorem pass : PartsKeep (passParts dir) R := K.mono (by simp [blockParts])

theorem planePasses (top i : Nat) : Keeps R (planePasses dir top i) :=
  .bind K.toChains ((K.mono (by simp [blockParts])).bpNewPlane i) fun _ =>
    .bind K.toChains (.doIf K.toChains
      (.bind K.toChains (K.pass.sigPass i) fun _ => K.pass.refPass i)) fun _ => K.pass.cleanup i

theorem planeLoop (top n : Nat) : Keeps R (planeLoop dir top n) := by
  induction n with
  | zero => exact .pure K.toChains _
  | succ n ih => exact .bind K.toChains (K.planePasses top n) fun _ => ih

end Block

theorem ebEncode (K : PartsKeep (blockParts .encode) R) : Keeps R ebEncode :=
  .bind K.toChains (K.readsOnly requireGeom_readsOnly) fun _ =>
    .bind K.toChains (K.readsOnly requireIdle_readsOnly) fun _ =>
      .bind K.toChains (K.mono (by decide)).ptReset fun _ =>
        .bind K.toChains (K.mono (by decide)).sigReset fun _ =>
          .bind K.toChains (K.mono (by decide)).mqeInit fun _ =>
            .bind K.toChains (.getS K.toChains) fun _ => .bind K.toChains (K.planeLoop _ _) fun _ =>
              .bind K.toChains (K.mono (by decide)).mqeFlush fun _ =>
                (K.mono (by decide)).mqeMarkEnd

theorem ebDecode (K : PartsKeep (blockParts .decode) R) : Keeps R ebDecode :=
  .bind K.toChains (K.readsOnly requireGeom_readsOnly) fun _ =>
    .bind K.toChains (K.readsOnly requireIdle_readsOnly) fun _ =>
      .bind K.toChains (K.mono (by decide)).ptReset fun _ =>
        .bind K.toChains (K.mono (by decide)).sigReset fun _ =>
          .bind K.toChains (K.mono (by decide)).mqdInit fun _ =>
            .bind K.toChains (.getS K.toChains) fun _ => .bind K.toChains (K.planeLoop _ _) fun _ =>
              (K.mono (by decide)).mqdSkipEnd

end PartsKeep

end Sys2Proof.Machine
end

section
/-! PROOF. The operation that each command runs, what a command can leave, and how a relation is
carried through it by the parts that its operation writes. -/

namespace Sys2Proof.Machine

/-- The operation a command runs, with its payload (30_encoding.md R97, R100). -/
def opOf : Instr → Op Word
  | .ptReset => do ptReset; pure 0
  | .ptEst ctx => do let e ← ptEst ctx; pure (estPayload e.1 e.2)
  | .ptTrans ctx m sw => do ptTrans ctx m sw; pure 0
  | .sigReset => do sigReset; pure 0
  | .sigIsSig r c => do let b ← sigIsSig r c; pure (boolWord b)
  | .sigSpCtx r c sb => do let label ← sigSpCtx r c sb; pure (labelPayload label)
  | .sigSignCtx r c => do let l ← sigSignCtx r c; pure (signPayload l.1 l.2)
  | .sigRefCtx r c => do let label ← sigRefCtx r c; pure (labelPayload label)
  | .sigSetSig r c neg => do sigSetSig r c neg; pure 0
  | .sigStripZ sb r c => do let b ← sigStripZ sb r c; pure (boolWord b)
  | .bpNewPlane p => do bpNewPlane p; pure 0
  | .bpBitAt p r c => do let b ← bpBitAt p r c; pure (boolWord b)
  | .bpSetBit p r c b => do bpSetBit p r c b; pure 0
  | .bpSignAt r c => do let b ← bpSignAt r c; pure (boolWord b)
  | .bpSetSign r c b => do bpSetSign r c b; pure 0
  | .bpIsCoded p r c => do let b ← bpIsCoded p r c; pure (boolWord b)
  | .bpMarkCoded p r c => do bpMarkCoded p r c; pure 0
  | .bpNFull => do let n ← bpNFull; pure (BitVec.ofNat 32 n)
  | .bpLastH => do let n ← bpLastH; pure (BitVec.ofNat 32 n)
  | .bpLastOff => do let n ← bpLastOff; pure (BitVec.ofNat 32 n)
  | .bpStripUnc p r c => do let b ← bpStripUnc p r c; pure (boolWord b)
  | .bpStripFnz p r c => do let f ← bpStripFnz p r c; pure (fnzPayload f)
  | .mqeInit => do mqeInit; pure 0
  | .mqeCode b ctx => do mqeCode b ctx; pure 0
  | .mqeCodeNum value nbits ctx => do mqeCodeNum value nbits ctx; pure 0
  | .mqeFlush => do mqeFlush; pure 0
  | .mqeMarkEnd => do mqeMarkEnd; pure 0
  | .mqdInit => do mqdInit; pure 0
  | .mqdDecode ctx => do let b ← mqdDecode ctx; pure (boolWord b)
  | .mqdDecodeNum nbits ctx => do let v ← mqdDecodeNum nbits ctx; pure (BitVec.ofNat 32 v)
  | .mqdSkipEnd => do let g ← mqdSkipEnd; pure (BitVec.ofNat 32 g)
  | .ebEncode => do ebEncode; pure 0
  | .ebDecode => do let g ← ebDecode; pure (BitVec.ofNat 32 g)
  | .ebSigPass dir p => do sigPass dir p; pure 0
  | .ebRefPass dir p => do refPass dir p; pure 0
  | .ebCleanup dir p => do cleanup dir p; pure 0
  | .cfgSet reg val => do cfgSet reg val; pure 0
  | .cfgGet reg => cfgGet reg

/-- Every command but `CFG.GET` is refused while `FAULT` is 1 and otherwise runs its operation. -/
theorem exec_eq_command {i : Instr} (hi : ∀ reg, i ≠ .cfgGet reg) (s : State) :
    exec i s = command (opOf i) s := by
  cases i with
  | cfgGet reg => exact absurd rfl (hi reg)
  | _ => rfl

/-- `CFG.GET` runs its operation, `FAULT` or not. -/
theorem exec_cfgGet (reg : Nat) (s : State) :
    exec (.cfgGet reg) s = .next (settle (cfgGet reg) s) := rfl

/-- Everything a command can do: refuse, while `FAULT` is 1, or run its operation and answer. -/
theorem exec_cases {i : Instr} {s t : State} (h : exec i s = .next t) :
    (s.status.fault = true ∧ t = refuseSticky s) ∨ t = settle (opOf i) s := by
  by_cases hi : ∀ reg, i ≠ .cfgGet reg
  · rw [exec_eq_command hi, command_eq, Host.Outcome.next.injEq] at h
    split at h
    · exact .inl ⟨‹_›, h.symm⟩
    · exact .inr h.symm
  · push Not at hi
    obtain ⟨reg, rfl⟩ := hi
    rw [exec_cfgGet, Host.Outcome.next.injEq] at h
    exact .inr h.symm

/-- While `FAULT` is 0 every command runs its operation. -/
theorem exec_of_noFault {i : Instr} {s t : State} (hf : s.status.fault = false)
    (h : exec i s = .next t) : t = settle (opOf i) s := by
  simpa [hf] using exec_cases h

/-! ### What each command's operation writes -/

/-- The parts of the state that a command's operation writes (10_state.md R36). -/
def footprint : Instr → List Part
  | .ptReset | .ptTrans .. => [.probability]
  | .sigReset => [.sigReset]
  | .sigRefCtx .. => [.first]
  | .sigSetSig .. => [.significant]
  | .bpNewPlane _ => [.plane]
  | .bpSetBit .. | .bpSetSign .. => [.memory]
  | .bpMarkCoded .. => [.coded]
  | .mqeInit | .mqeFlush | .mqdInit | .mqdSkipEnd => [.registers, .session]
  | .mqeMarkEnd => [.session]
  | .mqeCode .. | .mqeCodeNum .. => [.registers, .session, .probability]
  | .mqdDecode _ | .mqdDecodeNum .. => [.registers, .session, .probability, .freeBits]
  | .ebEncode => blockParts .encode
  | .ebDecode => blockParts .decode
  | .ebSigPass dir _ | .ebRefPass dir _ | .ebCleanup dir _ => passParts dir
  | .cfgSet .. => [.config]
  | _ => []

variable {R : State → State → Prop}

/-- A command's operation keeps what the updates of its footprint keep. -/
theorem opOf_keeps {i : Instr} (K : PartsKeep (footprint i) R) : Keeps R (opOf i) := by
  have answer {α : Type} {x : Op α} {f : α → Word} (hx : Keeps R x) :
      Keeps R (do let a ← x; pure (f a)) := .bind K.toChains hx fun _ => .pure K.toChains _
  have read {α : Type} {x : Op α} {f : α → Word} (hx : ReadsOnly x) :
      Keeps R (do let a ← x; pure (f a)) := answer (K.readsOnly hx)
  cases i with
  | ptReset => exact answer K.ptReset
  | ptEst ctx => exact read (ptEst_readsOnly ctx)
  | ptTrans ctx m sw => exact answer (K.ptTrans ctx m sw)
  | sigReset => exact answer K.sigReset
  | sigIsSig r c => exact read (sigIsSig_readsOnly r c)
  | sigSpCtx r c sb => exact read (sigSpCtx_readsOnly r c sb)
  | sigSignCtx r c => exact read (sigSignCtx_readsOnly r c)
  | sigRefCtx r c => exact answer (K.sigRefCtx r c)
  | sigSetSig r c neg => exact answer (K.sigSetSig r c neg)
  | sigStripZ sb r c => exact read (sigStripZ_readsOnly sb r c)
  | bpNewPlane p => exact answer (K.bpNewPlane p)
  | bpBitAt p r c => exact read (bpBitAt_readsOnly p r c)
  | bpSetBit p r c b => exact answer (K.bpSetBit p r c b)
  | bpSignAt r c => exact read (bpSignAt_readsOnly r c)
  | bpSetSign r c b => exact answer (K.bpSetSign r c b)
  | bpIsCoded p r c => exact read (bpIsCoded_readsOnly p r c)
  | bpMarkCoded p r c => exact answer (K.bpMarkCoded p r c)
  | bpNFull => exact read bpNFull_readsOnly
  | bpLastH => exact read bpLastH_readsOnly
  | bpLastOff => exact read bpLastOff_readsOnly
  | bpStripUnc p r c => exact read (bpStripUnc_readsOnly p r c)
  | bpStripFnz p r c => exact read (bpStripFnz_readsOnly p r c)
  | mqeInit => exact answer K.mqeInit
  | mqeCode b ctx => exact answer (K.mqeCode b ctx)
  | mqeCodeNum value nbits ctx => exact answer (K.mqeCodeNum value nbits ctx)
  | mqeFlush => exact answer K.mqeFlush
  | mqeMarkEnd => exact answer K.mqeMarkEnd
  | mqdInit => exact answer K.mqdInit
  | mqdDecode ctx => exact answer (K.mqdDecode ctx)
  | mqdDecodeNum nbits ctx => exact answer (K.mqdDecodeNum nbits ctx)
  | mqdSkipEnd => exact answer K.mqdSkipEnd
  | ebEncode => exact answer K.ebEncode
  | ebDecode => exact answer K.ebDecode
  | ebSigPass dir p => exact answer (K.sigPass p)
  | ebRefPass dir p => exact answer (K.refPass p)
  | ebCleanup dir p => exact answer (K.cleanup p)
  | cfgSet reg val => exact answer (K.cfgSet reg val)
  | cfgGet reg => exact K.readsOnly (cfgGet_readsOnly reg)

/-- A relation that every way to end a command keeps (60_exceptions.md R310). -/
structure EndKeeps (R : State → State → Prop) : Prop where
  respond : ∀ k p s, R s (respond k p s)
  protocolFault : ∀ code s, R s (takeProtocolFault code s)
  decodeFailure : ∀ code s, R s (takeDecodeFailure code s)
  ioFailure : ∀ s, R s (takeIoFailure s)

/-- A relation that does not look at `STATUS` and the response is kept by every way to end a
command. -/
theorem EndKeeps.of_status_resp (h : ∀ s st r, R s { s with status := st, resp := r }) :
    EndKeeps R where
  respond := fun _ _ s => h s s.status _
  protocolFault := fun _ s => h s _ _
  decodeFailure := fun _ s => h s _ _
  ioFailure := fun s => h s _ _

/-- Everything running an operation as a command does to the state: the operation's doing, then one of
the ways to end. -/
theorem settle_keeps (hR : Chains R) (E : EndKeeps R) {op : Op Word} (hop : Keeps R op) (s : State) :
    R s (settle op s) := by
  have hs := hop s
  unfold settle
  cases hr : op s with
  | ok p u =>
    rw [hr] at hs
    exact hR.trans hs (E.respond _ _ u)
  | error e u =>
    rw [hr] at hs
    refine hR.trans hs ?_
    cases e with
    | protocolFault code => exact E.protocolFault code u
    | decodeFailure code => exact E.decodeFailure code u
    | ioFailure => exact E.ioFailure u

/-- A command keeps what the updates of its footprint and the ways to end keep. -/
theorem exec_keeps {i : Instr} {s t : State} (K : PartsKeep (footprint i) R) (E : EndKeeps R)
    (h : exec i s = .next t) : R s t := by
  obtain ⟨-, rfl⟩ | rfl := exec_cases h
  · exact E.respond _ _ s
  · exact settle_keeps K.toChains E (opOf_keeps K) s

/-- Where the updates of every part keep the relation, every unit operation does. -/
theorem unitKeeps_of_updates (hR : Chains R) (h : ∀ k s t, Update k s t → R s t) : UnitKeeps R :=
  have K (ks : List Part) : PartsKeep ks R := ⟨hR, fun k _ => h k⟩
  { toChains := hR
    ptReset := (K _).ptReset
    ptTrans := (K _).ptTrans
    sigReset := (K _).sigReset
    sigRefCtx := (K _).sigRefCtx
    sigSetSig := (K _).sigSetSig
    bpNewPlane := (K _).bpNewPlane
    bpSetBit := (K _).bpSetBit
    bpSetSign := (K _).bpSetSign
    bpMarkCoded := (K _).bpMarkCoded
    mqeInit := (K _).mqeInit
    mqeCode := (K _).mqeCode
    mqeFlush := (K _).mqeFlush
    mqeMarkEnd := (K _).mqeMarkEnd
    mqdInit := (K _).mqdInit
    mqdDecode := (K _).mqdDecode
    mqdSkipEnd := (K _).mqdSkipEnd }

/-- Where the updates of every part and every way to end keep the relation, every command does. -/
theorem commandKeeps_of_updates (hR : Chains R) (h : ∀ k s t, Update k s t → R s t)
    (E : EndKeeps R) : CommandKeeps R :=
  { unitKeeps_of_updates hR h with
    respond := E.respond
    protocolFault := E.protocolFault
    decodeFailure := E.decodeFailure
    ioFailure := E.ioFailure
    cfgSet := PartsKeep.cfgSet ⟨hR, fun k _ => h k⟩ }

end Sys2Proof.Machine
end

section
/-! PROOF. Which commands can write which part of the state (10_state.md R36): what each update leaves
as it was, and the commands with a part in their footprint. -/

namespace Sys2Proof.Machine

/-! ### What an update leaves as it was -/

section Update

variable {k : Part} {s t : State} (u : Update k s t)
include u

theorem Update.cfg_eq (hk : k ∉ [.config]) : t.cfg = s.cfg := by
  cases u <;> simp_all

theorem Update.pt_eq (hk : k ∉ [.probability]) : t.pt = s.pt := by
  cases u <;> simp_all

theorem Update.sig_eq (hk : k ∉ [.sigReset, .first, .significant]) : t.sig = s.sig := by
  cases u <;> simp_all

theorem Update.curPlane_eq (hk : k ∉ [.plane]) : t.curPlane = s.curPlane := by
  cases u <;> simp_all

theorem Update.coded_eq (hk : k ∉ [.plane, .coded]) : t.coded = s.coded := by
  cases u <;> simp_all

theorem Update.coder_eq (hk : k ∉ [.registers]) : t.coder = s.coder := by
  cases u <;> simp_all

theorem Update.freeBits_eq (hk : k ∉ [.freeBits]) : t.freeBits = s.freeBits := by
  cases u <;> simp_all

end Update

/-- What the host holds is as it was, and so is, on input that an encoder wrote, the count of free
bits. -/
def HostEq (s t : State) : Prop :=
  t.params = s.params ∧ t.portFails = s.portFails ∧ t.hostq = s.hostq ∧
    t.inForeign = s.inForeign ∧ (s.inForeign = false → t.freeBits = s.freeBits)

theorem hostEq_chains : Chains HostEq where
  refl := fun _ => ⟨rfl, rfl, rfl, rfl, fun _ => rfl⟩
  trans := by
    rintro s t u ⟨hp, hf, hq, hi, hb⟩ ⟨kp, kf, kq, ki, kb⟩
    exact ⟨kp.trans hp, kf.trans hf, kq.trans hq, ki.trans hi,
      fun hs => (kb (hi.trans hs)).trans (hb hs)⟩

theorem hostEq_update {k : Part} {s t : State} (u : Update k s t) : HostEq s t := by
  cases u <;> simp [HostEq, *]

theorem exec_hostEq {i : Instr} {s t : State} (h : exec i s = .next t) : HostEq s t :=
  exec_keeps ⟨hostEq_chains, fun _ _ _ _ => hostEq_update⟩
    (EndKeeps.of_status_resp fun _ _ _ => ⟨rfl, rfl, rfl, rfl, fun _ => rfl⟩) h

/-! ### Who writes a part -/

/-- The command's operation can write one of these parts. -/
def Writes (i : Instr) (ks : List Part) : Prop := ∃ k ∈ ks, k ∈ footprint i

/-- A field outside `STATUS` and the response that a command has changed lies in one of the parts the
command writes. -/
theorem exec_frame {β : Type} (f : State → β) {ks : List Part} {i : Instr} {s t : State}
    (h : exec i s = .next t) (hend : ∀ s st r, f { s with status := st, resp := r } = f s)
    (hupd : ∀ {k s t}, Update k s t → k ∉ ks → f t = f s) : f t = f s ∨ Writes i ks := by
  by_cases hw : Writes i ks
  · exact .inr hw
  · have K : PartsKeep (footprint i) fun s t => f t = f s :=
      ⟨⟨fun _ => rfl, fun h k => k.trans h⟩,
        fun k hmem _ _ u => hupd u fun hks => hw ⟨k, hks, hmem⟩⟩
    exact .inl (exec_keeps K (EndKeeps.of_status_resp hend) h)

/-- The commands of the sequencer (45_pass_sequencer.md). -/
def IsSequencer (i : Instr) : Prop :=
  i = .ebEncode ∨ i = .ebDecode ∨
    ∃ dir p, i = .ebSigPass dir p ∨ i = .ebRefPass dir p ∨ i = .ebCleanup dir p

/-- The commands that code or decode under a label (43_mq_encoder.md, 44_mq_decoder.md). -/
def IsDecision (i : Instr) : Prop :=
  (∃ b ctx, i = .mqeCode b ctx) ∨ (∃ v n ctx, i = .mqeCodeNum v n ctx) ∨
    (∃ ctx, i = .mqdDecode ctx) ∨ ∃ n ctx, i = .mqdDecodeNum n ctx

theorem mem_passParts {k : Part} {dir : Dir} :
    k ∈ passParts dir ↔
      k ∈ [Part.first, .significant, .coded, .registers, .session, .probability] ∨
        dir = .decode ∧ k ∈ [Part.freeBits, .memory] := by
  cases dir <;> simp [passParts, decisionParts, or_assoc]

theorem mem_blockParts {k : Part} {dir : Dir} :
    k ∈ blockParts dir ↔ k = .sigReset ∨ k = .plane ∨ k ∈ passParts dir := by
  simp [blockParts]

section Writers

variable {i : Instr}

theorem writer_config (h : Writes i [.config]) : ∃ reg val, i = .cfgSet reg val := by
  cases i <;> simp_all [Writes, footprint, mem_passParts, mem_blockParts]

theorem writer_probability (h : Writes i [.probability]) :
    i = .ptReset ∨ (∃ ctx m sw, i = .ptTrans ctx m sw) ∨ IsDecision i ∨ IsSequencer i := by
  cases i <;> simp_all [Writes, footprint, IsDecision, IsSequencer]

theorem writer_sigReset (h : Writes i [.sigReset]) :
    i = .sigReset ∨ i = .ebEncode ∨ i = .ebDecode := by
  cases i <;> simp_all [Writes, footprint, mem_passParts]

theorem writer_significance (h : Writes i [.sigReset, .first, .significant]) :
    i = .sigReset ∨ (∃ r c, i = .sigRefCtx r c) ∨ (∃ r c neg, i = .sigSetSig r c neg) ∨
      IsSequencer i := by
  cases i <;> simp_all [Writes, footprint, IsSequencer]

theorem writer_plane (h : Writes i [.plane]) :
    (∃ p, i = .bpNewPlane p) ∨ i = .ebEncode ∨ i = .ebDecode := by
  cases i <;> simp_all [Writes, footprint, mem_passParts]

theorem writer_coded (h : Writes i [.plane, .coded]) :
    (∃ p, i = .bpNewPlane p) ∨ (∃ p r c, i = .bpMarkCoded p r c) ∨ IsSequencer i := by
  cases i <;> simp_all [Writes, footprint, IsSequencer]

theorem writer_registers (h : Writes i [.registers]) :
    i = .mqeInit ∨ i = .mqeFlush ∨ i = .mqdInit ∨ i = .mqdSkipEnd ∨ IsDecision i ∨
      IsSequencer i := by
  cases i <;> simp_all [Writes, footprint, IsDecision, IsSequencer]

theorem writer_freeBits (h : Writes i [.freeBits]) :
    (∃ ctx, i = .mqdDecode ctx) ∨ (∃ n ctx, i = .mqdDecodeNum n ctx) ∨ i = .ebDecode ∨
      ∃ p, i = .ebSigPass .decode p ∨ i = .ebRefPass .decode p ∨ i = .ebCleanup .decode p := by
  cases i <;> simp_all [Writes, footprint, mem_passParts, mem_blockParts]

end Writers

/-- Settles O58: a part of the state that a command changed is in its footprint, and the commands with
a part in their footprint are the ones named. -/
theorem unitsTouchOnlyTheirState : Obligations.UnitsTouchOnlyTheirState := by
  intro i s t h
  obtain ⟨hparams, hfails, hq, hforeign, hfree⟩ := exec_hostEq h
  refine ⟨(exec_frame State.cfg h (fun _ _ _ => rfl) Update.cfg_eq).imp_right writer_config,
    (exec_frame State.pt h (fun _ _ _ => rfl) Update.pt_eq).imp_right writer_probability,
    (exec_frame State.sig h (fun _ _ _ => rfl) Update.sig_eq).imp_right writer_significance,
    (exec_frame State.curPlane h (fun _ _ _ => rfl) Update.curPlane_eq).imp_right writer_plane,
    (exec_frame State.coded h (fun _ _ _ => rfl) Update.coded_eq).imp_right writer_coded,
    (exec_frame State.coder h (fun _ _ _ => rfl) Update.coder_eq).imp_right writer_registers,
    hparams, hfails, hq, hforeign, ?_⟩
  cases hin : s.inForeign with
  | false => exact .inl (hfree hin)
  | true =>
    exact (exec_frame State.freeBits h (fun _ _ _ => rfl) Update.freeBits_eq).imp_right
      fun hw => ⟨rfl, writer_freeBits hw⟩

end Sys2Proof.Machine
end

section
/-! PROOF. The cached sums (10_state.md R32): one coefficient becoming significant adds 1 to the sums of
exactly its neighbours, so that every step keeps the sums equal to the counts. -/

namespace Sys2Proof.Machine

open Sys2Proof.Safety

theorem nodup_dNbrs (h w r c : Nat) : (dNbrs h w r c).Nodup := by
  simp only [dNbrs, vNbrs, hNbrs]
  by_cases hc : 1 ≤ c <;> by_cases hw : c + 1 < w <;> split_ifs <;> simp [hc, hw]

/-- The width of a block fits the stride of `cellIndex`. -/
theorem State.W_lt (s : State) : s.W < 2048 := s.cfg.w.isLt

/-- In a list of distinct positions with columns below 2048, the index of a position stands once or
not at all. -/
theorem countP_cellIndex {ps : List (Nat × Nat)} {r c : Nat} (hps : ps.Nodup)
    (hcol : ∀ p ∈ ps, p.2 < 2048) (hc : c < 2048) :
    (ps.countP fun p => cellIndex p.1 p.2 == cellIndex r c) = if (r, c) ∈ ps then 1 else 0 := by
  rw [← hps.count, List.count]
  refine List.countP_congr fun p hp => ?_
  simp [cellIndex_inj (hcol p hp) hc, Prod.ext_iff]

theorem sigCount_inside {s : State} {r c : Nat} (hr : (r : Int) < s.H) (hc : (c : Int) < s.W) :
    sigCount s r c = if sigstAt s.sig r c ≠ .insignificant then 1 else 0 := by
  simp [sigCount, hr, hc]

theorem sigCount_outside {s : State} {r c : Int}
    (h : ¬ (0 ≤ r ∧ r < s.H ∧ 0 ≤ c ∧ c < s.W)) : sigCount s r c = 0 :=
  if_neg fun ⟨hr, hr', hc, hc', _⟩ => h ⟨hr, hr', hc, hc'⟩

section Mark

variable {s : State} {r₀ c₀ : Nat} (neg : Bool) (hr₀ : r₀ < s.H) (hc₀ : c₀ < s.W)
include hc₀

/-- The state of every coefficient after one has become significant. -/
theorem sigstAt_markSignificant {r c : Nat} (hc : c < s.W) :
    sigstAt (markSignificant s.H s.W r₀ c₀ neg s.sig) r c
      = if r = r₀ ∧ c = c₀ then sigOf neg else sigstAt s.sig r c := by
  have := s.W_lt
  simp only [sigstAt, markSignificant, cellsGet_cellsSet,
    cellIndex_inj (show c < 2048 by omega) (show c₀ < 2048 by omega)]

theorem sumHAt_markSignificant {r c : Nat} (hc : c < s.W) :
    sumHAt (markSignificant s.H s.W r₀ c₀ neg s.sig) r c
      = sumHAt s.sig r c + if r = r₀ ∧ (c + 1 = c₀ ∨ c = c₀ + 1) then 1 else 0 := by
  have := s.W_lt
  simp only [sumHAt, markSignificant, cellsGet_bumpAll]
  rw [countP_cellIndex (nodup_hNbrs ..) (fun p hp => ?_) (by omega)]
  · simp [mem_hNbrs hc₀, hc]
  · obtain ⟨-, -, hcol⟩ := (mem_hNbrs hc₀).mp hp
    omega

include hr₀

theorem sumVAt_markSignificant {r c : Nat} (hr : r < s.H) (hc : c < s.W) :
    sumVAt (markSignificant s.H s.W r₀ c₀ neg s.sig) r c
      = sumVAt s.sig r c + if (r + 1 = r₀ ∨ r = r₀ + 1) ∧ c = c₀ then 1 else 0 := by
  have := s.W_lt
  simp only [sumVAt, markSignificant, cellsGet_bumpAll]
  rw [countP_cellIndex (nodup_vNbrs ..) (fun p hp => ?_) (by omega)]
  · simp [mem_vNbrs hr₀, hr]
  · obtain ⟨-, -, hcol⟩ := (mem_vNbrs hr₀).mp hp
    omega

theorem sumDAt_markSignificant {r c : Nat} (hr : r < s.H) (hc : c < s.W) :
    sumDAt (markSignificant s.H s.W r₀ c₀ neg s.sig) r c
      = sumDAt s.sig r c
        + if (r + 1 = r₀ ∨ r = r₀ + 1) ∧ (c + 1 = c₀ ∨ c = c₀ + 1) then 1 else 0 := by
  have := s.W_lt
  simp only [sumDAt, markSignificant, cellsGet_bumpAll]
  rw [countP_cellIndex (nodup_dNbrs ..) (fun p hp => ?_) (by omega)]
  · simp [mem_dNbrs hr₀ hc₀, hr, hc]
  · obtain ⟨-, -, -, hcol⟩ := (mem_dNbrs hr₀ hc₀).mp hp
    omega

/-- The count at the coefficient that becomes significant goes from 0 to 1, every other stays. -/
theorem sigCount_markSignificant (hs : isSignificant s.sig r₀ c₀ = false) (r c : Int) :
    sigCount { s with sig := markSignificant s.H s.W r₀ c₀ neg s.sig } r c
      = sigCount s r c + if r = r₀ ∧ c = c₀ then 1 else 0 := by
  set t : State := { s with sig := markSignificant s.H s.W r₀ c₀ neg s.sig }
  by_cases hin : 0 ≤ r ∧ r < s.H ∧ 0 ≤ c ∧ c < s.W
  · obtain ⟨hr, hr', hc, hc'⟩ := hin
    lift r to Nat using hr
    lift c to Nat using hc
    have hn : sigOf neg ≠ .insignificant := by cases neg <;> decide
    have hst : sigstAt t.sig r c = _ := sigstAt_markSignificant neg hc₀ (Int.ofNat_lt.mp hc')
    rw [sigCount_inside (s := t) hr' hc', sigCount_inside hr' hc', hst]
    by_cases heq : r = r₀ ∧ c = c₀
    · obtain ⟨rfl, rfl⟩ := heq
      simpa [hn, isSignificant] using hs
    · simp [heq]
  · have hne : ¬ (r = r₀ ∧ c = c₀) := by omega
    rw [sigCount_outside (s := t) hin, sigCount_outside hin, if_neg hne]

end Mark

/-- `SIG.SETSIG` keeps the sums equal to the counts: both sides grow by 1 at the same places. -/
theorem sumsMatch_markSignificant {s : State} {r₀ c₀ : Nat} (neg : Bool) (hr₀ : r₀ < s.H)
    (hc₀ : c₀ < s.W) (hs : isSignificant s.sig r₀ c₀ = false) (h : SumsMatch s) :
    SumsMatch { s with sig := markSignificant s.H s.W r₀ c₀ neg s.sig } := by
  intro hv r c hr hc
  obtain ⟨hH, hV, hD⟩ := h hv r c hr hc
  have count := sigCount_markSignificant neg hr₀ hc₀ hs
  refine ⟨?_, ?_, ?_⟩
  · rw [sumHAt_markSignificant neg hc₀ hc, hH, count, count]
    split_ifs <;> omega
  · rw [sumVAt_markSignificant neg hr₀ hc₀ hr hc, hV, count, count]
    split_ifs <;> omega
  · rw [sumDAt_markSignificant neg hr₀ hc₀ hr hc, hD, count, count, count, count]
    split_ifs <;> omega

theorem sumsMatch_of_invalid {s : State} (h : s.status.sigValid = false) : SumsMatch s := by
  intro hv
  rw [h] at hv
  contradiction

/-- The sums and counts are read off the configuration and four arrays of the table; with the same of
these they still match. -/
theorem sumsMatch_congr {s t : State} (hv : t.status.sigValid = s.status.sigValid)
    (hcfg : t.cfg = s.cfg) (hst : t.sig.sigst = s.sig.sigst) (hH : t.sig.sumH = s.sig.sumH)
    (hV : t.sig.sumV = s.sig.sumV) (hD : t.sig.sumD = s.sig.sumD) (h : SumsMatch s) :
    SumsMatch t := by
  have hcount (r c : Int) : sigCount t r c = sigCount s r c :=
    if_congr (by simp only [sigstAt, State.H, State.W, hcfg, hst]) rfl rfl
  simpa only [SumsMatch, hcount, sumHAt, sumVAt, sumDAt, State.H, State.W, hv, hcfg, hH, hV, hD]
    using h

/-- An empty table holds no significant coefficient, and sums 0. -/
theorem sumsMatch_empty {s : State} (h : s.sig = .empty) : SumsMatch s := by
  intro _ r c _ _
  simp [h, SigTable.empty, sumHAt, sumVAt, sumDAt, sigCount, sigstAt]

theorem sumsMatch_update {k : Part} {s t : State} (u : Update k s t) (h : SumsMatch s) :
    SumsMatch t := by
  cases u with
  | sigReset => exact sumsMatch_empty rfl
  | markSignificant _ r c neg hr hc hs => exact sumsMatch_markSignificant neg hr hc hs h
  | config => exact sumsMatch_of_invalid rfl
  | _ => exact sumsMatch_congr rfl rfl rfl rfl rfl rfl h

/-- A failure clears `SIG_VALID`; the other ways to end leave it and the table. -/
theorem sumsMatch_endKeeps : EndKeeps fun s t => SumsMatch s → SumsMatch t where
  respond := fun _ _ _ => sumsMatch_congr rfl rfl rfl rfl rfl rfl
  protocolFault := fun _ _ => sumsMatch_congr rfl rfl rfl rfl rfl rfl
  decodeFailure := fun _ _ _ => sumsMatch_of_invalid rfl
  ioFailure := fun _ _ => sumsMatch_of_invalid rfl

theorem sumsMatch_stepKeeps : StepKeeps fun s t => SumsMatch s → SumsMatch t :=
  { commandKeeps_of_updates (chains_preserves SumsMatch) (fun _ _ _ => sumsMatch_update)
      sumsMatch_endKeeps with
    pop := fun _ _ => sumsMatch_congr rfl rfl rfl rfl rfl rfl
    reset := fun _ _ => sumsMatch_of_invalid rfl
    writeMem := fun _ _ _ => sumsMatch_congr rfl rfl rfl rfl rfl rfl
    setIn := fun _ _ _ _ => sumsMatch_congr rfl rfl rfl rfl rfl rfl
    drainOut := fun _ _ => sumsMatch_congr rfl rfl rfl rfl rfl rfl
    setOut := fun _ _ => sumsMatch_congr rfl rfl rfl rfl rfl rfl }

/-- Settles O23: every update of the state keeps the sums equal to the counts; the one that changes
both is `SIG.SETSIG`'s. -/
theorem cachedSumsMatchNeighbours : Obligations.CachedSumsMatchNeighbours :=
  fun _ _ hs h => sumsMatch_stepKeeps.step h hs

end Sys2Proof.Machine
end

section
/-! PROOF. Reset, the sticky fault, and how a command ends (10_state.md R39, R40; 60_exceptions.md R315,
R317; 70_reset_and_hazards.md R340). -/

namespace Sys2Proof.Machine

open Sys2Proof.Safety

/-! ### The sticky fault -/

/-- `FAULT`, once 1, stays 1 and keeps its code. -/
def FaultStays (s t : State) : Prop :=
  s.status.fault = true → t.status.fault = true ∧ t.status.faultCode = s.status.faultCode

theorem faultStays_of_status {s t : State} (hf : t.status.fault = s.status.fault)
    (hc : t.status.faultCode = s.status.faultCode) : FaultStays s t := fun h => ⟨hf.trans h, hc⟩

theorem faultStays_chains : Chains FaultStays where
  refl := fun _ => faultStays_of_status rfl rfl
  trans := fun h k hs => by
    obtain ⟨hf, hc⟩ := h hs
    obtain ⟨kf, kc⟩ := k hf
    exact ⟨kf, kc.trans hc⟩

theorem faultStays_update {k : Part} {s t : State} (u : Update k s t) : FaultStays s t := by
  cases u <;> exact faultStays_of_status rfl rfl

theorem faultStays_endKeeps : EndKeeps FaultStays where
  respond := fun _ _ _ => faultStays_of_status rfl rfl
  protocolFault := fun _ _ hs => ⟨rfl, if_pos hs⟩
  decodeFailure := fun _ _ => faultStays_of_status rfl rfl
  ioFailure := fun _ => faultStays_of_status rfl rfl

theorem faultStays_commandKeeps : CommandKeeps FaultStays :=
  commandKeeps_of_updates faultStays_chains (fun _ _ _ => faultStays_update) faultStays_endKeeps

/-- Running a command word, legal or not, keeps what every command keeps. -/
theorem runWord_keeps {R : State → State → Prop} (K : CommandKeeps R) {w : Word} {s t : State}
    (h : runWord w s = .next t) : R s t := by
  unfold runWord at h
  split at h
  · exact K.exec h
  · cases h
    exact K.toAnswerKeeps.illegalWord w s

/-- The host's own actions but the reset input leave `STATUS`. -/
theorem hostAct_status {e : HostEvent} (he : e ≠ .hardReset) (s : State) :
    (hostAct e s).status = s.status := by
  cases e with
  | hardReset => exact absurd rfl he
  | _ => rfl

/-- Every step but the reset input keeps the fault. -/
theorem step_faultStays {s t : State} (hq : ∀ rest, s.hostq ≠ .hardReset :: rest)
    (h : step s = .next t) : FaultStays s t := by
  cases hs : s.hostq with
  | nil =>
    rw [step_of_hostq_nil hs] at h
    cases h
    exact faultStays_chains.refl s
  | cons e rest =>
    by_cases he : ∃ w, e = .command w
    · obtain ⟨w, rfl⟩ := he
      rw [step_of_command hs] at h
      have hpop : FaultStays s (popHost rest s) := faultStays_of_status rfl rfl
      exact faultStays_chains.trans hpop (runWord_keeps faultStays_commandKeeps h)
    · rw [step_of_hostAct hs fun w hw => he ⟨w, hw⟩] at h
      cases h
      have hst := hostAct_status (fun hr => hq rest (hr ▸ hs)) (popHost rest s)
      exact faultStays_of_status (congrArg Status.fault hst) (congrArg Status.faultCode hst)

/-- With the height 0 there is no block (10_state.md R21). -/
theorem geomOK_of_cfg_reset {s : State} (h : s.cfg = .reset) : geomOK s = false := by
  simp [geomOK, State.H, h, CfgRegs.reset]

theorem statusNat_reset : statusNat .reset = 0 := by decide

/-- Settles O6: the reset input writes the reset values; the fault is kept by every update of an
operation, by every end of a command and by every other action of the host. -/
theorem hardResetAndStickyFault : Obligations.HardResetAndStickyFault := by
  refine ⟨fun s rest hq => ?_, fun s t hf hq h => step_faultStays hq h hf⟩
  exact ⟨hardReset (popHost rest s), step_of_hostAct hq (by simp), rfl, rfl, statusNat_reset,
    geomOK_of_cfg_reset rfl, rfl, rfl, rfl, rfl⟩

/-! ### How a command ends -/

/-- A response of a DecodeFailure comes from an operation that raised it. -/
theorem settle_decodeFailure {op : Op Word} {s : State} {p : Word}
    (h : (settle op s).resp = some ⟨.decodeFailure, p⟩) :
    ∃ code u, op s = .error (.decodeFailure code) u ∧ settle op s = takeDecodeFailure code u ∧
      p = BitVec.ofNat 32 (decFailNat code) := by
  unfold settle at h ⊢
  cases hop : op s with
  | ok q u => simp [hop] at h
  | error e u =>
    rw [hop] at h
    cases e with
    | decodeFailure code =>
      simp only [takeRaise, takeDecodeFailure, respond_fields, Option.some.injEq,
        Response.mk.injEq] at h
      exact ⟨code, u, rfl, rfl, h.2.symm⟩
    | _ => simp [takeRaise, takeProtocolFault, takeIoFailure] at h

/-- A response of an IOFailure comes from an operation that raised it. -/
theorem settle_ioFailure {op : Op Word} {s : State} {p : Word}
    (h : (settle op s).resp = some ⟨.ioFailure, p⟩) :
    ∃ u, op s = .error .ioFailure u ∧ settle op s = takeIoFailure u ∧ p = 0 := by
  unfold settle at h ⊢
  cases hop : op s with
  | ok q u => simp [hop] at h
  | error e u =>
    rw [hop] at h
    cases e with
    | ioFailure =>
      simp only [takeRaise, takeIoFailure, respond_fields, Option.some.injEq,
        Response.mk.injEq] at h
      exact ⟨u, rfl, rfl, h.2.symm⟩
    | _ => simp [takeRaise, takeProtocolFault, takeDecodeFailure] at h

/-- `CFG.SET` raises ProtocolFaults only. -/
theorem cfgSet_error {reg val : Nat} {s u : State} {e : Raise}
    (h : opOf (.cfgSet reg val) s = .error e u) : ∃ code, e = .protocolFault code := by
  simp only [opOf, cfgSet, run_bind, run_requireIdle, run_require] at h
  split_ifs at h <;> simp at h <;> exact ⟨_, h.1.symm⟩

/-- `FAULT` and the configuration are as they were. -/
def FaultCfgEq (s t : State) : Prop := t.status.fault = s.status.fault ∧ t.cfg = s.cfg

theorem faultCfgEq_chains : Chains FaultCfgEq where
  refl := fun _ => ⟨rfl, rfl⟩
  trans := by
    rintro s t u ⟨hf, hc⟩ ⟨kf, kc⟩
    exact ⟨kf.trans hf, kc.trans hc⟩

/-- No update of an operation writes `FAULT`. -/
theorem Update.fault_eq {k : Part} {s t : State} (u : Update k s t) :
    t.status.fault = s.status.fault := by
  cases u <;> rfl

/-- An operation that raises anything but a ProtocolFault has left `FAULT` and the configuration. -/
theorem opOf_error {i : Instr} {s u : State} {e : Raise} (he : ∀ code, e ≠ .protocolFault code)
    (h : opOf i s = .error e u) : FaultCfgEq s u := by
  have hi : ¬ Writes i [.config] := fun hw => by
    obtain ⟨reg, val, rfl⟩ := writer_config hw
    obtain ⟨code, rfl⟩ := cfgSet_error h
    exact he code rfl
  have K : PartsKeep (footprint i) FaultCfgEq := ⟨faultCfgEq_chains, fun k hk _ _ v =>
    ⟨v.fault_eq, v.cfg_eq fun hc => hi ⟨k, hc, hk⟩⟩⟩
  have hs := opOf_keeps K s
  rwa [h] at hs

/-- Settles O10: the failure's response shows what the operation raised; up to there it has left
`FAULT` and the configuration, and taking the failure does the rest. -/
theorem failureEndsSession : Obligations.FailureEndsSession := by
  intro i s t payload hf h
  obtain rfl := exec_of_noFault hf h
  refine ⟨fun hr => ?_, fun hr => ?_⟩
  · obtain ⟨code, u, hop, ht, rfl⟩ := settle_decodeFailure hr
    obtain ⟨hfault, hcfg⟩ := opOf_error (by simp) hop
    rw [ht]
    cases code <;>
      exact ⟨by decide, rfl, rfl, rfl, rfl, rfl, hfault.trans hf, hcfg⟩
  · obtain ⟨u, hop, ht, rfl⟩ := settle_ioFailure hr
    obtain ⟨hfault, hcfg⟩ := opOf_error (by simp) hop
    rw [ht]
    exact ⟨rfl, rfl, rfl, rfl, rfl, rfl, hfault.trans hf, hcfg⟩

end Sys2Proof.Machine
end

section
/-! PROOF. The canonical form of the sparse arrays, and significance that only grows (10_state.md R31,
R34; 20_memory.md R60). -/

namespace Sys2Proof.Machine

open Sys2Proof.Safety

/-! ### The canonical form -/

theorem cellsWf_bumpAll (ps : List (Nat × Nat)) {m : Cells Nat} (h : cellsWf 0 m = true) :
    cellsWf 0 (bumpAll ps m) = true := by
  induction ps generalizing m with
  | nil => exact h
  | cons p ps ih => exact ih (cellsWf_cellsSet _ _ h)

theorem canonical_update {k : Part} {s t : State} (u : Update k s t) (h : Canonical s) :
    Canonical t := by
  obtain ⟨hmem, hst, hfirst, hH, hV, hD, hcoded⟩ := h
  cases u with
  | sigReset => exact ⟨hmem, rfl, rfl, rfl, rfl, rfl, hcoded⟩
  | consumeFirst _ r c =>
    exact ⟨hmem, hst, cellsWf_cellsSet (cellIndex r c) false hfirst, hH, hV, hD, hcoded⟩
  | markSignificant _ r c neg =>
    exact ⟨hmem, cellsWf_cellsSet (cellIndex r c) (sigOf neg) hst, hfirst, cellsWf_bumpAll _ hH,
      cellsWf_bumpAll _ hV, cellsWf_bumpAll _ hD, hcoded⟩
  | newPlane => exact ⟨hmem, hst, hfirst, hH, hV, hD, rfl⟩
  | markCoded _ r c =>
    exact ⟨hmem, hst, hfirst, hH, hV, hD, cellsWf_cellsSet (cellIndex r c) true hcoded⟩
  | word => exact ⟨memory_wf_setWord _ _ hmem, hst, hfirst, hH, hV, hD, hcoded⟩
  | _ => exact ⟨hmem, hst, hfirst, hH, hV, hD, hcoded⟩

theorem canonical_stepKeeps : StepKeeps fun s t => Canonical s → Canonical t :=
  { commandKeeps_of_updates (chains_preserves Canonical) (fun _ _ _ => canonical_update)
      (EndKeeps.of_status_resp fun _ _ _ h => h) with
    pop := fun _ _ h => h
    reset := fun _ h => ⟨h.1, rfl, rfl, rfl, rfl, rfl, rfl⟩
    writeMem := fun _ addr v => canonical_update (.word _ addr v)
    setIn := fun _ _ _ _ h => h
    drainOut := fun _ _ h => h
    setOut := fun _ _ h => h }

/-- Settles O59: every update of a sparse array is a write of a cell or empties it. -/
theorem canonicalArraysKept : Obligations.CanonicalArraysKept :=
  fun _ _ hs h => canonical_stepKeeps.step h hs

/-! ### Significance only grows -/

/-- Every significant coefficient has the state it had. -/
def SignificantStay (s t : State) : Prop :=
  ∀ r c, sigstAt s.sig r c ≠ .insignificant → sigstAt t.sig r c = sigstAt s.sig r c

theorem significantStay_of_sigst {s t : State} (h : t.sig.sigst = s.sig.sigst) :
    SignificantStay s t := fun r c _ => by rw [sigstAt, h, sigstAt]

theorem significantStay_chains : Chains SignificantStay where
  refl := fun _ => significantStay_of_sigst rfl
  trans := fun h k r c hs => (k r c ((h r c hs).symm ▸ hs)).trans (h r c hs)

/-- `SIG.SETSIG` writes the state of a coefficient that is not significant. -/
theorem significantStay_update {k : Part} (hk : k ≠ .sigReset) {s t : State} (u : Update k s t) :
    SignificantStay s t := by
  cases u with
  | sigReset => exact absurd rfl hk
  | markSignificant _ r₀ c₀ neg _ _ hs =>
    intro r c hrc
    have hne : cellIndex r c ≠ cellIndex r₀ c₀ := fun he => by
      simp [isSignificant, sigstAt, ← he] at hs
      exact hrc hs
    simp [sigstAt, markSignificant, hne]
  | _ => exact significantStay_of_sigst rfl

/-- Settles O24: of the updates only `SIG.RESET`'s takes significance back, and no other command but
the two that begin a block makes it. -/
theorem significanceIsMonotonic : Obligations.SignificanceIsMonotonic := by
  intro i s t h hr he hd
  have hw : ¬ Writes i [.sigReset] := fun hw => by
    obtain hi | hi | hi := writer_sigReset hw
    exacts [hr hi, he hi, hd hi]
  have K : PartsKeep (footprint i) SignificantStay := ⟨significantStay_chains, fun k hk _ _ =>
    significantStay_update fun e => hw ⟨k, List.mem_singleton.mpr e, hk⟩⟩
  exact exec_keeps K (EndKeeps.of_status_resp fun _ _ _ => significantStay_of_sigst rfl) h

end Sys2Proof.Machine
end

section
/-! PROOF. What `CFG.GET` answers (46_config_ops.md R301), the numbers of `STATUS` (10_state.md R22), and
the state after reset (10_state.md R39). -/

namespace Sys2Proof.Machine

open Sys2Proof.Safety

/-! ### The fields of `STATUS` -/

theorem boolNat_le (b : Bool) : boolNat b ≤ 1 := by cases b <;> decide

theorem mqModeNat_le (m : MqMode) : mqModeNat m ≤ 2 := by cases m <;> decide

theorem faultCodeField_le (code : Option FaultCode) : faultCodeField code ≤ 11 := by
  cases code with
  | none => decide
  | some code => cases code <;> decide

theorem decFailField_le (code : Option DecFail) : decFailField code ≤ 2 := by
  cases code with
  | none => decide
  | some code => cases code <;> decide

/-- A bit of a number is the bool whose number it is. -/
theorem bitField_eq {w k : Nat} {b : Bool} (h : w / 2 ^ k % 2 = boolNat b) : bitField w k = b := by
  rw [bitField, h]
  cases b <;> rfl

/-- Each field of `STATUS` stands at its place, since none overflows its width. -/
theorem statusNat_fields (st : Status) :
    field (statusNat st) 1 0 = mqModeNat st.mqMode ∧
    bitField (statusNat st) 2 = st.ptValid ∧ bitField (statusNat st) 3 = st.sigValid ∧
    bitField (statusNat st) 4 = st.planeLive ∧ bitField (statusNat st) 5 = st.fault ∧
    field (statusNat st) 9 6 = faultCodeField st.faultCode ∧
    field (statusNat st) 11 10 = decFailField st.decFail ∧
    bitField (statusNat st) 12 = st.ioFail ∧ statusNat st < 2 ^ 13 := by
  have hm := mqModeNat_le st.mqMode
  have hp := boolNat_le st.ptValid
  have hs := boolNat_le st.sigValid
  have hl := boolNat_le st.planeLive
  have hf := boolNat_le st.fault
  have hc := faultCodeField_le st.faultCode
  have hd := decFailField_le st.decFail
  have hi := boolNat_le st.ioFail
  refine ⟨?_, bitField_eq ?_, bitField_eq ?_, bitField_eq ?_, bitField_eq ?_, ?_, ?_, bitField_eq ?_,
    ?_⟩ <;> simp only [field, statusNat] <;> omega

/-! ### What `CFG.GET` answers -/

theorem execCfgGet_ok {reg : Nat} {s : State} {p : Word} (h : cfgGet reg s = .ok p s) :
    exec (.cfgGet reg) s = okNext p s := by
  rw [exec_cfgGet, settle, h]
  rfl

theorem execCfgGet_error {reg : Nat} {s : State} {code : FaultCode}
    (h : cfgGet reg s = .error (.protocolFault code) s) :
    exec (.cfgGet reg) s = .next (takeProtocolFault code s) := by
  rw [exec_cfgGet, settle, h]
  rfl

/-- Everything `CFG.GET` does (46_config_ops.md R301). -/
theorem run_cfgGet (reg : Nat) (s : State) : cfgGet reg s =
    if reg ≤ 6 then .ok (BitVec.ofNat 32 (cfgRegNat reg s.cfg)) s
    else if reg = 7 then .ok (BitVec.ofNat 32 (statusNat s.status)) s
    else if reg ≤ 12 then
      if s.status.mqMode ≠ .idle then .ok (coderRegWord reg s.coder) s
      else .error (.protocolFault .notStarted) s
    else if reg = 13 then
      if s.status.planeLive = true then .ok (s.curPlane.setWidth 32) s
      else .error (.protocolFault .notInitialised) s
    else if reg = 14 then .ok (BitVec.ofNat 32 s.rp) s
    else if reg = 15 then .ok (BitVec.ofNat 32 s.out.length) s
    else if reg ≤ 34 then
      if s.status.ptValid = true then .ok (ptRegWord (ptAt s (reg - 16))) s
      else .error (.protocolFault .notInitialised) s
    else .error (.protocolFault .badOperand) s := by
  simp only [cfgGet, run_bind, run_getS]
  split_ifs <;> simp_all [run_bind, outLen]

theorem ptAt_of_getElem? {s : State} {ctx : Nat} {e : PtEntry} (h : s.pt[ctx]? = some e) :
    ctx < 19 ∧ ptAt s ctx = e := by
  obtain ⟨hlt, rfl⟩ := Vector.getElem?_eq_some_iff.mp h
  exact ⟨hlt, dif_pos hlt⟩

/-- The configuration registers are read as their bits, the sub-band as its id (30_encoding.md R91). -/
theorem execCfgGet_config (s : State) :
    exec (.cfgGet 0) s = okNext (s.cfg.h.setWidth 32) s ∧
    exec (.cfgGet 1) s = okNext (s.cfg.w.setWidth 32) s ∧
    exec (.cfgGet 2) s = okNext (s.cfg.d.setWidth 32) s ∧
    exec (.cfgGet 3) s = okNext (BitVec.ofNat 32 (subBandId s.cfg.sb)) s ∧
    exec (.cfgGet 4) s = okNext (s.cfg.rowOff.setWidth 32) s ∧
    exec (.cfgGet 5) s = okNext (s.cfg.colOff.setWidth 32) s ∧
    exec (.cfgGet 6) s = okNext (s.cfg.stride.setWidth 32) s := by
  refine ⟨?_, ?_, ?_, ?_, ?_, ?_, ?_⟩ <;>
    exact execCfgGet_ok (by simp [run_cfgGet, cfgRegNat])

/-- The coder registers are read in a session only. -/
theorem execCfgGet_coder {s : State} {reg : Nat} (h8 : 8 ≤ reg) (h12 : reg ≤ 12) :
    (s.status.mqMode ≠ .idle → exec (.cfgGet reg) s = okNext (coderRegWord reg s.coder) s) ∧
    (s.status.mqMode = .idle → exec (.cfgGet reg) s = .next (takeProtocolFault .notStarted s)) := by
  have h6 : ¬ reg ≤ 6 := by omega
  have h7 : reg ≠ 7 := by omega
  exact ⟨fun h => execCfgGet_ok (by simp [run_cfgGet, h6, h7, h12, h]),
    fun h => execCfgGet_error (by simp [run_cfgGet, h6, h7, h12, h])⟩

/-- The probability state is read while it is valid only. -/
theorem execCfgGet_pt {s : State} {ctx : Nat} {e : PtEntry} (he : s.pt[ctx]? = some e) :
    (s.status.ptValid = true → exec (.cfgGet (16 + ctx)) s
      = okNext (BitVec.ofNat 32 (e.idx.val + if e.mps then 64 else 0)) s) ∧
    (s.status.ptValid = false →
      exec (.cfgGet (16 + ctx)) s = .next (takeProtocolFault .notInitialised s)) := by
  obtain ⟨hctx, hat⟩ := ptAt_of_getElem? he
  have hw : ptRegWord e = BitVec.ofNat 32 (e.idx.val + if e.mps then 64 else 0) := by
    unfold ptRegWord
    cases e.mps <;> rfl
  have run : cfgGet (16 + ctx) s = if s.status.ptValid = true then .ok (ptRegWord e) s
      else .error (.protocolFault .notInitialised) s := by
    rw [run_cfgGet, if_neg (by omega), if_neg (by omega), if_neg (by omega), if_neg (by omega),
      if_neg (by omega), if_neg (by omega), if_pos (by omega), Nat.add_sub_cancel_left, hat]
  exact ⟨fun h => execCfgGet_ok (by rw [run, if_pos h, hw]),
    fun h => execCfgGet_error (by rw [run, if_neg (by simp [h])])⟩

/-- Settles O57: the numbers by evaluation, the fields of `STATUS` by their widths, the registers by
what `CFG.GET` does at each number. -/
theorem cfgGetReadsRegisters : Obligations.CfgGetReadsRegisters := by
  refine ⟨⟨by decide, rfl, fun _ => rfl⟩, ?_, ?_, ?_⟩
  · intro s kind payload h
    rw [responseRead, h]
    cases kind <;> rfl
  · intro st
    obtain ⟨hm, hp, hs, hl, hf, hc, hd, hi, hlt⟩ := statusNat_fields st
    refine ⟨?_, hp, hs, hl, hf, hc, ?_, hi, hlt⟩
    · rw [hm]
      cases st.mqMode <;> rfl
    · rw [hd]
      cases st.decFail with
      | none => rfl
      | some code => cases code <;> rfl
  · intro s
    obtain ⟨hh, hw, hd, hsb, hro, hco, hst⟩ := execCfgGet_config s
    have coder {reg : Nat} (h8 : 8 ≤ reg) (h12 : reg ≤ 12) (h : s.status.mqMode ≠ .idle) :=
      (execCfgGet_coder h8 h12).1 h
    refine ⟨hh, hw, hd, ?_, hro, hco, hst, execCfgGet_ok (by simp [run_cfgGet]),
      fun h => ⟨coder (by decide) (by decide) h, coder (by decide) (by decide) h,
        coder (by decide) (by decide) h, coder (by decide) (by decide) h,
        coder (by decide) (by decide) h⟩,
      fun h reg h8 h12 => (execCfgGet_coder h8 h12).2 h,
      fun h => execCfgGet_ok (by simp [run_cfgGet, h]),
      fun h => execCfgGet_error (by simp [run_cfgGet, h]),
      execCfgGet_ok (by simp [run_cfgGet]), execCfgGet_ok (by simp [run_cfgGet]),
      fun ctx e he => execCfgGet_pt he, fun reg hreg => execCfgGet_error ?_⟩
    · rw [hsb]
      cases s.cfg.sb <;> rfl
    · rw [run_cfgGet, if_neg (by omega), if_neg (by omega), if_neg (by omega), if_neg (by omega),
        if_neg (by omega), if_neg (by omega), if_neg (by omega)]

/-- Settles O60: nothing is listed and nothing valid after reset, and no session is open. -/
theorem resetMeetsInvariants : Obligations.ResetMeetsInvariants :=
  ⟨⟨memory_wf_reset, rfl, rfl, rfl, rfl, rfl, rfl⟩, sumsMatch_of_invalid rfl, nofun, nofun, nofun,
    nofun, rfl, rfl, geomOK_of_cfg_reset rfl⟩

end Sys2Proof.Machine
end

section
/-! PROOF. A property of operations that sequencing keeps, carried through the passes and the block
operations of one direction: what the property asks of the unit operations of that direction, and
nothing of the other's. -/

namespace Sys2Proof.Machine

/-- A property of operations that holds of doing nothing, and of a sequence if of each part. -/
structure OpClosed (P : (α : Type) → Op α → Prop) : Prop where
  pure : ∀ {α : Type} (a : α), P α (Pure.pure a)
  bind : ∀ {α β : Type} {x : Op α} {f : α → Op β}, P α x → (∀ a, P β (f a)) → P β (x >>= f)

namespace OpClosed

variable {P : (α : Type) → Op α → Prop}

theorem ite {α : Type} {c : Prop} [Decidable c] {x y : Op α} (hx : P α x) (hy : P α y) :
    P α (if c then x else y) := by
  split <;> assumption

variable (C : OpClosed P)
include C

theorem doIf {c : Prop} [Decidable c] {x : Op Unit} (hx : P Unit x) : P Unit (doIf c x) :=
  ite hx (C.pure ())

theorem forEach {γ : Type} {xs : List γ} {body : γ → Op Unit} (h : ∀ x, P Unit (body x)) :
    P Unit (forEach xs body) := by
  induction xs with
  | nil => exact C.pure ()
  | cons x xs ih => exact C.bind (h x) fun _ => ih

end OpClosed

/-- The operations that only an encoding pass runs have the property. -/
structure EncodeUnits (P : (α : Type) → Op α → Prop) : Prop where
  mode : P Unit (requireMode .encoding)
  label : ∀ ctx, P Unit (requirePt ctx)
  nbits : ∀ n, P Unit (requireNbits n)
  bitAt : ∀ i r c, P Bool (bpBitAt i r c)
  signAt : ∀ r c, P Bool (bpSignAt r c)
  stripFnz : ∀ i r c, P (Option Nat) (bpStripFnz i r c)
  code : ∀ b ctx, P Unit (mqeCode b ctx)

/-- The operations that only a decoding pass runs have the property. -/
structure DecodeUnits (P : (α : Type) → Op α → Prop) : Prop where
  mode : P Unit (requireMode .decoding)
  label : ∀ ctx, P Unit (requirePt ctx)
  nbits : ∀ n, P Unit (requireNbits n)
  setBit : ∀ i r c b, P Unit (bpSetBit i r c b)
  setSign : ∀ r c b, P Unit (bpSetSign r c b)
  decode : ∀ ctx, P Bool (mqdDecode ctx)

theorem EncodeUnits.codeNum {P : (α : Type) → Op α → Prop} (E : EncodeUnits P) (C : OpClosed P)
    (value nbits ctx : Nat) : P Unit (mqeCodeNum value nbits ctx) := by
  have bits (n : Nat) : P Unit (codeBits value ctx n) := by
    induction n with
    | zero => exact C.pure ()
    | succ n ih => exact C.bind (E.code _ ctx) fun _ => ih
  exact C.bind E.mode fun _ => C.bind (E.label ctx) fun _ => C.bind (E.nbits nbits) fun _ =>
    bits nbits

theorem DecodeUnits.decodeNum {P : (α : Type) → Op α → Prop} (D : DecodeUnits P) (C : OpClosed P)
    (nbits ctx : Nat) : P Nat (mqdDecodeNum nbits ctx) := by
  have bits (n v : Nat) : P Nat (decodeBits ctx n v) := by
    induction n generalizing v with
    | zero => exact C.pure v
    | succ n ih => exact C.bind (D.decode ctx) fun _ => ih _
  exact C.bind D.mode fun _ => C.bind (D.label ctx) fun _ => C.bind (D.nbits nbits) fun _ =>
    bits nbits 0

/-- A property that sequencing keeps and that the operations of a pass of the direction have. -/
structure PassClosed (dir : Dir) (P : (α : Type) → Op α → Prop) : Prop extends OpClosed P where
  /-- what a pass reads of the configuration (45_pass_sequencer.md R263) -/
  block : ∀ {β : Type} {f : Nat → Nat → SubBand → Op β}, (∀ h w sb, P β (f h w sb)) →
    P β (getS >>= fun s => f s.H s.W s.cfg.sb)
  passOk : ∀ i, P Unit (requirePass dir i)
  newPlane : ∀ i, P Unit (bpNewPlane i)
  isSig : ∀ r c, P Bool (sigIsSig r c)
  spCtx : ∀ r c sb, P Nat (sigSpCtx r c sb)
  signCtx : ∀ r c, P (Nat × Bool) (sigSignCtx r c)
  refCtx : ∀ r c, P Nat (sigRefCtx r c)
  setSig : ∀ r c neg, P Unit (sigSetSig r c neg)
  stripZ : ∀ sb r c, P Bool (sigStripZ sb r c)
  isCoded : ∀ i r c, P Bool (bpIsCoded i r c)
  markCoded : ∀ i r c, P Unit (bpMarkCoded i r c)
  stripUnc : ∀ i r c, P Bool (bpStripUnc i r c)
  encode : dir = .encode → EncodeUnits P
  decode : dir = .decode → DecodeUnits P

namespace PassClosed

variable {P : (α : Type) → Op α → Prop} {dir : Dir} (K : PassClosed dir P)
include K

theorem magStep (i r c ctx : Nat) : P Bool (magStep dir i r c ctx) := by
  cases dir with
  | encode =>
    have E := K.encode rfl
    exact K.bind (E.bitAt i r c) fun _ => K.bind (E.code _ ctx) fun _ => K.pure _
  | decode =>
    have D := K.decode rfl
    exact K.bind (D.decode ctx) fun _ => K.bind (D.setBit i r c _) fun _ => K.pure _

theorem signStep (r c : Nat) : P Unit (signStep dir r c) := by
  refine K.bind (K.signCtx r c) fun p => ?_
  cases dir with
  | encode =>
    have E := K.encode rfl
    exact K.bind (E.signAt r c) fun _ => K.bind (E.code _ _) fun _ => K.setSig r c _
  | decode =>
    have D := K.decode rfl
    exact K.bind (D.decode _) fun _ => K.bind (D.setSign r c _) fun _ => K.setSig r c _

theorem codeCoefficient (i r c ctx : Nat) : P Unit (codeCoefficient dir i r c ctx) :=
  K.bind (K.magStep i r c ctx) fun _ => K.bind (K.doIf (K.signStep r c)) fun _ => K.markCoded i r c

theorem sigVisit (i : Nat) (sb : SubBand) (p : Nat × Nat) : P Unit (sigVisit dir i sb p) :=
  K.bind (K.isSig _ _) fun _ => K.doIf <| K.bind (K.isCoded _ _ _) fun _ => K.doIf <|
    K.bind (K.spCtx _ _ _) fun _ => K.doIf (K.codeCoefficient i _ _ _)

theorem sigPass (i : Nat) : P Unit (sigPass dir i) :=
  K.bind (K.passOk i) fun _ =>
    K.block (f := fun h w sb => Machine.forEach (scanOrder h w) (Machine.sigVisit dir i sb))
      fun _ _ sb => K.forEach (K.sigVisit i sb)

theorem refVisit (i : Nat) (p : Nat × Nat) : P Unit (refVisit dir i p) :=
  K.bind (K.isSig _ _) fun _ => K.doIf <| K.bind (K.isCoded _ _ _) fun _ => K.doIf <|
    K.bind (K.refCtx _ _) fun _ => K.bind (K.magStep i _ _ _) fun _ => K.markCoded i _ _

theorem refPass (i : Nat) : P Unit (refPass dir i) :=
  K.bind (K.passOk i) fun _ =>
    K.block (f := fun h w _ => Machine.forEach (scanOrder h w) (Machine.refVisit dir i))
      fun _ _ _ => K.forEach (K.refVisit i)

theorem cleanVisit (i : Nat) (sb : SubBand) (r c : Nat) : P Unit (cleanVisit dir i sb r c) :=
  K.bind (K.isCoded _ _ _) fun _ => K.doIf <|
    K.bind (K.spCtx _ _ _) fun _ => K.codeCoefficient i r c _

theorem runLength (i r0 c : Nat) : P (Option Nat) (runLength dir i r0 c) := by
  cases dir with
  | encode =>
    have E := K.encode rfl
    refine K.bind (E.stripFnz i r0 c) fun f => K.bind (E.code _ _) fun _ => ?_
    cases f with
    | none => exact K.pure _
    | some k => exact K.bind (E.codeNum K.toOpClosed k 2 _) fun _ => K.pure _
  | decode =>
    have D := K.decode rfl
    exact K.bind (D.decode _) fun _ => OpClosed.ite
      (K.bind (D.decodeNum K.toOpClosed 2 _) fun _ => K.bind (D.setBit i _ c true) fun _ =>
        K.pure _)
      (K.pure _)

theorem runMode (i : Nat) (sb : SubBand) (r0 c : Nat) (full : Bool) :
    P Bool (runMode i sb r0 c full) :=
  OpClosed.ite
    (K.bind (K.stripUnc i r0 c) fun _ => OpClosed.ite (K.stripZ sb r0 c) (K.pure _)) (K.pure _)

theorem cleanColumn (i : Nat) (sb : SubBand) (r0 h : Nat) (full : Bool) (c : Nat) :
    P Unit (cleanColumn dir i sb r0 h full c) := by
  have rows (xs : List Nat) := K.forEach (xs := xs) fun j => K.cleanVisit i sb (r0 + j) c
  have marks (xs : List Nat) := K.forEach (xs := xs) fun j => K.markCoded i (r0 + j) c
  refine K.bind (K.runMode i sb r0 c full) fun _ =>
    OpClosed.ite (K.bind (K.runLength i r0 c) fun f => ?_) (rows _)
  cases f with
  | none => exact marks _
  | some k => exact K.bind (K.signStep _ c) fun _ => K.bind (marks _) fun _ => rows _

theorem cleanup (i : Nat) : P Unit (cleanup dir i) :=
  K.bind (K.passOk i) fun _ =>
    K.block (f := fun h w sb => Machine.forEach (strips h) fun st =>
        Machine.forEach (List.range w) fun c =>
          Machine.cleanColumn dir i sb st.1 st.2.1 st.2.2 c)
      fun _ _ sb => K.forEach fun _ => K.forEach fun c => K.cleanColumn i sb _ _ _ c

theorem planePasses (top i : Nat) : P Unit (planePasses dir top i) :=
  K.bind (K.newPlane i) fun _ =>
    K.bind (K.doIf (K.bind (K.sigPass i) fun _ => K.refPass i)) fun _ => K.cleanup i

theorem planeLoop (top n : Nat) : P Unit (planeLoop dir top n) := by
  induction n with
  | zero => exact K.pure ()
  | succ n ih => exact K.bind (K.planePasses top n) fun _ => ih

end PassClosed

/-- The encoding commands have the property: those of the coder, the passes and the block
operation. -/
structure EncodeCommands (P : (α : Type) → Op α → Prop) : Prop where
  code : ∀ b ctx, P Unit (mqeCode b ctx)
  codeNum : ∀ v n ctx, P Unit (mqeCodeNum v n ctx)
  init : P Unit mqeInit
  flush : P Unit mqeFlush
  markEnd : P Unit mqeMarkEnd
  pass : PassClosed .encode P
  block : P Unit ebEncode

/-- The decoding commands have the property. -/
structure DecodeCommands (P : (α : Type) → Op α → Prop) : Prop where
  decode : ∀ ctx, P Bool (mqdDecode ctx)
  decodeNum : ∀ n ctx, P Nat (mqdDecodeNum n ctx)
  init : P Unit mqdInit
  skipEnd : P Nat mqdSkipEnd
  pass : PassClosed .decode P
  block : P Nat ebDecode

/-- A relation that every update outside some parts keeps is kept by every update of parts outside
them. -/
theorem PartsKeep.of_outside {R : State → State → Prop} {js ks : List Part} (hR : Chains R)
    (upd : ∀ k s t, k ∉ js → Update k s t → R s t) (hks : ∀ k ∈ ks, k ∉ js) : PartsKeep ks R :=
  ⟨hR, fun k hk s t u => upd k s t (hks k hk) u⟩

section Reading

variable {P : (α : Type) → Op α → Prop} {R : State → State → Prop}
  (C : OpClosed P) (hR : Chains R) (keeps : ∀ {α : Type} {x : Op α}, Keeps R x → P α x)
  (upd : ∀ k s t, k ∉ [Part.registers, .session] → Update k s t → R s t)
include C hR keeps upd

/-- A property of operations that holds of those keeping a relation which every update outside the
coder's registers and streams keeps: it holds of the passes if of the decisions. -/
theorem PassClosed.of_keeps {dir : Dir} (hcode : dir = .encode → ∀ b ctx, P Unit (mqeCode b ctx))
    (hdecode : dir = .decode → ∀ ctx, P Bool (mqdDecode ctx)) : PassClosed dir P := by
  have reads {α : Type} {x : Op α} (h : ReadsOnly x) : P α x := keeps (h.keeps hR)
  have parts {ks : List Part} := PartsKeep.of_outside (ks := ks) hR upd
  exact
    { toOpClosed := C
      block := fun h => C.bind (keeps (.getS hR)) fun s => h s.H s.W s.cfg.sb
      passOk := fun i => reads (requirePass_readsOnly dir i)
      newPlane := fun i => keeps ((parts (by decide)).bpNewPlane i)
      isSig := fun r c => reads (sigIsSig_readsOnly r c)
      spCtx := fun r c sb => reads (sigSpCtx_readsOnly r c sb)
      signCtx := fun r c => reads (sigSignCtx_readsOnly r c)
      refCtx := fun r c => keeps ((parts (by decide)).sigRefCtx r c)
      setSig := fun r c neg => keeps ((parts (by decide)).sigSetSig r c neg)
      stripZ := fun sb r c => reads (sigStripZ_readsOnly sb r c)
      isCoded := fun i r c => reads (bpIsCoded_readsOnly i r c)
      markCoded := fun i r c => keeps ((parts (by decide)).bpMarkCoded i r c)
      stripUnc := fun i r c => reads (bpStripUnc_readsOnly i r c)
      encode := fun h =>
        { mode := reads (requireMode_readsOnly _)
          label := fun ctx => reads (requirePt_readsOnly ctx)
          nbits := fun n => reads (requireNbits_readsOnly n)
          bitAt := fun i r c => reads (bpBitAt_readsOnly i r c)
          signAt := fun r c => reads (bpSignAt_readsOnly r c)
          stripFnz := fun i r c => reads (bpStripFnz_readsOnly i r c)
          code := hcode h }
      decode := fun h =>
        { mode := reads (requireMode_readsOnly _)
          label := fun ctx => reads (requirePt_readsOnly ctx)
          nbits := fun n => reads (requireNbits_readsOnly n)
          setBit := fun i r c b => keeps ((parts (by decide)).bpSetBit i r c b)
          setSign := fun r c b => keeps ((parts (by decide)).bpSetSign r c b)
          decode := hdecode h } }

/-- Every encoding command has the property if the operations of the coder have it. -/
theorem EncodeCommands.of_keeps (hcode : ∀ b ctx, P Unit (mqeCode b ctx)) (hinit : P Unit mqeInit)
    (hflush : P Unit mqeFlush) (hmark : P Unit mqeMarkEnd) : EncodeCommands P := by
  have pass : PassClosed .encode P :=
    PassClosed.of_keeps C hR keeps upd (fun _ => hcode) (fun h => nomatch h)
  have reads {α : Type} {x : Op α} (h : ReadsOnly x) : P α x := keeps (h.keeps hR)
  have parts {ks : List Part} := PartsKeep.of_outside (ks := ks) hR upd
  exact
    { code := hcode
      codeNum := (pass.encode rfl).codeNum C
      init := hinit
      flush := hflush
      markEnd := hmark
      pass
      block := C.bind (reads requireGeom_readsOnly) fun _ =>
        C.bind (reads requireIdle_readsOnly) fun _ =>
          C.bind (keeps (parts (by decide)).ptReset) fun _ =>
            C.bind (keeps (parts (by decide)).sigReset) fun _ => C.bind hinit fun _ =>
              C.bind (keeps (.getS hR)) fun _ => C.bind (pass.planeLoop _ _) fun _ =>
                C.bind hflush fun _ => hmark }

/-- Every decoding command has the property if the operations of the coder have it. -/
theorem DecodeCommands.of_keeps (hdecode : ∀ ctx, P Bool (mqdDecode ctx)) (hinit : P Unit mqdInit)
    (hskip : P Nat mqdSkipEnd) : DecodeCommands P := by
  have pass : PassClosed .decode P :=
    PassClosed.of_keeps C hR keeps upd (fun h => nomatch h) (fun _ => hdecode)
  have reads {α : Type} {x : Op α} (h : ReadsOnly x) : P α x := keeps (h.keeps hR)
  have parts {ks : List Part} := PartsKeep.of_outside (ks := ks) hR upd
  exact
    { decode := hdecode
      decodeNum := (pass.decode rfl).decodeNum C
      init := hinit
      skipEnd := hskip
      pass
      block := C.bind (reads requireGeom_readsOnly) fun _ =>
        C.bind (reads requireIdle_readsOnly) fun _ =>
          C.bind (keeps (parts (by decide)).ptReset) fun _ =>
            C.bind (keeps (parts (by decide)).sigReset) fun _ => C.bind hinit fun _ =>
              C.bind (keeps (.getS hR)) fun _ => C.bind (pass.planeLoop _ _) fun _ => hskip }

/-- Every command's operation has the property if the coding and the decoding commands have it. -/
theorem opOf_of_commands (E : EncodeCommands P) (D : DecodeCommands P) (i : Instr) :
    P Word (opOf i) := by
  have answer {α : Type} {x : Op α} {f : α → Word} (hx : P α x) :
      P Word (do let a ← x; pure (f a)) := C.bind hx fun _ => C.pure _
  have other (h : ∀ k ∈ footprint i, k ∉ [Part.registers, .session]) : P Word (opOf i) :=
    keeps (opOf_keeps (.of_outside hR upd h))
  cases i with
  | mqeInit => exact answer E.init
  | mqeCode b ctx => exact answer (E.code b ctx)
  | mqeCodeNum v n ctx => exact answer (E.codeNum v n ctx)
  | mqeFlush => exact answer E.flush
  | mqeMarkEnd => exact answer E.markEnd
  | mqdInit => exact answer D.init
  | mqdDecode ctx => exact answer (D.decode ctx)
  | mqdDecodeNum n ctx => exact answer (D.decodeNum n ctx)
  | mqdSkipEnd => exact answer D.skipEnd
  | ebEncode => exact answer E.block
  | ebDecode => exact answer D.block
  | ebSigPass dir p =>
    cases dir with
    | encode => exact answer (E.pass.sigPass p)
    | decode => exact answer (D.pass.sigPass p)
  | ebRefPass dir p =>
    cases dir with
    | encode => exact answer (E.pass.refPass p)
    | decode => exact answer (D.pass.refPass p)
  | ebCleanup dir p =>
    cases dir with
    | encode => exact answer (E.pass.cleanup p)
    | decode => exact answer (D.pass.cleanup p)
  | _ => exact other (by simp [footprint])

end Reading

end Sys2Proof.Machine
end

section
/-! PROOF. The encoder's operations as functions of its registers: on a state they leave the
registers and append the bytes that a function of the registers says, or a port fails
(43_mq_encoder.md R202 to R206; 60_exceptions.md R313). -/

namespace Sys2Proof.Machine

open Sys2Proof.Safety

/-! ### Emitting -/

/-- The state with these coder registers and these bytes appended to `OUT`, one call for each. -/
def emit (p : Coder × List Byte) (s : State) : State :=
  { s with coder := p.1, out := s.out ++ p.2, portCalls := s.portCalls + p.2.length }

@[simp] theorem emit_nil (k : Coder) (s : State) : emit (k, []) s = { s with coder := k } := by
  simp [emit]

@[simp] theorem emit_emit (p q : Coder × List Byte) (s : State) :
    emit q (emit p s) = emit (q.1, p.2 ++ q.2) s := by
  simp [emit, Nat.add_assoc]

theorem quietPorts_emit {p : Coder × List Byte} {s : State} (h : quietPorts s) :
    quietPorts (emit p s) := quietPorts_mono h rfl (Nat.le_add_right ..)

/-- A result that is `ok` with the registers and bytes `p`, or that a failing port cut short, when
registers, bytes and calls are whatever was written up to there. -/
def Emitted (r : EStateM.Result Raise State Unit) (s : State) (p : Coder × List Byte) : Prop :=
  r = .ok () (emit p s) ∨
    ¬ quietPorts s ∧ ∃ k bs n,
      r = .error .ioFailure { s with coder := k, out := s.out ++ bs, portCalls := n }

theorem Emitted.ok {r : EStateM.Result Raise State Unit} {s : State} {p : Coder × List Byte}
    (h : Emitted r s p) (hq : quietPorts s) : r = .ok () (emit p s) :=
  h.resolve_right fun hf => hf.1 hq

/-- What an emitting operation leaves alone, however it ends. -/
theorem Emitted.rp_eq {r : EStateM.Result Raise State Unit} {s : State} {p : Coder × List Byte}
    (h : Emitted r s p) : (endState r).rp = s.rp := by
  obtain rfl | ⟨-, k, bs, n, rfl⟩ := h <;> rfl

theorem emitted_modS {f : State → State} {s : State} {k : Coder}
    (h : f s = { s with coder := k }) : Emitted (modS f s) s (k, []) :=
  .inl (by rw [run_modS, h, emit_nil])

theorem emitted_pure (s : State) : Emitted ((pure () : Op Unit) s) s (s.coder, []) :=
  .inl (by rw [emit_nil]; rfl)

/-- One operation after another: the second continues with the registers the first has left. -/
theorem Emitted.bind {x y : Op Unit} {s : State} {p q : Coder × List Byte}
    (hx : Emitted (x s) s p) (hy : Emitted (y (emit p s)) (emit p s) q) :
    Emitted ((x >>= fun _ => y) s) s (q.1, p.2 ++ q.2) := by
  obtain hx | ⟨hq, k, bs, n, hx⟩ := hx
  · rw [run_bind_ok hx]
    obtain hy | ⟨hq, k, bs, n, hy⟩ := hy
    · exact .inl (by rw [hy, emit_emit])
    · refine .inr ⟨fun h => hq (quietPorts_emit h), k, p.2 ++ bs, n, ?_⟩
      rw [hy, ← List.append_assoc]
      rfl
  · exact .inr ⟨hq, k, bs, n, run_bind_error hx⟩

/-! ### Bytes out of C -/

theorem and_lowOnes (c : BitVec 28) {n : Nat} (hn : n ≤ 28) :
    c &&& BitVec.ofNat 28 (2 ^ n - 1) = BitVec.ofNat 28 (c.toNat % 2 ^ n) := by
  have hlt : 2 ^ n - 1 < 2 ^ 28 :=
    lt_of_lt_of_le (Nat.sub_lt (Nat.two_pow_pos n) one_pos) (Nat.pow_le_pow_right (by decide) hn)
  apply BitVec.eq_of_toNat_eq
  rw [BitVec.toNat_and, BitVec.toNat_ofNat, BitVec.toNat_ofNat, Nat.mod_eq_of_lt hlt,
    Nat.and_two_pow_sub_one_eq_mod, Nat.mod_eq_of_lt (lt_of_le_of_lt (Nat.mod_le ..) c.isLt)]

theorem extractLsb'_eq_div (c : BitVec 28) (lo w : Nat) :
    c.extractLsb' lo w = BitVec.ofNat w (c.toNat / 2 ^ lo) := by
  apply BitVec.eq_of_toNat_eq
  rw [BitVec.extractLsb'_toNat, BitVec.toNat_ofNat, Nat.shiftRight_eq_div_pow]

/-- `PutByte` (43_mq_encoder.md R203). -/
theorem emitted_putByte (s : State) : Emitted (putByte s) s
    ({ s.coder with l := s.coder.l + 1 }, if 0 ≤ s.coder.l then [s.coder.t] else []) := by
  simp only [putByte, run_bind, run_getS, run_doIf]
  by_cases hl : 0 ≤ s.coder.l
  · simp only [if_pos hl, run_putOut]
    split_ifs with hf
    · refine .inr ⟨fun hq => ?_, s.coder, [], s.portCalls + 1, by simp⟩
      exact absurd (hq _ hf) (lt_irrefl _)
    · exact .inl rfl
  · simp only [if_neg hl]
    exact emitted_modS rfl

/-- The carry bit as it is added to T. -/
theorem carry_eq_div (c : BitVec 28) :
    (c.extractLsb' 27 1).setWidth 8 = BitVec.ofNat 8 (c.toNat / 2 ^ 27) := by
  have hc := c.isLt
  apply BitVec.eq_of_toNat_eq
  rw [extractLsb'_eq_div, BitVec.toNat_setWidth, BitVec.toNat_ofNat, BitVec.toNat_ofNat]
  omega

/-- The registers with the carry added to T and cleared (43_mq_encoder.md R204). -/
def carried (k : Coder) : Coder :=
  { k with
    t := k.t + BitVec.ofNat 8 (k.c.toNat / 2 ^ 27)
    c := BitVec.ofNat 28 (k.c.toNat % 2 ^ 27) }

theorem addCarry_eq (s : State) : addCarry s = { s with coder := carried s.coder } := by
  rw [carried, ← carry_eq_div, ← and_lowOnes _ (by decide)]
  rfl

theorem loadSeven_eq (s : State) : loadSeven s = { s with coder := { s.coder with
    t := BitVec.ofNat 8 (s.coder.c.toNat / 2 ^ 20)
    c := BitVec.ofNat 28 (s.coder.c.toNat % 2 ^ 20), ct := 7 } } := by
  rw [← extractLsb'_eq_div, ← and_lowOnes _ (by decide)]
  rfl

/-- Loading eight bits of a C whose carry is cleared. -/
theorem loadEight_eq {s : State} (h : s.coder.c.toNat < 2 ^ 27) :
    loadEight s = { s with coder := { s.coder with
      t := BitVec.ofNat 8 (s.coder.c.toNat / 2 ^ 19)
      c := BitVec.ofNat 28 (s.coder.c.toNat % 2 ^ 19), ct := 8 } } := by
  have hc : s.coder.c &&& ~~~(0xFF#28 <<< 19) = BitVec.ofNat 28 (s.coder.c.toNat % 2 ^ 19) := by
    have low : s.coder.c &&& 0x7FFFFFF#28 = s.coder.c := by
      rw [show 0x7FFFFFF#28 = BitVec.ofNat 28 (2 ^ 27 - 1) by decide, and_lowOnes _ (by decide),
        Nat.mod_eq_of_lt h, BitVec.ofNat_toNat, BitVec.setWidth_eq]
    have mask : 0x7FFFFFF#28 &&& ~~~(0xFF#28 <<< 19) = BitVec.ofNat 28 (2 ^ 19 - 1) := by decide
    rw [← low, BitVec.and_assoc, mask, and_lowOnes _ (by decide), low]
  rw [← extractLsb'_eq_div, ← hc]
  rfl

/-- The next byte out of C, whose carry is cleared, into T: seven bits after 0xFF, else eight
(43_mq_encoder.md R204). -/
def loaded (k : Coder) : Coder :=
  if k.t = 0xFF then
    { k with
      t := BitVec.ofNat 8 (k.c.toNat / 2 ^ 20)
      c := BitVec.ofNat 28 (k.c.toNat % 2 ^ 20)
      ct := 7 }
  else
    { k with
      t := BitVec.ofNat 8 (k.c.toNat / 2 ^ 19)
      c := BitVec.ofNat 28 (k.c.toNat % 2 ^ 19)
      ct := 8 }

theorem emitted_load {s : State} (h : s.coder.c.toNat < 2 ^ 27) :
    Emitted ((getS >>= fun s => if s.coder.t = 0xFF then modS loadSeven else modS loadEight) s) s
      (loaded s.coder, []) := by
  by_cases ht : s.coder.t = 0xFF
  · simp only [run_bind, run_getS, loaded, if_pos ht]
    exact emitted_modS (loadSeven_eq s)
  · simp only [run_bind, run_getS, loaded, if_neg ht]
    exact emitted_modS (loadEight_eq h)

theorem transferred_of_ff {k : Coder} (h : k.t = 0xFF) :
    transferred k = (loaded { k with l := k.l + 1 }, if 0 ≤ k.l then [0xFF] else []) := by
  simp [transferred, loaded, h]

theorem transferred_of_ne_ff {k : Coder} (h : k.t ≠ 0xFF) :
    transferred k = (loaded { carried k with l := k.l + 1 },
      if 0 ≤ k.l then [(carried k).t] else []) := by
  have hlow : (carried k).c.toNat = k.c.toNat % 2 ^ 27 := by
    simp only [carried, BitVec.toNat_ofNat]
    omega
  simp only [transferred, if_neg h, loaded, hlow]
  split_ifs <;> simp_all [carried]

/-- `TransferByte` (43_mq_encoder.md R204) as a function of the registers. -/
theorem emitted_transferByte (s : State) : Emitted (transferByte s) s (transferred s.coder) := by
  by_cases ht : s.coder.t = 0xFF
  · have run : transferByte s = (putByte >>= fun _ => modS loadSeven) s := by
      simp only [transferByte, run_bind, run_getS, if_pos ht]
    rw [run, transferred_of_ff ht]
    convert (emitted_putByte s).bind (emitted_modS (loadSeven_eq _)) using 1
    simp [loaded, emit, ht]
  · have run : transferByte s = (modS addCarry >>= fun _ => putByte >>= fun _ =>
        getS >>= fun s => if s.coder.t = 0xFF then modS loadSeven else modS loadEight) s := by
      simp only [transferByte, run_bind, run_getS, if_neg ht]
    have hlow : (carried s.coder).c.toNat < 2 ^ 27 := by
      simp only [carried, BitVec.toNat_ofNat]
      omega
    rw [run, transferred_of_ne_ff ht]
    convert (emitted_modS (addCarry_eq s)).bind ((emitted_putByte _).bind (emitted_load ?_)) using 1
    · simp [emit, carried]
    · exact hlow

/-! ### Renormalising, flushing, coding a decision -/

/-- A and C shifted left, CT counted down (43_mq_encoder.md R202). -/
def shiftedOnce (k : Coder) : Coder := { k with a := k.a <<< 1, c := k.c <<< 1, ct := k.ct - 1 }

/-- A doubling, and the byte transfer it ends with where CT reaches 0 (43_mq_encoder.md R202). -/
def doubled (k : Coder) : Coder × List Byte :=
  if (shiftedOnce k).ct = 0 then transferred (shiftedOnce k) else (shiftedOnce k, [])

/-- Doublings until A is at least 0x8000, at most so many (43_mq_encoder.md R202). -/
def renormed : Nat → Coder → Coder × List Byte
  | 0, k => (k, [])
  | n + 1, k =>
    if k.a < 0x8000 then
      let rest := renormed n (doubled k).1
      (rest.1, (doubled k).2 ++ rest.2)
    else (k, [])

theorem emitted_doubled (s : State) :
    Emitted
      ((modS doubleOnce >>= fun _ => getS >>= fun s => doIf (s.coder.ct = 0) transferByte) s) s
      (doubled s.coder) := by
  have once : doubleOnce s = { s with coder := shiftedOnce s.coder } := rfl
  simp only [run_bind, run_modS, run_getS, run_doIf, once, doubled]
  split_ifs with h
  · exact emitted_transferByte _
  · exact .inl (by rw [emit_nil])

theorem emitted_encRenorm (n : Nat) (s : State) :
    Emitted (encRenorm n s) s (renormed n s.coder) := by
  induction n generalizing s with
  | zero => exact emitted_pure s
  | succ n ih =>
    by_cases ha : s.coder.a < 0x8000
    · have run : encRenorm (n + 1) s = ((modS doubleOnce >>= fun _ => getS >>= fun s =>
          doIf (s.coder.ct = 0) transferByte) >>= fun _ => encRenorm n) s := by
        simp only [encRenorm, run_bind, run_getS, run_doIf, if_pos ha, run_modS]
      rw [run, renormed, if_pos ha]
      exact (emitted_doubled s).bind (ih _)
    · simp only [encRenorm, run_bind, run_getS, run_doIf, if_neg ha, renormed]
      exact emitted_pure s

section Flush

variable {s : State} {k : Coder} (hk : s.coder = k)
include hk

/-- The flush loop with nothing left to move out, or no turn left, and the last transfer. -/
theorem emitted_flushLoop_end {n : Nat} {nbits : Int} (h : n = 0 ∨ ¬ 0 < nbits) :
    Emitted ((flushLoop n nbits >>= fun _ => transferByte) s) s (transferred k) := by
  have stop : flushLoop n nbits s = .ok () s := by
    cases n with
    | zero => rfl
    | succ n => rw [flushLoop, run_doIf, if_neg (h.resolve_left (Nat.succ_ne_zero n))]
  rw [run_bind_ok stop, ← hk]
  exact emitted_transferByte s

/-- One turn of the flush loop: a transfer, and C shifted for the next one. -/
theorem emitted_flushLoop_turn {n : Nat} {nbits : Int} {q : Coder × List Byte} (h : 0 < nbits)
    (hq : ∀ u : State, u.coder = completed (transferred k).1 →
      Emitted ((flushLoop n (nbits - (transferred k).1.ct.toNat) >>= fun _ => transferByte) u)
        u q) :
    Emitted ((flushLoop (n + 1) nbits >>= fun _ => transferByte) s) s
      (q.1, (transferred k).2 ++ q.2) := by
  subst hk
  have run : (flushLoop (n + 1) nbits >>= fun _ => transferByte) s
      = (transferByte >>= fun _ => getS >>= fun u => modS shiftByCt >>= fun _ =>
          flushLoop n (nbits - u.coder.ct.toNat) >>= fun _ => transferByte) s := by
    simp only [flushLoop, run_bind, run_doIf, if_pos h]
    cases transferByte s <;> rfl
  have shifted := emitted_modS (f := shiftByCt) (s := emit (transferred s.coder) s)
    (k := completed (transferred s.coder).1) rfl
  rw [run]
  exact (emitted_transferByte s).bind (shifted.bind (hq _ rfl))

end Flush

/-- `MQE.FLUSH` (43_mq_encoder.md R206) in an encoding session. -/
theorem emitted_mqeFlush {s : State} (hm : s.status.mqMode = .encoding) :
    Emitted (mqeFlush s) s (flushed s.coder) := by
  have run : mqeFlush s = (modS shiftByCt >>= fun _ =>
      flushLoop 2 (12 - (s.coder.ct.toNat : Int)) >>= fun _ => transferByte) s := by
    simp only [mqeFlush, run_bind, run_requireMode, if_pos hm, run_getS]
  rw [run]
  refine (emitted_modS (k := completed s.coder) rfl).bind (p := (_, [])) (q := flushed s.coder) ?_
  rw [emit_nil]
  by_cases one : 12 ≤ s.coder.ct.toNat
  · rw [flushed, if_pos one]
    exact emitted_flushLoop_end rfl (.inr (by omega))
  by_cases two : 12 ≤ s.coder.ct.toNat + (transferred (completed s.coder)).1.ct.toNat
  · rw [flushed, if_neg one, if_pos two]
    exact emitted_flushLoop_turn (k := completed s.coder) rfl (by omega) fun u hu =>
      emitted_flushLoop_end hu (.inr (by omega))
  · rw [flushed, if_neg one, if_neg two, List.append_assoc]
    exact emitted_flushLoop_turn (k := completed s.coder) (q := (_, _ ++ _)) rfl (by omega)
      fun u hu => emitted_flushLoop_turn hu (by omega)
        fun v hv => emitted_flushLoop_end hv (.inl rfl)

/-- The registers and bytes of a decision `b` under the probability state `e` (43_mq_encoder.md
R202). -/
def coded (b : Bool) (e : PtEntry) (k : Coder) : Coder × List Byte :=
  let ac := codeInterval (qe e.idx) e.mps b k.a k.c
  renormed 15 { k with a := ac.1, c := ac.2 }

/-- What the checks of `MQE.CODE` ask of the state. -/
structure CodeReady (s : State) (ctx : Nat) : Prop where
  mode : s.status.mqMode = .encoding
  valid : s.status.ptValid = true
  label : ctx ≤ 18

theorem ptTrans_ok {s : State} {ctx : Nat} (hv : s.status.ptValid = true) (hc : ctx ≤ 18)
    (m sw : Bool) :
    ptTrans ctx m sw s = .ok () (setPt ctx (ptMove m sw (ptAt s ctx)) s) := by
  simp [ptTrans, run_bind, run_requirePt, hv, hc]

/-- `MQE.CODE` (43_mq_encoder.md R202) where its checks pass: the registers and bytes of the
decision, and at most the label's own probability state changes. -/
theorem emitted_mqeCode {s : State} {ctx : Nat} (h : CodeReady s ctx) (b : Bool) :
    ∃ v : Vector PtEntry 19, (∀ k, k ≠ ctx → v[k]? = s.pt[k]?) ∧
      Emitted (mqeCode b ctx s) { s with pt := v } (coded b (ptAt s ctx) s.coder) := by
  obtain ⟨hm, hv, hc⟩ := h
  simp only [mqeCode, run_bind, run_requireMode, run_requirePt, if_pos hm, if_pos hv, if_pos hc,
    run_getS, run_modS, run_doIf, coded]
  generalize hac : codeInterval _ _ _ _ _ = ac
  split_ifs with ha
  · refine ⟨s.pt.setIfInBounds ctx (ptMove (b == (ptAt s ctx).mps) true (ptAt s ctx)),
      fun k hk => Vector.getElem?_setIfInBounds_ne hk.symm, ?_⟩
    simp only [ptTrans_ok (s := setC ac.2 (setA ac.1 s)) hv hc]
    exact emitted_encRenorm 15 _
  · refine ⟨s.pt, fun _ _ => rfl, ?_⟩
    rw [renormed, if_neg ha]
    exact .inl (by rw [emit_nil]; rfl)

/-- `MQE.CODE` where a check fails. -/
theorem mqeCode_refused {s : State} {ctx : Nat} (h : ¬ CodeReady s ctx) (b : Bool) :
    ∃ code, mqeCode b ctx s = .error (.protocolFault code) s := by
  by_cases hm : s.status.mqMode = .encoding
  · by_cases hv : s.status.ptValid = true
    · have hc : ¬ ctx ≤ 18 := fun hc => h ⟨hm, hv, hc⟩
      exact ⟨.badContext, by simp only [mqeCode, run_bind, run_requireMode, run_requirePt,
        if_pos hm, if_pos hv, if_neg hc]⟩
    · exact ⟨.notInitialised, by simp only [mqeCode, run_bind, run_requireMode, run_requirePt,
        if_pos hm, if_neg hv]⟩
  · exact ⟨.notStarted, by simp only [mqeCode, run_bind, run_requireMode, if_neg hm]⟩

theorem mqeFlush_refused {s : State} (hm : s.status.mqMode ≠ .encoding) :
    mqeFlush s = .error (.protocolFault .notStarted) s := by
  simp only [mqeFlush, run_bind, run_requireMode, if_neg hm]

end Sys2Proof.Machine
end

section
/-! PROOF. The encoder's registers and the bytes of a session (43_mq_encoder.md R208; 30_encoding.md
R95): C + A, weighed by the doublings to come, never grows but for the bits a transfer takes out,
and the byte that follows 0xFF takes no carry. -/

namespace Sys2Proof.Machine

open Sys2Proof.Safety

/-! ### Bytes after 0xFF -/

theorem stuffed_nil : Stuffed [] := fun _ _ h => by simp at h

/-- A byte may follow where it is at most 0x8F after 0xFF. -/
theorem stuffed_concat {bs : List Byte} {x : Byte} (h : Stuffed bs)
    (hx : bs.getLast? = some 0xFF → x ≤ 0x8F) : Stuffed (bs ++ [x]) := by
  intro k y hk hy
  rcases Nat.lt_trichotomy (k + 1) bs.length with hlt | heq | hgt
  · rw [List.getElem?_append_left (by omega)] at hk
    rw [List.getElem?_append_left hlt] at hy
    exact h k y hk hy
  · rw [List.getElem?_append_left (by omega)] at hk
    rw [heq, List.getElem?_concat_length, Option.some.injEq] at hy
    have hlast : bs.length - 1 = k := by omega
    exact hy ▸ hx (by rw [List.getLast?_eq_getElem?, hlast, hk])
  · rw [List.getElem?_eq_none (by simp; omega)] at hy
    contradiction

theorem stuffed_drop {bs : List Byte} (h : Stuffed bs) (n : Nat) : Stuffed (bs.drop n) := by
  intro k x hk hx
  rw [List.getElem?_drop] at hk hx
  exact h (n + k) x hk hx

/-! ### The registers and the bytes together -/

/-- The registers of a session whose bytes, which L counts, are `d` bytes out of sight (those the
host has taken) and then `bs`, with C + A weighing `w`. -/
structure Session (d : Nat) (k : Coder) (bs : List Byte) (w : Nat) : Prop where
  positive : 0 < k.a.toNat
  started : -1 ≤ k.l
  count : k.l.toNat = bs.length + d
  weight : w ≤ 9 * 2 ^ 24
  stuffed : Stuffed bs
  last : bs.getLast? = some 0xFF → k.t.toNat * 2 ^ 27 + w ≤ 9 * 2 ^ 31

/-- C + A at the place where the next transfer finds them. -/
def weight (k : Coder) : Nat := (k.c.toNat + k.a.toNat) * 2 ^ k.ct.toNat

/-- The registers of such a session between two transfers. -/
structure Running (d : Nat) (k : Coder) (bs : List Byte) : Prop where
  session : Session d k bs (weight k)
  ct_pos : 1 ≤ k.ct.toNat
  ct_le : k.ct.toNat ≤ 12

/-- Loading T after the byte `k.t` has gone out, unless it was the session's first. -/
theorem running_loaded {d : Nat} {k : Coder} {bs : List Byte} (ha : 0 < k.a.toNat) (hl : -1 ≤ k.l)
    (hcount : k.l.toNat = bs.length + d) (hw : k.c.toNat + k.a.toNat ≤ 9 * 2 ^ 24)
    (hs : Stuffed bs) (hlast : bs.getLast? = some 0xFF → k.t = 0xFF) :
    Running d (loaded k) bs := by
  have hlt := k.a.isLt
  by_cases ht : k.t = 0xFF
  · rw [loaded, if_pos ht]
    refine ⟨⟨ha, hl, hcount, ?_, hs, fun _ => ?_⟩, ?_, ?_⟩ <;>
      simp only [weight, BitVec.toNat_ofNat, BitVec.ofNat_eq_ofNat, Nat.reducePow,
        Nat.reduceMod] <;>
      omega
  · rw [loaded, if_neg ht]
    refine ⟨⟨ha, hl, hcount, ?_, hs, fun h => absurd (hlast h) ht⟩, ?_, ?_⟩ <;>
      simp only [weight, BitVec.toNat_ofNat, BitVec.ofNat_eq_ofNat, Nat.reducePow,
        Nat.reduceMod] <;>
      omega

/-- `PutByte` and loading the next byte: the byte that goes out, `k.t`, is at most 0x8F after
0xFF. -/
theorem running_put {d : Nat} {k : Coder} {bs : List Byte} (ha : 0 < k.a.toNat) (hl : -1 ≤ k.l)
    (hcount : k.l.toNat = bs.length + d) (hw : k.c.toNat + k.a.toNat ≤ 9 * 2 ^ 24)
    (hs : Stuffed bs) (hlast : bs.getLast? = some 0xFF → k.t ≤ 0x8F) :
    Running d (loaded { k with l := k.l + 1 }) (bs ++ if 0 ≤ k.l then [k.t] else []) := by
  by_cases h0 : 0 ≤ k.l
  · simp only [if_pos h0]
    refine running_loaded ha (show -1 ≤ k.l + 1 by omega) ?_ hw (stuffed_concat hs hlast) ?_
    · simp only [List.length_append, List.length_singleton]
      omega
    · simp
  · have hbs : bs = [] := List.eq_nil_of_length_eq_zero (by omega)
    simp only [if_neg h0, hbs, List.append_nil]
    exact running_loaded ha (show -1 ≤ k.l + 1 by omega)
      (show (k.l + 1).toNat = [].length + d by simp [hbs] at hcount ⊢; omega) hw stuffed_nil
      (by simp)

/-- A transfer takes out of C what T can still hold (43_mq_encoder.md R204, R208). -/
theorem Session.transferred {d : Nat} {k : Coder} {bs : List Byte}
    (h : Session d k bs (k.c.toNat + k.a.toNat)) :
    Running d (transferred k).1 (bs ++ (transferred k).2) ∧ (transferred k).1.a = k.a := by
  obtain ⟨ha, hl, hcount, hw, hs, hlast⟩ := h
  by_cases ht : k.t = 0xFF
  · rw [transferred_of_ff ht]
    refine ⟨?_, by simp [loaded, ht]⟩
    rw [← ht]
    refine running_put ha hl hcount hw hs fun h => ?_
    have := hlast h
    rw [BitVec.le_def]
    simp only [BitVec.ofNat_eq_ofNat, BitVec.toNat_ofNat]
    omega
  · rw [transferred_of_ne_ff ht]
    have htlt : k.t.toNat < 255 := by
      have := k.t.isLt
      have hne : k.t.toNat ≠ 255 := fun he => ht (BitVec.eq_of_toNat_eq he)
      omega
    have hc := k.c.isLt
    have hcarry : (carried k).t.toNat = k.t.toNat + k.c.toNat / 2 ^ 27 := by
      simp only [carried, BitVec.toNat_add, BitVec.toNat_ofNat]
      omega
    have hlow : (carried k).c.toNat = k.c.toNat % 2 ^ 27 := by
      simp only [carried, BitVec.toNat_ofNat]
      omega
    refine ⟨running_put (k := carried k) ha hl hcount ?_ hs fun h => ?_, ?_⟩
    · rw [hlow]
      exact le_trans (Nat.add_le_add_right (Nat.mod_le ..) _) hw
    · have := hlast h
      rw [BitVec.le_def, hcarry]
      simp only [BitVec.ofNat_eq_ofNat, BitVec.toNat_ofNat]
      omega
    · simp only [loaded]
      split <;> rfl

/-! ### Decisions and flushes -/

/-- A doubling with A below 0x8000 loses no bit, so that C + A weighs what it did. -/
theorem Running.shiftedOnce {d : Nat} {k : Coder} {bs : List Byte} (h : Running d k bs)
    (ha : k.a.toNat < 0x8000) :
    Session d (shiftedOnce k) bs (weight (shiftedOnce k)) ∧
      (shiftedOnce k).a.toNat = 2 * k.a.toNat ∧ (shiftedOnce k).ct.toNat + 1 = k.ct.toNat := by
  obtain ⟨⟨hpos, hl, hcount, hw, hs, hlast⟩, hct, hct'⟩ := h
  have ha2 : (Machine.shiftedOnce k).a.toNat = 2 * k.a.toNat := by
    simp only [Machine.shiftedOnce, BitVec.toNat_shiftLeft, Nat.shiftLeft_eq]
    omega
  have hct1 : (Machine.shiftedOnce k).ct.toNat + 1 = k.ct.toNat := by
    simp only [Machine.shiftedOnce, BitVec.toNat_sub, BitVec.ofNat_eq_ofNat, BitVec.toNat_ofNat]
    omega
  have hdouble : weight k = 2 * (k.c.toNat + k.a.toNat) * 2 ^ (Machine.shiftedOnce k).ct.toNat := by
    rw [weight, ← hct1, Nat.pow_succ]
    ring
  have hle : 2 * (k.c.toNat + k.a.toNat) ≤ weight k := by
    rw [hdouble]
    exact Nat.le_mul_of_pos_right _ (Nat.two_pow_pos _)
  have hc2 : (Machine.shiftedOnce k).c.toNat = 2 * k.c.toNat := by
    simp only [Machine.shiftedOnce, BitVec.toNat_shiftLeft, Nat.shiftLeft_eq]
    omega
  have hsame : weight (Machine.shiftedOnce k) = weight k := by
    rw [hdouble, weight, hc2, ha2, Nat.mul_add]
  rw [hsame]
  exact ⟨⟨by omega, hl, hcount, hw, hs, hlast⟩, ha2, hct1⟩

theorem Running.doubled {d : Nat} {k : Coder} {bs : List Byte} (h : Running d k bs)
    (ha : k.a.toNat < 0x8000) :
    Running d (doubled k).1 (bs ++ (doubled k).2) ∧ (doubled k).1.a.toNat = 2 * k.a.toNat := by
  have hct := h.ct_le
  obtain ⟨hsess, ha2, hct1⟩ := h.shiftedOnce ha
  rw [Machine.doubled]
  split_ifs with h0
  · have hflat : weight (Machine.shiftedOnce k)
        = (Machine.shiftedOnce k).c.toNat + (Machine.shiftedOnce k).a.toNat := by
      simp [weight, h0]
    obtain ⟨hrun, hrun'⟩ := (hflat ▸ hsess).transferred
    exact ⟨hrun, by rw [hrun', ha2]⟩
  · have hct0 : (Machine.shiftedOnce k).ct.toNat ≠ 0 := fun he => h0 (BitVec.eq_of_toNat_eq he)
    rw [List.append_nil]
    exact ⟨⟨hsess, Nat.one_le_iff_ne_zero.mpr hct0,
      show (Machine.shiftedOnce k).ct.toNat ≤ 12 by omega⟩, ha2⟩

/-- Renormalising reaches 0x8000 where so many doublings can (43_mq_encoder.md R202). -/
theorem Running.renormed {d : Nat} (n : Nat) {k : Coder} {bs : List Byte} (h : Running d k bs) :
    Running d (renormed n k).1 (bs ++ (renormed n k).2) ∧
      (0x8000 ≤ k.a.toNat * 2 ^ n → 0x8000 ≤ (renormed n k).1.a.toNat) := by
  induction n generalizing k bs with
  | zero => exact ⟨by simpa [Machine.renormed] using h, by simp [Machine.renormed]⟩
  | succ n ih =>
    by_cases ha : k.a < 0x8000
    · obtain ⟨hd, hda⟩ := h.doubled ha
      obtain ⟨hr, hra⟩ := ih hd
      rw [Machine.renormed, if_pos ha]
      refine ⟨by simpa using hr, fun hn => hra ?_⟩
      rw [hda, Nat.mul_comm 2, Nat.mul_assoc, ← Nat.pow_succ']
      exact hn
    · rw [Machine.renormed, if_neg ha]
      exact ⟨by simpa using h, fun _ => not_lt.mp ha⟩

/-- The estimates of 40_probability_table.md R123 are in the lower half of A's range. -/
theorem qe_bounds : ∀ i, 0 < (qe i).toNat ∧ (qe i).toNat ≤ 0x5601 := by decide

/-- The registers of an open session (43_mq_encoder.md R208) whose bytes are `d` bytes out of sight
and then `bs`. -/
structure OpenSession (d : Nat) (k : Coder) (bs : List Byte) : Prop extends Running d k bs where
  a_ge : 0x8000 ≤ k.a.toNat

/-- A decision keeps C + A or takes from it (43_mq_encoder.md R202). -/
theorem codeInterval_bounds {p a : BitVec 16} {c : BitVec 28} (s0 b : Bool) (hp : 0 < p.toNat)
    (hpa : p.toNat < a.toNat) (hc : c.toNat + a.toNat < 2 ^ 28) :
    0 < (codeInterval p s0 b a c).1.toNat ∧
      (codeInterval p s0 b a c).2.toNat + (codeInterval p s0 b a c).1.toNat
        ≤ c.toNat + a.toNat := by
  have hsub : (a - p).toNat = a.toNat - p.toNat := by
    rw [BitVec.toNat_sub]
    have := a.isLt
    omega
  have hadd : (c + p.setWidth 28).toNat = c.toNat + p.toNat := by
    rw [BitVec.toNat_add, BitVec.toNat_setWidth]
    have := a.isLt
    omega
  simp only [codeInterval]
  split_ifs <;> simp only [hsub, hadd] <;> omega

theorem OpenSession.coded {d : Nat} {k : Coder} {bs : List Byte} (h : OpenSession d k bs) (b : Bool)
    (e : PtEntry) : OpenSession d (coded b e k).1 (bs ++ (coded b e k).2) := by
  obtain ⟨⟨⟨hpos, hl, hcount, hw, hs, hlast⟩, hct, hct'⟩, ha⟩ := h
  have hca : k.c.toNat + k.a.toNat ≤ weight k := Nat.le_mul_of_pos_right _ (Nat.two_pow_pos _)
  obtain ⟨hq, hq'⟩ := qe_bounds e.idx
  obtain ⟨hac, hac'⟩ := codeInterval_bounds e.mps b hq (show _ < k.a.toNat by omega)
    (show k.c.toNat + k.a.toNat < 2 ^ 28 by omega)
  have hw' := Nat.mul_le_mul_right (2 ^ k.ct.toNat) hac'
  have hrun : Running d { k with
      a := (codeInterval (qe e.idx) e.mps b k.a k.c).1
      c := (codeInterval (qe e.idx) e.mps b k.a k.c).2 } bs :=
    ⟨⟨hac, hl, hcount, le_trans hw' hw, hs,
      fun h => le_trans (Nat.add_le_add_left hw' _) (hlast h)⟩, hct, hct'⟩
  obtain ⟨hr, hra⟩ := hrun.renormed 15
  exact ⟨hr, hra (by dsimp only; omega)⟩

/-- A transfer after C is shifted left by CT (43_mq_encoder.md R206). -/
theorem OpenSession.shiftTransferred {d : Nat} {k : Coder} {bs : List Byte}
    (h : OpenSession d k bs) :
    OpenSession d (transferred (completed k)).1 (bs ++ (transferred (completed k)).2) := by
  obtain ⟨⟨⟨hpos, hl, hcount, hw, hs, hlast⟩, hct, hct'⟩, ha⟩ := h
  have hadd : weight k = k.c.toNat * 2 ^ k.ct.toNat + k.a.toNat * 2 ^ k.ct.toNat :=
    Nat.add_mul ..
  have hle : k.a.toNat ≤ k.a.toNat * 2 ^ k.ct.toNat :=
    Nat.le_mul_of_pos_right _ (Nat.two_pow_pos _)
  have hc : (completed k).c.toNat = k.c.toNat * 2 ^ k.ct.toNat := by
    simp only [completed, BitVec.toNat_shiftLeft, Nat.shiftLeft_eq]
    exact Nat.mod_eq_of_lt (by omega)
  have hle' : (completed k).c.toNat + k.a.toNat ≤ weight k := by omega
  obtain ⟨hrun, hrun'⟩ := Session.transferred (k := completed k) (d := d) (bs := bs)
    ⟨hpos, hl, hcount, le_trans hle' hw, hs,
      fun h => le_trans (Nat.add_le_add_left hle' _) (hlast h)⟩
  exact ⟨hrun, by rw [hrun']; exact ha⟩

theorem OpenSession.flushed {d : Nat} {k : Coder} {bs : List Byte} (h : OpenSession d k bs) :
    OpenSession d (flushed k).1 (bs ++ (flushed k).2) := by
  have first := h.shiftTransferred
  have second := first.shiftTransferred
  have third := second.shiftTransferred
  simp only [Safety.flushed]
  split_ifs
  · exact first
  · rwa [← List.append_assoc]
  · rwa [← List.append_assoc, ← List.append_assoc]

end Sys2Proof.Machine
end

section
/-! PROOF. What the decoder's operations leave alone (20_memory.md R67, R68): they append nothing to
`OUT` and open no encoding session. -/

namespace Sys2Proof.Machine

/-- A relation that every update the decoder makes keeps. -/
structure DecodeKeeps (R : State → State → Prop) : Prop extends Chains R where
  coder : ∀ s k, R s { s with coder := k }
  pt : ∀ s v, R s { s with pt := v }
  calls : ∀ s n, R s { s with portCalls := n }
  take : ∀ s n, R s { s with rp := n }
  diverged : ∀ s b, R s { s with diverged := b }
  freeBits : ∀ s n, R s { s with freeBits := n }
  rp0 : ∀ s n, R s { s with rp0 := n }
  mode : ∀ s m, m ≠ .encoding → R s (setMqMode m s)
  ioFail : ∀ s b, R s (setIoFail b s)
  decFail : ∀ s d, R s (setDecFail d s)

namespace DecodeKeeps

variable {R : State → State → Prop} (K : DecodeKeeps R)
include K

theorem reads {α : Type} {x : Op α} (h : ReadsOnly x) : Keeps R x := h.keeps K.toChains

theorem setDecC (v : Nat) (s : State) : R s (setDecC v s) :=
  K.trans (K.coder s _) (K.diverged _ _)

theorem peekIn : Keeps R peekIn := fun s => by
  rw [run_peekIn]
  split <;> exact K.calls s _

theorem takeIn : Keeps R takeIn := fun s => by
  rw [run_takeIn]
  split
  · exact K.calls s _
  · split
    · exact K.calls s _
    · exact K.trans (K.calls s (s.portCalls + 1)) (K.take _ _)

theorem fillLSBs : Keeps R fillLSBs :=
  .bind K.toChains (.modS fun s => K.coder s _) fun _ => .bind K.toChains K.peekIn fun n => by
    cases n with
    | none => exact .raise K.toChains _
    | some n =>
      exact .bind K.toChains (.getS K.toChains) fun _ => .ite (.modS fun s => K.setDecC _ s)
        (.bind K.toChains (.doIf K.toChains (.modS fun s => K.coder s _)) fun _ =>
          .bind K.toChains K.takeIn fun _ => .bind K.toChains (.modS fun s => K.coder s _) fun _ =>
            .modS fun s => K.setDecC _ s)

theorem decRenorm (n : Nat) : Keeps R (decRenorm n) := by
  have once : Keeps R renormOnce :=
    .bind K.toChains (.getS K.toChains) fun _ =>
      .bind K.toChains (.doIf K.toChains K.fillLSBs) fun _ =>
        .modS fun s => K.trans (K.coder s _) (K.trans (K.setDecC _ _) (K.coder _ _))
  induction n with
  | zero => exact .pure K.toChains _
  | succ n ih =>
    exact .bind K.toChains (.getS K.toChains) fun _ =>
      .doIf K.toChains (.bind K.toChains once fun _ => ih)

theorem mqdInit : Keeps R mqdInit :=
  .bind K.toChains (K.reads requireIdle_readsOnly) fun _ =>
    .bind K.toChains (.modS fun s => K.trans (K.rp0 s s.rp) (K.trans (K.diverged _ false)
      (K.trans (K.coder _ _) (K.trans (K.ioFail _ _) (K.decFail _ _))))) fun _ =>
      .bind K.toChains K.fillLSBs fun _ => .bind K.toChains (.modS fun s => K.setDecC _ s) fun _ =>
        .bind K.toChains K.fillLSBs fun _ =>
          .bind K.toChains (.modS fun s => K.setDecC _ s) fun _ =>
            .bind K.toChains (.modS fun s => K.coder s _) fun _ =>
              .modS fun s => K.mode s _ (by decide)

theorem mqdDecode (ctx : Nat) : Keeps R (mqdDecode ctx) := by
  have lower (p : BitVec 16) : Keeps R (inLower p) := fun s => by
    unfold inLower
    split
    · exact K.freeBits s _
    · exact K.refl s
  have trans (m : Bool) : Keeps R (ptTrans ctx m true) :=
    .bind K.toChains (K.reads (requirePt_readsOnly ctx)) fun _ => .modS fun s => K.pt s _
  exact .bind K.toChains (K.reads (requireMode_readsOnly _)) fun _ =>
    .bind K.toChains (K.reads (requirePt_readsOnly ctx)) fun _ =>
      .bind K.toChains (.getS K.toChains) fun _ => .bind K.toChains (lower _) fun b =>
        .bind K.toChains (.modS fun s => by
          cases b
          · exact K.trans (K.setDecC _ s) (K.coder _ _)
          · exact K.coder s _) fun _ =>
          .bind K.toChains (.doIf K.toChains (.bind K.toChains (trans _) fun _ =>
            K.decRenorm 15)) fun _ => .pure K.toChains _

theorem skipScan (n g : Nat) : Keeps R (skipScan n g) := by
  induction n generalizing g with
  | zero => exact .raise K.toChains _
  | succ n ih =>
    refine .bind K.toChains K.peekIn fun b => ?_
    cases b with
    | none => exact .raise K.toChains _
    | some b =>
      exact .bind K.toChains (.getS K.toChains) fun _ => .ite
        (.bind K.toChains K.takeIn fun _ => .bind K.toChains (.modS fun s => K.coder s _) fun _ =>
          .pure K.toChains _)
        (.ite (.raise K.toChains _) (.bind K.toChains
          (.bind K.toChains K.takeIn fun _ => .modS fun s => K.coder s _) fun _ => ih _))

theorem mqdSkipEnd : Keeps R mqdSkipEnd :=
  .bind K.toChains (K.reads (requireMode_readsOnly _)) fun _ =>
    .bind K.toChains (.getS K.toChains) fun _ => .bind K.toChains (K.skipScan _ _) fun _ =>
      .bind K.toChains (.modS fun s => K.mode s _ (by decide)) fun _ => .pure K.toChains _

end DecodeKeeps

/-- No encoding session is open, and none is opened. -/
def NotEncodingStays (s t : State) : Prop :=
  s.status.mqMode ≠ .encoding → t.status.mqMode ≠ .encoding

theorem notEncoding_decodeKeeps : DecodeKeeps NotEncodingStays where
  refl := fun _ h => h
  trans := fun h k hs => k (h hs)
  coder := fun _ _ h => h
  pt := fun _ _ h => h
  calls := fun _ _ h => h
  take := fun _ _ h => h
  diverged := fun _ _ h => h
  freeBits := fun _ _ h => h
  rp0 := fun _ _ h => h
  mode := fun _ _ hm _ => hm
  ioFail := fun _ _ h => h
  decFail := fun _ _ h => h

end Sys2Proof.Machine
end

section
/-! PROOF. A condition on the state that holds whenever no encoding session is open, carried through
every command and step: a failure closes the session, so that the operation before it need not keep
the condition (60_exceptions.md R317; 43_mq_encoder.md R208). -/

namespace Sys2Proof.Machine

open Sys2Proof.Safety

variable {I : State → Prop}

/-! ### Results that keep a condition -/

/-- The result keeps the condition, unless it is a failure that closes the session. -/
def Ends (I : State → Prop) {α : Type} : EStateM.Result Raise State α → Prop
  | .ok _ t => I t
  | .error (.protocolFault _) t => I t
  | .error _ _ => True

/-- The operation keeps the condition, unless it fails. -/
def Guards (I : State → Prop) (α : Type) (x : Op α) : Prop := ∀ s, I s → Ends I (x s)

theorem guards_closed : OpClosed (Guards I) where
  pure := fun _ _ h => h
  bind := fun {α β x f} hx hf s hs => by
    have h := hx s hs
    rw [run_bind]
    cases hr : x s with
    | ok a t =>
      rw [hr] at h
      exact hf a t h
    | error e t =>
      rw [hr] at h
      cases e <;> exact h

theorem Keeps.guards {α : Type} {x : Op α} (hx : Keeps (fun s t => I s → I t) x) :
    Guards I α x := fun s hs => by
  have h := hx s hs
  cases hr : x s with
  | ok a t => rw [hr] at h; exact h
  | error e t =>
    rw [hr] at h
    cases e with
    | protocolFault _ => exact h
    | _ => trivial

/-! ### Conditions on an open encoding session -/

/-- From open registers `k` with their bytes to the registers and the further bytes `p`. -/
def Advances (k : Coder) (p : Coder × List Byte) : Prop :=
  ∀ d bs, OpenSession d k bs → OpenSession d p.1 (bs ++ p.2)

/-- A condition on the registers and the bytes of an open encoding session alone. -/
structure SessionCondition (I : State → Prop) : Prop where
  closed : ∀ s, s.status.mqMode ≠ .encoding → I s
  opened : ∀ s, s.coder = ⟨0x8000, 0, 0, 12, -1⟩ → I s
  same : ∀ s t, t.status.mqMode = s.status.mqMode → t.coder = s.coder → t.out = s.out → I s → I t
  emit : ∀ s p, s.status.mqMode = .encoding → Advances s.coder p → I s → I (emit p s)

namespace SessionCondition

variable (C : SessionCondition I)
include C

theorem emitted {r : EStateM.Result Raise State Unit} {s : State} {p : Coder × List Byte}
    (hm : s.status.mqMode = .encoding) (hp : Advances s.coder p) (hs : I s) (h : Emitted r s p) :
    Ends I r := by
  obtain rfl | ⟨-, k, bs, n, rfl⟩ := h
  · exact C.emit s p hm hp hs
  · trivial

theorem guards_mqeCode (b : Bool) (ctx : Nat) : Guards I Unit (mqeCode b ctx) := fun s hs => by
  by_cases h : CodeReady s ctx
  · obtain ⟨v, -, hv⟩ := emitted_mqeCode h b
    exact C.emitted (s := { s with pt := v }) h.mode (fun _ _ ho => ho.coded b _)
      (C.same s { s with pt := v } rfl rfl rfl hs) hv
  · obtain ⟨code, hr⟩ := mqeCode_refused h b
    rw [hr]
    exact hs

theorem guards_mqeFlush : Guards I Unit mqeFlush := fun s hs => by
  by_cases hm : s.status.mqMode = .encoding
  · exact C.emitted hm (fun _ _ ho => ho.flushed) hs (emitted_mqeFlush hm)
  · rw [mqeFlush_refused hm]
    exact hs

theorem guards_mqeInit : Guards I Unit mqeInit := fun s hs => by
  simp only [mqeInit, run_bind, run_requireIdle]
  split_ifs
  · exact C.opened _ rfl
  · exact hs

theorem guards_mqeMarkEnd : Guards I Unit mqeMarkEnd := fun s hs => by
  by_cases hm : s.status.mqMode = .encoding
  · simp only [mqeMarkEnd, run_bind, run_requireMode, if_pos hm, run_putOut]
    split_ifs
    · trivial
    · dsimp only
      split_ifs
      · trivial
      · exact C.closed _ (by simp)
  · simp only [mqeMarkEnd, run_bind, run_requireMode, if_neg hm]
    exact hs

/-- A decoding operation does nothing in an encoding session, and opens none. -/
theorem guards_of_decoding {α : Type} {x : Op α} (hx : Keeps NotEncodingStays x)
    (href : ∀ s, s.status.mqMode = .encoding → ∃ code, x s = .error (.protocolFault code) s) :
    Guards I α x := fun s hs => by
  by_cases hm : s.status.mqMode = .encoding
  · obtain ⟨code, hr⟩ := href s hm
    rw [hr]
    exact hs
  · have h := C.closed _ (hx s hm)
    cases hr : x s with
    | ok a t => rw [hr] at h; exact h
    | error e t =>
      rw [hr] at h
      cases e with
      | protocolFault _ => exact h
      | _ => trivial

/-- Every update outside the coder's registers and streams keeps the condition. -/
theorem update (k : Part) (s t : State) (hk : k ∉ [Part.registers, .session])
    (u : Update k s t) (hs : I s) : I t := by
  refine C.same s t ?_ ?_ ?_ hs <;> cases u <;> simp_all

theorem encodeCommands : EncodeCommands (Guards I) :=
  .of_keeps guards_closed (chains_preserves I) Keeps.guards C.update C.guards_mqeCode
    C.guards_mqeInit C.guards_mqeFlush C.guards_mqeMarkEnd

theorem decodeCommands : DecodeCommands (Guards I) := by
  have K := notEncoding_decodeKeeps
  refine .of_keeps guards_closed (chains_preserves I) Keeps.guards C.update
    (fun ctx => C.guards_of_decoding (K.mqdDecode ctx) fun s hm => ⟨.notStarted, ?_⟩)
    (C.guards_of_decoding K.mqdInit fun s hm => ⟨.alreadyStarted, ?_⟩)
    (C.guards_of_decoding K.mqdSkipEnd fun s hm => ⟨.notStarted, ?_⟩)
  · simp [mqdDecode, run_bind, run_requireMode, hm]
  · simp [mqdInit, run_bind, run_requireIdle, hm]
  · simp [mqdSkipEnd, run_bind, run_requireMode, hm]

/-- Every command keeps the condition: a failure closes the session. -/
theorem exec {i : Instr} {s t : State} (h : exec i s = .next t) (hs : I s) : I t := by
  have answered (k p) {u : State} (hu : I u) : I (respond k p u) := C.same u _ rfl rfl rfl hu
  obtain ⟨-, rfl⟩ | rfl := exec_cases h
  · exact answered _ _ hs
  · have hop := opOf_of_commands guards_closed (chains_preserves I) Keeps.guards C.update
      C.encodeCommands C.decodeCommands i s hs
    unfold settle
    cases hr : opOf i s with
    | ok p u => rw [hr] at hop; exact answered _ _ hop
    | error e u =>
      rw [hr] at hop
      cases e with
      | protocolFault code => exact C.same u _ rfl rfl rfl hop
      | decodeFailure code => exact C.closed _ nofun
      | ioFailure => exact C.closed _ nofun

/-- Every step keeps the condition, if the host's draining and writing `OUT` do. -/
theorem step {s t : State} (hdrain : ∀ n u, I u → I (hostDrainOut n u))
    (hset : ∀ bytes rest, s.hostq = .setOut bytes :: rest → I (hostSetOut bytes (popHost rest s)))
    (h : step s = .next t) (hs : I s) : I t := by
  cases hq : s.hostq with
  | nil =>
    rw [step_of_hostq_nil hq] at h
    cases h
    exact hs
  | cons e rest =>
    have hpop : I (popHost rest s) := C.same s _ rfl rfl rfl hs
    cases e with
    | command w =>
      rw [step_of_command hq] at h
      unfold runWord at h
      split at h
      · exact C.exec h hpop
      · cases h
        unfold illegalWord
        split <;> exact C.same (popHost rest s) _ rfl rfl rfl hpop
    | hardReset =>
      rw [step_of_hostAct hq (by simp)] at h
      cases h
      exact C.closed _ nofun
    | drainOut n =>
      rw [step_of_hostAct hq (by simp)] at h
      cases h
      exact hdrain n _ hpop
    | setOut bytes =>
      rw [step_of_hostAct hq (by simp)] at h
      cases h
      exact hset bytes rest hq
    | _ =>
      rw [step_of_hostAct hq (by simp)] at h
      cases h
      exact C.same (popHost rest s) _ rfl rfl rfl hpop

end SessionCondition

/-! ### The two conditions of the obligation -/

/-- The range of the registers is that of an open session with no byte of it looked at. -/
theorem encoderRegsOk_iff {s : State} :
    EncoderRegsOk s ↔ (s.status.mqMode = .encoding → ∃ d, OpenSession d s.coder []) := by
  refine forall_congr' fun _ => ⟨?_, ?_⟩
  · rintro ⟨ha, hct, hct', hl, hw⟩
    exact ⟨s.coder.l.toNat, ⟨⟨by omega, hl, by simp, hw, stuffed_nil, by simp⟩, hct, hct'⟩, ha⟩
  · rintro ⟨d, ⟨⟨hpos, hl, hcount, hw, hs, hlast⟩, hct, hct'⟩, ha⟩
    exact ⟨ha, hct, hct', hl, hw⟩

/-- The whole condition is that of an open session with the bytes the host has not taken. -/
theorem encoderOk_iff {s : State} :
    EncoderOk s ↔
      (s.status.mqMode = .encoding → ∃ d, OpenSession d s.coder (sessionBytes s)) := by
  refine forall_congr' fun _ => ⟨?_, ?_⟩
  · rintro ⟨ha, hct, hct', hl, hw, hs, hlast⟩
    refine ⟨s.coder.l.toNat - (sessionBytes s).length,
      ⟨⟨by omega, hl, ?_, hw, hs, hlast⟩, hct, hct'⟩, ha⟩
    simp only [sessionBytes, List.length_drop]
    omega
  · rintro ⟨d, ⟨⟨hpos, hl, hcount, hw, hs, hlast⟩, hct, hct'⟩, ha⟩
    exact ⟨ha, hct, hct', hl, hw, hs, hlast⟩

/-- The registers `MQE.INIT` writes (43_mq_encoder.md R201). -/
theorem openSession_init : OpenSession 0 ⟨0x8000, 0, 0, 12, -1⟩ [] :=
  ⟨⟨⟨by decide, by decide, by decide, by decide, stuffed_nil, by simp⟩, by decide, by decide⟩,
    by decide⟩

theorem encoderRegsOk_condition : SessionCondition EncoderRegsOk where
  closed := fun _ h hm => absurd hm h
  opened := fun s h => encoderRegsOk_iff.mpr fun _ => ⟨0, h ▸ openSession_init⟩
  same := fun s t hm hk _ h => by
    simpa only [EncoderRegsOk, hm, hk] using h
  emit := fun s p hm hp h => encoderRegsOk_iff.mpr fun _ => by
    obtain ⟨d, hd⟩ := encoderRegsOk_iff.mp h hm
    obtain ⟨⟨⟨hpos, hl, -, hw, -, -⟩, hct, hct'⟩, ha⟩ := hp d [] hd
    exact ⟨p.1.l.toNat,
      ⟨⟨hpos, hl, (Nat.zero_add _).symm, hw, stuffed_nil, by simp⟩, hct, hct'⟩, ha⟩

/-- What is emitted joins the session's bytes, as L counts them. -/
theorem sessionBytes_emit {s : State} {p : Coder × List Byte} {d : Nat}
    (hs : s.coder.l.toNat = (sessionBytes s).length + d)
    (hp : p.1.l.toNat = (sessionBytes s ++ p.2).length + d) :
    sessionBytes (Machine.emit p s) = sessionBytes s ++ p.2 := by
  rw [List.length_append] at hp
  have hcut : (s.out ++ p.2).length - p.1.l.toNat = s.out.length - s.coder.l.toNat := by
    rw [List.length_append]
    omega
  change (s.out ++ p.2).drop ((s.out ++ p.2).length - p.1.l.toNat) = _
  rw [hcut, List.drop_append_of_le_length (Nat.sub_le ..), sessionBytes]

theorem encoderOk_condition : SessionCondition EncoderOk where
  closed := fun _ h hm => absurd hm h
  opened := fun s h => encoderOk_iff.mpr fun _ => by
    have hb : sessionBytes s = [] := by simp [sessionBytes, h]
    exact ⟨0, by rw [hb, h]; exact openSession_init⟩
  same := fun s t hm hk ho h => by
    simpa only [EncoderOk, sessionBytes, hm, hk, ho] using h
  emit := fun s p hm hp h => encoderOk_iff.mpr fun _ => by
    obtain ⟨d, hd⟩ := encoderOk_iff.mp h hm
    have hd' := hp d _ hd
    refine ⟨d, ?_⟩
    rw [sessionBytes_emit hd.session.count hd'.session.count]
    exact hd'

/-- Draining takes bytes from the front of the session's. -/
theorem sessionBytes_drainOut (n : Nat) (s : State) :
    ∃ m, sessionBytes (hostDrainOut n s) = (sessionBytes s).drop m := by
  refine ⟨n - (s.out.length - s.coder.l.toNat), ?_⟩
  simp only [sessionBytes, hostDrainOut, List.drop_drop, List.length_drop]
  congr 1
  omega

theorem getLast?_drop_eq_some {α : Type} {xs : List α} {n : Nat} {x : α}
    (h : (xs.drop n).getLast? = some x) : xs.getLast? = some x := by
  rw [List.getLast?_drop] at h
  split_ifs at h
  exact h

theorem encoderOk_drainOut (n : Nat) (s : State) (h : EncoderOk s) :
    EncoderOk (hostDrainOut n s) := fun hm => by
  obtain ⟨m, hb⟩ := sessionBytes_drainOut n s
  obtain ⟨ha, hct, hct', hl, hw, hs, hlast⟩ := h hm
  refine ⟨ha, hct, hct', hl, hw, ?_, ?_⟩ <;> rw [hb]
  · exact stuffed_drop hs m
  · exact fun h => hlast (getLast?_drop_eq_some h)

/-- With C + A weighing at most 9 * 2^24 no set bit leaves a 28-bit C (43_mq_encoder.md R208). -/
theorem encoderRegsOk_bound {s : State} (h : EncoderRegsOk s)
    (hm : s.status.mqMode = .encoding) :
    s.coder.c.toNat + s.coder.a.toNat ≤ 2 ^ (28 - s.coder.ct.toNat) ∧
      s.coder.c.toNat * 2 ^ s.coder.ct.toNat < 2 ^ 28 := by
  obtain ⟨ha, -, hct, -, hw⟩ := h hm
  have hpos := Nat.two_pow_pos s.coder.ct.toNat
  have hsplit : 2 ^ (28 - s.coder.ct.toNat) * 2 ^ s.coder.ct.toNat = 2 ^ 28 := by
    rw [← Nat.pow_add]
    congr 1
    omega
  constructor
  · refine Nat.le_of_mul_le_mul_right (le_trans hw ?_) hpos
    omega
  · have hc := Nat.mul_le_mul_right (2 ^ s.coder.ct.toNat)
      (Nat.le_add_right s.coder.c.toNat s.coder.a.toNat)
    omega

/-- Settles O41: the encoder's operations carry the registers of an open session and its bytes to
those of an open session, no other update touches them, and a failure closes the session. -/
theorem encoderRegistersStayInRange : Obligations.EncoderRegistersStayInRange := by
  refine ⟨fun s t hs h => ?_, fun s t hs hset h => ?_, fun s => encoderRegsOk_bound⟩
  · have C := encoderRegsOk_condition
    exact C.step (fun _ _ hu => hu) (fun _ _ _ => hs) h hs
  · refine encoderOk_condition.step encoderOk_drainOut (fun bytes rest hq hm => ?_) h hs
    exact absurd hq (hset hm bytes rest)

end Sys2Proof.Machine
end

section
/-! PROOF. `MEM` outside the block and above the sign bit (20_memory.md R60, R62, R63): the two
stores replace one of the bits D:0 of a word of the block, and nothing else writes `MEM`. -/

namespace Sys2Proof.Machine

/-- The configuration stays, and of `MEM` every word outside the block and every bit above D. -/
def OnlyBlockBits (s t : State) : Prop :=
  t.cfg = s.cfg ∧
  (∀ a, (∀ r c, r < s.H → c < s.W → a ≠ memAddr s r c) → wordAt t a = wordAt s a) ∧
  ∀ a k, s.D < k → (wordAt t a).getLsbD k = (wordAt s a).getLsbD k

theorem onlyBlockBits_of_mem {s t : State} (hc : t.cfg = s.cfg) (hm : t.mem = s.mem) :
    OnlyBlockBits s t :=
  ⟨hc, fun a _ => by rw [wordAt, hm, wordAt], fun a _ _ => by rw [wordAt, hm, wordAt]⟩

theorem onlyBlockBits_chains : Chains OnlyBlockBits where
  refl := fun _ => onlyBlockBits_of_mem rfl rfl
  trans := by
    rintro s t u ⟨hc, ho, hb⟩ ⟨kc, ko, kb⟩
    have hH : t.H = s.H := by rw [State.H, hc, State.H]
    have hW : t.W = s.W := by rw [State.W, hc, State.W]
    have hD : t.D = s.D := by rw [State.D, hc, State.D]
    have hA (r c : Nat) : memAddr t r c = memAddr s r c := by rw [memAddr, hc, memAddr]
    simp only [hH, hW, hA] at ko
    exact ⟨kc.trans hc, fun a ha => (ko a ha).trans (ho a ha),
      fun a k hk => (kb a k (hD.symm ▸ hk)).trans (hb a k hk)⟩

/-- Replacing one of the bits D:0 of a word of the block. -/
theorem onlyBlockBits_replaceBit {s : State} {i r c : Nat} (hi : i ≤ s.D) (hr : r < s.H)
    (hc : c < s.W) (b : Bool) :
    OnlyBlockBits s
      (setWord (memAddr s r c) (replaceBit (wordAt s (memAddr s r c)) i b) s) := by
  refine ⟨rfl, fun a ha => ?_, fun a k hk => ?_⟩
  · rw [wordAt_setWord, if_neg (ha r c hr hc)]
  · rw [wordAt_setWord]
    split_ifs with ha
    · rw [ha]
      by_cases h32 : k < 32
      · rw [getLsbD_replaceBit _ _ _ _ h32, if_neg (by omega)]
      · rw [BitVec.getLsbD_of_ge _ _ (by omega), BitVec.getLsbD_of_ge _ _ (by omega)]
    · rfl

theorem onlyBlockBits_bpSetBit (i r c : Nat) (b : Bool) :
    Keeps OnlyBlockBits (bpSetBit i r c b) := fun s => by
  simp only [bpSetBit, run_bind, run_requireBit]
  split_ifs with hg hi hrc
  · simp only [run_memRead, if_pos hrc, run_memWrite]
    exact onlyBlockBits_replaceBit hi.le hrc.1 hrc.2 b
  all_goals exact onlyBlockBits_chains.refl s

theorem onlyBlockBits_bpSetSign (r c : Nat) (b : Bool) :
    Keeps OnlyBlockBits (bpSetSign r c b) := fun s => by
  simp only [bpSetSign, run_bind, run_requireSign]
  split_ifs with hg hrc
  · simp only [run_getS, run_memRead, if_pos hrc, run_memWrite]
    exact onlyBlockBits_replaceBit le_rfl hrc.1 hrc.2 b
  all_goals exact onlyBlockBits_chains.refl s

theorem Update.mem_eq {k : Part} {s t : State} (u : Update k s t) (hk : k ∉ [.memory]) :
    t.mem = s.mem := by
  cases u <;> simp_all

/-- Where the updates of every part but `MEM` and the configuration keep the relation, and the two
stores do, every unit operation does. -/
theorem unitKeeps_of_stores {R : State → State → Prop} (hR : Chains R)
    (h : ∀ k s t, k ∉ [Part.memory, .config] → Update k s t → R s t)
    (hbit : ∀ i r c b, Keeps R (bpSetBit i r c b)) (hsign : ∀ r c b, Keeps R (bpSetSign r c b)) :
    UnitKeeps R :=
  have K {ks : List Part} := PartsKeep.of_outside (ks := ks) hR h
  { toChains := hR
    ptReset := (K (by decide)).ptReset
    ptTrans := (K (by decide)).ptTrans
    sigReset := (K (by decide)).sigReset
    sigRefCtx := (K (by decide)).sigRefCtx
    sigSetSig := (K (by decide)).sigSetSig
    bpNewPlane := (K (by decide)).bpNewPlane
    bpSetBit := hbit
    bpSetSign := hsign
    bpMarkCoded := (K (by decide)).bpMarkCoded
    mqeInit := (K (by decide)).mqeInit
    mqeCode := (K (by decide)).mqeCode
    mqeFlush := (K (by decide)).mqeFlush
    mqeMarkEnd := (K (by decide)).mqeMarkEnd
    mqdInit := (K (by decide)).mqdInit
    mqdDecode := (K (by decide)).mqdDecode
    mqdSkipEnd := (K (by decide)).mqdSkipEnd }

theorem onlyBlockBits_answerKeeps : AnswerKeeps OnlyBlockBits :=
  have E : EndKeeps OnlyBlockBits := .of_status_resp fun _ _ _ => onlyBlockBits_of_mem rfl rfl
  { unitKeeps_of_stores onlyBlockBits_chains
      (fun _ _ _ hk u => onlyBlockBits_of_mem (u.cfg_eq (by simp_all)) (u.mem_eq (by simp_all)))
      onlyBlockBits_bpSetBit onlyBlockBits_bpSetSign with
    respond := E.respond
    protocolFault := E.protocolFault
    decodeFailure := E.decodeFailure
    ioFailure := E.ioFailure }

theorem writer_memory {i : Instr} (h : Writes i [.memory]) :
    i = .ebDecode ∨ (∃ p r c b, i = .bpSetBit p r c b) ∨ (∃ r c b, i = .bpSetSign r c b) ∨
      ∃ p, i = .ebSigPass .decode p ∨ i = .ebRefPass .decode p ∨ i = .ebCleanup .decode p := by
  cases i <;> simp_all [Writes, footprint, mem_passParts, mem_blockParts]

/-- Settles O55: the stores change bits D:0 of words of the block, and every other update leaves
`MEM`; `CFG.SET`, which moves the block, has no store in its footprint. -/
theorem onlyBlockBitsChange : Obligations.OnlyBlockBitsChange := by
  intro i s t h
  have hmem := exec_frame State.mem h (fun _ _ _ => rfl) Update.mem_eq
  refine and_assoc.mp ⟨?_, hmem.imp_right writer_memory⟩
  by_cases hi : ∃ reg val, i = .cfgSet reg val
  · obtain ⟨reg, val, rfl⟩ := hi
    have hsame : t.mem = s.mem := hmem.resolve_right (by simp [Writes, footprint])
    exact ⟨fun a _ => by rw [wordAt, hsame, wordAt], fun a _ _ => by rw [wordAt, hsame, wordAt]⟩
  · obtain ⟨-, hout, hbits⟩ :=
      onlyBlockBits_answerKeeps.exec (fun reg val he => absurd ⟨reg, val, he⟩ hi) h
    exact ⟨hout, hbits⟩

end Sys2Proof.Machine
end

section
/-! PROOF. The streams (20_memory.md R67, R68): `OUT` grows at its end, `IN` stays, RP moves forward
and stops at the end of `IN`; and each direction moves its own stream only. -/

namespace Sys2Proof.Machine

/-! ### Forward only -/

/-- `OUT` has grown at its end, `IN` is as it was, RP has not moved back nor past the end. -/
def StreamsForward (s t : State) : Prop :=
  (∃ bs, t.out = s.out ++ bs) ∧ t.inp = s.inp ∧ s.rp ≤ t.rp ∧
    (s.rp ≤ s.inp.length → t.rp ≤ s.inp.length)

theorem streamsForward_of_eq {s t : State} (ho : t.out = s.out) (hi : t.inp = s.inp)
    (hr : t.rp = s.rp) : StreamsForward s t :=
  ⟨⟨[], by rw [ho, List.append_nil]⟩, hi, hr.ge, fun h => hr.trans_le h⟩

theorem streamsForward_chains : Chains StreamsForward where
  refl := fun _ => streamsForward_of_eq rfl rfl rfl
  trans := by
    rintro s t u ⟨⟨bs, ho⟩, hi, hr, hl⟩ ⟨⟨cs, ko⟩, ki, kr, kl⟩
    rw [hi] at kl
    exact ⟨⟨bs ++ cs, by rw [ko, ho, List.append_assoc]⟩, ki.trans hi, hr.trans kr,
      fun h => kl (hl h)⟩

theorem streamsForward_update {k : Part} {s t : State} (u : Update k s t) : StreamsForward s t := by
  cases u with
  | out _ b => exact ⟨⟨[b], rfl⟩, rfl, le_rfl, id⟩
  | take _ b h =>
    obtain ⟨hlt, -⟩ := List.getElem?_eq_some_iff.mp h
    exact ⟨⟨[], by simp⟩, rfl, Nat.le_succ _, fun _ => hlt⟩
  | _ => exact streamsForward_of_eq rfl rfl rfl

theorem streamsForward_commandKeeps : CommandKeeps StreamsForward :=
  commandKeeps_of_updates streamsForward_chains (fun _ _ _ => streamsForward_update)
    (.of_status_resp fun _ _ _ => streamsForward_of_eq rfl rfl rfl)

/-! ### One stream for each direction -/

theorem keeps_closed {R : State → State → Prop} (hR : Chains R) :
    OpClosed fun _ x => Keeps R x := ⟨.pure hR, .bind hR⟩

/-- The field is as it was. -/
def FieldEq {β : Type} (f : State → β) (s t : State) : Prop := f t = f s

theorem fieldEq_chains {β : Type} (f : State → β) : Chains (FieldEq f) :=
  ⟨fun _ => rfl, fun h k => k.trans h⟩

theorem Update.streams_eq {k : Part} {s t : State} (hk : k ∉ [Part.registers, .session])
    (u : Update k s t) : t.out = s.out ∧ t.rp = s.rp := by
  cases u <;> simp_all

/-- A decoding command appends nothing. -/
theorem decodeCommands_out : DecodeCommands fun _ x => Keeps (FieldEq State.out) x := by
  have K : DecodeKeeps (FieldEq State.out) := { fieldEq_chains State.out with
    coder := fun _ _ => rfl, pt := fun _ _ => rfl, calls := fun _ _ => rfl, take := fun _ _ => rfl
    diverged := fun _ _ => rfl, freeBits := fun _ _ => rfl, rp0 := fun _ _ => rfl
    mode := fun _ _ _ => rfl, ioFail := fun _ _ => rfl, decFail := fun _ _ => rfl }
  exact .of_keeps (keeps_closed K.toChains) K.toChains id (fun _ _ _ hk u => (u.streams_eq hk).1)
    K.mqdDecode K.mqdInit K.mqdSkipEnd

theorem mqeInit_streams (s : State) :
    (endState (mqeInit s)).out = s.out ∧ (endState (mqeInit s)).rp = s.rp := by
  simp only [mqeInit, run_bind, run_requireIdle]
  split_ifs <;> exact ⟨rfl, rfl⟩

/-- An encoding command takes nothing. -/
theorem encodeCommands_rp : EncodeCommands fun _ x => Keeps (FieldEq State.rp) x := by
  have hR := fieldEq_chains State.rp
  have put (b : Byte) : Keeps (FieldEq State.rp) (putOut b) := fun s => by
    rw [run_putOut]
    split <;> rfl
  refine .of_keeps (keeps_closed hR) hR id (fun _ _ _ hk u => (u.streams_eq hk).2)
    (fun b ctx s => ?_) (fun s => (mqeInit_streams s).2) (fun s => ?_) ?_
  · by_cases h : CodeReady s ctx
    · obtain ⟨v, -, hv⟩ := emitted_mqeCode h b
      exact hv.rp_eq
    · obtain ⟨code, hr⟩ := mqeCode_refused h b
      rw [hr]
      rfl
  · by_cases hm : s.status.mqMode = .encoding
    · exact (emitted_mqeFlush hm).rp_eq
    · rw [mqeFlush_refused hm]
      rfl
  · exact .bind hR ((requireMode_readsOnly _).keeps hR) fun _ => .bind hR (put _) fun _ =>
      .bind hR (put _) fun _ => .modS fun _ => rfl

/-- A command whose operation, `x` and the answer, leaves a field outside `STATUS` and the
response. -/
theorem exec_fieldEq {β α : Type} {f : State → β} {i : Instr} {s t : State} {x : Op α}
    {g : α → Word} (hend : ∀ s st r, f { s with status := st, resp := r } = f s)
    (hop : opOf i = do let a ← x; pure (g a)) (hx : Keeps (FieldEq f) x)
    (h : exec i s = .next t) : f t = f s := by
  have hR := fieldEq_chains f
  have E : EndKeeps (FieldEq f) := .of_status_resp hend
  obtain ⟨-, rfl⟩ | rfl := exec_cases h
  · exact E.respond _ _ s
  · rw [hop]
    exact settle_keeps hR E (.bind hR hx fun _ => .pure hR _) s

/-- The commands that append to `OUT` (20_memory.md R67). -/
def AppendsBytes (i : Instr) : Prop :=
  i ∈ [.mqeFlush, .mqeMarkEnd, .ebEncode] ∨ (∃ b ctx, i = .mqeCode b ctx) ∨
    (∃ v n ctx, i = .mqeCodeNum v n ctx) ∨
    ∃ p, i = .ebSigPass .encode p ∨ i = .ebRefPass .encode p ∨ i = .ebCleanup .encode p

/-- The commands that take bytes of `IN` (20_memory.md R68). -/
def TakesBytes (i : Instr) : Prop :=
  i ∈ [.mqdInit, .mqdSkipEnd, .ebDecode] ∨ (∃ ctx, i = .mqdDecode ctx) ∨
    (∃ n ctx, i = .mqdDecodeNum n ctx) ∨
    ∃ p, i = .ebSigPass .decode p ∨ i = .ebRefPass .decode p ∨ i = .ebCleanup .decode p

theorem Update.out_eq {k : Part} {s t : State} (u : Update k s t) (hk : k ∉ [.session]) :
    t.out = s.out := by
  cases u <;> simp_all

theorem Update.rp_eq {k : Part} {s t : State} (u : Update k s t) (hk : k ∉ [.session]) :
    t.rp = s.rp := by
  cases u <;> simp_all

section Direction

variable {i : Instr} {s t : State} (h : exec i s = .next t)
include h

theorem exec_out : t.out = s.out ∨ AppendsBytes i := by
  have D := decodeCommands_out
  have eq {α : Type} {x : Op α} {g : α → Word} (hop : opOf i = do let a ← x; pure (g a))
      (hx : Keeps (FieldEq State.out) x) : t.out = s.out ∨ AppendsBytes i :=
    .inl (exec_fieldEq (fun _ _ _ => rfl) hop hx h)
  cases i with
  | mqeCode | mqeCodeNum | mqeFlush | mqeMarkEnd | ebEncode => exact .inr (by simp [AppendsBytes])
  | mqeInit => exact eq rfl fun s => (mqeInit_streams s).1
  | mqdInit => exact eq rfl D.init
  | mqdDecode ctx => exact eq rfl (D.decode ctx)
  | mqdDecodeNum n ctx => exact eq rfl (D.decodeNum n ctx)
  | mqdSkipEnd => exact eq rfl D.skipEnd
  | ebDecode => exact eq rfl D.block
  | ebSigPass dir p =>
    cases dir with
    | encode => exact .inr (by simp [AppendsBytes])
    | decode => exact eq rfl (D.pass.sigPass p)
  | ebRefPass dir p =>
    cases dir with
    | encode => exact .inr (by simp [AppendsBytes])
    | decode => exact eq rfl (D.pass.refPass p)
  | ebCleanup dir p =>
    cases dir with
    | encode => exact .inr (by simp [AppendsBytes])
    | decode => exact eq rfl (D.pass.cleanup p)
  | _ =>
    exact .inl ((exec_frame State.out h (fun _ _ _ => rfl) Update.out_eq).resolve_right
      (by simp [Writes, footprint]))

theorem exec_rp : t.rp = s.rp ∨ TakesBytes i := by
  have E := encodeCommands_rp
  have eq {α : Type} {x : Op α} {g : α → Word} (hop : opOf i = do let a ← x; pure (g a))
      (hx : Keeps (FieldEq State.rp) x) : t.rp = s.rp ∨ TakesBytes i :=
    .inl (exec_fieldEq (fun _ _ _ => rfl) hop hx h)
  cases i with
  | mqdInit | mqdDecode | mqdDecodeNum | mqdSkipEnd | ebDecode => exact .inr (by simp [TakesBytes])
  | mqeInit => exact eq rfl E.init
  | mqeCode b ctx => exact eq rfl (E.code b ctx)
  | mqeCodeNum v n ctx => exact eq rfl (E.codeNum v n ctx)
  | mqeFlush => exact eq rfl E.flush
  | mqeMarkEnd => exact eq rfl E.markEnd
  | ebEncode => exact eq rfl E.block
  | ebSigPass dir p =>
    cases dir with
    | encode => exact eq rfl (E.pass.sigPass p)
    | decode => exact .inr (by simp [TakesBytes])
  | ebRefPass dir p =>
    cases dir with
    | encode => exact eq rfl (E.pass.refPass p)
    | decode => exact .inr (by simp [TakesBytes])
  | ebCleanup dir p =>
    cases dir with
    | encode => exact eq rfl (E.pass.cleanup p)
    | decode => exact .inr (by simp [TakesBytes])
  | _ =>
    exact .inl ((exec_frame State.rp h (fun _ _ _ => rfl) Update.rp_eq).resolve_right
      (by simp [Writes, footprint]))

end Direction

/-- Settles O49: every update moves the streams forward only, the decoder's append nothing and the
encoder's take nothing. -/
theorem streamsOnlyMoveForward : Obligations.StreamsOnlyMoveForward := by
  intro i s t h
  obtain ⟨hout, hinp, hrp, hle⟩ := streamsForward_commandKeeps.exec h
  exact ⟨hout, hinp, hrp, hle, exec_out h, exec_rp h⟩

end Sys2Proof.Machine
end

section
/-! PROOF. The marker search of `MQD.SKIPEND` (44_mq_decoder.md R236): turns over bytes that are no
marker, and the three ways it ends. -/

namespace Sys2Proof.Machine

open Sys2Proof.Safety

/-- The byte taken last, or the j-th one after it that is still to be taken. -/
def byteBefore (s : State) (j : Nat) : Option Byte :=
  if j = 0 then some s.coder.t else s.inp[s.rp + j - 1]?

/-- A marker begins with that byte (30_encoding.md R94). -/
def MarkerAt (s : State) (j : Nat) : Prop :=
  byteBefore s j = some 0xFF ∧ s.inp[s.rp + j]? = some 0xA1

/-- The state after the search has passed `j` bytes, the last of them `t`. -/
def skipped (s : State) (j : Nat) (t : Byte) : State :=
  { s with
    coder := { s.coder with t := t, l := s.coder.l + j }
    rp := s.rp + j, portCalls := s.portCalls + 2 * j }

theorem quietPorts_skipped {s : State} (h : quietPorts s) (j : Nat) (t : Byte) :
    quietPorts (skipped s j t) := quietPorts_mono h rfl (Nat.le_add_right ..)

section Turn

variable {s : State} (hq : quietPorts s) (fuel g : Nat)
include hq

theorem skipScan_end (hn : s.inp[s.rp]? = none) :
    skipScan (fuel + 1) g s
      = .error (.decodeFailure .truncated) { s with portCalls := s.portCalls + 1 } := by
  simp only [skipScan, run_bind, peekIn_quiet hq, hn, run_raise]

theorem skipScan_marker (ht : s.coder.t = 0xFF) (hn : s.inp[s.rp]? = some 0xA1) :
    skipScan (fuel + 1) g s = .ok g { s with
      coder := { s.coder with l := s.coder.l + 1 }
      rp := s.rp + 1, portCalls := s.portCalls + 2 } := by
  have hq' : quietPorts { s with portCalls := s.portCalls + 1 } :=
    quietPorts_mono hq rfl (Nat.le_succ _)
  simp only [skipScan, run_bind, peekIn_quiet hq, hn, run_getS]
  rw [if_pos ⟨ht, trivial⟩]
  simp only [run_bind, takeIn_quiet (s := { s with portCalls := s.portCalls + 1 }) hq' hn]
  rfl

variable {n : Byte} (hn : s.inp[s.rp]? = some n) (hm : ¬ (s.coder.t = 0xFF ∧ n = 0xA1))
include hn hm

theorem skipScan_garbage (hg : s.params.codeValueBits - 2 < g + 8) :
    skipScan (fuel + 1) g s
      = .error (.decodeFailure .garbage) { s with portCalls := s.portCalls + 1 } := by
  simp only [skipScan, run_bind, peekIn_quiet hq, hn, run_getS, if_neg hm, if_pos hg, run_raise]

theorem skipScan_turn (hg : g + 8 ≤ s.params.codeValueBits - 2) :
    skipScan (fuel + 1) g s = skipScan fuel (g + 8) (skipped s 1 n) := by
  have hq' : quietPorts { s with portCalls := s.portCalls + 1 } :=
    quietPorts_mono hq rfl (Nat.le_succ _)
  simp only [skipScan, run_bind, peekIn_quiet hq, hn, run_getS, if_neg hm, if_neg (not_lt.mpr hg),
    takeToT, takeIn_quiet (s := { s with portCalls := s.portCalls + 1 }) hq' hn]
  rfl

end Turn

/-- The search over `k` bytes none of which begins a marker, within the tolerance. -/
theorem skipScan_skips {s : State} (hq : quietPorts s) (fuel : Nat) {k : Nat}
    (hm : ∀ j < k, ¬ MarkerAt s j) (hin : ∀ j < k, s.rp + j < s.inp.length)
    (hg : 8 * k + 2 ≤ max 2 s.params.codeValueBits) :
    ∃ t, byteBefore s k = some t ∧
      skipScan (fuel + k) 0 s = skipScan fuel (8 * k) (skipped s k t) := by
  induction k generalizing fuel with
  | zero => exact ⟨s.coder.t, rfl, by simp [skipped]⟩
  | succ k ih =>
    obtain ⟨t, ht, run⟩ := ih (fuel + 1) (fun j hj => hm j (by omega))
      (fun j hj => hin j (by omega)) (by omega)
    obtain ⟨n, hn⟩ : ∃ n, s.inp[s.rp + k]? = some n :=
      ⟨_, List.getElem?_eq_getElem (hin k (Nat.lt_succ_self k))⟩
    refine ⟨n, hn, ?_⟩
    have hmark : ¬ (t = 0xFF ∧ n = 0xA1) := fun ⟨h, h'⟩ =>
      hm k (Nat.lt_succ_self k) ⟨h ▸ ht, h' ▸ hn⟩
    rw [show fuel + (k + 1) = fuel + 1 + k by omega, run,
      skipScan_turn (quietPorts_skipped hq k t) fuel (8 * k) hn hmark
        (show 8 * k + 8 ≤ s.params.codeValueBits - 2 by omega)]
    simp [skipped, add_assoc, Nat.mul_add]

/-- What `MQD.SKIPEND` answers is what its search does. -/
theorem exec_mqdSkipEnd {s : State} (hf : s.status.fault = false)
    (hm : s.status.mqMode = .decoding) :
    (∀ g t, skipScan (s.inp.length - s.rp + 1) 0 s = .ok g t →
      exec .mqdSkipEnd s = okNext (BitVec.ofNat 32 g) (setMqMode .idle t)) ∧
    (∀ code t, skipScan (s.inp.length - s.rp + 1) 0 s = .error (.decodeFailure code) t →
      exec .mqdSkipEnd s = .next (takeDecodeFailure code t)) := by
  rw [exec_eq_command fun _ => Instr.noConfusion]
  refine ⟨fun g t h => command_ok hf ?_,
    fun code t h => command_error (e := .decodeFailure code) hf ?_⟩ <;>
    simp only [opOf, mqdSkipEnd, run_bind, run_requireMode, if_pos hm, run_getS, h, run_modS,
      run_pure]

/-- Settles O46: the search passes the bytes before the one in question, whose turn ends it. -/
theorem skipEndFindsMarker : Obligations.SkipEndFindsMarker := by
  intro s k hf hm hq before marker
  obtain ⟨hok, herr⟩ := exec_mqdSkipEnd hf hm
  have lt_of_some {j : Nat} {x : Byte} (h : s.inp[s.rp + j]? = some x) :
      s.rp + j < s.inp.length := (List.getElem?_eq_some_iff.mp h).1
  refine ⟨fun hno hk hg => ?_, fun hno hg hg' => ?_, fun hno hend hg => ?_⟩
  · have hlt := lt_of_some hk.2
    obtain ⟨t, ht, run⟩ := skipScan_skips hq (s.inp.length - s.rp - k + 1) hno
      (fun j hj => by omega) hg
    have htff : t = 0xFF := Option.some.inj (ht.symm.trans hk.1)
    subst htff
    rw [skipScan_marker (quietPorts_skipped hq k _) _ _ rfl hk.2] at run
    rw [hok _ _ (by rw [← run]; congr 1; omega)]
    simp [okNext, skipped, setMqMode, add_assoc]
  · obtain ⟨hlt, hnk⟩ := hno k le_rfl
    obtain ⟨t, ht, run⟩ := skipScan_skips hq (s.inp.length - s.rp - k + 1)
      (fun j hj => (hno j (by omega)).2) (fun j hj => (hno j (by omega)).1) hg
    have hn := List.getElem?_eq_getElem hlt
    rw [skipScan_garbage (quietPorts_skipped hq k t) _ _ hn
      (fun h => hnk ⟨ht.trans (congrArg some h.1), hn.trans (congrArg some h.2)⟩)
      (show s.params.codeValueBits - 2 < 8 * k + 8 by omega)] at run
    exact ⟨_, herr _ _ (by rw [← run]; congr 1; omega), rfl, rfl, rfl, rfl⟩
  · obtain ⟨t, ht, run⟩ := skipScan_skips hq 1 hno (fun j hj => by omega) hg
    have hn : s.inp[s.rp + k]? = none := List.getElem?_eq_none (by omega)
    rw [skipScan_end (quietPorts_skipped hq k t) _ _ hn] at run
    exact ⟨_, herr _ _ (by rw [← run]; congr 1; omega), rfl, rfl, rfl, rfl⟩

end Sys2Proof.Machine
end

section
/-! PROOF. The encoder on two states that differ where it does not look: its operations behave alike
if the byte ports do (43_mq_encoder.md R209). -/

namespace Sys2Proof.Machine

open Sys2Proof.Safety

/-- A relation between states with the same registers, probability state and `STATUS` as far as the
encoder looks at them, on which the output port behaves alike. -/
structure EncodeAgrees (R : State → State → Prop) : Prop where
  coder : ∀ s t, R s t → s.coder = t.coder
  pt : ∀ s t, R s t → s.pt = t.pt
  mode : ∀ s t, R s t → s.status.mqMode = t.status.mqMode
  valid : ∀ s t, R s t → s.status.ptValid = t.status.ptValid
  setCoder : ∀ s t k, R s t → R { s with coder := k } { t with coder := k }
  setPt : ∀ s t v, R s t → R { s with pt := v } { t with pt := v }
  putOut : ∀ b, Agrees R (putOut b)

namespace EncodeAgrees

variable {R : State → State → Prop} (K : EncodeAgrees R)
include K

/-- An update that writes the registers and depends on nothing else. -/
theorem modCoder {f : State → State}
    (hf : ∀ s, f s = { s with coder := (f { State.reset with coder := s.coder }).coder }) :
    Agrees R (modS f) :=
  .modS fun s t h => by
    rw [hf s, hf t, K.coder s t h]
    exact K.setCoder s t _ h

/-- Reading the registers. -/
theorem readCoder {β : Type} {f : Coder → Op β} (hf : ∀ k, Agrees R (f k)) :
    Agrees R (getS >>= fun s => f s.coder) := .read State.coder K.coder hf

theorem requireMode (m : MqMode) : Agrees R (requireMode m) :=
  .read (fun s => s.status.mqMode) K.mode
    (f := fun mode => Machine.require (decide (mode = m)) .notStarted) fun _ => .require _ _

theorem requirePt (ctx : Nat) : Agrees R (requirePt ctx) :=
  .read (fun s => s.status.ptValid) K.valid
    (f := fun v => Machine.require v .notInitialised >>= fun _ =>
      Machine.require (decide (ctx ≤ 18)) .badContext)
    fun _ => .bind (.require _ _) fun _ => .require _ _

theorem ptTrans (ctx : Nat) (m sw : Bool) : Agrees R (ptTrans ctx m sw) :=
  .bind (K.requirePt ctx) fun _ => .modS fun s t h => by
    have hp := K.pt s t h
    simp only [Machine.setPt, ptAt, hp]
    exact K.setPt s t _ h

theorem putByte : Agrees R putByte :=
  K.readCoder (f := fun k => Machine.doIf (0 ≤ k.l) (Machine.putOut k.t) >>= fun _ =>
      Machine.modS fun s => setL (s.coder.l + 1) s)
    fun _ => .bind (.doIf (K.putOut _)) fun _ => K.modCoder fun _ => rfl

theorem transferByte : Agrees R transferByte := by
  have seven : Agrees R (modS loadSeven) := K.modCoder fun _ => rfl
  have eight : Agrees R (modS loadEight) := K.modCoder fun _ => rfl
  refine K.readCoder (f := fun k => if k.t = 0xFF then Machine.putByte >>= fun _ => modS loadSeven
    else modS addCarry >>= fun _ => Machine.putByte >>= fun _ => getS >>= fun s =>
      if s.coder.t = 0xFF then modS loadSeven else modS loadEight) fun _ => .ite ?_ ?_
  · exact .bind K.putByte fun _ => seven
  · exact .bind (K.modCoder fun _ => rfl) fun _ => .bind K.putByte fun _ =>
      K.readCoder (f := fun k => if k.t = 0xFF then modS loadSeven else modS loadEight)
        fun _ => .ite seven eight

theorem encRenorm (n : Nat) : Agrees R (encRenorm n) := by
  induction n with
  | zero => exact .pure _
  | succ n ih =>
    exact K.readCoder (f := fun k => Machine.doIf (k.a < 0x8000) (modS doubleOnce >>= fun _ =>
        getS >>= fun s => Machine.doIf (s.coder.ct = 0) Machine.transferByte >>= fun _ =>
          Machine.encRenorm n))
      fun _ => .doIf (.bind (K.modCoder fun _ => rfl) fun _ =>
        K.readCoder (f := fun k => Machine.doIf (k.ct = 0) Machine.transferByte >>= fun _ =>
          Machine.encRenorm n) fun _ => .bind (.doIf K.transferByte) fun _ => ih)

theorem mqeCode (b : Bool) (ctx : Nat) : Agrees R (mqeCode b ctx) :=
  .bind (K.requireMode _) fun _ => .bind (K.requirePt ctx) fun _ =>
    .read (fun s => (codeInterval (qe (ptAt s ctx).idx) (ptAt s ctx).mps b s.coder.a s.coder.c,
        (ptAt s ctx).mps))
      (fun s t h => by simp only [ptAt, K.pt s t h, K.coder s t h])
      (f := fun p => Machine.modS (fun s => setC p.1.2 (setA p.1.1 s)) >>= fun _ =>
        Machine.doIf (p.1.1 < 0x8000)
          (Machine.ptTrans ctx (b == p.2) true >>= fun _ => Machine.encRenorm 15))
      fun _ => .bind (K.modCoder fun _ => rfl) fun _ =>
        .doIf (.bind (K.ptTrans ctx _ _) fun _ => K.encRenorm 15)

theorem flushLoop (n : Nat) (nbits : Int) : Agrees R (flushLoop n nbits) := by
  induction n generalizing nbits with
  | zero => exact .pure _
  | succ n ih =>
    exact .doIf (.bind K.transferByte fun _ =>
      K.readCoder (f := fun k => modS shiftByCt >>= fun _ =>
          Machine.flushLoop n (nbits - k.ct.toNat))
        fun _ => .bind (K.modCoder fun _ => rfl) fun _ => ih _)

theorem mqeFlush : Agrees R mqeFlush :=
  .bind (K.requireMode _) fun _ =>
    K.readCoder (f := fun k => modS shiftByCt >>= fun _ =>
        Machine.flushLoop 2 (12 - (k.ct.toNat : Int)) >>= fun _ => Machine.transferByte)
      fun _ => .bind (K.modCoder fun _ => rfl) fun _ =>
        .bind (K.flushLoop _ _) fun _ => K.transferByte

theorem mqeCodeNum (value nbits ctx : Nat) : Agrees R (mqeCodeNum value nbits ctx) := by
  have bits (n : Nat) : Agrees R (codeBits value ctx n) := by
    induction n with
    | zero => exact .pure _
    | succ n ih => exact .bind (K.mqeCode _ ctx) fun _ => ih
  exact .bind (K.requireMode _) fun _ => .bind (K.requirePt ctx) fun _ =>
    .bind (.require _ _) fun _ => bits nbits

end EncodeAgrees

end Sys2Proof.Machine
end

section
/-! PROOF. `MQE.CODENUM` bit by bit (43_mq_encoder.md R205): no operation of the encoder looks at
the response, so that the commands bit by bit do what the one command does. -/

namespace Sys2Proof.Machine

open Sys2Proof.Safety

/-- Two states that differ in the response at most. -/
def SameButResp (s t : State) : Prop := ∃ r, t = { s with resp := r }

theorem sameButResp_encodeAgrees : EncodeAgrees SameButResp where
  coder := by rintro s _ ⟨r, rfl⟩; rfl
  pt := by rintro s _ ⟨r, rfl⟩; rfl
  mode := by rintro s _ ⟨r, rfl⟩; rfl
  valid := by rintro s _ ⟨r, rfl⟩; rfl
  setCoder := by rintro s _ k ⟨r, rfl⟩; exact ⟨r, rfl⟩
  setPt := by rintro s _ v ⟨r, rfl⟩; exact ⟨r, rfl⟩
  putOut := by
    rintro b s _ ⟨r, rfl⟩
    rw [run_putOut, run_putOut]
    split <;> exact ⟨rfl, r, rfl⟩

/-- The response a command gives replaces the one before it. -/
theorem settle_eq_of_alike {op : Op Word} {s t : State}
    (h : Alike SameButResp (op s) (op t)) : settle op s = settle op t := by
  unfold settle
  cases hs : op s <;> cases ht : op t <;> rw [hs, ht] at h
  · obtain ⟨rfl, r, rfl⟩ := h
    rfl
  · exact h.elim
  · exact h.elim
  · obtain ⟨rfl, r, rfl⟩ := h
    rename_i e _
    cases e <;> rfl

theorem settle_congr {op op' : Op Word} {s s' : State} (h : op s = op' s') :
    settle op s = settle op' s' := by
  rw [settle, settle, h]

theorem not_endsOk_takeRaise (e : Raise) (s : State) : ¬ endsOk (takeRaise e s) := by
  rintro ⟨p, h⟩
  cases e <;> simp [takeRaise, takeProtocolFault, takeDecodeFailure, takeIoFailure] at h

section CodeNum

variable {s : State} {ctx : Nat} (hr : CodeReady s ctx)
include hr

theorem mqeCodeNum_ready (v : Nat) {n : Nat} (hn : n ≤ 16) :
    mqeCodeNum v n ctx s = codeBits v ctx n s := by
  simp only [mqeCodeNum, run_bind, run_requireMode, run_requirePt, requireNbits, run_require,
    hr.mode, hr.valid, hr.label, hn, decide_true, if_true]

theorem opOf_mqeCodeNum (v : Nat) {n : Nat} (hn : n ≤ 16) :
    opOf (.mqeCodeNum v n ctx) s = (codeBits v ctx n >>= fun _ => pure 0) s := by
  rw [opOf, run_bind, run_bind, mqeCodeNum_ready hr v hn]

/-- A decision leaves `STATUS`. -/
theorem mqeCode_status {b : Bool} {u : State} (h : mqeCode b ctx s = .ok () u) :
    u.status = s.status := by
  obtain ⟨v, -, hv | ⟨-, k, bs, n, hv⟩⟩ := emitted_mqeCode hr b <;> rw [hv] at h <;> cases h
  rfl

/-- Coding bits on ports that do not fail ends `ok`. -/
theorem codeBits_ok (v n : Nat) (hq : quietPorts s) :
    ∃ (w : Vector PtEntry 19) (p : Coder × List Byte),
      codeBits v ctx n s = .ok () (emit p { s with pt := w }) ∧
        ∀ k, k ≠ ctx → w[k]? = s.pt[k]? := by
  induction n generalizing s with
  | zero => exact ⟨s.pt, (s.coder, []), by rw [emit_nil]; rfl, fun _ _ => rfl⟩
  | succ n ih =>
    obtain ⟨w, hw, hem⟩ := emitted_mqeCode hr (v.testBit n)
    have hcode := hem.ok hq
    obtain ⟨w', q, hrun, hw'⟩ := ih (s := emit _ { s with pt := w })
      ⟨hr.mode, hr.valid, hr.label⟩ (quietPorts_emit hq)
    refine ⟨w', (q.1, (coded (v.testBit n) (ptAt s ctx) s.coder).2 ++ q.2), ?_,
      fun k hk => (hw' k hk).trans (hw k hk)⟩
    rw [codeBits, run_bind_ok hcode, hrun, ← emit_emit (coded (v.testBit n) (ptAt s ctx) s.coder)]
    rfl

end CodeNum

/-- Settles O38: after the checks `MQE.CODENUM` is the decision of the highest bit and then what
`MQE.CODENUM` of the other bits is after its checks. -/
theorem codeNumIsABitSequence : Obligations.CodeNumIsABitSequence := by
  intro s u v n ctx hf hm hv hc
  have hr : CodeReady s ctx := ⟨hm, hv, hc⟩
  have exec_num (k : Nat) {s : State} (h : s.status.fault = false) :
      exec (.mqeCodeNum v k ctx) s = .next (settle (opOf (.mqeCodeNum v k ctx)) s) := by
    rw [exec_eq_command (fun _ => Instr.noConfusion), command_eq, h]
    rfl
  have answers (k : Nat) {t : State} (hk : k ≤ 16) (h : codeBits v ctx k s = .ok () t) :
      exec (.mqeCodeNum v k ctx) s = okNext 0 t := by
    rw [exec_num k hf, settle, opOf_mqeCodeNum hr v hk, run_bind_ok h]
    rfl
  refine ⟨answers 0 (by decide) rfl, fun hn hu => ?_, fun hn hq => ?_⟩
  · have hu := exec_of_noFault hf hu
    rw [exec_num _ hf]
    cases hcode : mqeCode (v.testBit n) ctx s with
    | ok _ t =>
      have hut : u = respond .ok 0 t := by rw [hu, settle, opOf, run_bind_ok hcode]; rfl
      have hst := mqeCode_status hr hcode
      have ht : CodeReady t ctx := ⟨hst ▸ hm, hst ▸ hv, hc⟩
      have hfu : u.status.fault = false := by rw [hut]; exact hst ▸ hf
      have rest : opOf (.mqeCodeNum v (n + 1) ctx) s = opOf (.mqeCodeNum v n ctx) t := by
        rw [opOf_mqeCodeNum hr v hn, opOf_mqeCodeNum ht v (by omega), codeBits, run_bind, run_bind,
          hcode, run_bind]
      have alike : Agrees SameButResp (opOf (.mqeCodeNum v n ctx)) :=
        .bind (sameButResp_encodeAgrees.mqeCodeNum v n ctx) fun _ => .pure _
      refine ⟨fun _ => ?_, fun hnot => absurd ⟨0, by rw [hut]; rfl⟩ hnot⟩
      rw [exec_num n hfu, settle_congr rest, settle_eq_of_alike (alike t u ⟨_, hut⟩)]
    | error e t =>
      have hut : u = takeRaise e t := by rw [hu, settle, opOf, run_bind_error hcode]
      refine ⟨fun hok => absurd (hut ▸ hok) (not_endsOk_takeRaise e t), fun _ => ?_⟩
      rw [settle, opOf_mqeCodeNum hr v hn, codeBits, run_bind_error (run_bind_error hcode), hut]
  · obtain ⟨w, p, hrun, hw⟩ := codeBits_ok hr v n hq
    exact ⟨emit p { s with pt := w }, p.2, answers n hn hrun, hw⟩

end Sys2Proof.Machine
end

section
/-! PROOF. Two machines that encode the same block (45_pass_sequencer.md R272 (f)): every operation
of an encoding pass behaves alike on both, wherever the block lies in `MEM`. -/

namespace Sys2Proof.Machine

open Sys2Proof.Safety

/-- The two machines hold the same bits D:0 of a block of the same size, depth and sub-band, code it
from the same registers and tables, and have appended the same bytes to `o₁` and `o₂`. -/
structure SameCoding (o₁ o₂ : List Byte) (s t : State) : Prop where
  h : s.cfg.h = t.cfg.h
  w : s.cfg.w = t.cfg.w
  d : s.cfg.d = t.cfg.d
  sb : s.cfg.sb = t.cfg.sb
  geom : geomOK s = geomOK t
  bits : ∀ r c k, r < s.H → c < s.W → k ≤ s.D →
    (wordAt s (memAddr s r c)).getLsbD k = (wordAt t (memAddr t r c)).getLsbD k
  quiet₁ : quietPorts s
  quiet₂ : quietPorts t
  coder : s.coder = t.coder
  pt : s.pt = t.pt
  sig : s.sig = t.sig
  mode : s.status.mqMode = t.status.mqMode
  ptValid : s.status.ptValid = t.status.ptValid
  sigValid : s.status.sigValid = t.status.sigValid
  out : ∃ segment, s.out = o₁ ++ segment ∧ t.out = o₂ ++ segment

/-- The two machines stand in the same plane of the block too. -/
structure SamePlane (o₁ o₂ : List Byte) (s t : State) : Prop extends SameCoding o₁ o₂ s t where
  live : s.status.planeLive = t.status.planeLive
  curPlane : s.curPlane = t.curPlane
  coded : s.coded = t.coded

variable {o₁ o₂ : List Byte}

namespace SameCoding

variable {s t : State} (R : SameCoding o₁ o₂ s t)
include R

theorem height : s.H = t.H := by rw [State.H, R.h, State.H]
theorem width : s.W = t.W := by rw [State.W, R.w, State.W]
theorem depth : s.D = t.D := by rw [State.D, R.d, State.D]

end SameCoding

/-! ### The operations of an encoding pass -/

/-- Operations that behave alike on both machines. -/
abbrev BlockAgrees (o₁ o₂ : List Byte) (α : Type) (x : Op α) : Prop := Agrees (SamePlane o₁ o₂) x

theorem blockAgrees_closed : OpClosed (BlockAgrees o₁ o₂) := ⟨.pure, .bind⟩

theorem blockAgrees_encode : EncodeAgrees (SamePlane o₁ o₂) where
  coder := fun _ _ R => R.coder
  pt := fun _ _ R => R.pt
  mode := fun _ _ R => R.mode
  valid := fun _ _ R => R.ptValid
  setCoder := fun _ _ _ R => { R with coder := rfl }
  setPt := fun _ _ _ R => { R with pt := rfl }
  putOut := fun b s t R => by
    obtain ⟨segment, hs, ht⟩ := R.out
    rw [putOut_quiet R.quiet₁, putOut_quiet R.quiet₂]
    exact ⟨rfl, { R with
      quiet₁ := quietPorts_mono R.quiet₁ rfl (Nat.le_succ _)
      quiet₂ := quietPorts_mono R.quiet₂ rfl (Nat.le_succ _)
      out := ⟨segment ++ [b], by simp [hs], by simp [ht]⟩ }⟩

section Checks

theorem requireGeom_agrees : BlockAgrees o₁ o₂ Unit requireGeom :=
  .read geomOK (fun _ _ R => R.geom) (f := fun g => require g .badConfig) fun _ => .require _ _

theorem requireCoord_agrees (r c : Nat) : BlockAgrees o₁ o₂ Unit (requireCoord r c) :=
  .read (fun s => (s.H, s.W)) (fun _ _ R => by rw [R.height, R.width])
    (f := fun g => require (decide (r < g.1) && decide (c < g.2)) .badCoord) fun _ => .require _ _

theorem requirePlane_agrees (i : Nat) : BlockAgrees o₁ o₂ Unit (requirePlane i) :=
  .read State.D (fun _ _ R => R.depth) (f := fun d => require (decide (i < d)) .badPlane)
    fun _ => .require _ _

theorem requireStrip_agrees (r : Nat) : BlockAgrees o₁ o₂ Unit (requireStrip r) :=
  .read State.H (fun _ _ R => R.height) (f := fun h => require (decide (r + 3 < h)) .badCoord)
    fun _ => .require _ _

theorem requireSig_agrees (r c : Nat) : BlockAgrees o₁ o₂ Unit (requireSig r c) :=
  .bind requireGeom_agrees fun _ =>
    .read (fun s => s.status.sigValid) (fun _ _ R => R.sigValid)
      (f := fun v => require v .notInitialised >>= fun _ => requireCoord r c)
      fun _ => .bind (.require _ _) fun _ => requireCoord_agrees r c

theorem requireLive_agrees (i r c : Nat) : BlockAgrees o₁ o₂ Unit (requireLive i r c) :=
  .bind requireGeom_agrees fun _ =>
    .read (fun s => (s.status.planeLive, s.curPlane)) (fun _ _ R => by rw [R.live, R.curPlane])
      (f := fun g => require g.1 .notInitialised >>= fun _ => requirePlane i >>= fun _ =>
        require (decide (i = g.2.toNat)) .badPlane >>= fun _ => requireCoord r c)
      fun _ => .bind (.require _ _) fun _ => .bind (requirePlane_agrees i) fun _ =>
        .bind (.require _ _) fun _ => requireCoord_agrees r c

theorem requirePass_agrees (dir : Dir) (i : Nat) : BlockAgrees o₁ o₂ Unit (requirePass dir i) :=
  .bind requireGeom_agrees fun _ => .bind (blockAgrees_encode.requireMode _) fun _ =>
    .read (fun s => (s.status.ptValid && s.status.sigValid && s.status.planeLive, s.D, s.curPlane))
      (fun _ _ R => by rw [R.ptValid, R.sigValid, R.live, R.depth, R.curPlane])
      (f := fun g => require g.1 .notInitialised >>= fun _ =>
        require (decide (i < g.2.1) && decide (i = g.2.2.toNat)) .badPlane)
      fun _ => .bind (.require _ _) fun _ => .require _ _

end Checks

/-- After its checks an operation answers what is a function of the tables and the size. -/
theorem answer_agrees {α β : Type} {x : Op Unit} (hx : BlockAgrees o₁ o₂ Unit x) (view : State → β)
    (hv : ∀ s t, SamePlane o₁ o₂ s t → view s = view t) (g : β → α) :
    BlockAgrees o₁ o₂ α (x >>= fun _ => getS >>= fun s => pure (g (view s))) :=
  .bind hx fun _ => .read view hv (f := fun b => Pure.pure (g b)) fun _ => .pure _

/-! #### The significance table and the coded flags -/

section Tables

variable (i r c : Nat)

theorem sigIsSig_agrees : BlockAgrees o₁ o₂ Bool (sigIsSig r c) :=
  answer_agrees (requireSig_agrees r c) State.sig (fun _ _ R => R.sig)
    fun sig => isSignificant sig r c

theorem sigSpCtx_agrees (sb : SubBand) : BlockAgrees o₁ o₂ Nat (sigSpCtx r c sb) :=
  answer_agrees (requireSig_agrees r c) State.sig (fun _ _ R => R.sig)
    fun sig => spLabel (sumHAt sig r c) (sumVAt sig r c) (sumDAt sig r c) sb

theorem sigSignCtx_agrees : BlockAgrees o₁ o₂ (Nat × Bool) (sigSignCtx r c) :=
  answer_agrees (requireSig_agrees r c) (fun s => (s.sig, s.H, s.W))
    (fun _ _ R => by rw [R.sig, R.height, R.width])
    fun v => signClass (contribution v.1 (hNbrs v.2.2 r c)) (contribution v.1 (vNbrs v.2.1 r c))

theorem sigStripZ_agrees (sb : SubBand) : BlockAgrees o₁ o₂ Bool (sigStripZ sb r c) :=
  .bind (requireSig_agrees r c) fun _ =>
    answer_agrees (requireStrip_agrees r) State.sig (fun _ _ R => R.sig)
      fun sig => (List.range 4).all fun j =>
        spLabel (sumHAt sig (r + j) c) (sumVAt sig (r + j) c) (sumDAt sig (r + j) c) sb == lblZero

theorem sigRefCtx_agrees : BlockAgrees o₁ o₂ Nat (sigRefCtx r c) :=
  .bind (requireSig_agrees r c) fun _ =>
    .read State.sig (fun _ _ R => R.sig)
      (f := fun sig => if firstAt sig r c then
          modS (fun s => { s with sig := consumeFirst r c s.sig }) >>= fun _ =>
            Pure.pure (if sumHAt sig r c + sumVAt sig r c + sumDAt sig r c = 0 then 14 else 15)
        else Pure.pure 16)
      fun _ => .ite
        (.bind (.modS fun _ _ R => { R with sig := congrArg (consumeFirst r c) R.sig }) fun _ =>
          .pure _)
        (.pure _)

theorem sigSetSig_agrees (neg : Bool) : BlockAgrees o₁ o₂ Unit (sigSetSig r c neg) :=
  .bind (requireSig_agrees r c) fun _ =>
    .read State.sig (fun _ _ R => R.sig)
      (f := fun sig => require (!isSignificant sig r c) .alreadySignificant >>= fun _ =>
        modS fun s => { s with sig := markSignificant s.H s.W r c neg s.sig })
      fun _ => .bind (.require _ _) fun _ => .modS fun _ _ R =>
        { R with sig := by simp only [R.height, R.width, R.sig] }

theorem bpIsCoded_agrees : BlockAgrees o₁ o₂ Bool (bpIsCoded i r c) :=
  answer_agrees (requireLive_agrees i r c) State.coded (fun _ _ R => R.coded)
    fun coded => cellsGet false coded (cellIndex r c)

theorem bpStripUnc_agrees : BlockAgrees o₁ o₂ Bool (bpStripUnc i r c) :=
  .bind (requireLive_agrees i r c) fun _ =>
    answer_agrees (requireStrip_agrees r) State.coded (fun _ _ R => R.coded)
      fun coded => (List.range 4).all fun j => !cellsGet false coded (cellIndex (r + j) c)

theorem bpMarkCoded_agrees : BlockAgrees o₁ o₂ Unit (bpMarkCoded i r c) :=
  .bind (requireLive_agrees i r c) fun _ => .modS fun _ _ R =>
    { R with coded := by simp only [markCoded_fields, R.coded] }

theorem bpNewPlane_agrees : BlockAgrees o₁ o₂ Unit (bpNewPlane i) :=
  .bind requireGeom_agrees fun _ => .bind (requirePlane_agrees i) fun _ => .modS fun _ _ R =>
    { R with live := rfl, curPlane := rfl, coded := rfl }

end Tables

/-! #### The block's bits -/

section Bits

variable {s t : State} (R : SamePlane o₁ o₂ s t)
include R

/-- Reading a word of the block, on which the machines agree in its bits D:0. -/
theorem memRead_alike {α : Type} (r c : Nat) {f g : Word → Op α}
    (hf : ∀ v w : Word, (∀ k ≤ s.D, v.getLsbD k = w.getLsbD k) →
      Alike (SamePlane o₁ o₂) (f v s) (g w t)) :
    Alike (SamePlane o₁ o₂) ((memRead r c >>= f) s) ((memRead r c >>= g) t) := by
  simp only [run_bind, run_memRead, ← R.height, ← R.width]
  split_ifs with hrc
  · exact hf _ _ fun k hk => R.bits r c k hrc.1 hrc.2 hk
  · exact ⟨rfl, R⟩

theorem firstSetRow_alike {i : Nat} (hi : i ≤ s.D) (r c j n : Nat) :
    Alike (SamePlane o₁ o₂) (firstSetRow i r c j n s) (firstSetRow i r c j n t) := by
  induction n generalizing j with
  | zero => exact ⟨rfl, R⟩
  | succ n ih =>
    refine memRead_alike R (r + j) c fun v w hvw => ?_
    rw [hvw i hi]
    split
    · exact ⟨rfl, R⟩
    · exact ih (j + 1)

end Bits

/-- An operation that behaves alike where the checks of a plane and a position have passed. -/
theorem requireBit_bind_agrees {α : Type} (i r c : Nat) {f : Unit → Op α}
    (hf : ∀ s t, SamePlane o₁ o₂ s t → i < s.D → Alike (SamePlane o₁ o₂) (f () s) (f () t)) :
    BlockAgrees o₁ o₂ α (requireBit i r c >>= f) := fun s t R => by
  simp only [run_bind, run_requireBit, ← R.geom, ← R.depth, ← R.height, ← R.width]
  split_ifs with hg hi hrc
  · exact hf s t R hi
  all_goals exact ⟨rfl, R⟩

theorem bpBitAt_agrees (i r c : Nat) : BlockAgrees o₁ o₂ Bool (bpBitAt i r c) :=
  requireBit_bind_agrees i r c fun _ _ R hi =>
    memRead_alike R r c fun _ _ hvw => ⟨hvw i hi.le, R⟩

theorem bpStripFnz_agrees (i r c : Nat) : BlockAgrees o₁ o₂ (Option Nat) (bpStripFnz i r c) :=
  requireBit_bind_agrees i r c fun s t R hi => by
    simp only [run_bind, run_requireStrip, ← R.height]
    split_ifs
    · exact firstSetRow_alike R hi.le r c 0 4
    · exact ⟨rfl, R⟩

theorem bpSignAt_agrees (r c : Nat) : BlockAgrees o₁ o₂ Bool (bpSignAt r c) :=
  .bind (.bind requireGeom_agrees fun _ => requireCoord_agrees r c) fun _ =>
    .getS_bind fun s t R => memRead_alike R r c fun _ _ hvw =>
      ⟨by rw [hvw s.D le_rfl, R.depth], R⟩

/-! ### The block operation -/

theorem blockAgrees_pass : PassClosed .encode (BlockAgrees o₁ o₂) where
  toOpClosed := blockAgrees_closed
  block := fun {_ f} hf => .read (fun s => (s.H, s.W, s.cfg.sb))
    (fun _ _ R => by rw [R.height, R.width, R.sb]) (f := fun g => f g.1 g.2.1 g.2.2)
    fun _ => hf _ _ _
  passOk := requirePass_agrees .encode
  newPlane := bpNewPlane_agrees
  isSig := sigIsSig_agrees
  spCtx := sigSpCtx_agrees
  signCtx := sigSignCtx_agrees
  refCtx := sigRefCtx_agrees
  setSig := sigSetSig_agrees
  stripZ := fun sb r c => sigStripZ_agrees r c sb
  isCoded := bpIsCoded_agrees
  markCoded := bpMarkCoded_agrees
  stripUnc := bpStripUnc_agrees
  encode := fun _ =>
    { mode := blockAgrees_encode.requireMode _
      label := blockAgrees_encode.requirePt
      nbits := fun _ => .require _ _
      bitAt := bpBitAt_agrees
      signAt := bpSignAt_agrees
      stripFnz := bpStripFnz_agrees
      code := blockAgrees_encode.mqeCode }
  decode := nofun

/-- The registers and tables `EB.ENCODE` begins a block with (45_pass_sequencer.md R260). -/
def encodeOpened (s : State) : State :=
  { s with
    pt := ptInitial, sig := .empty, coder := ⟨0x8000, 0, 0, 12, -1⟩
    status := { s.status with
      mqMode := .encoding, ptValid := true, sigValid := true, ioFail := false } }

/-- What `EB.ENCODE` does after it has begun the block. -/
def encodeRest (d : Nat) : Op Unit := do
  planeLoop .encode (d - 1) d
  mqeFlush
  mqeMarkEnd

theorem sigReset_ok {s : State} (hg : geomOK s = true) :
    sigReset s = .ok () (setSigValid true { s with sig := .empty }) :=
  run_bind_ok (x := requireGeom) (if_pos hg)

theorem mqeInit_ok {s : State} (hm : s.status.mqMode = .idle) :
    mqeInit s = .ok () (setIoFail false (setMqMode .encoding
      { s with coder := ⟨0x8000, 0, 0, 12, -1⟩ })) :=
  run_bind_ok (x := requireIdle) (by rw [run_requireIdle, if_pos hm])

theorem ebEncode_eq {s : State} (hg : geomOK s = true) (hm : s.status.mqMode = .idle) :
    ebEncode s = encodeRest s.D (encodeOpened s) := by
  have geom : requireGeom s = .ok () s := if_pos hg
  have idle : requireIdle s = .ok () s := by rw [run_requireIdle, if_pos hm]
  have pt : ptReset s = .ok () (setPtValid true { s with pt := ptInitial }) := rfl
  rw [ebEncode, run_bind_ok geom, run_bind_ok idle, run_bind_ok pt,
    run_bind_ok (sigReset_ok (by exact hg)), run_bind_ok (mqeInit_ok (by exact hm))]
  rfl

/-- Entering a plane, which need not be the same one before. -/
theorem bpNewPlane_enters {s t : State} (R : SameCoding o₁ o₂ s t) (hg : geomOK s = true) {i : Nat}
    (hi : i < s.D) : Alike (SamePlane o₁ o₂) (bpNewPlane i s) (bpNewPlane i t) := by
  have run {u : State} (hg : geomOK u = true) (hi : i < u.D) : bpNewPlane i u
      = .ok () (setPlaneLive true { u with curPlane := BitVec.ofNat 5 i, coded := [] }) := by
    simp only [bpNewPlane, run_bind, run_requireGeom, run_requirePlane, if_pos hg, if_pos hi,
      run_modS]
  rw [run hg hi, run (R.geom ▸ hg) (R.depth ▸ hi)]
  exact ⟨rfl, { R with live := rfl, curPlane := rfl, coded := rfl }⟩

/-- Two results that are alike go on alike. -/
theorem Alike.bind {α β : Type} {R S : State → State → Prop} {x : Op α} {f : α → Op β} {s t : State}
    (hx : Alike R (x s) (x t)) (hf : ∀ a u v, R u v → Alike S (f a u) (f a v))
    (hS : ∀ u v, R u v → S u v) : Alike S ((x >>= f) s) ((x >>= f) t) := by
  rw [run_bind, run_bind]
  cases hs : x s <;> cases ht : x t <;> rw [hs, ht] at hx
  · obtain ⟨rfl, hR⟩ := hx
    exact hf _ _ _ hR
  · exact hx.elim
  · exact hx.elim
  · exact ⟨hx.1, hS _ _ hx.2⟩

theorem encodeRest_alike {s t : State} (R : SameCoding o₁ o₂ s t) (hg : geomOK s = true) :
    Alike (SamePlane o₁ o₂) (encodeRest s.D s) (encodeRest t.D t) := by
  have K := blockAgrees_pass (o₁ := o₁) (o₂ := o₂)
  have E := blockAgrees_encode (o₁ := o₁) (o₂ := o₂)
  obtain ⟨n, hn⟩ : ∃ n, s.D = n + 1 := by
    simp only [geomOK, Bool.and_eq_true, decide_eq_true_eq] at hg
    exact ⟨s.D - 1, by omega⟩
  have enter := bpNewPlane_enters R hg (show n < s.D by omega)
  have passes (top : Nat) : BlockAgrees o₁ o₂ Unit
      (doIf (n ≠ top) (do sigPass .encode n; refPass .encode n) >>= fun _ => cleanup .encode n) :=
    K.bind (K.doIf (K.bind (K.sigPass n) fun _ => K.refPass n)) fun _ => K.cleanup n
  have finish : BlockAgrees o₁ o₂ Unit (mqeFlush >>= fun _ => mqeMarkEnd) :=
    .bind E.mqeFlush fun _ => .bind (E.requireMode _) fun _ => .bind (E.putOut _) fun _ =>
      .bind (E.putOut _) fun _ => .modS fun _ _ R => { R with mode := rfl }
  have same (u v : State) (h : SamePlane o₁ o₂ u v) := h
  rw [← R.depth, hn]
  exact ((enter.bind (fun _ => passes _) same).bind (fun _ => K.planeLoop n n) same).bind
    (fun _ => finish) same

/-- Taking what an operation raised, or its answer, leaves the tables and `OUT`. -/
theorem settle_alike {op : Op Word} {s t : State}
    (h : Alike (SamePlane o₁ o₂) (op s) (op t)) :
    (settle op s).pt = (settle op t).pt ∧
      ∃ segment, (settle op s).out = o₁ ++ segment ∧ (settle op t).out = o₂ ++ segment := by
  have ends (e : Raise) (u : State) : (takeRaise e u).pt = u.pt ∧ (takeRaise e u).out = u.out := by
    cases e <;> exact ⟨rfl, rfl⟩
  unfold settle
  cases hs : op s <;> cases ht : op t <;> rw [hs, ht] at h
  · exact ⟨h.2.pt, h.2.out⟩
  · exact h.elim
  · exact h.elim
  · simp only [ends]
    exact ⟨h.2.pt, h.2.out⟩

/-- Settles O54: once the block is begun and its first plane entered, the two machines agree on all
that an encoding pass looks at, and every operation keeps them so. -/
theorem encodeDependsOnBlockOnly : Obligations.EncodeDependsOnBlockOnly := by
  intro s₁ s₂ t₁ t₂ hf₁ hf₂ hg₁ hg₂ hm₁ hm₂ hq₁ hq₂ hh hw hd hsb hbits h₁ h₂
  have R : SameCoding s₁.out s₂.out (encodeOpened s₁) (encodeOpened s₂) :=
    { h := hh, w := hw, d := hd, sb := hsb, geom := hg₁.trans hg₂.symm, bits := hbits
      quiet₁ := hq₁, quiet₂ := hq₂, coder := rfl, pt := rfl, sig := rfl, mode := rfl, ptValid := rfl
      sigValid := rfl, out := ⟨[], by simp [encodeOpened], by simp [encodeOpened]⟩ }
  have alike : Alike (SamePlane s₁.out s₂.out) (ebEncode s₁) (ebEncode s₂) := by
    rw [ebEncode_eq hg₁ hm₁, ebEncode_eq hg₂ hm₂]
    exact encodeRest_alike R hg₁
  rw [exec_of_noFault hf₁ h₁, exec_of_noFault hf₂ h₂]
  exact settle_alike (alike.bind (fun _ _ _ h => ⟨rfl, h⟩) fun _ _ h => h)

end Sys2Proof.Machine
end

section
/-! PROOF. Decoding the word of a command (30_encoding.md R96, R97). -/
namespace Sys2Proof.Laws.RoundTrip

/-- Settles O1: by the round trip of each command. -/
theorem decodeOfEncode : Obligations.DecodeOfEncode := fun i => by
  cases i with
  | ptReset => exact ptReset
  | ptEst ctx => exact ptEst ctx
  | ptTrans ctx m sw => exact ptTrans ctx m sw
  | sigReset => exact sigReset
  | sigIsSig r c => exact sigIsSig r c
  | sigSpCtx r c sb => exact sigSpCtx r c sb
  | sigSignCtx r c => exact sigSignCtx r c
  | sigRefCtx r c => exact sigRefCtx r c
  | sigSetSig r c neg => exact sigSetSig r c neg
  | sigStripZ sb r c => exact sigStripZ sb r c
  | bpNewPlane i => exact bpNewPlane i
  | bpBitAt i r c => exact bpBitAt i r c
  | bpSetBit i r c b => exact bpSetBit i r c b
  | bpSignAt r c => exact bpSignAt r c
  | bpSetSign r c b => exact bpSetSign r c b
  | bpIsCoded i r c => exact bpIsCoded i r c
  | bpMarkCoded i r c => exact bpMarkCoded i r c
  | bpNFull => exact bpNFull
  | bpLastH => exact bpLastH
  | bpLastOff => exact bpLastOff
  | bpStripUnc i r c => exact bpStripUnc i r c
  | bpStripFnz i r c => exact bpStripFnz i r c
  | mqeInit => exact mqeInit
  | mqeCode b ctx => exact mqeCode b ctx
  | mqeCodeNum value nbits ctx => exact mqeCodeNum value nbits ctx
  | mqeFlush => exact mqeFlush
  | mqeMarkEnd => exact mqeMarkEnd
  | mqdInit => exact mqdInit
  | mqdDecode ctx => exact mqdDecode ctx
  | mqdDecodeNum nbits ctx => exact mqdDecodeNum nbits ctx
  | mqdSkipEnd => exact mqdSkipEnd
  | ebEncode => exact ebEncode
  | ebDecode => exact ebDecode
  | ebSigPass dir i => exact ebSigPass dir i
  | ebRefPass dir i => exact ebRefPass dir i
  | ebCleanup dir i => exact ebCleanup dir i
  | cfgSet reg val => exact cfgSet reg val
  | cfgGet reg => exact cfgGet reg

end Sys2Proof.Laws.RoundTrip
end

section
/-! PROOF. What the decoder reads from a word (30_encoding.md R96 to R99): the row of the opcode map
that the word's opcode selects, the command read where the row's zero field is zero, and that the
command's own word is the one it was read from. -/

namespace Sys2Proof

open Sys2Proof.Safety

/-! ### Fields -/

theorem field_lt (w hi lo : Nat) : field w hi lo < 2 ^ (hi - lo + 1) :=
  Nat.mod_lt _ (Nat.two_pow_pos _)

theorem bitNat_bitField (w k : Nat) : bitNat (bitField w k) = field w k k := by
  have hlt := Nat.mod_lt (w / 2 ^ k) two_pos
  simp only [bitNat, bitField, field, Nat.sub_self, Nat.zero_add, Nat.pow_one, beq_iff_eq]
  split_ifs <;> omega

@[simp] theorem bitNat_false : bitNat false = 0 := rfl

theorem subBandId_subBandOf {n : Nat} (h : n < 4) : subBandId (subBandOf n) = n := by
  unfold subBandOf
  split_ifs <;> simp only [subBandId] <;> omega

theorem dirBit_dirOf (b : Bool) : dirBit (dirOf b) = b := by cases b <;> rfl

@[simp] theorem wfCtx_field (w : Nat) : wfCtx (field w 4 0) = true :=
  decide_eq_true (field_lt w 4 0)

@[simp] theorem wfPlane_field (w : Nat) : wfPlane (field w 4 0) = true :=
  decide_eq_true (field_lt w 4 0)

@[simp] theorem wfPos_field (w : Nat) : wfPos (field w 25 16) (field w 15 6) = true := by
  simp only [wfPos, Bool.and_eq_true, decide_eq_true_eq]
  exact ⟨field_lt w 25 16, field_lt w 15 6⟩

/-! ### Formats -/

section Format

variable {w op : Nat} (hw : w < 2 ^ 32) (hop : field w 31 26 = op)
include hw hop

/-- A word is its opcode and the 26 bits below. -/
theorem word_eq : op * 2 ^ 26 + field w 25 0 = w := by
  subst hop
  simp only [field]
  omega

theorem encN_eq (h : field w 25 0 = 0) : encN op = w := by
  rw [← word_eq hw hop, h, encN, Nat.add_zero]

theorem encC_eq {sw b : Bool} {ctx : Nat}
    (h : field w 25 0 = bitNat sw * 2 ^ 6 + bitNat b * 2 ^ 5 + ctx) : encC op sw b ctx = w := by
  rw [← word_eq hw hop, h, encC]
  omega

theorem encV_eq {value nbits ctx : Nat}
    (h : field w 25 0 = value * 2 ^ 10 + nbits * 2 ^ 5 + ctx) : encV op value nbits ctx = w := by
  rw [← word_eq hw hop, h, encV]
  omega

theorem encP_eq {r c lo : Nat} {hi : Bool}
    (h : field w 25 0 = r * 2 ^ 16 + c * 2 ^ 6 + bitNat hi * 2 ^ 5 + lo) :
    encP op r c hi lo = w := by
  rw [← word_eq hw hop, h, encP]
  omega

theorem encG_eq {reg val : Nat} (h : field w 25 0 = reg * 2 ^ 20 + val) : encG op reg val = w := by
  rw [← word_eq hw hop, h, encG]
  omega

end Format

/-! ### Rows of the opcode map -/

/-- The operands fit their fields and the word is the command's. -/
def Reads (w : Nat) (i : Instr) : Prop := i.wellFormed = true ∧ encodeNat i = w

/-- What the decoder does with a word: the row of its opcode, with a zero field or without, or no
row. -/
inductive ReadsRow (w : Nat) : Decoded → Prop where
  | zero {op hi lo : Nat} {i : Instr} (row : (op, some (hi, lo)) ∈ commandTable)
      (opcode : field w 31 26 = op) (reads : field w hi lo = 0 → Reads w i) :
      ReadsRow w (ifZero (field w hi lo) i)
  | free {op : Nat} {i : Instr} (row : (op, none) ∈ commandTable) (opcode : field w 31 26 = op)
      (reads : Reads w i) : ReadsRow w (.command i)
  | unassigned (norow : field w 31 26 ∉ commandTable.map Prod.fst) :
      ReadsRow w (.illegal .opcode)

/-- Row by row of the opcode map (30_encoding.md R97): what the operands' fields hold fits them, and
the fields of the format are the word. -/
theorem readsRow_decodeNat {w : Nat} (hw : w < 2 ^ 32) : ReadsRow w (decodeNat w) := by
  have position := wfPos_field w
  have plane := wfPlane_field w
  have label := wfCtx_field w
  have nbits := field_lt w 9 5
  have reg := field_lt w 25 20
  unfold decodeNat
  split
  -- no operands
  case h_1 _ hop | h_4 _ hop | h_18 _ hop | h_19 _ hop | h_20 _ hop | h_23 _ hop | h_26 _ hop
      | h_27 _ hop | h_28 _ hop | h_31 _ hop | h_32 _ hop | h_33 _ hop =>
    exact .zero (by decide) hop fun hz => ⟨rfl, encN_eq hw hop hz⟩
  -- a label: PT.EST, MQD.DECODE
  case h_2 _ hop | h_29 _ hop =>
    exact .zero (by decide) hop fun hz => ⟨label, encC_eq hw hop (by
      simp only [bitNat_false, field] at hz ⊢; omega)⟩
  -- PT.TRANS
  case h_3 _ hop =>
    exact .zero (by decide) hop fun hz => ⟨label, encC_eq hw hop (by
      simp only [bitNat_bitField, field] at hz ⊢; omega)⟩
  -- MQE.CODE
  case h_24 _ hop =>
    exact .zero (by decide) hop fun hz => ⟨label, encC_eq hw hop (by
      simp only [bitNat_false, bitNat_bitField, field] at hz ⊢; omega)⟩
  -- a position: SIG.ISSIG, SIG.SIGNCTX, SIG.REFCTX, BP.SIGNAT
  case h_5 _ hop | h_7 _ hop | h_8 _ hop | h_14 _ hop =>
    exact .zero (by decide) hop fun hz => ⟨position, encP_eq hw hop (by
      simp only [bitNat_false, field] at hz ⊢; omega)⟩
  -- a position and a sub-band: SIG.SPCTX, SIG.STRIPZ
  case h_6 _ hop | h_10 _ hop =>
    exact .zero (by decide) hop fun hz => ⟨position, encP_eq hw hop (by
      rw [subBandId_subBandOf (field_lt w 1 0)]
      simp only [bitNat_false, field] at hz ⊢; omega)⟩
  -- a position and a bit: SIG.SETSIG
  case h_9 _ hop =>
    exact .zero (by decide) hop fun hz => ⟨position, encP_eq hw hop (by
      simp only [bitNat_false, bitNat_bitField, field] at hz ⊢; omega)⟩
  -- BP.SETSIGN
  case h_15 _ hop =>
    exact .zero (by decide) hop fun hz => ⟨position, encP_eq hw hop (by
      simp only [bitNat_bitField, field] at hz ⊢; omega)⟩
  -- a plane: BP.NEWPLANE
  case h_11 _ hop =>
    exact .zero (by decide) hop fun hz => ⟨plane, encP_eq hw hop (by
      simp only [bitNat_false, field] at hz ⊢; omega)⟩
  -- a plane and a position: BP.BITAT, BP.ISCODED, BP.MARKCODED, BP.STRIPUNC, BP.STRIPFNZ
  case h_12 _ hop | h_16 _ hop | h_17 _ hop | h_21 _ hop | h_22 _ hop =>
    exact .zero (by decide) hop fun hz => ⟨by simp [Instr.wellFormed], encP_eq hw hop (by
      simp only [bitNat_false, field] at hz ⊢; omega)⟩
  -- BP.SETBIT
  case h_13 _ hop =>
    exact .free (by decide) hop ⟨by simp [Instr.wellFormed], encP_eq hw hop (by
      simp only [bitNat_bitField, field]; omega)⟩
  -- a plane and a direction: EB.SIGPASS, EB.REFPASS, EB.CLEANUP
  case h_34 _ hop | h_35 _ hop | h_36 _ hop =>
    exact .zero (by decide) hop fun hz => ⟨plane, encP_eq hw hop (by
      rw [dirBit_dirOf]
      simp only [bitNat_bitField, field] at hz ⊢; omega)⟩
  -- a number: MQE.CODENUM
  case h_25 _ hop =>
    exact .free (by decide) hop ⟨by simpa [Instr.wellFormed] using ⟨field_lt w 25 10, nbits⟩,
      encV_eq hw hop (by simp only [field]; omega)⟩
  -- MQD.DECODENUM
  case h_30 _ hop =>
    exact .zero (by decide) hop fun hz => ⟨by simpa [Instr.wellFormed] using nbits,
      encV_eq hw hop (by simp only [field] at hz ⊢; omega)⟩
  -- a register: CFG.SET
  case h_37 _ hop =>
    exact .free (by decide) hop ⟨by simpa [Instr.wellFormed] using ⟨reg, field_lt w 19 0⟩,
      encG_eq hw hop (by simp only [field]; omega)⟩
  -- CFG.GET
  case h_38 _ hop =>
    exact .zero (by decide) hop fun hz => ⟨by simpa [Instr.wellFormed] using reg,
      encG_eq hw hop (by simp only [field] at hz ⊢; omega)⟩
  -- an opcode without a row
  case h_39 =>
    exact .unassigned (by simp_all [commandTable])

/-- What the decoder reads from a word. -/
theorem readsRow_decode (w : Word) : ReadsRow w.toNat (decode w) := readsRow_decodeNat w.isLt

theorem ifZero_eq_command {mbz : Nat} {i j : Instr} :
    ifZero mbz i = .command j ↔ mbz = 0 ∧ i = j := by
  unfold ifZero
  split_ifs with h <;> simp [h]

/-- What a word decodes to is the command of its row, which the word's fields fill. -/
theorem reads_of_decode {w : Word} {i : Instr} (hd : decode w = .command i) :
    Reads w.toNat i := by
  have row := readsRow_decode w
  generalize decode w = d at hd row
  cases row with
  | zero _ _ reads =>
    obtain ⟨hz, rfl⟩ := ifZero_eq_command.mp hd
    exact reads hz
  | free _ _ reads =>
    cases hd
    exact reads
  | unassigned => nomatch hd

/-- Settles O2: the fields fill the command, and the word is made of nothing else. -/
theorem encodeOfDecode : Obligations.EncodeOfDecode := fun w i hd => by
  obtain ⟨hwf, hword⟩ := reads_of_decode hd
  exact ⟨hwf, by rw [encode, hword, BitVec.ofNat_toNat, BitVec.setWidth_eq]⟩

/-! ### Words that are no command -/

/-- An opcode has one row. -/
theorem commandTable_unique : ∀ a ∈ commandTable, ∀ b ∈ commandTable, a.1 = b.1 → a = b := by
  decide

/-- With the row of its opcode, a word is a command where that row's zero field is zero. -/
theorem isCommandWord_iff {w : Word} {op : Nat} {z : Option (Nat × Nat)}
    (row : (op, z) ∈ commandTable) (hop : field w.toNat 31 26 = op) :
    isCommandWord w ↔ ∀ x, z = some x → field w.toNat x.1 x.2 = 0 := by
  constructor
  · rintro ⟨row', hrow', hop', hz⟩
    obtain rfl := commandTable_unique _ row _ hrow' (hop.symm.trans hop')
    exact hz
  · exact fun hz => ⟨_, row, hop, hz⟩

theorem decode_command_iff (w : Word) : (∃ i, decode w = .command i) ↔ isCommandWord w := by
  have row := readsRow_decode w
  generalize decode w = d at row
  cases row with
  | zero row hop _ => simp [ifZero_eq_command, isCommandWord_iff row hop]
  | free row hop _ => simp [isCommandWord_iff row hop]
  | unassigned norow =>
    refine ⟨nofun, fun ⟨row, hrow, hop, _⟩ => absurd ?_ norow⟩
    exact hop ▸ List.mem_map_of_mem hrow

theorem not_isCommandWord_zero : ¬ isCommandWord 0 := by
  rw [← decode_command_iff, show decode 0 = .illegal .opcode by decide]
  rintro ⟨_, ⟨⟩⟩

/-- The opcode of a word as the sticky refusal looks at it. -/
theorem opcode_eq_div (w : Word) : field w.toNat 31 26 = w.toNat / 2 ^ 26 := by
  have := w.isLt
  simp only [field]
  omega

/-- A word that is no command runs as an illegal one. -/
theorem runWord_of_not_command {w : Word} (h : ¬ isCommandWord w) (s : Machine.State) :
    Machine.runWord w s = .next (Machine.illegalWord w s) := by
  rw [← decode_command_iff] at h
  unfold Machine.runWord
  split
  · exact absurd ⟨_, ‹_›⟩ h
  · rfl

/-- A first ProtocolFault. -/
theorem takeProtocolFault_first {s : Machine.State} (hf : s.status.fault = false)
    (code : Machine.FaultCode) : .next (Machine.takeProtocolFault code s) = faultNext code s := by
  simp [Machine.takeProtocolFault, Machine.respond, Machine.setFault, faultNext, hf]

/-- A ProtocolFault after the first answers its code and keeps the first one's. -/
theorem takeProtocolFault_later {s : Machine.State} (hf : s.status.fault = true)
    (code : Machine.FaultCode) : Machine.takeProtocolFault code s
      = { s with resp := some ⟨.protocolFault, BitVec.ofNat 32 (Machine.faultCodeNat code)⟩ } := by
  simp [Machine.takeProtocolFault, Machine.respond, Machine.setFault, ← hf]

/-- Settles O4: a word is a command where its row's zero field is zero; the fault and the opcode
decide how another one is refused. -/
theorem illegalWordsFault : Obligations.IllegalWordsFault := by
  refine ⟨decode_command_iff, not_isCommandWord_zero, fun s w h => ?_⟩
  rw [runWord_of_not_command h, Machine.illegalWord, ← opcode_eq_div]
  refine ⟨fun hf => ?_, fun hf hop => ?_, fun hf hop => ?_⟩
  · rw [if_neg (by simp [hf]), takeProtocolFault_first hf]
  · rw [if_pos (by simp [hf, hop])]
    rfl
  · rw [if_neg (by simp [hop]), takeProtocolFault_later hf]
    rfl

/-- Settles O3: the decoder on the nine words. -/
theorem writtenWordsDecode : Obligations.WrittenWordsDecode := by
  unfold Obligations.WrittenWordsDecode
  decide

end Sys2Proof
end

section
/-! PROOF. Operations that end `ok`: the calculus of what they leave, sequence by sequence and loop
by loop (60_exceptions.md R310). -/

namespace Sys2Proof.Machine

/-- From `s` the operation ends `ok`, with a result and in a state of which `Q` holds. -/
def Completes {α : Type} (x : Op α) (s : State) (Q : α → State → Prop) : Prop :=
  ∃ a t, x s = .ok a t ∧ Q a t

section Completes

variable {α β : Type} {x : Op α} {s : State} {Q : α → State → Prop}

theorem Completes.of_ok {a : α} {t : State} (h : x s = .ok a t) (hQ : Q a t) : Completes x s Q :=
  ⟨a, t, h, hQ⟩

theorem Completes.pure (a : α) (h : Q a s) : Completes (pure a) s Q := .of_ok rfl h

theorem Completes.mono {Q' : α → State → Prop} (hx : Completes x s Q)
    (h : ∀ a t, Q a t → Q' a t) : Completes x s Q' := by
  obtain ⟨a, t, hr, hQ⟩ := hx
  exact ⟨a, t, hr, h a t hQ⟩

theorem Completes.bind {f : α → Op β} {Q' : β → State → Prop} (hx : Completes x s Q)
    (hf : ∀ a t, Q a t → Completes (f a) t Q') : Completes (x >>= f) s Q' := by
  obtain ⟨a, t, hr, hQ⟩ := hx
  rw [Completes, run_bind_ok hr]
  exact hf a t hQ

/-- An operation whose result and state are known, and then the rest. -/
theorem Completes.bind_ok {f : α → Op β} {Q' : β → State → Prop} {a : α} {t : State}
    (hx : x s = .ok a t) (hf : Completes (f a) t Q') : Completes (x >>= f) s Q' := by
  rwa [Completes, run_bind_ok hx]

theorem Completes.doIf {c : Prop} [Decidable c] {x : Op Unit} {Q : Unit → State → Prop}
    (hx : c → Completes x s Q) (hn : ¬ c → Q () s) : Completes (doIf c x) s Q := by
  unfold Machine.doIf
  split
  · exact hx ‹_›
  · exact .pure () (hn ‹_›)

/-- A loop whose turns keep `I`: each makes its `Done` true, and what a turn does, in the relation
`Le`, leaves what is done as it is. -/
theorem Completes.forEach {γ : Type} {I : State → Prop} {Le : State → State → Prop}
    {Done : γ → State → Prop} (hLe : Chains Le) (stays : ∀ x s t, Le s t → Done x s → Done x t)
    {xs : List γ} {body : γ → Op Unit}
    (turn : ∀ x ∈ xs, ∀ s, I s → Completes (body x) s fun _ t => I t ∧ Done x t ∧ Le s t)
    (hs : I s) :
    Completes (forEach xs body) s fun _ t => I t ∧ (∀ x ∈ xs, Done x t) ∧ Le s t := by
  induction xs generalizing s with
  | nil => exact .pure () ⟨hs, by simp, hLe.refl s⟩
  | cons x xs ih =>
    refine (turn x (by simp) s hs).bind fun _ t ⟨ht, hx, hst⟩ => ?_
    refine (ih (fun y hy => turn y (by simp [hy])) ht).mono fun _ u ⟨hu, hxs, htu⟩ => ?_
    exact ⟨hu, List.forall_mem_cons.mpr ⟨stays x t u htu hx, hxs⟩, hLe.trans hst htu⟩

end Completes

end Sys2Proof.Machine
end

section
/-! PROOF. The three passes of a plane run to their end, in either direction, wherever the decisions
do (45_pass_sequencer.md R263 to R266, R272 (a)): every check of a unit operation passes, since the
positions are those of the block and a coefficient becomes significant once. -/

namespace Sys2Proof.Machine

open Sys2Proof.Safety

/-! ### Labels -/

theorem labelAt_le (s : State) (r c : Nat) (sb : SubBand) : labelAt s r c sb ≤ 8 := by
  have ll (h v d : Nat) : classLL h v d ≤ 8 := by
    unfold classLL
    split_ifs <;> omega
  have hh (d hv : Nat) : classHH d hv ≤ 8 := by
    unfold classHH
    split_ifs <;> omega
  cases sb <;> simp [labelAt, spLabel, ll, hh]

theorem signClass_label_le (hc vc : Int) : (signClass hc vc).1 ≤ 13 := by
  unfold signClass
  split_ifs <;> simp

/-! ### The tables -/

/-- The significance table and the coded flags are as they were. -/
def SameTables (s t : State) : Prop := t.sig = s.sig ∧ t.coded = s.coded

theorem sameTables_chains : Chains SameTables where
  refl := fun _ => ⟨rfl, rfl⟩
  trans := fun h k => ⟨k.1.trans h.1, k.2.trans h.2⟩

/-- What is coded stays coded. -/
def CodedStay (s t : State) : Prop := ∀ r c, codedAt s r c = true → codedAt t r c = true

theorem codedStay_chains : Chains CodedStay where
  refl := fun _ _ _ h => h
  trans := fun h k r c hs => k r c (h r c hs)

theorem codedStay_of_eq {s t : State} (h : t.coded = s.coded) : CodedStay s t := fun r c hs => by
  rwa [codedAt, h]

theorem codedAt_markCoded (r c r' c' : Nat) (s : State) :
    codedAt (markCoded r c s) r' c'
      = if cellIndex r' c' = cellIndex r c then true else codedAt s r' c' := by
  simp [codedAt]

theorem codedStay_markCoded (r c : Nat) (s : State) : CodedStay s (markCoded r c s) :=
  fun r' c' h => by rw [codedAt_markCoded, h, ite_self]

/-- Nothing becomes significant but the coefficient (r, c). -/
def OnlySignificant (r c : Nat) (s t : State) : Prop :=
  ∀ r' c', isSignificant t.sig r' c' = true →
    isSignificant s.sig r' c' = true ∨ cellIndex r' c' = cellIndex r c

theorem onlySignificant_of_eq {s t : State} (r c : Nat) (h : t.sig = s.sig) :
    OnlySignificant r c s t := fun r' c' ht => .inl (by rwa [← h])

theorem isSignificant_of_markSignificant (h w r c : Nat) (neg : Bool) (t : SigTable) (r' c' : Nat) :
    isSignificant (markSignificant h w r c neg t) r' c' = true →
      isSignificant t r' c' = true ∨ cellIndex r' c' = cellIndex r c := by
  by_cases he : cellIndex r' c' = cellIndex r c
  · exact fun _ => .inr he
  · have same : sigstAt (markSignificant h w r c neg t) r' c' = sigstAt t r' c' := by
      simp [sigstAt, markSignificant, he]
    rw [isSignificant, same]
    exact .inl

/-- What is significant stays what it is, and what is coded stays coded. -/
def Refines (s t : State) : Prop :=
  (∀ r c, isSignificant t.sig r c = isSignificant s.sig r c) ∧ CodedStay s t

theorem refines_chains : Chains Refines where
  refl := fun s => ⟨fun _ _ => rfl, codedStay_chains.refl s⟩
  trans := fun h k => ⟨fun r c => (k.1 r c).trans (h.1 r c), codedStay_chains.trans h.2 k.2⟩

theorem refines_of_eq {s t : State} (h : t.sig.sigst = s.sig.sigst) (hst : CodedStay s t) :
    Refines s t := ⟨fun r c => by rw [isSignificant, isSignificant, sigstAt, sigstAt, h], hst⟩

/-- Every coefficient of the block that is significant is coded. -/
def SignificantCoded (h w : Nat) (s : State) : Prop :=
  ∀ r c, r < h → c < w → isSignificant s.sig r c = true → codedAt s r c = true

/-- A coefficient may become significant if it is coded with it. -/
theorem SignificantCoded.step {h w r c : Nat} {s t : State} (hs : SignificantCoded h w s)
    (only : OnlySignificant r c s t) (done : codedAt t r c = true) (stay : CodedStay s t) :
    SignificantCoded h w t := fun r' c' hr hc ht => by
  obtain hsig | hcell := only r' c' ht
  · exact stay r' c' (hs r' c' hr hc hsig)
  · rwa [codedAt, hcell]

/-- A coefficient that is not coded is not significant. -/
theorem SignificantCoded.insignificant {h w r c : Nat} {s : State} (hs : SignificantCoded h w s)
    (hr : r < h) (hc : c < w) (hn : codedAt s r c = false) : isSignificant s.sig r c = false := by
  by_contra hsig
  simp [hs r c hr hc (by simpa using hsig)] at hn

/-! ### The order of a pass -/

/-- The strips begin at every fourth row and are four rows high, or what is left
(45_pass_sequencer.md R262). -/
theorem mem_strips {h : Nat} {st : Nat × Nat × Bool} : st ∈ strips h ↔
    ∃ k, 4 * k < h ∧ st = (4 * k, min 4 (h - 4 * k), decide (min 4 (h - 4 * k) = 4)) := by
  have count (k : Nat) : k < (h + 3) / 4 ↔ 4 * k < h := by omega
  simp only [strips_eq_stripRows, stripRows, List.map_map, List.mem_map, List.mem_range, count,
    Function.comp_apply]
  exact exists_congr fun k => and_congr_right fun _ => eq_comm

/-- A strip lies in the block. -/
theorem strip_le {h : Nat} {st : Nat × Nat × Bool} (hst : st ∈ strips h) :
    st.1 + st.2.1 ≤ h ∧ (st.2.2 = true → st.2.1 = 4) := by
  obtain ⟨k, hk, rfl⟩ := mem_strips.mp hst
  simp only [decide_eq_true_eq]
  omega

/-- Every row lies in a strip. -/
theorem exists_strip {h r : Nat} (hr : r < h) :
    ∃ st ∈ strips h, ∃ j < st.2.1, r = st.1 + j := by
  refine ⟨_, mem_strips.mpr ⟨r / 4, by omega, rfl⟩, r % 4, ?_, ?_⟩ <;> dsimp only <;> omega

theorem mem_scanOrder {h w r c : Nat} : (r, c) ∈ scanOrder h w ↔ r < h ∧ c < w := by
  simp only [scanOrder, List.mem_flatMap, List.mem_map, List.mem_range, Prod.mk.injEq]
  constructor
  · rintro ⟨st, hst, c', hc, j, hj, rfl, rfl⟩
    exact ⟨by have := (strip_le hst).1; omega, hc⟩
  · rintro ⟨hr, hc⟩
    obtain ⟨st, hst, j, hj, rfl⟩ := exists_strip hr
    exact ⟨st, hst, c, hc, j, hj, rfl, rfl⟩

/-- The search of `BP.STRIPFNZ` inside the block finds a row of the strip or none. -/
theorem firstSetRow_completes {s : State} {r c : Nat} (i j n : Nat) (hr : r + j + n ≤ s.H)
    (hc : c < s.W) :
    Completes (firstSetRow i r c j n) s fun f t => t = s ∧ ∀ k, f = some k → k < j + n := by
  induction n generalizing j with
  | zero => exact .pure none ⟨rfl, nofun⟩
  | succ n ih =>
    refine .bind_ok ((run_memRead _ _ s).trans (if_pos ⟨by omega, hc⟩)) ?_
    split_ifs
    · exact .pure _ ⟨rfl, fun k hk => by cases hk; omega⟩
    · refine (ih (j + 1) (by omega)).mono fun f t ⟨hts, hf⟩ => ⟨hts, fun k hk => ?_⟩
      have := hf k hk
      omega

/-! ### What a pass stands on -/

/-- A condition on which a pass over plane `i` of a block of `h` rows and `w` columns runs: its
checks hold, the tables may change under it, and the decisions end `ok` and leave the tables. -/
structure PassInvariant (dir : Dir) (i h w : Nat) (I : State → Prop) : Prop where
  checked : ∀ {s}, I s → PassChecked dir i s
  height : ∀ {s}, I s → s.H = h
  width : ∀ {s}, I s → s.W = w
  tables : ∀ {s} (sig : SigTable) (coded : Cells Bool), I s →
    I { s with sig := sig, coded := coded }
  encode : dir = .encode → ∀ {s} b ctx, I s → ctx ≤ 18 →
    Completes (mqeCode b ctx) s fun _ t => I t ∧ SameTables s t
  decode : dir = .decode → ∀ {s} ctx, I s → ctx ≤ 18 →
    Completes (mqdDecode ctx) s fun _ t => I t ∧ SameTables s t
  store : dir = .decode → ∀ {s} a v, I s → I (setWord a v s)

namespace PassInvariant

variable {dir : Dir} {i h w : Nat} {I : State → Prop} (K : PassInvariant dir i h w I) {s : State}
include K

theorem requirePass_ok (hs : I s) : requirePass dir i s = .ok () s := by
  obtain ⟨-, geom, mode, pt, sig, live, plane, current⟩ := K.checked hs
  have mode : s.status.mqMode = dirMode dir := by cases dir <;> exact mode
  simp [run_requirePass, geom, mode, pt, sig, live, plane, ← current]

section Position

variable {r c : Nat} (hs : I s) (hr : r < h) (hc : c < w)
include hs hr hc

theorem sigReady : SigReady s r c where
  noFault := (K.checked hs).noFault
  geom := (K.checked hs).geom
  valid := (K.checked hs).sigValid
  row := K.height hs ▸ hr
  col := K.width hs ▸ hc

theorem liveReady : LiveReady s i r c where
  noFault := (K.checked hs).noFault
  geom := (K.checked hs).geom
  row := K.height hs ▸ hr
  col := K.width hs ▸ hc
  live := (K.checked hs).live
  plane := (K.checked hs).plane
  current := (K.checked hs).current

/-- `BP.MARKCODED` of a position of the block. -/
theorem markCoded : Completes (bpMarkCoded i r c) s fun _ t =>
    I t ∧ t.sig = s.sig ∧ codedAt t r c = true ∧ CodedStay s t :=
  .of_ok (bpMarkCoded_ok (K.liveReady hs hr hc)) ⟨K.tables s.sig _ hs, rfl,
    by simp [codedAt_markCoded], codedStay_markCoded r c s⟩

/-- The magnitude step (45_pass_sequencer.md R268). -/
theorem magStep {ctx : Nat} (hctx : ctx ≤ 18) :
    Completes (magStep dir i r c ctx) s fun _ t => I t ∧ SameTables s t := by
  cases dir with
  | encode =>
    have live := K.liveReady hs hr hc
    refine .bind_ok (bpBitAt_ok live.toBpReady live.plane) ?_
    exact (K.encode rfl _ ctx hs hctx).bind fun _ t ht => .pure _ ht
  | decode =>
    refine (K.decode rfl ctx hs hctx).bind fun b t ⟨ht, hst⟩ => ?_
    have live := K.liveReady ht hr hc
    exact .bind_ok (bpSetBit_ok live.toBpReady live.plane b) (.pure _ ⟨K.store rfl _ _ ht, hst⟩)

/-- The sign step (45_pass_sequencer.md R266) of a coefficient that is not significant yet. -/
theorem signStep (hn : isSignificant s.sig r c = false) :
    Completes (signStep dir r c) s fun _ t =>
      I t ∧ t.coded = s.coded ∧ OnlySignificant r c s t := by
  have setSig {t : State} (neg : Bool) (ht : I t) (hst : SameTables s t) :
      Completes (sigSetSig r c neg) t fun _ u =>
        I u ∧ u.coded = s.coded ∧ OnlySignificant r c s u := by
    have hn' : ¬ isSignificant t.sig r c = true := by simp [hst.1, hn]
    refine .of_ok ((sigSetSig_ok (K.sigReady ht hr hc) neg).trans (if_neg hn'))
      ⟨K.tables _ t.coded ht, hst.2, fun r' c' hu => ?_⟩
    rw [← hst.1]
    exact isSignificant_of_markSignificant _ _ r c neg t.sig r' c' hu
  refine .bind_ok (sigSignCtx_ok (K.sigReady hs hr hc)) ?_
  have label := le_trans (signClass_label_le (contribution s.sig (hNbrs s.W r c))
    (contribution s.sig (vNbrs s.H r c))) (show 13 ≤ 18 by decide)
  cases dir with
  | encode =>
    refine .bind_ok (bpSignAt_ok (K.liveReady hs hr hc).toBpReady) ?_
    exact (K.encode rfl _ _ hs label).bind fun _ t ⟨ht, hst⟩ => setSig _ ht hst
  | decode =>
    refine (K.decode rfl _ hs label).bind fun _ t ⟨ht, hst⟩ => ?_
    exact .bind_ok (bpSetSign_ok (K.liveReady ht hr hc).toBpReady _)
      (setSig _ (K.store rfl _ _ ht) hst)

/-- The common tail of the significance and the cleanup pass (45_pass_sequencer.md R263, R265) on a
coefficient that is not significant yet. -/
theorem codeCoefficient {ctx : Nat} (hctx : ctx ≤ 18) (hn : isSignificant s.sig r c = false) :
    Completes (codeCoefficient dir i r c ctx) s fun _ t =>
      I t ∧ OnlySignificant r c s t ∧ codedAt t r c = true ∧ CodedStay s t := by
  refine (K.magStep hs hr hc hctx).bind fun b t ⟨ht, hsig, hcoded⟩ => ?_
  have sign : Completes (doIf b (Machine.signStep dir r c)) t fun _ u =>
      I u ∧ u.coded = s.coded ∧ OnlySignificant r c s u := by
    refine .doIf (fun _ => ?_) fun _ => ⟨ht, hcoded, onlySignificant_of_eq r c hsig⟩
    refine (K.signStep ht hr hc (hsig ▸ hn)).mono fun _ u ⟨hu, hcod, honly⟩ => ?_
    exact ⟨hu, hcod.trans hcoded, fun r' c' h => hsig ▸ honly r' c' h⟩
  refine sign.bind fun _ u ⟨hu, hcod, honly⟩ => ?_
  refine (K.markCoded hu hr hc).mono fun _ v ⟨hv, hsame, hdone, hstay⟩ => ?_
  exact ⟨hv, fun r' c' h => honly r' c' (hsame ▸ h), hdone,
    codedStay_chains.trans (codedStay_of_eq hcod) hstay⟩

end Position

/-! ### The significance pass -/

/-- A position of the significance pass (45_pass_sequencer.md R263). -/
theorem sigVisit {p : Nat × Nat} (hs : I s) (hp : p ∈ scanOrder h w) (sb : SubBand) :
    Completes (sigVisit dir i sb p) s fun _ t => I t := by
  obtain ⟨hr, hc⟩ := mem_scanOrder.mp hp
  refine .bind_ok (sigIsSig_ok (K.sigReady hs hr hc)) (.doIf (fun hn => ?_) fun _ => hs)
  refine .bind_ok (bpIsCoded_ok (K.liveReady hs hr hc)) (.doIf (fun _ => ?_) fun _ => hs)
  refine .bind_ok (sigSpCtx_ok (K.sigReady hs hr hc) sb) (.doIf (fun _ => ?_) fun _ => hs)
  exact (K.codeCoefficient hs hr hc (le_trans (labelAt_le ..) (by decide)) hn).mono
    fun _ _ ht => ht.1

/-- `EB.SIGPASS` (45_pass_sequencer.md R263). -/
theorem sigPass (hs : I s) : Completes (sigPass dir i) s fun _ t => I t := by
  refine .bind_ok (K.requirePass_ok hs) (.bind_ok (run_getS s) ?_)
  rw [K.height hs, K.width hs]
  refine (Completes.forEach (Le := fun _ _ => True) (Done := fun _ _ => True)
    ⟨fun _ => trivial, fun _ _ => trivial⟩ (fun _ _ _ _ => id) (fun p hp u hu => ?_) hs).mono
    fun _ _ ht => ht.1
  exact (K.sigVisit hu hp _).mono fun _ _ ht => ⟨ht, trivial, trivial⟩

/-! ### The refinement pass -/

/-- `SIG.REFCTX` of a position of the block. -/
theorem refCtx {r c : Nat} (hs : I s) (hr : r < h) (hc : c < w) :
    Completes (sigRefCtx r c) s fun ctx t => ctx ≤ 18 ∧ I t ∧ Refines s t := by
  have run := sigRefCtx_ok (K.sigReady hs hr hc)
  by_cases hf : firstAt s.sig r c = true
  · rw [if_pos hf] at run
    exact .of_ok run ⟨by split_ifs <;> decide, K.tables _ s.coded hs,
      refines_of_eq rfl (codedStay_of_eq rfl)⟩
  · rw [if_neg hf] at run
    exact .of_ok run ⟨by decide, hs, refines_chains.refl s⟩

/-- A position of the refinement pass (45_pass_sequencer.md R264): coded, if it is significant. -/
theorem refVisit {p : Nat × Nat} (hs : I s) (hp : p ∈ scanOrder h w) :
    Completes (refVisit dir i p) s fun _ t => I t ∧
      (isSignificant t.sig p.1 p.2 = true → codedAt t p.1 p.2 = true) ∧ Refines s t := by
  obtain ⟨hr, hc⟩ := mem_scanOrder.mp hp
  refine .bind_ok (sigIsSig_ok (K.sigReady hs hr hc))
    (.doIf (fun _ => ?_) fun hn => ⟨hs, fun h => absurd h hn, refines_chains.refl s⟩)
  refine .bind_ok (bpIsCoded_ok (K.liveReady hs hr hc))
    (.doIf (fun _ => ?_) fun hcod => ⟨hs, fun _ => by simpa using hcod, refines_chains.refl s⟩)
  refine (K.refCtx hs hr hc).bind fun ctx t ⟨hctx, ht, hst⟩ => ?_
  refine (K.magStep ht hr hc hctx).bind fun _ u ⟨hu, htu⟩ => ?_
  refine (K.markCoded hu hr hc).mono fun _ v ⟨hv, hsig, hdone, hstay⟩ => ⟨hv, fun _ => hdone, ?_⟩
  have hsigst : v.sig.sigst = t.sig.sigst := by rw [hsig, htu.1]
  exact refines_chains.trans hst
    (refines_of_eq hsigst (codedStay_chains.trans (codedStay_of_eq htu.2) hstay))

/-- `EB.REFPASS` (45_pass_sequencer.md R264) leaves every significant coefficient coded. -/
theorem refPass (hs : I s) :
    Completes (refPass dir i) s fun _ t => I t ∧ SignificantCoded h w t := by
  refine .bind_ok (K.requirePass_ok hs) (.bind_ok (run_getS s) ?_)
  rw [K.height hs, K.width hs]
  have stays (p : Nat × Nat) (u v : State) (huv : Refines u v)
      (hp : isSignificant u.sig p.1 p.2 = true → codedAt u p.1 p.2 = true)
      (hv : isSignificant v.sig p.1 p.2 = true) : codedAt v p.1 p.2 = true :=
    huv.2 _ _ (hp ((huv.1 _ _).symm.trans hv))
  refine (Completes.forEach refines_chains stays (fun p hp u hu => K.refVisit hu hp) hs).mono
    fun _ t ⟨ht, hall, _⟩ => ⟨ht, fun r c hr hc => hall (r, c) (mem_scanOrder.mpr ⟨hr, hc⟩)⟩

/-! ### The cleanup pass -/

/-- `MQE.CODENUM` within a pass. -/
theorem codeNum (hd : dir = .encode) {ctx : Nat} (hctx : ctx ≤ 18) {n : Nat} (hn : n ≤ 16)
    (value : Nat) (hs : I s) :
    Completes (mqeCodeNum value n ctx) s fun _ t => I t ∧ SameTables s t := by
  have bits (n : Nat) {s : State} (hs : I s) :
      Completes (codeBits value ctx n) s fun _ t => I t ∧ SameTables s t := by
    induction n generalizing s with
    | zero => exact .pure () ⟨hs, sameTables_chains.refl s⟩
    | succ n ih =>
      exact (K.encode hd _ ctx hs hctx).bind fun _ t ⟨ht, hst⟩ =>
        (ih ht).mono fun _ u ⟨hu, htu⟩ => ⟨hu, sameTables_chains.trans hst htu⟩
  have hmode : s.status.mqMode = .encoding := by
    subst hd
    exact (K.checked hs).mode
  refine .bind_ok ((run_requireMode _ s).trans (if_pos hmode)) ?_
  refine .bind_ok (by rw [run_requirePt, if_pos (K.checked hs).ptValid, if_pos hctx]) ?_
  exact .bind_ok (run_require_true _ s (decide_eq_true hn)) (bits n hs)

/-- `MQD.DECODENUM` within a pass. -/
theorem decodeNum (hd : dir = .decode) {ctx : Nat} (hctx : ctx ≤ 18) {n : Nat} (hn : n ≤ 16)
    (hs : I s) :
    Completes (mqdDecodeNum n ctx) s fun v t => v < 2 ^ n ∧ I t ∧ SameTables s t := by
  have bits (n v : Nat) {s : State} (hs : I s) : Completes (decodeBits ctx n v) s
      fun x t => x < (v + 1) * 2 ^ n ∧ I t ∧ SameTables s t := by
    induction n generalizing v s with
    | zero => exact .pure v ⟨by omega, hs, sameTables_chains.refl s⟩
    | succ n ih =>
      refine (K.decode hd ctx hs hctx).bind fun b t ⟨ht, hst⟩ => ?_
      refine (ih _ ht).mono fun x u ⟨hx, hu, htu⟩ => ⟨lt_of_lt_of_le hx ?_, hu,
        sameTables_chains.trans hst htu⟩
      have hb : v * 2 + boolNat b + 1 ≤ (v + 1) * 2 := by
        cases b <;> simp only [boolNat, if_true, if_false, Bool.false_eq_true] <;> omega
      calc (v * 2 + boolNat b + 1) * 2 ^ n ≤ (v + 1) * 2 * 2 ^ n := Nat.mul_le_mul_right _ hb
        _ = (v + 1) * 2 ^ (n + 1) := by rw [Nat.mul_assoc, ← Nat.pow_succ']
  have hmode : s.status.mqMode = .decoding := by
    subst hd
    exact (K.checked hs).mode
  refine .bind_ok ((run_requireMode _ s).trans (if_pos hmode)) ?_
  refine .bind_ok (by rw [run_requirePt, if_pos (K.checked hs).ptValid, if_pos hctx]) ?_
  refine .bind_ok (run_require_true _ s (decide_eq_true hn)) ?_
  simpa using bits n 0 hs

section Column

variable {r0 c : Nat} (hs : I s) (hc : c < w)
include hs hc

/-- The run-length decision and its pointer (45_pass_sequencer.md R265). -/
theorem runLength (hr : r0 + 3 < h) :
    Completes (runLength dir i r0 c) s fun f t =>
      (∀ k, f = some k → k < 4) ∧ I t ∧ SameTables s t := by
  have ready := K.liveReady hs (show r0 < h by omega) hc
  cases dir with
  | encode =>
    have hrow : r0 + 3 < s.H := K.height hs ▸ hr
    have find : Completes (bpStripFnz i r0 c) s fun f t => t = s ∧ ∀ k, f = some k → k < 4 := by
      refine .bind_ok (t := s) (a := ()) ?_ (.bind_ok (t := s) (a := ()) ?_ ?_)
      · simp [run_requireBit, ready.geom, ready.plane, ready.row, ready.col]
      · rw [run_requireStrip, if_pos hrow]
      · simpa using firstSetRow_completes i 0 4 (show r0 + 0 + 4 ≤ s.H by omega) ready.col
    refine find.bind fun f t ⟨hts, hf⟩ => ?_
    subst hts
    refine (K.encode rfl _ _ hs (show 17 ≤ 18 by decide)).bind fun _ u ⟨hu, hsu⟩ => ?_
    cases f with
    | none => exact .pure _ ⟨nofun, hu, hsu⟩
    | some k =>
      refine (K.codeNum rfl (show 18 ≤ 18 by decide) (by decide) k hu).bind fun _ v ⟨hv, huv⟩ => ?_
      exact .pure _ ⟨hf, hv, sameTables_chains.trans hsu huv⟩
  | decode =>
    refine (K.decode rfl _ hs (show 17 ≤ 18 by decide)).bind fun b t ⟨ht, hst⟩ => ?_
    cases b with
    | false => exact .pure _ ⟨nofun, ht, hst⟩
    | true =>
      refine (K.decodeNum rfl (show 18 ≤ 18 by decide) (by decide) ht).bind
        fun k u ⟨hk, hu, htu⟩ => ?_
      have ready := K.liveReady hu (show r0 + k < h by omega) hc
      refine .bind_ok (bpSetBit_ok ready.toBpReady ready.plane true) (.pure _ ⟨?_, ?_, ?_⟩)
      · rintro _ ⟨⟩
        exact hk
      · exact K.store rfl _ _ hu
      · exact sameTables_chains.trans hst htu

/-- Whether a column is coded in run-length mode (45_pass_sequencer.md R265): then none of its four
coefficients is coded. -/
theorem runMode {n : Nat} (hr : r0 + n ≤ h) {full : Bool} (hf : full = true → n = 4)
    (sb : SubBand) :
    Completes (runMode i sb r0 c full) s fun b t =>
      t = s ∧ (b = true → n = 4 ∧ ∀ j < 4, codedAt s (r0 + j) c = false) := by
  cases full with
  | false => exact .pure false ⟨rfl, nofun⟩
  | true =>
    obtain rfl := hf rfl
    have hrow : r0 + 3 < s.H := K.height hs ▸ (show r0 + 3 < h by omega)
    refine .bind_ok (bpStripUnc_ok (K.liveReady hs (by omega) hc) hrow) ?_
    split_ifs with hunc
    · refine .of_ok (sigStripZ_ok (K.sigReady hs (by omega) hc) sb hrow) ⟨rfl, fun _ => ⟨rfl, ?_⟩⟩
      simpa using hunc
    · exact .pure false ⟨rfl, nofun⟩

/-- Marking rows of a column coded. -/
theorem markRows {xs : List Nat} (hxs : ∀ j ∈ xs, r0 + j < h) :
    Completes (forEach xs fun j => bpMarkCoded i (r0 + j) c) s fun _ t =>
      I t ∧ t.sig = s.sig ∧ (∀ j ∈ xs, codedAt t (r0 + j) c = true) ∧ CodedStay s t := by
  refine (Completes.forEach (I := fun t => I t ∧ t.sig = s.sig)
    (Done := fun j t => codedAt t (r0 + j) c = true) codedStay_chains
    (fun j _ _ hst hj => hst _ _ hj) (fun j hj t ⟨ht, hsig⟩ => ?_) ⟨hs, rfl⟩).mono
    fun _ t ⟨⟨ht, hsig⟩, hall, hst⟩ => ⟨ht, hsig, hall, hst⟩
  exact (K.markCoded ht (hxs j hj) hc).mono fun _ u ⟨hu, hsame, hdone, hstay⟩ =>
    ⟨⟨hu, hsame.trans hsig⟩, hdone, hstay⟩

variable (hclean : SignificantCoded h w s)
include hclean

/-- A position of the ordinary branch of the cleanup pass (45_pass_sequencer.md R265). -/
theorem cleanVisit {r : Nat} (hr : r < h) (sb : SubBand) :
    Completes (cleanVisit dir i sb r c) s fun _ t =>
      (I t ∧ SignificantCoded h w t) ∧ codedAt t r c = true ∧ CodedStay s t := by
  refine .bind_ok (bpIsCoded_ok (K.liveReady hs hr hc)) (.doIf (fun hn => ?_) fun hcod =>
    ⟨⟨hs, hclean⟩, by simpa using hcod, codedStay_chains.refl s⟩)
  refine .bind_ok (sigSpCtx_ok (K.sigReady hs hr hc) sb) ?_
  refine (K.codeCoefficient hs hr hc (le_trans (labelAt_le ..) (by decide))
    (hclean.insignificant hr hc hn)).mono fun _ t ⟨ht, only, hdone, hstay⟩ => ?_
  exact ⟨⟨ht, hclean.step only hdone hstay⟩, hdone, hstay⟩

/-- Rows of a column in the ordinary branch. -/
theorem cleanRows {xs : List Nat} (hxs : ∀ j ∈ xs, r0 + j < h) (sb : SubBand) :
    Completes (forEach xs fun j => Machine.cleanVisit dir i sb (r0 + j) c) s fun _ t =>
      (I t ∧ SignificantCoded h w t) ∧ (∀ j ∈ xs, codedAt t (r0 + j) c = true) ∧ CodedStay s t :=
  .forEach (I := fun t => I t ∧ SignificantCoded h w t)
    (Done := fun j t => codedAt t (r0 + j) c = true) codedStay_chains
    (fun _ _ _ hst hj => hst _ _ hj)
    (fun j hj _ ⟨ht, hclean⟩ => K.cleanVisit ht hc hclean (hxs j hj) sb) ⟨hs, hclean⟩

/-- A strip column of the cleanup pass (45_pass_sequencer.md R265): every row of it is coded. -/
theorem cleanColumn {n : Nat} (hr : r0 + n ≤ h) {full : Bool}
    (hf : full = true → n = 4) (sb : SubBand) :
    Completes (cleanColumn dir i sb r0 n full c) s fun _ t =>
      (I t ∧ SignificantCoded h w t) ∧ (∀ j < n, codedAt t (r0 + j) c = true) ∧ CodedStay s t := by
  refine (K.runMode hs hc hr hf sb).bind fun b t ⟨hts, hrun⟩ => ?_
  subst hts
  cases b with
  | false =>
    refine (K.cleanRows hs hc hclean (xs := List.range n) (fun j hj => ?_) sb).mono
      fun _ t ⟨ht, hall, hst⟩ => ⟨ht, fun j hj => hall j (List.mem_range.mpr hj), hst⟩
    have := List.mem_range.mp hj
    omega
  | true =>
    obtain ⟨rfl, hunc⟩ := hrun rfl
    refine (K.runLength hs hc (by omega)).bind fun f u ⟨hf, hu, hsig, hcod⟩ => ?_
    cases f with
    | none =>
      refine (K.markRows hu hc (xs := List.range 4) fun j hj => ?_).mono
        fun _ v ⟨hv, hsig', hall, hst⟩ => ?_
      · have := List.mem_range.mp hj
        omega
      · have hst := codedStay_chains.trans (codedStay_of_eq hcod) hst
        exact ⟨⟨hv, hclean.step (onlySignificant_of_eq (r0 + 0) c (hsig'.trans hsig))
          (hall 0 (by decide)) hst⟩, fun j hj => hall j (List.mem_range.mpr hj), hst⟩
    | some k =>
      have hk := hf k rfl
      have hrow : r0 + k < h := by omega
      have hins := hclean.insignificant hrow hc (hunc k hk)
      refine (K.signStep hu hrow hc (hsig ▸ hins)).bind fun _ v ⟨hv, hcod', only⟩ => ?_
      refine (K.markRows hv hc (xs := List.range (k + 1)) fun j hj => ?_).bind
        fun _ x ⟨hx, hsame, hmarked, hst⟩ => ?_
      · have := List.mem_range.mp hj
        omega
      have hst := codedStay_chains.trans (codedStay_of_eq (hcod'.trans hcod)) hst
      have only : OnlySignificant (r0 + k) c t x := fun r' c' h =>
        hsig ▸ only r' c' (hsame ▸ h)
      have hclean := hclean.step only (hmarked k (by simp)) hst
      refine (K.cleanRows hx hc hclean (xs := (List.range 4).drop (k + 1))
        (fun j hj => ?_) sb).mono fun _ y ⟨hy, hrest, hst'⟩ => ⟨hy, fun j hj => ?_,
          codedStay_chains.trans hst hst'⟩
      · have := List.mem_range.mp (List.mem_of_mem_drop hj)
        omega
      · by_cases hjk : j < k + 1
        · exact hst' _ _ (hmarked j (List.mem_range.mpr hjk))
        · refine hrest j ?_
          rw [List.mem_drop_iff_getElem]
          exact ⟨j - (k + 1), by simp; omega, by simp; omega⟩

end Column

/-- `EB.CLEANUP` (45_pass_sequencer.md R265), begun with every significant coefficient coded, leaves
every coefficient coded. -/
theorem cleanup (hs : I s) (hclean : SignificantCoded h w s) :
    Completes (cleanup dir i) s fun _ t => I t ∧ ∀ r c, r < h → c < w → codedAt t r c = true := by
  refine .bind_ok (K.requirePass_ok hs) (.bind_ok (run_getS s) ?_)
  rw [K.height hs, K.width hs]
  refine (Completes.forEach (I := fun t => I t ∧ SignificantCoded h w t)
    (Done := fun (st : Nat × Nat × Bool) t =>
      ∀ c ∈ List.range w, ∀ j < st.2.1, codedAt t (st.1 + j) c = true)
    codedStay_chains (fun _ _ _ hst hd c hc j hj => hst _ _ (hd c hc j hj))
    (fun st hst t ht => ?_) ⟨hs, hclean⟩).mono fun _ t ⟨ht, hall, _⟩ => ⟨ht.1, fun r c hr hc => ?_⟩
  · obtain ⟨hle, hfull⟩ := strip_le hst
    exact .forEach (Done := fun c t => ∀ j < st.2.1, codedAt t (st.1 + j) c = true)
      codedStay_chains (fun _ _ _ hst hd j hj => hst _ _ (hd j hj))
      (fun c hc u hu => K.cleanColumn hu.1 (List.mem_range.mp hc) hu.2 hle hfull _) ht
  · obtain ⟨st, hst, j, hj, rfl⟩ := exists_strip hr
    exact hall st hst c (List.mem_range.mpr hc) j hj

end PassInvariant

/-! ### The planes -/

/-- A condition `B` on which the passes over the planes of a block of depth `d` run, `I i` being the
one with plane `i` live. -/
structure BlockInvariant (dir : Dir) (d h w : Nat) (B : State → Prop) (I : Nat → State → Prop) :
    Prop where
  pass : ∀ i < d, PassInvariant dir i h w (I i)
  enter : ∀ i < d, ∀ s, B s → Completes (bpNewPlane i) s fun _ t => I i t ∧ t.sig = s.sig
  leave : ∀ i s, I i s → B s

namespace BlockInvariant

variable {dir : Dir} {d h w : Nat} {B : State → Prop} {I : Nat → State → Prop}
  (K : BlockInvariant dir d h w B I) {s : State}
include K

/-- The passes of one plane (45_pass_sequencer.md R261): the first plane has a cleanup pass only,
and is begun with no coefficient significant. -/
theorem planePasses {top i : Nat} (hi : i < d) (hs : B s)
    (hfirst : i = top → ∀ r c, isSignificant s.sig r c = false) :
    Completes (planePasses dir top i) s fun _ t =>
      I i t ∧ ∀ r c, r < h → c < w → codedAt t r c = true := by
  have P := K.pass i hi
  refine (K.enter i hi s hs).bind fun _ t ⟨ht, hsig⟩ => ?_
  have passes : Completes (doIf (i ≠ top) (do sigPass dir i; refPass dir i)) t
      fun _ u => I i u ∧ SignificantCoded h w u := by
    refine .doIf (fun _ => (P.sigPass ht).bind fun _ u hu => P.refPass hu) fun htop => ⟨ht, ?_⟩
    intro r c _ _ hrc
    rw [hsig, hfirst (not_not.mp htop)] at hrc
    contradiction
  exact passes.bind fun _ u ⟨hu, hclean⟩ => P.cleanup hu hclean

/-- `PlaneLoop` (45_pass_sequencer.md R261), of one plane at least, ends with plane 0 live and every
coefficient coded. -/
theorem planeLoop {top n : Nat} (hn : n < d) (hle : n ≤ top) (hs : B s)
    (hfirst : n = top → ∀ r c, isSignificant s.sig r c = false) :
    Completes (planeLoop dir top (n + 1)) s fun _ t =>
      I 0 t ∧ ∀ r c, r < h → c < w → codedAt t r c = true := by
  induction n generalizing s with
  | zero => exact (K.planePasses hn hs hfirst).bind fun _ t ht => .pure () ht
  | succ n ih =>
    refine (K.planePasses hn hs hfirst).bind fun _ t ⟨ht, _⟩ => ?_
    exact ih (by omega) (by omega) (K.leave _ t ht) (by omega)

end BlockInvariant

end Sys2Proof.Machine
end

section
/-! PROOF. `EB.ENCODE` (45_pass_sequencer.md R260, R272 (a); 30_encoding.md R94, R95): while the
planes are coded the session stays open and its bytes stuffed, and every decision ends `ok`. -/

namespace Sys2Proof.Machine

open Sys2Proof.Safety

/-- `MQE.MARKEND` on ports that do not fail (43_mq_encoder.md R207). -/
theorem mqeMarkEnd_quiet {s : State} (hm : s.status.mqMode = .encoding) (hq : quietPorts s) :
    mqeMarkEnd s = .ok () (setMqMode .idle
      { s with out := s.out ++ [0xFF] ++ [0xA1], portCalls := s.portCalls + 1 + 1 }) := by
  have hq' := quietPorts_mono (t := { s with
    portCalls := s.portCalls + 1, out := s.out ++ [0xFF] }) hq rfl (Nat.le_succ _)
  rw [mqeMarkEnd, run_bind_ok ((run_requireMode _ s).trans (if_pos hm)),
    run_bind_ok (putOut_quiet hq _), run_bind_ok (putOut_quiet hq' _)]
  rfl

/-- `BP.NEWPLANE` where its checks pass (42_block_plane_view.md R171). -/
theorem bpNewPlane_ok {s : State} (hg : geomOK s = true) {i : Nat} (hi : i < s.D) :
    bpNewPlane i s
      = .ok () (setPlaneLive true { s with curPlane := BitVec.ofNat 5 i, coded := [] }) := by
  rw [bpNewPlane, run_bind_ok (x := requireGeom) (if_pos hg),
    run_bind_ok ((run_requirePlane i s).trans (if_pos hi)), run_modS]

/-- `s` with what the passes of an encoding write as it is in `u`. -/
def encodeWritten (s u : State) : State :=
  { s with
    status := { s.status with planeLive := u.status.planeLive }
    coder := u.coder, pt := u.pt, sig := u.sig, curPlane := u.curPlane, coded := u.coded
    out := u.out, portCalls := u.portCalls }

/-- What `EB.ENCODE` on `s` leaves (45_pass_sequencer.md R260), with the registers and tables of
`u`. -/
def encodeFinished (s u : State) (body : List Byte) : State :=
  { s with
    status := { s.status with
      ptValid := true, sigValid := true, planeLive := true, ioFail := false }
    coder := u.coder, pt := u.pt, sig := u.sig, curPlane := 0, coded := u.coded
    out := s.out ++ body ++ [0xFF, 0xA1], portCalls := u.portCalls }

/-- Between two operations of `EB.ENCODE` on `s`: the passes alone have written, no port fails, and
the session is open with its bytes at the end of `OUT`. -/
structure EncodingBlock (s t : State) : Prop where
  written : ∃ u, t = encodeWritten (encodeOpened s) u
  quiet : quietPorts t
  session : ∃ body, t.out = s.out ++ body ∧ OpenSession 0 t.coder body

/-- The same with plane `i` live. -/
structure EncodingPlane (s : State) (i : Nat) (t : State) : Prop extends EncodingBlock s t where
  live : t.status.planeLive = true
  current : t.curPlane = BitVec.ofNat 5 i

theorem encodingBlock_opened {s : State} (hq : quietPorts s) :
    EncodingBlock s (encodeOpened s) where
  written := ⟨encodeOpened s, rfl⟩
  quiet := hq
  session := ⟨[], (List.append_nil _).symm, openSession_init⟩

/-- What the operations of an encoding session emit keeps the session open. -/
theorem EncodingBlock.emit {s t : State} {p : Coder × List Byte} (h : EncodingBlock s t)
    (hp : Advances t.coder p) : EncodingBlock s (emit p t) := by
  obtain ⟨⟨u, rfl⟩, hq, body, hout, hopen⟩ := h
  exact ⟨⟨Machine.emit p (encodeWritten (encodeOpened s) u), rfl⟩, quietPorts_emit hq, body ++ p.2,
    by simp [Machine.emit, hout], hp 0 body hopen⟩

theorem EncodingPlane.setTables {s t : State} {i : Nat} (sig : SigTable) (coded : Cells Bool)
    (h : EncodingPlane s i t) : EncodingPlane s i { t with sig := sig, coded := coded } := by
  obtain ⟨⟨⟨u, rfl⟩, hq, hsession⟩, live, current⟩ := h
  exact ⟨⟨⟨{ u with sig := sig, coded := coded }, rfl⟩, hq, hsession⟩, live, current⟩

/-- A decision of an encoding pass ends `ok` (43_mq_encoder.md R202). -/
theorem EncodingPlane.mqeCode {s t : State} {i : Nat} (h : EncodingPlane s i t) (b : Bool)
    {ctx : Nat} (hctx : ctx ≤ 18) :
    Completes (mqeCode b ctx) t fun _ t' => EncodingPlane s i t' ∧ SameTables t t' := by
  obtain ⟨⟨⟨u, rfl⟩, hq, hsession⟩, live, current⟩ := h
  obtain ⟨v, -, hv⟩ :=
    emitted_mqeCode (s := encodeWritten (encodeOpened s) u) ⟨rfl, rfl, hctx⟩ b
  have moved : EncodingBlock s { encodeWritten (encodeOpened s) u with pt := v } :=
    ⟨⟨{ u with pt := v }, rfl⟩, hq, hsession⟩
  exact .of_ok (hv.ok hq)
    ⟨⟨moved.emit fun _ _ hopen => hopen.coded b _, live, current⟩, rfl, rfl⟩

section Block

variable {s : State} (hf : s.status.fault = false) (hg : geomOK s = true)
include hf hg

theorem encodingPlane_pass {i : Nat} (hi : i < s.D) :
    PassInvariant .encode i s.H s.W (EncodingPlane s i) where
  checked := by
    rintro _ ⟨⟨⟨u, rfl⟩, -, -⟩, live, current⟩
    have hD : s.D < 32 := s.cfg.d.isLt
    refine ⟨hf, hg, rfl, rfl, rfl, live, hi, ?_⟩
    rw [current, BitVec.toNat_ofNat, Nat.mod_eq_of_lt (by omega)]
  height := by
    rintro _ ⟨⟨⟨u, rfl⟩, -, -⟩, -, -⟩
    rfl
  width := by
    rintro _ ⟨⟨⟨u, rfl⟩, -, -⟩, -, -⟩
    rfl
  tables := fun sig coded h => h.setTables sig coded
  encode := fun _ _ b _ h hctx => h.mqeCode b hctx
  decode := nofun
  store := nofun

theorem encodingBlock_invariant :
    BlockInvariant .encode s.D s.H s.W (EncodingBlock s) (EncodingPlane s) where
  pass := fun _ hi => encodingPlane_pass hf hg hi
  enter := by
    rintro i hi _ ⟨⟨u, rfl⟩, hq, hsession⟩
    exact .of_ok (bpNewPlane_ok (s := encodeWritten (encodeOpened s) u) hg hi)
      ⟨⟨⟨⟨setPlaneLive true { u with curPlane := BitVec.ofNat 5 i, coded := [] }, rfl⟩,
        hq, hsession⟩, rfl, rfl⟩, rfl⟩
  leave := fun _ _ h => h.toEncodingBlock

end Block

/-- The marker ends the segment of a block whose last plane is coded. -/
theorem EncodingPlane.markEnd {s t : State} (h : EncodingPlane s 0 t)
    (hm : s.status.mqMode = .idle) :
    Completes mqeMarkEnd t fun _ t' => ∃ (u : State) (body : List Byte),
      t' = encodeFinished s u body ∧ Stuffed body ∧ u.coded = t.coded := by
  obtain ⟨⟨⟨u, rfl⟩, hq, body, hout, hopen⟩, live, current⟩ := h
  refine .of_ok (mqeMarkEnd_quiet rfl hq)
    ⟨{ u with portCalls := u.portCalls + 1 + 1 }, body, ?_, hopen.session.stuffed, rfl⟩
  have live : u.status.planeLive = true := live
  have current : u.curPlane = 0 := current
  have hout : u.out = s.out ++ body := hout
  simp [setMqMode, encodeWritten, encodeOpened, encodeFinished, live, current, hout, hm]

/-- `EB.ENCODE` once it has begun the block. -/
theorem encodeRest_completes {s : State} (hf : s.status.fault = false) (hg : geomOK s = true)
    (hm : s.status.mqMode = .idle) (hq : quietPorts s) :
    Completes (encodeRest s.D) (encodeOpened s) fun _ t => ∃ (u : State) (body : List Byte),
      t = encodeFinished s u body ∧ Stuffed body ∧
        ∀ r c, r < s.H → c < s.W → codedAt u r c = true := by
  have hD : 1 ≤ s.D := by
    simp only [geomOK, Bool.and_eq_true, decide_eq_true_eq] at hg
    omega
  have planes := (encodingBlock_invariant hf hg).planeLoop (top := s.D - 1) (n := s.D - 1)
    (by omega) le_rfl (encodingBlock_opened hq) fun _ _ _ => rfl
  rw [Nat.sub_add_cancel hD] at planes
  refine planes.bind fun _ t ⟨ht, hall⟩ => ?_
  have hmode := ((encodingPlane_pass hf hg hD).checked ht).mode
  refine .bind_ok ((emitted_mqeFlush hmode).ok ht.quiet) ?_
  have flushed : EncodingPlane s 0 (emit (flushed t.coder) t) :=
    ⟨ht.toEncodingBlock.emit fun _ _ hopen => hopen.flushed, ht.live, ht.current⟩
  refine (flushed.markEnd hm).mono fun _ t' ⟨u, body, ht', hstuffed, hcoded⟩ => ?_
  exact ⟨u, body, ht', hstuffed, fun r c hr hc => codedStay_of_eq hcoded r c (hall r c hr hc)⟩

/-- Settles O50: the planes are coded one by one, each decision within the open session, whose bytes
are stuffed; the flush moves out the rest, and the marker closes the segment. -/
theorem encodeBlockCompletes : Obligations.EncodeBlockCompletes := by
  intro s hf hg hm hq
  obtain ⟨_, t, hr, u, body, rfl, hstuffed, hall⟩ := encodeRest_completes hf hg hm hq
  rw [← ebEncode_eq hg hm] at hr
  exact ⟨u, body, command_ok hf (run_bind_ok hr), hstuffed, hall⟩

end Sys2Proof.Machine
end

section
/-! PROOF. What a command answers while `FAULT` is 0: by how its operation ends, and by the checks
its operation begins with (60_exceptions.md R310, R315, R316). -/

namespace Sys2Proof.Machine

open Sys2Proof.Safety

/-- While `FAULT` is 0 every command runs its operation and answers. -/
theorem exec_eq_settle {s : State} (hf : s.status.fault = false) (i : Instr) :
    exec i s = .next (settle (opOf i) s) := by
  by_cases hi : ∀ reg, i ≠ .cfgGet reg
  · rw [exec_eq_command hi, command_eq, hf]
    rfl
  · push Not at hi
    obtain ⟨reg, rfl⟩ := hi
    exact exec_cfgGet reg s

theorem exec_ok {i : Instr} {s t : State} {p : Word} (hf : s.status.fault = false)
    (h : opOf i s = .ok p t) : exec i s = okNext p t := by
  rw [exec_eq_settle hf, settle, h]
  rfl

theorem exec_protocolFault {i : Instr} {s : State} {code : FaultCode} (hf : s.status.fault = false)
    (h : opOf i s = .error (.protocolFault code) s) : exec i s = faultNext code s := by
  rw [exec_eq_settle hf, settle, h]
  exact takeProtocolFault_first hf code

/-- Where the checks raise, the operation raises the same and has done nothing else. -/
def Begins {α : Type} (checks : Op Unit) (x : Op α) : Prop :=
  ∀ s t e, checks s = .error e t → x s = .error e t

section Begins

variable {α β : Type} {c : Op Unit} {x : Op α}

theorem Begins.refl : Begins c c := fun _ _ _ => id

theorem Begins.bind {f : α → Op β} (h : Begins c x) : Begins c (x >>= f) :=
  fun s t e hc => run_bind_error (h s t e hc)

/-- After a first check that passes, the operation goes on with further checks. -/
theorem Begins.andThen {first : Op Unit} {f : Unit → Op β} (h : Begins c (f ())) :
    Begins (first >>= fun _ => c) (first >>= f) := fun s t e hc => by
  obtain hfirst | ⟨_, u, hfirst, hc⟩ := run_bind_eq_error.mp hc
  · exact run_bind_error hfirst
  · exact (run_bind_ok hfirst).trans (h u t e hc)

/-- A check that fails is the answer of a command that begins with it. -/
theorem Begins.exec_eq {i : Instr} {s : State} {code : FaultCode} (h : Begins c (opOf i))
    (hf : s.status.fault = false) (hc : c s = .error (.protocolFault code) s) :
    exec i s = faultNext code s := exec_protocolFault hf (h _ _ _ hc)

end Begins

end Sys2Proof.Machine
end

section
/-! PROOF. The probability table: its initial states, the commands on one context, the four tables
(40_probability_table.md R121 to R125). -/

namespace Sys2Proof.Machine

open Sys2Proof.Safety

theorem ptInitial_getElem {k : Nat} (hk : k < 19) :
    ptInitial[k]
      = ⟨if k = 0 then 4 else if k = 17 then 3 else if k = 18 then 46 else 0, false⟩ := by
  interval_cases k <;> rfl

/-- Settles O12: `PT.RESET` writes the initial states, which are read off entry by entry. -/
theorem ptResetWritesInitialStates : Obligations.PtResetWritesInitialStates := by
  intro s hf
  refine ⟨ptInitial, exec_ok hf rfl, fun k e he => ?_⟩
  obtain ⟨hk, rfl⟩ := Vector.getElem?_eq_some_iff.mp he
  rw [ptInitial_getElem hk]
  exact ⟨rfl, rfl⟩

theorem ptEst_ok {s : State} {ctx : Nat} (hv : s.status.ptValid = true) (hc : ctx ≤ 18) :
    ptEst ctx s = .ok (qe (ptAt s ctx).idx, (ptAt s ctx).mps) s := by
  simp [ptEst, run_bind, run_map, run_requirePt, hv, hc]

theorem estPayload_eq (p : BitVec 16) (mps : Bool) :
    estPayload p mps = BitVec.ofNat 32 (p.toNat + if mps then 2 ^ 16 else 0) := by
  cases mps <;> rfl

/-- Settles O13: with a valid label the checks pass, and only the label's entry is written. -/
theorem ptEstAndTransOneContext : Obligations.PtEstAndTransOneContext := by
  intro s ctx m sw e hf hv he
  obtain ⟨hlt, rfl⟩ := ptAt_of_getElem? he
  have hc : ctx ≤ 18 := by omega
  refine ⟨?_, s.pt.setIfInBounds ctx (ptMove m sw (ptAt s ctx)),
    exec_ok hf (run_bind_ok (ptTrans_ok hv hc m sw)),
    fun k hk => Vector.getElem?_setIfInBounds_ne hk.symm, ?_⟩
  · rw [← estPayload_eq]
    exact exec_ok hf (run_bind_ok (ptEst_ok hv hc))
  · rw [Vector.getElem?_setIfInBounds_self_of_lt hlt]
    refine ⟨fun hm => ?_, fun hm hswitch hsw => ?_, fun hm hstay => ?_⟩
    · simp [ptMove, hm]
    · simp [ptMove, hm, hswitch, hsw]
    · obtain hswitch | hsw := hstay
      · simp [ptMove, hm, hswitch]
      · simp [ptMove, hm, hsw]

/-- Settles O14, by evaluating the four tables at every index. -/
theorem probabilityTableRows : Obligations.ProbabilityTableRows := by
  unfold Obligations.ProbabilityTableRows
  decide

end Sys2Proof.Machine
end

section
/-! PROOF. UNIFORM never adapts (40_probability_table.md R126): state 46 is its own successor on
either side.  `Update.pt` forgets which state an entry moves to, so a relation is carried through
the decisions by `PT.TRANS` itself. -/

namespace Sys2Proof.Machine

open Sys2Proof.Safety

variable {R : State → State → Prop}

/-! ### Decisions by their `PT.TRANS` -/

theorem PartsKeep.decRenorm (K : PartsKeep [.registers, .session] R) (n : Nat) :
    Keeps R (decRenorm n) := by
  have once : Keeps R renormOnce :=
    .bind K.toChains (.getS K.toChains) fun _ =>
      .bind K.toChains (.doIf K.toChains K.fillLSBs) fun _ =>
        .modS fun s => K.trans (K.coder s _) (K.trans (K.setDecC _ _) (K.coder _ _))
  induction n with
  | zero => exact .pure K.toChains _
  | succ n ih =>
    exact .bind K.toChains (.getS K.toChains) fun _ =>
      .doIf K.toChains (.bind K.toChains once fun _ => ih)

theorem PartsKeep.inLower (K : PartsKeep [.freeBits] R) (p : BitVec 16) : Keeps R (inLower p) :=
  fun s => by
    unfold Machine.inLower
    split
    · next h => exact K.update .freeBits (by simp) _ _ (.freeBit s (Bool.and_eq_true_iff.mp h).2)
    · exact K.refl s

section Decision

variable (K : PartsKeep [.registers, .session, .freeBits] R)
  (trans : ∀ ctx m sw, Keeps R (ptTrans ctx m sw))
include K trans

theorem keeps_mqeCode (b : Bool) (ctx : Nat) : Keeps R (mqeCode b ctx) :=
  have C : PartsKeep [.registers, .session] R := K.mono (by decide)
  .bind K.toChains (K.readsOnly (requireMode_readsOnly _)) fun _ =>
    .bind K.toChains (K.readsOnly (requirePt_readsOnly ctx)) fun _ =>
      .bind K.toChains (.getS K.toChains) fun _ =>
        .bind K.toChains (.modS fun s => C.coder s _) fun _ =>
          .doIf K.toChains (.bind K.toChains (trans ctx _ _) fun _ => C.encRenorm 15)

theorem keeps_mqdDecode (ctx : Nat) : Keeps R (mqdDecode ctx) :=
  have C : PartsKeep [.registers, .session] R := K.mono (by decide)
  .bind K.toChains (K.readsOnly (requireMode_readsOnly _)) fun _ =>
    .bind K.toChains (K.readsOnly (requirePt_readsOnly ctx)) fun _ =>
      .bind K.toChains (.getS K.toChains) fun _ =>
        .bind K.toChains ((K.mono (by decide)).inLower _) fun lower =>
          .bind K.toChains (.modS fun s => by
            cases lower
            · exact K.trans (C.setDecC _ s) (C.coder _ _)
            · exact C.coder s _) fun _ =>
            .bind K.toChains
              (.doIf K.toChains (.bind K.toChains (trans ctx _ _) fun _ => C.decRenorm 15)) fun _ =>
                .pure K.toChains _

end Decision

/-- Where `PT.RESET`, `PT.TRANS`, the updates of every other part and every way to end keep the
relation, every command does. -/
theorem commandKeeps_of_ptTrans (hR : Chains R)
    (upd : ∀ k s t, k ∉ [Part.probability] → Update k s t → R s t) (hreset : Keeps R ptReset)
    (htrans : ∀ ctx m sw, Keeps R (ptTrans ctx m sw)) (E : EndKeeps R) : CommandKeeps R :=
  have K {ks : List Part} := PartsKeep.of_outside (ks := ks) hR upd
  { toChains := hR
    ptReset := hreset
    ptTrans := htrans
    sigReset := (K (by decide)).sigReset
    sigRefCtx := (K (by decide)).sigRefCtx
    sigSetSig := (K (by decide)).sigSetSig
    bpNewPlane := (K (by decide)).bpNewPlane
    bpSetBit := (K (by decide)).bpSetBit
    bpSetSign := (K (by decide)).bpSetSign
    bpMarkCoded := (K (by decide)).bpMarkCoded
    mqeInit := (K (by decide)).mqeInit
    mqeCode := keeps_mqeCode (K (by decide)) htrans
    mqeFlush := (K (by decide)).mqeFlush
    mqeMarkEnd := (K (by decide)).mqeMarkEnd
    mqdInit := (K (by decide)).mqdInit
    mqdDecode := keeps_mqdDecode (K (by decide)) htrans
    mqdSkipEnd := (K (by decide)).mqdSkipEnd
    respond := E.respond
    protocolFault := E.protocolFault
    decodeFailure := E.decodeFailure
    ioFailure := E.ioFailure
    cfgSet := (K (by decide)).cfgSet }

/-! ### State 46 -/

/-- State 46 has no switch flag and is both its successors (R123). -/
theorem ptMove_uniform (m sw : Bool) : ptMove m sw ⟨46, false⟩ = ⟨46, false⟩ := by
  cases m <;> cases sw <;> rfl

theorem uniformFixed_congr {s t : State} (hv : t.status.ptValid = s.status.ptValid)
    (hpt : t.pt = s.pt) (h : UniformFixed s) : UniformFixed t := by
  simpa only [UniformFixed, hv, hpt] using h

/-- Without `PT_VALID` nothing is asked. -/
theorem uniformFixed_of_invalid {s : State} (h : s.status.ptValid = false) : UniformFixed s :=
  fun hv => by simp [h] at hv

theorem uniformFixed_ptTrans (ctx : Nat) (m sw : Bool) :
    Keeps (fun s t => UniformFixed s → UniformFixed t) (ptTrans ctx m sw) := fun s hs => by
  simp only [ptTrans, run_bind, run_requirePt]
  split_ifs with hv hc
  · intro _
    by_cases h18 : ctx = 18
    · subst h18
      have he : ptAt s 18 = ⟨46, false⟩ := hs hv
      simp [he, ptMove_uniform]
    · simpa [Vector.getElem_setIfInBounds, h18] using hs hv
  · exact hs
  · exact hs

theorem uniformFixed_update {k : Part} {s t : State} (hk : k ∉ [Part.probability])
    (u : Update k s t) : UniformFixed s → UniformFixed t :=
  uniformFixed_congr (by cases u <;> simp_all) (u.pt_eq hk)

/-- A failure clears `PT_VALID`; the other ways to end leave it and the table. -/
theorem uniformFixed_endKeeps : EndKeeps fun s t => UniformFixed s → UniformFixed t where
  respond := fun _ _ _ => uniformFixed_congr rfl rfl
  protocolFault := fun _ _ => uniformFixed_congr rfl rfl
  decodeFailure := fun _ _ _ => uniformFixed_of_invalid rfl
  ioFailure := fun _ _ => uniformFixed_of_invalid rfl

theorem uniformFixed_stepKeeps : StepKeeps fun s t => UniformFixed s → UniformFixed t :=
  { commandKeeps_of_ptTrans (chains_preserves UniformFixed) (fun _ _ _ => uniformFixed_update)
      (fun _ _ _ => ptInitial_getElem (by decide)) uniformFixed_ptTrans uniformFixed_endKeeps with
    pop := fun _ _ => uniformFixed_congr rfl rfl
    reset := fun _ _ => uniformFixed_of_invalid rfl
    writeMem := fun _ _ _ => uniformFixed_congr rfl rfl
    setIn := fun _ _ _ _ => uniformFixed_congr rfl rfl
    drainOut := fun _ _ => uniformFixed_congr rfl rfl
    setOut := fun _ _ => uniformFixed_congr rfl rfl }

/-- Settles O15: `PT.RESET` puts UNIFORM in state 46, `PT.TRANS` moves it to where it stands, and
nothing else writes the table or sets `PT_VALID`. -/
theorem uniformNeverAdapts : Obligations.UniformNeverAdapts :=
  fun _ _ hs h => uniformFixed_stepKeeps.step h hs

end Sys2Proof.Machine
end

section
/-! PROOF. The checks of the operations on a context and of the coder, in their order
(40_probability_table.md R122; 43_mq_encoder.md R201 to R207; 44_mq_decoder.md R231 to R236). -/

namespace Sys2Proof.Machine

open Sys2Proof.Safety

variable {i : Instr} {ctx v n : Nat} {b m sw : Bool} {mode : MqMode}

/-! ### What each operation begins with -/

theorem begins_free (h : i ∈ [Instr.ptEst ctx, .ptTrans ctx m sw]) :
    Begins (requirePt ctx) (opOf i) := by
  simp only [List.mem_cons, List.not_mem_nil, or_false] at h
  obtain rfl | rfl := h <;> exact .bind (.bind .refl)

section Symbol

variable (h : (i ∈ [Instr.mqeCode b ctx, .mqeCodeNum v n ctx] ∧ mode = .encoding) ∨
  (i ∈ [Instr.mqdDecode ctx, .mqdDecodeNum n ctx] ∧ mode = .decoding))
include h

/-- A command that codes or decodes under a label. -/
theorem begins_symbol :
    Begins (requireMode mode >>= fun _ => requirePt ctx) (opOf i) := by
  simp only [List.mem_cons, List.not_mem_nil, or_false] at h
  obtain ⟨rfl | rfl, rfl⟩ | ⟨rfl | rfl, rfl⟩ := h <;> exact .bind (.andThen (.bind .refl))

/-- A command of several bits under a label. -/
theorem begins_num (hnum : i ∈ [Instr.mqeCodeNum v n ctx, .mqdDecodeNum n ctx]) :
    Begins (requireMode mode >>= fun _ => requirePt ctx >>= fun _ => requireNbits n) (opOf i) := by
  simp only [List.mem_cons, List.not_mem_nil, or_false] at h hnum
  obtain rfl | rfl := hnum
  · obtain rfl : mode = .encoding := by simpa using h
    exact .bind (.andThen (.andThen (.bind .refl)))
  · obtain rfl : mode = .decoding := by simpa using h
    exact .bind (.andThen (.andThen (.bind .refl)))

end Symbol

/-- A command that needs a session only. -/
theorem begins_other
    (h : (i ∈ [Instr.mqeFlush, .mqeMarkEnd] ∧ mode = .encoding) ∨
      (i = .mqdSkipEnd ∧ mode = .decoding)) :
    Begins (requireMode mode) (opOf i) := by
  simp only [List.mem_cons, List.not_mem_nil, or_false] at h
  obtain ⟨rfl | rfl, rfl⟩ | ⟨rfl, rfl⟩ := h <;> exact .bind (.bind .refl)

theorem begins_init (h : i ∈ [Instr.mqeInit, .mqdInit]) : Begins requireIdle (opOf i) := by
  simp only [List.mem_cons, List.not_mem_nil, or_false] at h
  obtain rfl | rfl := h <;> exact .bind (.bind .refl)

/-- Settles O34: each operation begins with its checks, and the first of them that fails answers. -/
theorem coderChecksInOrder : Obligations.CoderChecksInOrder := by
  intro s b m sw v n ctx mode i hf free symbol num other
  refine ⟨?_, fun h hm hv => ?_, fun h hv => ?_, fun h hm hv hc => ?_, fun h hv hc => ?_,
    fun h hnum hm hv hc hn => ?_, fun h hm => ?_⟩
  · rintro (h | h) hm
    · exact (begins_symbol h).exec_eq hf (by simp [run_bind, run_requireMode, hm])
    · exact (begins_other h).exec_eq hf (by simp [run_requireMode, hm])
  · exact (begins_symbol h).exec_eq hf (by simp [run_bind, run_requireMode, run_requirePt, hm, hv])
  · exact (begins_free h).exec_eq hf (by simp [run_requirePt, hv])
  · exact (begins_symbol h).exec_eq hf
      (by simp [run_bind, run_requireMode, run_requirePt, hm, hv, hc])
  · exact (begins_free h).exec_eq hf (by simp [run_requirePt, hv, hc])
  · exact (begins_num h hnum).exec_eq hf (by
      simp [run_bind, run_requireMode, run_requirePt, requireNbits, hm, hv, hc, hn])
  · exact (begins_init h).exec_eq hf (by simp [run_requireIdle, hm])

end Sys2Proof.Machine
end

section
/-! PROOF. The labels of the significance table: the rows of the two tables for significance
propagation, and of the one for signs (41_significance_table.md R144 to R148, R151). -/

namespace Sys2Proof.Machine

open Sys2Proof.Safety

/-! ### Significance propagation -/

/-- Each branch of `classLL` is one row of R145; the conditions of the rows exclude each other. -/
theorem labelLL_classLL (h v d : Nat) : LabelLL h v d (classLL h v d) := by
  unfold LabelLL classLL
  split_ifs <;> omega

/-- Each branch of `classHH` is one row of R146; the conditions of the rows exclude each other. -/
theorem labelHH_classHH (d hv : Nat) : LabelHH d hv (classHH d hv) := by
  unfold LabelHH classHH
  split_ifs <;> omega

theorem classLL_eq_zero {h v d : Nat} : classLL h v d = 0 ↔ h = 0 ∧ v = 0 ∧ d = 0 := by
  have rows := labelLL_classLL h v d
  unfold LabelLL at rows
  constructor <;> omega

theorem classHH_eq_zero {d hv : Nat} : classHH d hv = 0 ↔ d = 0 ∧ hv = 0 := by
  have rows := labelHH_classHH d hv
  unfold LabelHH at rows
  constructor <;> omega

/-- In every sub-band the label is ZERO exactly where the three sums are 0: the exchange for HL does
not matter to it. -/
theorem spLabel_eq_zero {h v d : Nat} (sb : SubBand) :
    spLabel h v d sb = lblZero ↔ h = 0 ∧ v = 0 ∧ d = 0 := by
  cases sb with
  | ll | lh => exact classLL_eq_zero
  | hl => exact classLL_eq_zero.trans and_left_comm
  | hh => exact classHH_eq_zero.trans (by omega)

/-- Settles O18: the command answers `labelAt`, which is read off the table of its sub-band. -/
theorem spCtxFollowsTables : Obligations.SpCtxFollowsTables := by
  intro s r c sb h
  refine ⟨labelAt s r c sb, exec_ok h.noFault (run_bind_ok (sigSpCtx_ok h sb)), ?_⟩
  cases sb with
  | ll | lh | hl => exact labelLL_classLL ..
  | hh => exact labelHH_classHH ..

/-! ### Signs -/

/-- `SignClass` of two clamped sums is a row of R148: there are three values of each. -/
theorem signClass_mem_signRows (x y : Int) :
    (clampOne x, clampOne y, signClass (clampOne x) (clampOne y)) ∈ signRows := by
  have clamped (z : Int) : clampOne z = -1 ∨ clampOne z = 0 ∨ clampOne z = 1 := by
    unfold clampOne
    omega
  obtain hx | hx | hx := clamped x <;> obtain hy | hy | hy := clamped y <;> rw [hx, hy] <;> decide

/-- `chiAt` names positions by integers; where `p` says that one is inside the block, it is `chi` of
the state there. -/
theorem chiAt_eq_ite {s : State} {r c : Int} {p : Prop} [Decidable p] {r' c' : Nat}
    (hp : p ↔ 0 ≤ r ∧ r < s.H ∧ 0 ≤ c ∧ c < s.W) (hr : p → r = r') (hc : p → c = c') :
    chiAt s r c = if p then chi (sigstAt s.sig r' c') else 0 := by
  unfold chiAt
  rw [← if_congr hp rfl rfl]
  split_ifs with h
  · rw [hr h, hc h]
    rfl
  · rfl

/-- The contribution of at most two positions, as a clamped sum of two. -/
theorem contribution_pair (t : SigTable) (p q : Prop) [Decidable p] [Decidable q]
    (a b : Nat × Nat) :
    contribution t ((if p then [a] else []) ++ (if q then [b] else []))
      = clampOne ((if p then chi (sigstAt t a.1 a.2) else 0)
        + (if q then chi (sigstAt t b.1 b.2) else 0)) := by
  unfold contribution clampOne
  split_ifs <;> simp

section Neighbours

variable {s : State} {r c : Nat} (hr : r < s.H) (hc : c < s.W)
include hr hc

/-- The sum over the horizontal neighbours inside the block is the sum over both, of which those
outside contribute 0. -/
theorem contribution_hNbrs :
    contribution s.sig (hNbrs s.W r c) = clampOne (chiAt s r (c - 1) + chiAt s r (c + 1)) := by
  rw [hNbrs, contribution_pair,
    chiAt_eq_ite (p := 1 ≤ c) (r' := r) (c' := c - 1) (by omega) (by omega) (by omega),
    chiAt_eq_ite (p := c + 1 < s.W) (r' := r) (c' := c + 1) (by omega) (by omega) (by omega)]

/-- The sum over the vertical neighbours inside the block is the sum over both, of which those
outside contribute 0. -/
theorem contribution_vNbrs :
    contribution s.sig (vNbrs s.H r c) = clampOne (chiAt s (r - 1) c + chiAt s (r + 1) c) := by
  rw [vNbrs, contribution_pair,
    chiAt_eq_ite (p := 1 ≤ r) (r' := r - 1) (c' := c) (by omega) (by omega) (by omega),
    chiAt_eq_ite (p := r + 1 < s.H) (r' := r + 1) (c' := c) (by omega) (by omega) (by omega)]

end Neighbours

theorem signPayload_eq (label : Nat) (x : Bool) :
    signPayload label x = BitVec.ofNat 32 (label + if x then 32 else 0) := by
  cases x <;> rfl

/-- Settles O19: the command answers `SignClass` of the two clamped sums, which is a row. -/
theorem signCtxFollowsTable : Obligations.SignCtxFollowsTable := by
  intro s r c h
  have answer := sigSignCtx_ok h
  rw [contribution_hNbrs h.row h.col, contribution_vNbrs h.row h.col] at answer
  refine ⟨_, _, ?_, signClass_mem_signRows _ _⟩
  rw [← signPayload_eq]
  exact exec_ok h.noFault (run_bind_ok answer)

end Sys2Proof.Machine
end

section
/-! PROOF. What the commands of the significance table do with it: reset, queries, `SIG.REFCTX`,
`SIG.SETSIG`, and their checks in order (41_significance_table.md R141 to R143, R149 to R151). -/

namespace Sys2Proof.Machine

open Sys2Proof.Safety

/-- Settles O16: the table that replaces the old one is empty, so it reads as the defaults. -/
theorem sigResetForgets : Obligations.SigResetForgets := by
  intro s hf
  refine ⟨fun hg => exec_protocolFault hf (run_bind_error (run_bind_error ?_)), fun hg =>
    ⟨.empty, exec_ok hf (run_bind_ok (sigReset_ok hg)), fun _ _ => ⟨rfl, rfl, rfl, rfl, rfl⟩⟩⟩
  simp [run_requireGeom, hg]

theorem boolWord_decide (p : Prop) [Decidable p] : boolWord (decide p) = if p then 1 else 0 := by
  by_cases h : p <;> simp [boolWord, boolNat, h]

/-- Four labels are ZERO where the three sums of four rows are 0. -/
theorem strip_all_zero (s : State) (r c : Nat) (sb : SubBand) :
    ((List.range 4).all fun j => labelAt s (r + j) c sb == lblZero) = true ↔
      ∀ j < 4, sumHAt s.sig (r + j) c = 0 ∧ sumVAt s.sig (r + j) c = 0 ∧
        sumDAt s.sig (r + j) c = 0 := by
  simp only [List.all_eq_true, List.mem_range, beq_iff_eq, labelAt, spLabel_eq_zero]

/-- Settles O17: `SIG.STRIPZ` compares four labels with ZERO, which says that the sums are 0. -/
theorem significanceQueries : Obligations.SignificanceQueries := by
  intro s r c sb h
  refine ⟨?_, fun hr => ?_⟩
  · rw [← ite_not, ← boolWord_decide]
    exact exec_ok h.noFault (run_bind_ok (sigIsSig_ok h))
  · have answer := exec_ok (i := .sigStripZ sb r c) h.noFault (run_bind_ok (sigStripZ_ok h sb hr))
    have allZero := strip_all_zero s r c sb
    refine ⟨fun hz => ?_, ?_⟩
    · rwa [allZero.mpr hz] at answer
    · rintro ⟨j, hj, hne⟩
      have notAll := mt allZero.mp fun hz => absurd (hz j hj) (by omega)
      rwa [Bool.eq_false_iff.mpr notAll] at answer

/-- Settles O20: the first call clears `FIRST` at the position and nowhere else. -/
theorem refCtxConsumesFirst : Obligations.RefCtxConsumesFirst := by
  intro s r c h
  refine ⟨fun hfirst => ⟨(consumeFirst r c s.sig).first, ?_, ?_, fun r' c' _ hc' hne => ?_⟩,
    fun hfirst => ?_⟩
  · have payload (p : Prop) [Decidable p] :
        labelPayload (if p then 14 else 15) = if p then 14 else 15 := apply_ite ..
    rw [← payload]
    exact exec_ok h.noFault (run_bind_ok ((sigRefCtx_ok h).trans (if_pos hfirst)))
  · simp [consumeFirst]
  · have hW := s.W_lt
    have hc := h.col
    have other : cellIndex r' c' ≠ cellIndex r c := by
      rw [Ne, cellIndex_inj (by omega) (by omega)]
      omega
    simp [consumeFirst, firstAt, other]
  · exact exec_ok h.noFault (run_bind_ok ((sigRefCtx_ok h).trans (if_neg (by simp [hfirst]))))

/-- Settles O21: what `markSignificant` leaves, array by array; a significant coefficient is stopped
before it. -/
theorem setSigMarksAndCounts : Obligations.SetSigMarksAndCounts := by
  intro s r c neg h
  refine ⟨fun hs => ⟨markSignificant s.H s.W r c neg s.sig, ?_, rfl, fun r' c' hr' hc' =>
    ⟨sigstAt_markSignificant neg h.col hc', sumHAt_markSignificant neg h.col hc',
      sumVAt_markSignificant neg h.row h.col hr' hc',
      sumDAt_markSignificant neg h.row h.col hr' hc'⟩⟩,
    fun hs => ?_⟩
  · exact exec_ok h.noFault (run_bind_ok
      ((sigSetSig_ok h neg).trans (if_neg (by simpa [isSignificant]))))
  · exact exec_protocolFault h.noFault (run_bind_error
      ((sigSetSig_ok h neg).trans (if_pos (by simpa [isSignificant]))))

/-! ### Checks -/

section Checks

variable {r c : Nat} {sb : SubBand} {neg : Bool} {i : Instr}

theorem begins_sig (h : i ∈ [Instr.sigIsSig r c, .sigSpCtx r c sb, .sigSignCtx r c, .sigRefCtx r c,
    .sigSetSig r c neg, .sigStripZ sb r c]) : Begins (requireSig r c) (opOf i) := by
  simp only [List.mem_cons, List.not_mem_nil, or_false] at h
  obtain rfl | rfl | rfl | rfl | rfl | rfl := h <;> exact .bind (.bind .refl)

theorem begins_sigStripZ :
    Begins (requireSig r c >>= fun _ => requireStrip r) (opOf (.sigStripZ sb r c)) :=
  .bind (.andThen (.bind .refl))

end Checks

/-- Settles O22: each operation begins with its checks, and the first of them that fails answers. -/
theorem sigChecksInOrder : Obligations.SigChecksInOrder := by
  intro s r c sb neg i hf hi
  refine ⟨fun hg => ?_, fun hg hv => ?_, fun hg hv hrc => ?_, fun h hi hr => ?_⟩
  · exact (begins_sig hi).exec_eq hf (by simp [run_requireSig, hg])
  · exact (begins_sig hi).exec_eq hf (by simp [run_requireSig, hg, hv])
  · have out : ¬ (r < s.H ∧ c < s.W) := by omega
    exact (begins_sig hi).exec_eq hf (by simp [run_requireSig, hg, hv, out])
  · subst hi
    exact begins_sigStripZ.exec_eq hf (by
      simp [run_bind, requireSig_ok h, run_requireStrip, Nat.not_lt.mpr hr])

end Sys2Proof.Machine
end

section
/-! PROOF. The bits of the block's words: what `BP.BITAT` and `BP.SIGNAT` answer, what `BP.SETBIT`
and `BP.SETSIGN` store, and what `BP.STRIPFNZ` finds (42_block_plane_view.md R172 to R175, R182,
R184). -/

namespace Sys2Proof.Machine

open Sys2Proof.Safety

theorem boolWord_eq_ite (b : Bool) : boolWord b = if b then 1 else 0 := by cases b <;> rfl

theorem State.D_lt (s : State) : s.D < 32 := s.cfg.d.isLt

/-- Bit `k` of the word of the coefficient at (r, c). -/
def coeffBit (s : State) (k r c : Nat) : Bool := (wordAt s (memAddr s r c)).getLsbD k

/-- What a command leaves that stores `b` in bit `j` of the word of the coefficient at (r, c). -/
def afterBitStore (j r c : Nat) (b : Bool) (s : State) : State :=
  respond .ok 0 (setWord (memAddr s r c) (replaceBit (wordAt s (memAddr s r c)) j b) s)

section Commands

variable {s : State} {r c : Nat} (h : BpReady s r c)
include h

theorem exec_bpBitAt {i : Nat} (hi : i < s.D) :
    exec (.bpBitAt i r c) s = okNext (if coeffBit s i r c then 1 else 0) s := by
  rw [← boolWord_eq_ite]
  exact exec_ok h.noFault (run_bind_ok (bpBitAt_ok h hi))

theorem exec_bpSignAt :
    exec (.bpSignAt r c) s = okNext (if coeffBit s s.D r c then 1 else 0) s := by
  rw [← boolWord_eq_ite]
  exact exec_ok h.noFault (run_bind_ok (bpSignAt_ok h))

theorem exec_bpSetBit {i : Nat} (hi : i < s.D) (b : Bool) :
    exec (.bpSetBit i r c b) s = .next (afterBitStore i r c b s) :=
  exec_ok h.noFault (run_bind_ok (bpSetBit_ok h hi b))

theorem exec_bpSetSign (b : Bool) :
    exec (.bpSetSign r c b) s = .next (afterBitStore s.D r c b s) :=
  exec_ok h.noFault (run_bind_ok (bpSetSign_ok h b))

end Commands

/-- Settles O26: both commands read the word at the coefficient's address. -/
theorem bitAndSignReads : Obligations.BitAndSignReads := fun _ _ _ _ h =>
  ⟨exec_bpBitAt h, exec_bpSignAt h⟩

/-! ### Stores -/

/-- A store leaves every word but the coefficient's. -/
theorem wordAt_afterBitStore_of_ne {s : State} {j r c a : Nat} (b : Bool)
    (ha : a ≠ memAddr s r c) :
    wordAt (afterBitStore j r c b s) a = wordAt s a :=
  (wordAt_setWord ..).trans (if_neg ha)

/-- A store replaces one bit of the coefficient's word. -/
theorem getLsbD_afterBitStore {s : State} {j r c k : Nat} (b : Bool) (hk : k < 32) :
    (wordAt (afterBitStore j r c b s) (memAddr s r c)).getLsbD k
      = if k = j then b else coeffBit s k r c := by
  have stored : wordAt (afterBitStore j r c b s) (memAddr s r c)
      = replaceBit (wordAt s (memAddr s r c)) j b := (wordAt_setWord ..).trans (if_pos rfl)
  rw [stored, getLsbD_replaceBit _ _ _ _ hk, coeffBit]

/-- Settles O27: each command stores one bit. -/
theorem bitStoresChangeOneBit : Obligations.BitStoresChangeOneBit := fun s i r c b h =>
  ⟨fun hi => ⟨(afterBitStore i r c b s).mem, exec_bpSetBit h hi b,
      fun _ => wordAt_afterBitStore_of_ne b, fun _ => getLsbD_afterBitStore b⟩,
    (afterBitStore s.D r c b s).mem, exec_bpSetSign h b,
      fun _ => wordAt_afterBitStore_of_ne b, fun _ => getLsbD_afterBitStore b⟩

section Reads

variable {s : State} {r c r' c' : Nat} (h : BpReady s r c) (hr' : r' < s.H) (hc' : c' < s.W)
include h hc'

/-- A bit of the block after a store: distinct positions lie at distinct addresses. -/
theorem coeffBit_afterBitStore (j : Nat) (b : Bool) {k : Nat} (hk : k < 32) :
    coeffBit (afterBitStore j r c b s) k r' c'
      = if k = j ∧ r' = r ∧ c' = c then b else coeffBit s k r' c' := by
  change (wordAt (afterBitStore j r c b s) (memAddr s r' c')).getLsbD k = _
  by_cases hpos : r' = r ∧ c' = c
  · obtain ⟨rfl, rfl⟩ := hpos
    simp [getLsbD_afterBitStore b hk]
  · rw [wordAt_afterBitStore_of_ne b (mt (memAddr_inj h.geom hc' h.col).mp hpos),
      if_neg fun hall => hpos hall.2, coeffBit]

include hr'

theorem bpReady_afterBitStore (j : Nat) (b : Bool) : BpReady (afterBitStore j r c b s) r' c' :=
  ⟨h.noFault, h.geom, hr', hc'⟩

/-- `BP.BITAT` of a bit that a store did not write answers as before. -/
theorem exec_bpBitAt_afterBitStore_of_ne (j : Nat) (b : Bool) {i : Nat} (hi : i < s.D)
    (hne : i ≠ j ∨ r' ≠ r ∨ c' ≠ c) :
    ∃ v, exec (.bpBitAt i r' c') s = okNext v s ∧
      exec (.bpBitAt i r' c') (afterBitStore j r c b s) = okNext v (afterBitStore j r c b s) := by
  have same := coeffBit_afterBitStore (r' := r') h hc' j b (hi.trans s.D_lt)
  rw [if_neg (by omega)] at same
  exact ⟨_, exec_bpBitAt ⟨h.noFault, h.geom, hr', hc'⟩ hi,
    same ▸ exec_bpBitAt (bpReady_afterBitStore h hr' hc' j b) hi⟩

/-- `BP.SIGNAT` of a sign that a store did not write answers as before. -/
theorem exec_bpSignAt_afterBitStore_of_ne (j : Nat) (b : Bool)
    (hne : s.D ≠ j ∨ r' ≠ r ∨ c' ≠ c) :
    ∃ v, exec (.bpSignAt r' c') s = okNext v s ∧
      exec (.bpSignAt r' c') (afterBitStore j r c b s) = okNext v (afterBitStore j r c b s) := by
  have same := coeffBit_afterBitStore (r' := r') h hc' j b s.D_lt
  rw [if_neg (by omega)] at same
  exact ⟨_, exec_bpSignAt ⟨h.noFault, h.geom, hr', hc'⟩,
    same ▸ exec_bpSignAt (bpReady_afterBitStore h hr' hc' j b)⟩

end Reads

section ReadBack

variable {s : State} {r c : Nat} (h : BpReady s r c)
include h

theorem exec_bpBitAt_afterBitStore_same {i : Nat} (hi : i < s.D) (b : Bool) :
    exec (.bpBitAt i r c) (afterBitStore i r c b s)
      = okNext (if b then 1 else 0) (afterBitStore i r c b s) := by
  have stored := coeffBit_afterBitStore (r' := r) h h.col i b (hi.trans s.D_lt)
  rw [if_pos ⟨rfl, rfl, rfl⟩] at stored
  exact (exec_bpBitAt (bpReady_afterBitStore h h.row h.col i b) hi).trans
    (congrArg (fun x : Bool => okNext (if x then 1 else 0) _) stored)

theorem exec_bpSignAt_afterBitStore_same (b : Bool) :
    exec (.bpSignAt r c) (afterBitStore s.D r c b s)
      = okNext (if b then 1 else 0) (afterBitStore s.D r c b s) := by
  have stored := coeffBit_afterBitStore (r' := r) h h.col s.D b s.D_lt
  rw [if_pos ⟨rfl, rfl, rfl⟩] at stored
  exact (exec_bpSignAt (bpReady_afterBitStore h h.row h.col s.D b)).trans
    (congrArg (fun x : Bool => okNext (if x then 1 else 0) _) stored)

end ReadBack

/-- Settles O32: a read sees a store where it reads the bit stored, and the sign, bit D, is no bit
of a plane. -/
theorem storedBitsReadBack : Obligations.StoredBitsReadBack := by
  intro s t i r c b h hi
  constructor
  · intro ht
    obtain rfl : afterBitStore i r c b s = t := by simpa [exec_bpSetBit h hi] using ht
    exact ⟨exec_bpBitAt_afterBitStore_same h hi b, fun i' r' c' hr' hc' =>
      ⟨exec_bpSignAt_afterBitStore_of_ne h hr' hc' i b (.inl hi.ne'),
        exec_bpBitAt_afterBitStore_of_ne h hr' hc' i b⟩⟩
  · intro ht
    obtain rfl : afterBitStore s.D r c b s = t := by simpa [exec_bpSetSign h] using ht
    exact ⟨exec_bpSignAt_afterBitStore_same h b, fun i' r' c' hr' hc' =>
      ⟨fun hi' => exec_bpBitAt_afterBitStore_of_ne h hr' hc' s.D b hi' (.inl hi'.ne),
        fun hne => exec_bpSignAt_afterBitStore_of_ne h hr' hc' s.D b (.inr hne)⟩⟩

/-! ### The search of a strip -/

/-- The search is `find?` on the row offsets. -/
theorem run_firstSetRow {s : State} {r c : Nat} (i j n : Nat) (hr : r + j + n ≤ s.H)
    (hc : c < s.W) :
    firstSetRow i r c j n s
      = .ok ((List.range' j n).find? fun k => coeffBit s i (r + k) c) s := by
  induction n generalizing j with
  | zero => rfl
  | succ n ih =>
    rw [firstSetRow, run_bind_ok ((run_memRead _ _ s).trans (if_pos ⟨by omega, hc⟩)),
      List.range'_succ, List.find?_cons]
    change (if coeffBit s i (r + j) c = true then _ else _ : Op (Option Nat)) s = _
    cases coeffBit s i (r + j) c
    · exact ih (j + 1) (by omega)
    · rfl

theorem bpStripFnz_ok {s : State} {i r c : Nat} (h : BpReady s r c) (hi : i < s.D)
    (hr : r + 3 < s.H) :
    bpStripFnz i r c s = .ok ((List.range 4).find? fun k => coeffBit s i (r + k) c) s := by
  have checked : requireBit i r c s = .ok () s := by
    simp [run_requireBit, h.geom, hi, h.row, h.col]
  rw [bpStripFnz, run_bind_ok checked, run_bind_ok ((run_requireStrip r s).trans (if_pos hr)),
    run_firstSetRow i 0 4 (by omega) h.col, List.range_eq_range']

/-- Settles O30: `find?` answers the first row offset whose bit is 1. -/
theorem stripFnzFindsFirstRow : Obligations.StripFnzFindsFirstRow := by
  intro s i r c h hi hr bit
  have answer := exec_ok (i := .bpStripFnz i r c) h.noFault (run_bind_ok (bpStripFnz_ok h hi hr))
  refine ⟨fun hnone => ?_, fun k hk hbit hfirst => ?_⟩
  · have found : (List.range 4).find? (fun j => coeffBit s i (r + j) c) = none :=
      List.find?_range_eq_none.mpr fun j hj => (Bool.not_eq_true' _).mpr (hnone j hj)
    rwa [found] at answer
  · have found : (List.range 4).find? (fun j => coeffBit s i (r + j) c) = some k :=
      List.find?_range_eq_some.mpr
        ⟨hbit, List.mem_range.mpr hk, fun j hj => (Bool.not_eq_true' _).mpr (hfirst j hj)⟩
    rwa [found] at answer

end Sys2Proof.Machine
end

section
/-! PROOF. The live plane and its coded flags, the strip geometry, and the checks of the `BP`
operations in order (42_block_plane_view.md R171, R176 to R181, R183). -/

namespace Sys2Proof.Machine

open Sys2Proof.Safety

/-- Settles O25: the list of coded flags of a new plane is empty, so every flag reads 0. -/
theorem newPlaneClearsCoded : Obligations.NewPlaneClearsCoded := by
  intro s i hf
  have checks : Begins (requireGeom >>= fun _ => requirePlane i) (opOf (.bpNewPlane i)) :=
    .bind (.andThen (.bind .refl))
  refine ⟨fun hg => checks.exec_eq hf ?_, fun hg hi => checks.exec_eq hf ?_, fun hg hi =>
    ⟨setPlaneLive true { s with curPlane := BitVec.ofNat 5 i, coded := [] }, ?_, ?_,
      fun _ _ => rfl⟩⟩
  · simp [run_bind, run_requireGeom, hg]
  · simp [run_bind, run_requireGeom, run_requirePlane, hg, Nat.not_lt.mpr hi]
  · exact exec_ok hf (run_bind_ok (bpNewPlane_ok hg hi))
  · exact Nat.mod_eq_of_lt (hi.trans s.D_lt)

/-- The flags of four rows are all 0. -/
theorem strip_uncoded (s : State) (r c : Nat) :
    ((List.range 4).all fun j => !codedAt s (r + j) c) = true ↔
      codedAt s r c = false ∧ codedAt s (r + 1) c = false ∧ codedAt s (r + 2) c = false ∧
        codedAt s (r + 3) c = false := by
  simp [show List.range 4 = [0, 1, 2, 3] from rfl]

/-- Settles O28: inside the block no other coefficient has the index of the flag that is set. -/
theorem codedFlags : Obligations.CodedFlags := by
  intro s i r c h
  refine ⟨?_, fun hr => ?_, markCoded r c s, ?_, ?_, fun r' c' _ hc' hne => ?_⟩
  · rw [← boolWord_eq_ite]
    exact exec_ok h.noFault (run_bind_ok (bpIsCoded_ok h))
  · rw [← if_congr (strip_uncoded s r c) rfl rfl, ← boolWord_eq_ite]
    exact exec_ok h.noFault (run_bind_ok (bpStripUnc_ok h hr))
  · exact exec_ok h.noFault (run_bind_ok (bpMarkCoded_ok h))
  · rw [codedAt_markCoded, if_pos rfl]
  · have hW := s.W_lt
    have hc := h.col
    have other : cellIndex r' c' ≠ cellIndex r c := by
      rw [Ne, cellIndex_inj (by omega) (by omega)]
      omega
    rw [codedAt_markCoded, if_neg other]

/-! ### Strip geometry -/

/-- A query of the geometry where it is legal. -/
theorem geometryQuery_ok {s : State} (hg : geomOK s = true) (q : State → Nat) :
    (requireGeom >>= fun _ => getS >>= fun u => pure (q u) : Op Nat) s = .ok (q s) s :=
  run_bind_ok ((run_requireGeom s).trans (if_pos hg))

theorem begins_geometryQuery {i : Instr} (h : i ∈ [Instr.bpNFull, .bpLastH, .bpLastOff]) :
    Begins requireGeom (opOf i) := by
  simp only [List.mem_cons, List.not_mem_nil, or_false] at h
  obtain rfl | rfl | rfl := h <;> exact .bind (.bind .refl)

/-- Settles O29: one check, then a number of the configuration. -/
theorem stripGeometry : Obligations.StripGeometry := by
  intro s hf
  refine ⟨fun hg => ?_, fun hg => ?_⟩
  · exact ⟨exec_ok hf (run_bind_ok (geometryQuery_ok hg fun u => u.H / 4)),
      exec_ok hf (run_bind_ok (geometryQuery_ok hg fun u => u.H % 4)),
      exec_ok hf (run_bind_ok (geometryQuery_ok hg fun u => u.H / 4 * 4))⟩
  · have fails : requireGeom s = .error (.protocolFault .badConfig) s := by
      simp [run_requireGeom, hg]
    exact ⟨(begins_geometryQuery (by simp)).exec_eq hf fails,
      (begins_geometryQuery (by simp)).exec_eq hf fails,
      (begins_geometryQuery (by simp)).exec_eq hf fails⟩

/-! ### Checks -/

section Checks

variable {p r c : Nat} {b : Bool} {i : Instr}

theorem begins_requireLive
    (h : i ∈ [Instr.bpIsCoded p r c, .bpMarkCoded p r c, .bpStripUnc p r c]) :
    Begins (requireLive p r c) (opOf i) := by
  simp only [List.mem_cons, List.not_mem_nil, or_false] at h
  obtain rfl | rfl | rfl := h <;> exact .bind (.bind .refl)

theorem begins_requireBit (h : i ∈ [Instr.bpBitAt p r c, .bpSetBit p r c b, .bpStripFnz p r c]) :
    Begins (requireBit p r c) (opOf i) := by
  simp only [List.mem_cons, List.not_mem_nil, or_false] at h
  obtain rfl | rfl | rfl := h <;> exact .bind (.bind .refl)

theorem begins_requireSign (h : i ∈ [Instr.bpSignAt r c, .bpSetSign r c b]) :
    Begins (requireSign r c) (opOf i) := by
  simp only [List.mem_cons, List.not_mem_nil, or_false] at h
  obtain rfl | rfl := h <;> exact .bind (.bind .refl)

theorem begins_bpStripUnc :
    Begins (requireLive p r c >>= fun _ => requireStrip r) (opOf (.bpStripUnc p r c)) :=
  .bind (.andThen (.bind .refl))

theorem begins_bpStripFnz :
    Begins (requireBit p r c >>= fun _ => requireStrip r) (opOf (.bpStripFnz p r c)) :=
  .bind (.andThen (.bind .refl))

end Checks

/-- Settles O31: each operation begins with its checks, and the first of them that fails answers. -/
theorem bpChecksInOrder : Obligations.BpChecksInOrder := by
  intro s p r c b i hf live plane sign
  have outside (h : s.H ≤ r ∨ s.W ≤ c) : ¬ (r < s.H ∧ c < s.W) := by omega
  refine ⟨?_, fun h hg hl => ?_, fun h hg hl hp => ?_, fun h hg hp => ?_,
    fun h hg hl hp hcur hrc => ?_, fun h hg hp hrc => ?_, fun h hg hrc => ?_, fun hi h hr => ?_,
    fun hi h hp hr => ?_⟩
  · rintro (h | h | h) hg
    · exact (begins_requireLive h).exec_eq hf (by simp [run_requireLive, hg])
    · exact (begins_requireBit h).exec_eq hf (by simp [run_requireBit, hg])
    · exact (begins_requireSign h).exec_eq hf (by simp [run_requireSign, hg])
  · exact (begins_requireLive h).exec_eq hf (by simp [run_requireLive, hg, hl])
  · refine (begins_requireLive h).exec_eq hf ?_
    obtain hp | hp := hp
    · simp [run_requireLive, hg, hl, Nat.not_lt.mpr hp]
    · simp [run_requireLive, hg, hl, hp]
  · exact (begins_requireBit h).exec_eq hf (by simp [run_requireBit, hg, Nat.not_lt.mpr hp])
  · exact (begins_requireLive h).exec_eq hf
      (by simp [run_requireLive, hg, hl, hp, ← hcur, outside hrc])
  · exact (begins_requireBit h).exec_eq hf (by simp [run_requireBit, hg, hp, outside hrc])
  · exact (begins_requireSign h).exec_eq hf (by simp [run_requireSign, hg, outside hrc])
  · subst hi
    exact begins_bpStripUnc.exec_eq hf (by
      simp [run_bind, requireLive_ok h, run_requireStrip, Nat.not_lt.mpr hr])
  · subst hi
    exact begins_bpStripFnz.exec_eq hf (by
      simp [run_bind, run_requireBit, run_requireStrip, h.geom, h.row, h.col, hp,
        Nat.not_lt.mpr hr])

end Sys2Proof.Machine
end

section
/-! PROOF. The scan order of the passes (45_pass_sequencer.md R262): strips, columns and rows rise,
so that no position comes twice. -/

namespace Sys2Proof.Machine

open Sys2Proof.Safety

/-- One position comes before another: strip by strip, column by column, row by row. -/
def ScanBefore (p q : Nat × Nat) : Prop :=
  p.1 / 4 < q.1 / 4 ∨ (p.1 / 4 = q.1 / 4 ∧ (p.2 < q.2 ∨ (p.2 = q.2 ∧ p.1 < q.1)))

theorem ScanBefore.ne {p q : Nat × Nat} (h : ScanBefore p q) : p ≠ q := by
  rintro rfl
  unfold ScanBefore at h
  omega

/-- The rows of a strip have the strip's number, which its first row is four times. -/
theorem div_four_of_mem_strips {h j : Nat} {st : Nat × Nat × Bool} (hst : st ∈ strips h)
    (hj : j < st.2.1) : (st.1 + j) / 4 = st.1 / 4 ∧ st.1 = 4 * (st.1 / 4) := by
  obtain ⟨k, hk, rfl⟩ := mem_strips.mp hst
  dsimp only at hj ⊢
  omega

theorem pairwise_strips (h : Nat) : (strips h).Pairwise fun a b => a.1 < b.1 := by
  rw [strips_eq_stripRows, stripRows, List.map_map, List.pairwise_map]
  exact List.pairwise_lt_range.imp fun hkl => Nat.mul_lt_mul_of_pos_left hkl (by decide)

/-- The positions of one strip, column by column. -/
theorem pairwise_strip {h : Nat} {st : Nat × Nat × Bool} (hst : st ∈ strips h) (w : Nat) :
    ((List.range w).flatMap fun c => (List.range st.2.1).map fun j => (st.1 + j, c)).Pairwise
      ScanBefore := by
  simp only [List.pairwise_flatMap, List.pairwise_map, List.mem_map, List.mem_range]
  constructor
  · intro c _
    exact List.pairwise_lt_range.imp_of_mem fun {j k} hj hk hjk =>
      .inr ⟨((div_four_of_mem_strips hst (List.mem_range.mp hj)).1).trans
        (div_four_of_mem_strips hst (List.mem_range.mp hk)).1.symm,
        .inr ⟨rfl, Nat.add_lt_add_left hjk _⟩⟩
  · refine List.pairwise_lt_range.imp fun hcd => ?_
    rintro _ ⟨j, hj, rfl⟩ _ ⟨k, hk, rfl⟩
    exact .inr ⟨((div_four_of_mem_strips hst hj).1).trans (div_four_of_mem_strips hst hk).1.symm,
      .inl hcd⟩

theorem pairwise_scanOrder (h w : Nat) : (scanOrder h w).Pairwise ScanBefore := by
  rw [scanOrder, List.pairwise_flatMap]
  refine ⟨fun st hst => pairwise_strip hst w, (pairwise_strips h).imp_of_mem ?_⟩
  intro a b ha hb hab p hp q hq
  simp only [List.mem_flatMap, List.mem_map, List.mem_range] at hp hq
  obtain ⟨_, -, j, hj, rfl⟩ := hp
  obtain ⟨_, -, k, hk, rfl⟩ := hq
  have hja := div_four_of_mem_strips ha hj
  have hkb := div_four_of_mem_strips hb hk
  exact .inl (by dsimp only; omega)

/-- Settles O33: the order is strict, so no position comes twice. -/
theorem scanVisitsEachOnce : Obligations.ScanVisitsEachOnce := fun h w =>
  ⟨(pairwise_scanOrder h w).imp ScanBefore.ne, fun _ _ => mem_scanOrder, pairwise_scanOrder h w⟩

end Sys2Proof.Machine
end

section
/-! PROOF. A decision on either side of the coder (43_mq_encoder.md R202; 44_mq_decoder.md R232):
the interval length and the probability state it leaves are one function of those it finds. -/

namespace Sys2Proof.Machine

open Sys2Proof.Safety

/-! ### The doublings of a decision -/

/-- How many doublings bring A back to 0x8000 or more, at most so many. -/
def doublings : Nat → BitVec 16 → Nat
  | 0, _ => 0
  | n + 1, a => if a < 0x8000 then doublings n (a <<< 1) + 1 else 0

theorem doublings_succ {a : BitVec 16} (n : Nat) (h : a < 0x8000) :
    doublings (n + 1) a = doublings n (a <<< 1) + 1 := if_pos h

theorem doublings_of_not_lt {a : BitVec 16} (n : Nat) (h : ¬ a < 0x8000) : doublings n a = 0 := by
  cases n with
  | zero => rfl
  | succ n => exact if_neg h

theorem doublings_le (n : Nat) (a : BitVec 16) : doublings n a ≤ n := by
  induction n generalizing a with
  | zero => exact le_rfl
  | succ n ih =>
    by_cases h : a < 0x8000
    · rw [doublings_succ n h]
      exact Nat.succ_le_succ (ih _)
    · rw [doublings_of_not_lt _ h]
      exact Nat.zero_le _

/-- The doublings lose no bit of A, and reach 0x8000 where so many can. -/
theorem shiftLeft_doublings (n : Nat) (a : BitVec 16) :
    (a <<< doublings n a).toNat = a.toNat * 2 ^ doublings n a ∧
      (0x8000 ≤ a.toNat * 2 ^ n → 0x8000 ≤ a <<< doublings n a) := by
  induction n generalizing a with
  | zero => simp [doublings, BitVec.le_def]
  | succ n ih =>
    by_cases h : a < 0x8000
    · have twice : (a <<< 1).toNat = a.toNat * 2 := by
        have : a.toNat < 0x8000 := h
        rw [BitVec.toNat_shiftLeft, Nat.shiftLeft_eq]
        omega
      have again := ih (a <<< 1)
      rw [twice, Nat.mul_assoc, Nat.mul_assoc, ← Nat.pow_succ', ← Nat.pow_succ',
        ← BitVec.shiftLeft_add, Nat.add_comm 1] at again
      rwa [doublings_succ n h]
    · rw [doublings_of_not_lt _ h, BitVec.shiftLeft_zero]
      exact ⟨(Nat.mul_one _).symm, fun _ => BitVec.not_lt.mp h⟩

/-! ### The function of a decision -/

/-- The length of the half a decision takes, with the conditional exchange. -/
def halfTaken (b : Bool) (e : PtEntry) (a : BitVec 16) : BitVec 16 :=
  (codeInterval (qe e.idx) e.mps b a 0).1

theorem codeInterval_fst (b : Bool) (e : PtEntry) (a : BitVec 16) (c : BitVec 28) :
    (codeInterval (qe e.idx) e.mps b a c).1 = halfTaken b e a := by
  simp only [halfTaken, codeInterval]
  split_ifs <;> rfl

/-- No half is empty, so that the doublings of a decision are enough. -/
theorem halfTaken_doubled (b : Bool) (e : PtEntry) {a : BitVec 16} (ha : 0x8000 ≤ a) :
    0x8000 ≤ halfTaken b e a <<< doublings 15 (halfTaken b e a) := by
  have ha : 0x8000 ≤ a.toNat := ha
  obtain ⟨hp, hp'⟩ := qe_bounds e.idx
  obtain ⟨hpos, -⟩ := codeInterval_bounds (c := 0) e.mps b hp (show _ < a.toNat by omega)
    (by have := a.isLt; simp only [BitVec.ofNat_eq_ofNat, BitVec.toNat_ofNat]; omega)
  exact (shiftLeft_doublings 15 _).2 (by rw [halfTaken]; omega)

/-- The interval length and the probability state that the decision `b` under a label leaves. -/
def decided (b : Bool) (ctx : Nat) (s : State) : BitVec 16 × Vector PtEntry 19 :=
  let e := ptAt s ctx
  let a := halfTaken b e s.coder.a
  (a <<< doublings 15 a,
    if a < 0x8000 then s.pt.setIfInBounds ctx (ptMove (b == e.mps) true e) else s.pt)

theorem decided_congr {s d : State} (b : Bool) (ctx : Nat) (ha : s.coder.a = d.coder.a)
    (hpt : s.pt = d.pt) : decided b ctx s = decided b ctx d := by
  have he : ptAt s ctx = ptAt d ctx := by rw [ptAt, hpt, ptAt]
  rw [decided, he, ha, hpt, decided]

/-! ### Coding a bit -/

theorem doubled_a (k : Coder) : (doubled k).1.a = k.a <<< 1 := by
  rw [doubled]
  split_ifs <;> rfl

theorem renormed_a (n : Nat) (k : Coder) : (renormed n k).1.a = k.a <<< doublings n k.a := by
  induction n generalizing k with
  | zero => exact (BitVec.shiftLeft_zero _).symm
  | succ n ih =>
    by_cases h : k.a < 0x8000
    · rw [renormed, if_pos h, doublings_succ n h, Nat.add_comm, BitVec.shiftLeft_add, ← doubled_a]
      exact ih _
    · rw [renormed, if_neg h, doublings_of_not_lt _ h, BitVec.shiftLeft_zero]

theorem coded_a (b : Bool) (ctx : Nat) (s : State) :
    (coded b (ptAt s ctx) s.coder).1.a = (decided b ctx s).1 := by
  simp only [coded, renormed_a, codeInterval_fst, decided]

/-- `MQE.CODE` (43_mq_encoder.md R202) where its checks pass: the registers and bytes of the
decision, and the probability state it leaves. -/
theorem emitted_decision {s : State} {ctx : Nat} (h : CodeReady s ctx) (b : Bool) :
    Emitted (mqeCode b ctx s) { s with pt := (decided b ctx s).2 }
      (coded b (ptAt s ctx) s.coder) := by
  obtain ⟨hm, hv, hc⟩ := h
  simp only [mqeCode, run_bind, run_requireMode, run_requirePt, if_pos hm, if_pos hv, if_pos hc,
    run_getS, run_modS, run_doIf, coded, decided, codeInterval_fst]
  split_ifs with ha
  · simp only [ptTrans_ok (s := setC _ (setA (halfTaken b (ptAt s ctx) s.coder.a) s)) hv hc]
    exact emitted_encRenorm 15 _
  · rw [renormed, if_neg ha]
    exact .inl (by rw [emit_nil]; rfl)

/-- A decision that ends `ok`, whether or not its checks are known to pass. -/
theorem mqeCode_decides {b : Bool} {ctx : Nat} {s t : State} (h : mqeCode b ctx s = .ok () t) :
    (t.coder.a, t.pt) = decided b ctx s := by
  by_cases hr : CodeReady s ctx
  · obtain hok | ⟨-, k, bs, n, herr⟩ := emitted_decision hr b
    · rw [h, EStateM.Result.ok.injEq] at hok
      rw [hok.2]
      exact Prod.ext (coded_a b ctx s) rfl
    · rw [h] at herr
      contradiction
  · obtain ⟨code, herr⟩ := mqeCode_refused hr b
    rw [h] at herr
    contradiction

/-! ### Decoding a bit -/

/-- The interval length and the probability state are as they were. -/
def SameDecision (s t : State) : Prop := t.coder.a = s.coder.a ∧ t.pt = s.pt

theorem sameDecision_chains : Chains SameDecision where
  refl := fun _ => ⟨rfl, rfl⟩
  trans := by
    rintro s t u ⟨ha, hp⟩ ⟨ka, kp⟩
    exact ⟨ka.trans ha, kp.trans hp⟩

/-- `FillLSBs` (44_mq_decoder.md R233) takes bytes into the other registers. -/
theorem sameDecision_fillLSBs : Keeps SameDecision fillLSBs := by
  have C := sameDecision_chains
  have peek : Keeps SameDecision peekIn := fun s => by
    rw [run_peekIn]
    split <;> exact ⟨rfl, rfl⟩
  have take : Keeps SameDecision takeIn := fun s => by
    rw [run_takeIn]
    repeat' split
    all_goals exact ⟨rfl, rfl⟩
  refine .bind C (.modS fun _ => ⟨rfl, rfl⟩) fun _ => .bind C peek fun n => ?_
  cases n with
  | none => exact .raise C _
  | some n =>
    exact .bind C (.getS C) fun _ => .ite (.modS fun _ => ⟨rfl, rfl⟩)
      (.bind C (.doIf C (.modS fun _ => ⟨rfl, rfl⟩)) fun _ => .bind C take fun _ =>
        .bind C (.modS fun _ => ⟨rfl, rfl⟩) fun _ => .modS fun _ => ⟨rfl, rfl⟩)

/-- What an operation keeps stands between the states of a run that ends `ok`. -/
theorem Keeps.of_ok {α : Type} {R : State → State → Prop} {x : Op α} {a : α} {s t : State}
    (hx : Keeps R x) (h : x s = .ok a t) : R s t := by
  have hs := hx s
  rwa [h] at hs

/-- `RenormOnce` (44_mq_decoder.md R234) doubles A. -/
theorem renormOnce_doubles {s t : State} (h : renormOnce s = .ok () t) :
    t.coder.a = s.coder.a <<< 1 ∧ t.pt = s.pt := by
  rw [renormOnce, run_bind_ok (run_getS s)] at h
  obtain ⟨_, u, hu, ht⟩ := run_bind_eq_ok.mp h
  obtain ⟨ha, hp⟩ := (Keeps.doIf sameDecision_chains sameDecision_fillLSBs).of_ok hu
  rw [run_modS, EStateM.Result.ok.injEq] at ht
  rw [← ht.2, ← ha, ← hp]
  exact ⟨rfl, rfl⟩

theorem decRenorm_doubles {n : Nat} {s t : State} (h : decRenorm n s = .ok () t) :
    t.coder.a = s.coder.a <<< doublings n s.coder.a ∧ t.pt = s.pt := by
  induction n generalizing s with
  | zero =>
    cases h
    exact ⟨(BitVec.shiftLeft_zero _).symm, rfl⟩
  | succ n ih =>
    rw [decRenorm, run_bind_ok (run_getS s), run_doIf] at h
    by_cases ha : s.coder.a < 0x8000
    · rw [if_pos ha] at h
      obtain ⟨_, u, hu, ht⟩ := run_bind_eq_ok.mp h
      obtain ⟨hua, hup⟩ := renormOnce_doubles hu
      obtain ⟨hta, htp⟩ := ih ht
      rw [doublings_succ n ha, Nat.add_comm, BitVec.shiftLeft_add, ← hua]
      exact ⟨hta, htp.trans hup⟩
    · rw [if_neg ha] at h
      cases h
      rw [doublings_of_not_lt _ ha]
      exact ⟨(BitVec.shiftLeft_zero _).symm, rfl⟩

/-- The upper half is taken by the bit it stands for, the lower one by the other bit. -/
theorem halfTaken_of_lower (lower : Bool) (e : PtEntry) (a : BitVec 16) :
    halfTaken
      (if lower then !(if a - qe e.idx < qe e.idx then !e.mps else e.mps)
        else if a - qe e.idx < qe e.idx then !e.mps else e.mps) e a
      = if lower then qe e.idx else a - qe e.idx := by
  cases lower <;> simp [halfTaken, codeInterval]

/-- Reading which half the code word lies in touches neither (R232, R237). -/
theorem sameDecision_inLower (p : BitVec 16) : Keeps SameDecision (inLower p) := fun s => by
  rw [inLower]
  split <;> exact ⟨rfl, rfl⟩

theorem ptTrans_moves {ctx : Nat} {m sw : Bool} {s t : State} (h : ptTrans ctx m sw s = .ok () t) :
    t = setPt ctx (ptMove m sw (ptAt s ctx)) s := by
  obtain ⟨_, u, hu, ht⟩ := run_bind_eq_ok.mp h
  obtain rfl := (requirePt_readsOnly ctx).of_ok hu
  cases ht
  rfl

/-- What a decision does once its half is taken: the transition and the doublings, if any. -/
theorem decRenorm_decides {b : Bool} {ctx : Nat} {s u t : State} {a : BitVec 16}
    (half : halfTaken b (ptAt s ctx) s.coder.a = a) (ha : u.coder.a = a) (hp : u.pt = s.pt)
    (h : doIf (a < 0x8000) (do
      ptTrans ctx (b == (ptAt s ctx).mps) true
      decRenorm 15) u = .ok () t) :
    (t.coder.a, t.pt) = decided b ctx s := by
  have he : ptAt u ctx = ptAt s ctx := by rw [ptAt, hp, ptAt]
  rw [run_doIf] at h
  rw [decided, half]
  split_ifs at h with hlt
  · obtain ⟨_, v, hv, ht⟩ := run_bind_eq_ok.mp h
    obtain rfl := ptTrans_moves hv
    obtain ⟨hta, htp⟩ := decRenorm_doubles ht
    rw [if_pos hlt, hta, htp, ← he, ← hp, ← ha]
    rfl
  · cases h
    rw [if_neg hlt, doublings_of_not_lt _ hlt, BitVec.shiftLeft_zero, hp, ha]

/-- `MQD.DECODE` (44_mq_decoder.md R232) where it ends `ok`. -/
theorem mqdDecode_decides {b : Bool} {ctx : Nat} {s t : State} (h : mqdDecode ctx s = .ok b t) :
    (t.coder.a, t.pt) = decided b ctx s := by
  obtain ⟨_, _, hmode, h₁⟩ := run_bind_eq_ok.mp h
  obtain rfl := (requireMode_readsOnly _).of_ok hmode
  obtain ⟨_, _, hlabel, h₂⟩ := run_bind_eq_ok.mp h₁
  obtain rfl := (requirePt_readsOnly ctx).of_ok hlabel
  rw [run_bind_ok (run_getS _)] at h₂
  obtain ⟨lower, u, hu, h₃⟩ := run_bind_eq_ok.mp h₂
  have hpt := ((sameDecision_inLower _).of_ok hu).2
  rw [run_bind_ok (run_modS _ _)] at h₃
  obtain ⟨_, v, hv, hend⟩ := run_bind_eq_ok.mp h₃
  cases hend
  refine decRenorm_decides (halfTaken_of_lower lower _ _) rfl ?_ hv
  cases lower
  · simpa [subActive] using hpt
  · exact hpt

/-- A command whose response is `ok` has run its operation to its end. -/
theorem settle_ok {op : Op Word} {s : State} {p : Word}
    (h : (settle op s).resp = some ⟨.ok, p⟩) :
    ∃ u, op s = .ok p u ∧ settle op s = respond .ok p u := by
  cases hop : op s with
  | ok q u =>
    rw [settle, hop] at h ⊢
    cases h
    exact ⟨u, rfl, rfl⟩
  | error e u =>
    rw [settle, hop] at h
    exact absurd ⟨p, h⟩ (not_endsOk_takeRaise e u)

/-- Settles O48: a decision is the same function of the interval length and the probability state on
both sides. -/
theorem decoderMirrorsEncoder : Obligations.DecoderMirrorsEncoder := by
  intro s d t u b ctx hfs hfd ha hge hpt ht hu hrt hru
  obtain rfl := exec_of_noFault hfs ht
  obtain rfl := exec_of_noFault hfd hu
  obtain ⟨t', ht', hst⟩ := settle_ok hrt
  obtain ⟨u', hu', hsu⟩ := settle_ok hru
  obtain ⟨_, _, hcode, hend⟩ := run_bind_eq_ok.mp ht'
  cases hend
  obtain ⟨b', _, hdecode, hend⟩ := run_bind_eq_ok.mp hu'
  rw [run_pure, EStateM.Result.ok.injEq, boolWord_eq_ite] at hend
  obtain ⟨hb, rfl⟩ := hend
  obtain rfl : b' = b := by cases b' <;> cases b <;> simp at hb ⊢
  have left := mqeCode_decides hcode
  have right := mqdDecode_decides hdecode
  rw [← decided_congr b' ctx ha hpt, ← left] at right
  rw [hst, hsu]
  obtain ⟨hra, hrp⟩ := Prod.mk.inj right
  refine ⟨hra.symm, hrp.symm, ?_⟩
  exact le_of_le_of_eq (halfTaken_doubled b' _ hge) (congrArg Prod.fst left).symm

end Sys2Proof.Machine
end

section
/-! PROOF. `MQE.CODE` (43_mq_encoder.md R202): its doublings, counted, and the bytes they append. -/

namespace Sys2Proof.Machine

open Sys2Proof.Safety

/-! ### Counting the doublings -/

theorem encoderDoubled_eq_doubled (n : Nat) (k : Coder) :
    encoderDoubled (n + 1) k
      = ((encoderDoubled n (doubled k).1).1,
          (doubled k).2 ++ (encoderDoubled n (doubled k).1).2) := by
  by_cases h : (shiftedOnce k).ct = 0
  · rw [doubled, if_pos h]
    exact if_pos h
  · rw [doubled, if_neg h]
    exact if_neg h

theorem encoderDoubled_a (n : Nat) (k : Coder) : (encoderDoubled n k).1.a = k.a <<< n := by
  induction n generalizing k with
  | zero => exact (BitVec.shiftLeft_zero _).symm
  | succ n ih =>
    rw [encoderDoubled_eq_doubled, Nat.add_comm, BitVec.shiftLeft_add, ← doubled_a]
    exact ih _

theorem renormed_eq_encoderDoubled (n : Nat) (k : Coder) :
    renormed n k = encoderDoubled (doublings n k.a) k := by
  induction n generalizing k with
  | zero => rfl
  | succ n ih =>
    by_cases h : k.a < 0x8000
    · rw [renormed, if_pos h, doublings_succ n h, encoderDoubled_eq_doubled, ← doubled_a, ← ih]
    · rw [renormed, if_neg h, doublings_of_not_lt _ h, encoderDoubled_zero]

/-! ### The doublings up to a transfer -/

theorem shiftedOnce_ct {k : Coder} (h : 1 ≤ k.ct.toNat) :
    (shiftedOnce k).ct.toNat = k.ct.toNat - 1 := by
  have := k.ct.isLt
  rw [shiftedOnce, BitVec.toNat_sub]
  simp only [BitVec.ofNat_eq_ofNat, BitVec.toNat_ofNat]
  omega

theorem encoderDoubled_shiftedOnce {k : Coder} (n : Nat) (h : 2 ≤ k.ct.toNat) :
    encoderDoubled (n + 1) k = encoderDoubled n (shiftedOnce k) := by
  refine encoderDoubled_succ n fun h0 => ?_
  have hct := shiftedOnce_ct (show 1 ≤ k.ct.toNat by omega)
  have hzero : (shiftedOnce k).ct.toNat = 0 := congrArg BitVec.toNat h0
  omega

/-- Before CT reaches 0 the registers are only shifted and counted down. -/
theorem encoderDoubled_of_lt {n : Nat} {k : Coder} (h : n < k.ct.toNat) :
    encoderDoubled n k
      = ({ k with a := k.a <<< n, c := k.c <<< n, ct := k.ct - BitVec.ofNat 4 n }, []) := by
  induction n generalizing k with
  | zero => simp [encoderDoubled]
  | succ n ih =>
    have hct := shiftedOnce_ct (show 1 ≤ k.ct.toNat by omega)
    rw [encoderDoubled_shiftedOnce n (by omega), ih (by omega)]
    simp only [shiftedOnce, ← BitVec.shiftLeft_add, Nat.add_comm 1, BitVec.ofNat_add,
      BitVec.sub_sub]
    rw [BitVec.add_comm]
    rfl

/-- The registers when CT has reached 0. -/
def countedDown (k : Coder) : Coder :=
  { k with a := k.a <<< k.ct.toNat, c := k.c <<< k.ct.toNat, ct := 0 }

/-- The first transfer comes when CT reaches 0, and the other doublings after it. -/
theorem encoderDoubled_of_le {n : Nat} {k : Coder} (h : 1 ≤ k.ct.toNat) (hn : k.ct.toNat ≤ n) :
    encoderDoubled n k
      = ((encoderDoubled (n - k.ct.toNat) (transferred (countedDown k)).1).1,
        (transferred (countedDown k)).2
          ++ (encoderDoubled (n - k.ct.toNat) (transferred (countedDown k)).1).2) := by
  induction n generalizing k with
  | zero => omega
  | succ n ih =>
    have hct := shiftedOnce_ct h
    by_cases one : k.ct.toNat = 1
    · have hk : k.ct = 1 := BitVec.eq_of_toNat_eq one
      have now : shiftedOnce k = countedDown k := by simp [shiftedOnce, countedDown, hk]
      have zero : (countedDown k).ct = 0 := rfl
      rw [encoderDoubled_eq_doubled, doubled, now, if_pos zero, one, Nat.add_sub_cancel]
    · have later : countedDown (shiftedOnce k) = countedDown k := by
        have split : k.ct.toNat = 1 + (k.ct.toNat - 1) := by omega
        rw [countedDown, countedDown, hct, split, BitVec.shiftLeft_add, BitVec.shiftLeft_add,
          ← split]
        rfl
      rw [encoderDoubled_shiftedOnce n (by omega), ih (by omega) (by omega), later, hct,
        show n - (k.ct.toNat - 1) = n + 1 - k.ct.toNat by omega]

/-! ### The bytes of a transfer -/

theorem transferred_length (k : Coder) : (transferred k).2.length ≤ 1 := by
  simp only [transferred]
  split_ifs <;> simp

theorem transferred_ct (k : Coder) : 7 = (transferred k).1.ct ∨ 8 = (transferred k).1.ct := by
  simp only [transferred]
  split_ifs <;> simp

/-- After 0xFF the byte loaded next has room for a carry (43_mq_encoder.md R204, R208). -/
theorem transferred_t_of_seven {k : Coder} (hc : k.c.toNat < 9 * 2 ^ 24)
    (h : 7 = (transferred k).1.ct) : (transferred k).1.t.toNat < 0x90 := by
  simp only [transferred] at h ⊢
  generalize k.t + BitVec.ofNat 8 _ = byte at h ⊢
  by_cases hb : byte = 0xFF
  · rw [if_pos hb, BitVec.toNat_ofNat]
    split_ifs <;> omega
  · rw [if_neg hb] at h
    exact absurd h (by decide)

/-- A byte that a carry does not make 0xFF is followed by eight bits. -/
theorem transferred_ct_of_lt {k : Coder} (h : k.t.toNat < 0x90) : 8 = (transferred k).1.ct := by
  have hc := k.c.isLt
  have hne : k.t + BitVec.ofNat 8 (if k.t = 0xFF then 0 else k.c.toNat / 2 ^ 27) ≠ 0xFF := by
    intro he
    have := congrArg BitVec.toNat he
    rw [BitVec.toNat_add, BitVec.toNat_ofNat] at this
    split_ifs at this <;> simp at this <;> omega
  simp only [transferred, if_neg hne]

/-! ### The bytes of the doublings -/

/-- So few doublings make one transfer at most. -/
theorem encoderDoubled_length_le_one {n : Nat} {k : Coder} (h : 1 ≤ k.ct.toNat)
    (hn : n < k.ct.toNat + (transferred (countedDown k)).1.ct.toNat) :
    (encoderDoubled n k).2.length ≤ 1 := by
  by_cases hlt : n < k.ct.toNat
  · rw [encoderDoubled_of_lt hlt]
    exact Nat.zero_le 1
  · rw [encoderDoubled_of_le h (by omega), encoderDoubled_of_lt (n := n - _) (by omega),
      List.append_nil]
    exact transferred_length _

/-- Of two transfers in a row one leaves eight bits (43_mq_encoder.md R204, R208). -/
theorem transferred_ct_add {k : Coder} (hc : k.c.toNat < 9 * 2 ^ 24) :
    15 ≤ (transferred k).1.ct.toNat
      + (transferred (countedDown (transferred k).1)).1.ct.toNat := by
  obtain h7 | h8 := transferred_ct k
  · have ht := transferred_t_of_seven hc h7
    have h8 := transferred_ct_of_lt (k := countedDown (transferred k).1) ht
    rw [← h7, ← h8]
    decide
  · obtain h | h := transferred_ct (countedDown (transferred k).1) <;> rw [← h8, ← h] <;> decide

/-- Fifteen doublings make two transfers at most (43_mq_encoder.md R202). -/
theorem encoderDoubled_length {n : Nat} {k : Coder} (h : 1 ≤ k.ct.toNat) (hn : n ≤ 15)
    (hc : k.c.toNat * 2 ^ k.ct.toNat < 9 * 2 ^ 24) : (encoderDoubled n k).2.length ≤ 2 := by
  by_cases hlt : n < k.ct.toNat
  · rw [encoderDoubled_of_lt hlt]
    exact Nat.zero_le 2
  · have hc0 : (countedDown k).c.toNat < 9 * 2 ^ 24 := by
      rw [countedDown, BitVec.toNat_shiftLeft, Nat.shiftLeft_eq]
      exact lt_of_le_of_lt (Nat.mod_le ..) hc
    have two := transferred_ct_add hc0
    have first : 1 ≤ (transferred (countedDown k)).1.ct.toNat := by
      obtain h | h := transferred_ct (countedDown k) <;> rw [← h] <;> decide
    rw [encoderDoubled_of_le h (by omega), List.length_append]
    exact Nat.add_le_add (transferred_length _) (encoderDoubled_length_le_one first (by omega))

/-! ### The command -/

/-- The half the bit is routed to, with the conditional exchange, as R202 writes it. -/
theorem codeInterval_eq (p : BitVec 16) (s0 b : Bool) (a : BitVec 16) (c : BitVec 28) :
    codeInterval p s0 b a c
      = (if b = (if a - p < p then !s0 else s0) then a - p else p,
          if b = (if a - p < p then !s0 else s0) then c + p.setWidth 28 else c) := by
  simp only [codeInterval]
  split_ifs <;> rfl

/-- What `MQE.CODE` leaves where its checks pass and no port fails: the registers and bytes of its
doublings, and the probability state of the decision. -/
theorem exec_mqeCode {s : State} {ctx : Nat} (hf : s.status.fault = false) (h : CodeReady s ctx)
    (hq : quietPorts s) (b : Bool) :
    exec (.mqeCode b ctx) s = okNext 0
      (emit (coded b (ptAt s ctx) s.coder) { s with pt := (decided b ctx s).2 }) :=
  exec_ok hf (run_bind_ok ((emitted_decision h b).ok hq))

/-- The registers with the half that a decision takes (43_mq_encoder.md R202). -/
def halved (b : Bool) (e : PtEntry) (k : Coder) : Coder :=
  { k with
    a := (codeInterval (qe e.idx) e.mps b k.a k.c).1
    c := (codeInterval (qe e.idx) e.mps b k.a k.c).2 }

theorem coded_eq_encoderDoubled (b : Bool) (e : PtEntry) (k : Coder) :
    coded b e k = encoderDoubled (doublings 15 (halved b e k).a) (halved b e k) :=
  renormed_eq_encoderDoubled 15 (halved b e k)

/-- The half has some length, so that C alone weighs less than C + A did. -/
theorem halved_c_lt {k : Coder} (b : Bool) (e : PtEntry) (ha : 0x8000 ≤ k.a.toNat)
    (hw : (k.c.toNat + k.a.toNat) * 2 ^ k.ct.toNat ≤ 9 * 2 ^ 24) :
    (halved b e k).c.toNat * 2 ^ k.ct.toNat < 9 * 2 ^ 24 := by
  have hca : k.c.toNat + k.a.toNat ≤ _ := Nat.le_mul_of_pos_right _ (Nat.two_pow_pos k.ct.toNat)
  obtain ⟨hp, hp'⟩ := qe_bounds e.idx
  obtain ⟨hpos, hle⟩ := codeInterval_bounds (c := k.c) e.mps b hp (show _ < k.a.toNat by omega)
    (by omega)
  have hlt : (halved b e k).c.toNat < k.c.toNat + k.a.toNat := by
    show (codeInterval (qe e.idx) e.mps b k.a k.c).2.toNat < _
    omega
  exact lt_of_lt_of_le (Nat.mul_lt_mul_of_pos_right hlt (Nat.two_pow_pos _)) hw

/-- Settles O36: a decision is its half and the doublings that this takes, one at least where it is
below 0x8000; they lose no bit of A, and CT, at least 1, bounds the bytes. -/
theorem mqeCodeOneDecision : Obligations.MqeCodeOneDecision := by
  intro s b ctx e hf hm hv he hregs hq p rest upper a c moved
  obtain ⟨hctx, hpt⟩ := ptAt_of_getElem? he
  obtain ⟨ha, hct, hct', hl, hw⟩ := hregs hm
  have hk : halved b e s.coder = { s.coder with a := a, c := c } := by
    rw [halved, codeInterval_eq]
  have hka : (halved b e s.coder).a = a := congrArg Coder.a hk
  have half : halfTaken b e s.coder.a = a := (codeInterval_fst b e _ s.coder.c).symm.trans hka
  have table : (decided b ctx s).2 = if a < 0x8000 then s.pt.setIfInBounds ctx moved else s.pt := by
    simp only [decided, hpt, half, ptMove, beq_iff_eq, Bool.and_true, moved]
  have run := exec_mqeCode (ctx := ctx) hf ⟨hm, hv, by omega⟩ hq b
  rw [hpt, coded_eq_encoderDoubled, hka, table] at run
  have length := encoderDoubled_a (doublings 15 a) (halved b e s.coder)
  rw [hka] at length
  rw [← hk]
  refine ⟨fun hge => ?_, fun hlt => ?_⟩
  · have hnot : ¬ a < 0x8000 := BitVec.not_lt.mpr hge
    rw [run, doublings_of_not_lt _ hnot, if_neg hnot, encoderDoubled_zero, emit_nil]
  · rw [if_pos hlt] at run
    refine ⟨{ s with coder := (encoderDoubled _ _).1 }, doublings 15 a, _, run, rfl, ?_,
      doublings_le 15 a, ?_, ?_, ?_, fun hlast => ?_⟩
    · exact doublings_succ 14 hlt ▸ Nat.le_add_left ..
    · exact encoderDoubled_length hct (doublings_le 15 a) (halved_c_lt b e ha hw)
    · rw [length]
      exact half ▸ halfTaken_doubled b e ha
    · rw [length]
      exact (shiftLeft_doublings 15 a).1
    · rw [encoderDoubled_of_lt (k := halved b e s.coder) hlast, hk]
      exact ⟨rfl, rfl⟩

end Sys2Proof.Machine
end

section
/-! PROOF. `TransferByte` and `MQE.FLUSH` (43_mq_encoder.md R203, R204, R206) on ports that do not
fail: what the registers and bytes of a chain of transfers are. -/

namespace Sys2Proof.Machine

open Sys2Proof.Safety

/-- Settles O37: what `TransferByte` emits, with and without the byte it appends. -/
theorem transferByteStuffsAndCarries : Obligations.TransferByteStuffsAndCarries := by
  intro s hq c carry low byte
  rw [(emitted_transferByte s).ok hq]
  by_cases hl : 0 ≤ s.coder.l
  · simp only [emit, transferred, if_pos hl]
    rfl
  · simp only [emit, transferred, if_neg hl, List.append_nil]
    rfl

/-- L counts the bytes: each transfer appends one but the session's first (R203). -/
theorem transferred_count {k : Coder} (hl : -1 ≤ k.l) :
    ((transferred k).2.length : Int) = k.l + 1 - max 0 k.l := by
  simp only [transferred]
  split_ifs <;> simp <;> omega

/-- What at most `n` transfers leave and append: A stays, and L counts the bytes. -/
structure Moves (n : Nat) (k : Coder) (p : Coder × List Byte) : Prop where
  a : p.1.a = k.a
  ct : 7 = p.1.ct ∨ 8 = p.1.ct
  length : p.2.length ≤ n
  count : (p.2.length : Int) = p.1.l - max 0 k.l

/-- A transfer after C is shifted left by CT (R206). -/
theorem moves_transferred {k : Coder} (hl : -1 ≤ k.l) : Moves 1 k (transferred (completed k)) :=
  ⟨rfl, transferred_ct _, transferred_length _, transferred_count (k := completed k) hl⟩

theorem Moves.transferred {n : Nat} {k : Coder} {p : Coder × List Byte} (h : Moves n k p) :
    Moves (n + 1) k
      ((transferred (completed p.1)).1, p.2 ++ (transferred (completed p.1)).2) := by
  obtain ⟨ha, hct, hlen, hcount⟩ := h
  have next := moves_transferred (show -1 ≤ p.1.l by omega)
  have hlen' := next.length
  have hcount' := next.count
  refine ⟨next.a.trans ha, next.ct, ?_, ?_⟩ <;> simp only [List.length_append] <;> omega

theorem moves_flushed {k : Coder} (hl : -1 ≤ k.l) : Moves 3 k (flushed k) := by
  have first := moves_transferred hl
  simp only [flushed]
  split_ifs
  · exact { first with length := first.length.trans (by decide) }
  · exact { first.transferred with length := first.transferred.length.trans (by decide) }
  · exact first.transferred.transferred

/-- Before the first byte only the empty pending byte is moved. -/
theorem flushed_fresh {k : Coder} (hct : k.ct = 12) (hl : k.l = -1) : (flushed k).2 = [] := by
  simp [flushed, transferred, completed, hct, hl]

/-- Settles O39: a flush emits the registers and bytes of its transfers. -/
theorem flushCompletes : Obligations.FlushCompletes := by
  intro s hf hm hregs hq
  obtain ⟨-, -, -, hl, -⟩ := hregs hm
  have moves := moves_flushed hl
  exact ⟨_, _, rfl, exec_ok hf (run_bind_ok ((emitted_mqeFlush hm).ok hq)), moves.length, moves.a,
    moves.ct, moves.count, flushed_fresh⟩

end Sys2Proof.Machine
end

section
/-! PROOF. Opening and closing an encoding session (43_mq_encoder.md R201, R207), and what the
encoder's commands depend on (R209). -/

namespace Sys2Proof.Machine

open Sys2Proof.Safety

/-- Settles O35: after its check `MQE.INIT` writes the registers and opens the session. -/
theorem mqeInitOpensSession : Obligations.MqeInitOpensSession := fun s hf =>
  ⟨fun hm => exec_ok hf (run_bind_ok (mqeInit_ok hm)), fun hm =>
    (begins_init (i := .mqeInit) (by simp)).exec_eq hf (by rw [run_requireIdle, if_neg hm])⟩

/-! ### The marker -/

theorem exec_ioFailure {i : Instr} {s t : State} (hf : s.status.fault = false)
    (h : opOf i s = .error .ioFailure t) : exec i s = .next (takeIoFailure t) := by
  rw [exec_eq_settle hf, settle, h]
  rfl

/-- `MQE.MARKEND` in an encoding session. -/
theorem run_mqeMarkEnd {s : State} (hm : s.status.mqMode = .encoding) :
    mqeMarkEnd s
      = (putOut 0xFF >>= fun _ => putOut 0xA1 >>= fun _ => modS (setMqMode .idle)) s :=
  run_bind_ok ((run_requireMode _ s).trans (if_pos hm))

/-- Settles O40: the two bytes one after the other, each on a port that may fail. -/
theorem markEndClosesSegment : Obligations.MarkEndClosesSegment := by
  intro s hf failed
  have putOut_ok {u : State} (b : Byte) (h : u.portCalls ∉ u.portFails) :=
    (run_putOut b u).trans (if_neg h)
  have putOut_fails {u : State} (b : Byte) (h : u.portCalls ∈ u.portFails) :=
    (run_putOut b u).trans (if_pos h)
  refine ⟨fun hm => ?_, fun hm h₁ h₂ => ?_, fun hm h₁ => ?_, fun hm h₁ h₂ => ?_⟩
  · exact (begins_other (i := .mqeMarkEnd) (.inl ⟨by simp, rfl⟩)).exec_eq hf
      (by rw [run_requireMode, if_neg hm])
  · refine exec_ok hf (run_bind_ok (a := ()) ((run_mqeMarkEnd hm).trans ?_))
    rw [run_bind_ok (putOut_ok _ h₁), run_bind_ok (putOut_ok _ h₂), run_modS]
    simp only [List.append_assoc]
    rfl
  · exact exec_ioFailure (i := .mqeMarkEnd) hf (run_bind_error ((run_mqeMarkEnd hm).trans
      (run_bind_error (putOut_fails _ h₁))))
  · exact exec_ioFailure (i := .mqeMarkEnd) hf (run_bind_error ((run_mqeMarkEnd hm).trans
      ((run_bind_ok (putOut_ok _ h₁)).trans (run_bind_error (putOut_fails _ h₂)))))

/-! ### Two encoders side by side -/

/-- The same registers, probability state and `STATUS`, quiet ports, and the same bytes appended to
`o₁` and `o₂`. -/
structure SameEncoder (o₁ o₂ : List Byte) (s t : State) : Prop where
  coder : s.coder = t.coder
  pt : s.pt = t.pt
  status : s.status = t.status
  quiet₁ : quietPorts s
  quiet₂ : quietPorts t
  out : ∃ bs, s.out = o₁ ++ bs ∧ t.out = o₂ ++ bs

variable {o₁ o₂ : List Byte}

theorem sameEncoder_encodeAgrees : EncodeAgrees (SameEncoder o₁ o₂) where
  coder := fun _ _ R => R.coder
  pt := fun _ _ R => R.pt
  mode := fun _ _ R => congrArg Status.mqMode R.status
  valid := fun _ _ R => congrArg Status.ptValid R.status
  setCoder := fun _ _ _ R => { R with coder := rfl }
  setPt := fun _ _ _ R => { R with pt := rfl }
  putOut := fun b s t R => by
    obtain ⟨bs, hs, ht⟩ := R.out
    rw [putOut_quiet R.quiet₁, putOut_quiet R.quiet₂]
    exact ⟨rfl, { R with
      quiet₁ := quietPorts_mono R.quiet₁ rfl (Nat.le_succ _)
      quiet₂ := quietPorts_mono R.quiet₂ rfl (Nat.le_succ _)
      out := ⟨bs ++ [b], by simp [hs], by simp [ht]⟩ }⟩

theorem mqeInit_agrees : Agrees (SameEncoder o₁ o₂) mqeInit :=
  .bind (.read State.status (fun _ _ R => R.status)
      (f := fun st => require (decide (st.mqMode = .idle)) .alreadyStarted) fun _ => .require _ _)
    fun _ => .modS fun _ _ R => { R with
      coder := rfl
      status := congrArg (fun st => { st with mqMode := .encoding, ioFail := false }) R.status }

theorem mqeMarkEnd_agrees : Agrees (SameEncoder o₁ o₂) mqeMarkEnd :=
  have E := sameEncoder_encodeAgrees
  .bind (E.requireMode _) fun _ => .bind (E.putOut _) fun _ => .bind (E.putOut _) fun _ =>
    .modS fun _ _ R =>
      { R with status := congrArg (fun st => { st with mqMode := .idle }) R.status }

/-- Every operation of the encoder behaves alike on the two. -/
theorem encoderOp_agrees {i : Instr} {v n ctx : Nat} {b : Bool}
    (hi : i ∈ [Instr.mqeInit, .mqeCode b ctx, .mqeCodeNum v n ctx, .mqeFlush, .mqeMarkEnd]) :
    Agrees (SameEncoder o₁ o₂) (opOf i) := by
  have E := sameEncoder_encodeAgrees (o₁ := o₁) (o₂ := o₂)
  simp only [List.mem_cons, List.not_mem_nil, or_false] at hi
  obtain rfl | rfl | rfl | rfl | rfl := hi
  · exact .bind mqeInit_agrees fun _ => .pure _
  · exact .bind (E.mqeCode b ctx) fun _ => .pure _
  · exact .bind (E.mqeCodeNum v n ctx) fun _ => .pure _
  · exact .bind E.mqeFlush fun _ => .pure _
  · exact .bind mqeMarkEnd_agrees fun _ => .pure _

/-- The response to a failure carries its code and nothing of the state. -/
theorem takeRaise_resp (e : Raise) (s t : State) :
    (takeRaise e s).resp = (takeRaise e t).resp := by
  cases e <;> rfl

theorem SameEncoder.takeRaise {s t : State} (R : SameEncoder o₁ o₂ s t) (e : Raise) :
    SameEncoder o₁ o₂ (takeRaise e s) (takeRaise e t) := by
  have hst : (Machine.takeRaise e s).status = (Machine.takeRaise e t).status := by
    cases e <;>
      simp [Machine.takeRaise, takeProtocolFault, takeDecodeFailure, takeIoFailure, R.status]
  cases e <;> exact { R with status := hst }

/-- Two results that are alike are answered alike. -/
theorem settle_sameEncoder {op : Op Word} {s t : State}
    (h : Alike (SameEncoder o₁ o₂) (op s) (op t)) :
    SameEncoder o₁ o₂ (settle op s) (settle op t) ∧ (settle op s).resp = (settle op t).resp := by
  unfold settle
  cases hs : op s <;> cases ht : op t <;> rw [hs, ht] at h
  · obtain ⟨rfl, R⟩ := h
    exact ⟨{ R with }, rfl⟩
  · exact h.elim
  · exact h.elim
  · obtain ⟨rfl, R⟩ := h
    exact ⟨R.takeRaise _, takeRaise_resp ..⟩

/-- Settles O42: the two states are related, and refusing or running the operation keeps them so. -/
theorem encoderIsDeterministic : Obligations.EncoderIsDeterministic := by
  intro i s₁ s₂ t₁ t₂ v n ctx b hi hc hp hst hq₁ hq₂ h₁ h₂
  have R : SameEncoder s₁.out s₂.out s₁ s₂ :=
    ⟨hc, hp, hst, hq₁, hq₂, [], (List.append_nil _).symm, (List.append_nil _).symm⟩
  have hget (reg : Nat) : i ≠ .cfgGet reg := by
    rintro rfl
    simp at hi
  rw [exec_eq_command hget, command_eq, Host.Outcome.next.injEq] at h₁ h₂
  have both : SameEncoder s₁.out s₂.out t₁ t₂ ∧ t₁.resp = t₂.resp := by
    rw [← h₁, ← h₂, ← hst]
    split_ifs
    · exact ⟨{ R with }, by simp only [refuseSticky, respond_fields, hst]⟩
    · exact settle_sameEncoder (encoderOp_agrees hi s₁ s₂ R)
  obtain ⟨R', hresp⟩ := both
  exact ⟨R'.coder, R'.pt, R'.status, hresp, R'.out⟩

end Sys2Proof.Machine
end

section
/-! PROOF. The decoder's procedures as functions of the state (44_mq_decoder.md R233, R234): where they
end `ok` they leave the state that `decoderFilled` and `decoderDoubled` write out, and what they raise
is no ProtocolFault. -/

namespace Sys2Proof.Machine

open Sys2Proof.Safety

/-! ### What the decoder's procedures raise -/

/-- The operation raises no ProtocolFault: it has no check that can fail. -/
def Unfaulting (α : Type) (x : Op α) : Prop := ∀ s t code, x s ≠ .error (.protocolFault code) t

theorem unfaulting_closed : OpClosed Unfaulting where
  pure := fun _ _ _ _ h => nomatch h
  bind := fun hx hf s t code h => by
    obtain h | ⟨a, u, -, h⟩ := run_bind_eq_error.mp h
    · exact hx s t code h
    · exact hf a u t code h

theorem unfaulting_modS (f : State → State) : Unfaulting Unit (modS f) := fun _ _ _ h => nomatch h

theorem unfaulting_getS : Unfaulting State getS := fun _ _ _ h => nomatch h

theorem unfaulting_decodeFailure {α : Type} (code : DecFail) :
    Unfaulting α (raise (.decodeFailure code)) := fun _ _ _ h => nomatch h

theorem unfaulting_peekIn : Unfaulting (Option Byte) peekIn := fun s t code h => by
  rw [run_peekIn] at h
  split at h <;> cases h

theorem unfaulting_takeIn : Unfaulting Byte takeIn := fun s t code h => by
  rw [run_takeIn] at h
  repeat' split at h
  all_goals cases h

theorem unfaulting_fillLSBs : Unfaulting Unit fillLSBs := by
  have C := unfaulting_closed
  refine C.bind (unfaulting_modS _) fun _ => C.bind unfaulting_peekIn fun n => ?_
  cases n with
  | none => exact unfaulting_decodeFailure _
  | some n =>
    exact C.bind unfaulting_getS fun _ => OpClosed.ite (unfaulting_modS _)
      (C.bind (C.doIf (unfaulting_modS _)) fun _ => C.bind unfaulting_takeIn fun _ =>
        C.bind (unfaulting_modS _) fun _ => unfaulting_modS _)

theorem unfaulting_decRenorm (n : Nat) : Unfaulting Unit (decRenorm n) := by
  have C := unfaulting_closed
  have once : Unfaulting Unit renormOnce := C.bind unfaulting_getS fun _ =>
    C.bind (C.doIf unfaulting_fillLSBs) fun _ => unfaulting_modS _
  induction n with
  | zero => exact C.pure ()
  | succ n ih => exact C.bind unfaulting_getS fun _ => C.doIf (C.bind once fun _ => ih)

theorem unfaulting_skipScan (fuel g : Nat) : Unfaulting Nat (skipScan fuel g) := by
  have C := unfaulting_closed
  induction fuel generalizing g with
  | zero => exact unfaulting_decodeFailure _
  | succ fuel ih =>
    refine C.bind unfaulting_peekIn fun n => ?_
    cases n with
    | none => exact unfaulting_decodeFailure _
    | some n =>
      exact C.bind unfaulting_getS fun _ => OpClosed.ite
        (C.bind unfaulting_takeIn fun _ => C.bind (unfaulting_modS _) fun _ => C.pure g)
        (OpClosed.ite (unfaulting_decodeFailure _)
          (C.bind (C.bind unfaulting_takeIn fun _ => unfaulting_modS _) fun _ => ih _))

/-! ### `FillLSBs` -/

theorem setDecC_eq_withDecoderC (v : Nat) (s : State) : setDecC v s = withDecoderC v s := rfl

theorem decoderFilled_marker {n : Byte} {s : State} (h : s.coder.t = 0xFF ∧ 0x8F < n) :
    decoderFilled n s = setDecC (decC s + 0xFF)
      { setCt 8 s with portCalls := s.portCalls + 1 } := by
  rw [decoderFilled, if_pos h]
  rfl

/-- The byte of `IN` at RP taken into T, with CT the number of its bits still to come. -/
def byteTaken (n : Byte) (ct : BitVec 4) (s : State) : State :=
  { s with
    coder := { s.coder with ct := ct, t := n, l := s.coder.l + 1 }
    portCalls := s.portCalls + 2
    rp := s.rp + 1 }

theorem decoderFilled_body {n : Byte} {s : State} (h : ¬ (s.coder.t = 0xFF ∧ 0x8F < n)) :
    decoderFilled n s = setDecC (decC s + n.toNat * 2 ^ (if s.coder.t = 0xFF then 1 else 0))
      (byteTaken n (if s.coder.t = 0xFF then 7 else 8) s) := by
  rw [decoderFilled, if_neg h]
  split_ifs
  · rw [Nat.mul_comm]
    rfl
  · rw [pow_zero, Nat.mul_one]
    rfl

/-- `FillLSBs` on ports that do not fail, with a byte to look at. -/
theorem fillLSBs_ok {s : State} (hq : quietPorts s) {n : Byte} (hn : s.inp[s.rp]? = some n) :
    fillLSBs s = .ok () (decoderFilled n s) := by
  by_cases h : s.coder.t = 0xFF ∧ 0x8F < n
  · rw [fillLSBs_marker hq hn h.1 h.2, decoderFilled_marker h]
  · rw [fillLSBs_body hq hn h, decoderFilled_body h, byteTaken]

theorem peekIn_eq_ok {n : Option Byte} {s t : State} (h : peekIn s = .ok n t) :
    n = s.inp[s.rp]? ∧ t = { s with portCalls := s.portCalls + 1 } := by
  rw [run_peekIn] at h
  split at h <;> cases h
  exact ⟨rfl, rfl⟩

theorem takeIn_eq_ok {b : Byte} {s t : State} (h : takeIn s = .ok b t) :
    s.inp[s.rp]? = some b ∧ t = { s with portCalls := s.portCalls + 1, rp := s.rp + 1 } := by
  rw [run_takeIn] at h
  split at h
  · cases h
  · split at h <;> cases h
    exact ⟨‹_›, rfl⟩

/-- `FillLSBs` ends `ok` only with a byte to look at. -/
theorem fillLSBs_eq_ok {s t : State} (h : fillLSBs s = .ok () t) :
    ∃ n, s.inp[s.rp]? = some n ∧ t = decoderFilled n s := by
  rw [fillLSBs, run_bind_ok (run_modS _ s)] at h
  obtain ⟨n, u, hpeek, h⟩ := run_bind_eq_ok.mp h
  obtain ⟨hn, rfl⟩ := peekIn_eq_ok hpeek
  cases n with
  | none => cases h
  | some n =>
    refine ⟨n, hn.symm, ?_⟩
    obtain ⟨_, _, hget, h⟩ := run_bind_eq_ok.mp h
    cases hget
    by_cases hm : s.coder.t = 0xFF ∧ 0x8F < n
    · rw [decoderFilled_marker hm]
      rw [if_pos (by exact hm)] at h
      cases h
      rfl
    · rw [decoderFilled_body hm]
      rw [if_neg (by exact hm)] at h
      obtain ⟨_, v, hv, h⟩ := run_bind_eq_ok.mp h
      obtain ⟨b, w, htake, h⟩ := run_bind_eq_ok.mp h
      obtain ⟨hb, rfl⟩ := takeIn_eq_ok htake
      cases h
      rw [run_doIf] at hv
      by_cases ht : s.coder.t = 0xFF
      · rw [if_pos (by exact ht)] at hv
        cases hv
        obtain rfl : n = b := Option.some.inj (hn.trans hb)
        simp only [if_pos ht]
        rfl
      · rw [if_neg (by exact ht)] at hv
        cases hv
        obtain rfl : n = b := Option.some.inj (hn.trans hb)
        simp only [if_neg ht]
        rfl

/-! ### `RenormOnce` and its loop -/

/-- The registers and streams before a doubling: a byte is looked at where CT is 0. -/
def decoderFull (s : State) : State :=
  if s.coder.ct = 0 then
    match s.inp[s.rp]? with
    | some n => decoderFilled n s
    | none => s
  else s

/-- One turn of `RenormOnce` where no byte is missing (44_mq_decoder.md R234). -/
def renormTurn (s : State) : State :=
  let full := decoderFull s
  withDecoderC (2 * full.coder.c.toNat)
    { full with coder := { full.coder with a := full.coder.a <<< 1, ct := full.coder.ct - 1 } }

theorem decoderFull_of_ne {s : State} (h : s.coder.ct ≠ 0) : decoderFull s = s := if_neg h

theorem decoderFull_of_byte {s : State} (h : s.coder.ct = 0) {n : Byte}
    (hn : s.inp[s.rp]? = some n) : decoderFull s = decoderFilled n s := by
  rw [decoderFull, if_pos h, hn]

/-- `decoderDoubled` is so many of these turns. -/
theorem decoderDoubled_succ (n : Nat) (s : State) :
    decoderDoubled (n + 1) s = decoderDoubled n (renormTurn s) := rfl

/-- The doubling that ends a turn. -/
theorem renormTurn_eq (s : State) : renormTurn s = (fun u =>
    setCt (u.coder.ct - 1) (setDecC (decC u * 2) (setA (u.coder.a <<< 1) u))) (decoderFull s) := by
  rw [renormTurn, Nat.mul_comm]
  rfl

/-- Where a turn looks at a byte there is one. -/
def ByteReady (s : State) : Prop := s.coder.ct = 0 → ∃ n, s.inp[s.rp]? = some n

theorem renormOnce_ok {s : State} (hq : quietPorts s) (hn : ByteReady s) :
    renormOnce s = .ok () (renormTurn s) := by
  have full : doIf (s.coder.ct = 0) fillLSBs s = .ok () (decoderFull s) := by
    rw [run_doIf]
    split_ifs with h
    · obtain ⟨n, hn⟩ := hn h
      rw [fillLSBs_ok hq hn, decoderFull_of_byte h hn]
    · rw [decoderFull_of_ne h]
  rw [renormOnce, run_bind_ok (run_getS s), run_bind_ok full, run_modS, renormTurn_eq]

theorem renormOnce_eq_ok {s t : State} (h : renormOnce s = .ok () t) :
    t = renormTurn s ∧ ByteReady s := by
  rw [renormOnce, run_bind_ok (run_getS s)] at h
  obtain ⟨_, u, hu, h⟩ := run_bind_eq_ok.mp h
  have full : u = decoderFull s ∧ ByteReady s := by
    rw [run_doIf] at hu
    split_ifs at hu with hct
    · obtain ⟨n, hn, rfl⟩ := fillLSBs_eq_ok hu
      exact ⟨(decoderFull_of_byte hct hn).symm, fun _ => ⟨n, hn⟩⟩
    · cases hu
      exact ⟨(decoderFull_of_ne hct).symm, fun h => absurd h hct⟩
  rw [run_modS, EStateM.Result.ok.injEq] at h
  rw [← h.2, full.1, renormTurn_eq]
  exact ⟨rfl, full.2⟩

/-- What a turn looks at leaves A and the probability state. -/
theorem sameDecision_decoderFull (s : State) : SameDecision s (decoderFull s) := by
  have filled (n : Byte) : SameDecision s (decoderFilled n s) := by
    rw [decoderFilled]
    split_ifs <;> exact ⟨rfl, rfl⟩
  rw [decoderFull]
  repeat' split
  · exact filled _
  · exact sameDecision_chains.refl s
  · exact sameDecision_chains.refl s

theorem renormTurn_a (s : State) : (renormTurn s).coder.a = s.coder.a <<< 1 := by
  rw [← (sameDecision_decoderFull s).1]
  rfl

theorem renormTurn_pt (s : State) : (renormTurn s).pt = s.pt := (sameDecision_decoderFull s).2

theorem decoderDoubled_a (n : Nat) (s : State) :
    (decoderDoubled n s).coder.a = s.coder.a <<< n := by
  induction n generalizing s with
  | zero => exact (BitVec.shiftLeft_zero _).symm
  | succ n ih => rw [decoderDoubled_succ, ih, renormTurn_a, ← BitVec.shiftLeft_add, Nat.add_comm]

theorem decoderDoubled_pt (n : Nat) (s : State) : (decoderDoubled n s).pt = s.pt := by
  induction n generalizing s with
  | zero => rfl
  | succ n ih => rw [decoderDoubled_succ, ih, renormTurn_pt]

/-! ### The registers between two turns -/

/-- C has 24 bits and CT is at most 7 (44_mq_decoder.md R237). -/
def Aligned (k : Coder) : Prop := k.c.toNat < 2 ^ 24 ∧ k.ct.toNat ≤ 7

theorem setDecC_c_lt (v : Nat) (s : State) : (setDecC v s).coder.c.toNat < 2 ^ 24 := by
  simp only [setDecC_fields, BitVec.toNat_ofNat]
  omega

theorem decoderFilled_ct (n : Byte) (s : State) :
    (decoderFilled n s).coder.ct = if s.coder.t = 0xFF ∧ n ≤ 0x8F then 7 else 8 := by
  by_cases hm : s.coder.t = 0xFF ∧ 0x8F < n
  · rw [decoderFilled_marker hm, if_neg fun h => absurd hm.2 (BitVec.not_lt.mpr h.2)]
    rfl
  · rw [decoderFilled_body hm]
    change (if s.coder.t = 0xFF then 7 else 8) = _
    by_cases ht : s.coder.t = 0xFF
    · rw [if_pos ht, if_pos ⟨ht, BitVec.not_lt.mp fun h => hm ⟨ht, h⟩⟩]
    · rw [if_neg ht, if_neg fun h => ht h.1]

theorem renormTurn_ct (s : State) : (renormTurn s).coder.ct = (decoderFull s).coder.ct - 1 := rfl

/-- A turn counts CT down, from the bits of the byte it looked at where CT was 0. -/
theorem aligned_renormTurn {s : State} (h : s.coder.ct.toNat ≤ 7) (hn : ByteReady s) :
    Aligned (renormTurn s).coder := by
  refine ⟨setDecC_c_lt _ _, ?_⟩
  rw [renormTurn_ct]
  by_cases hct : s.coder.ct = 0
  · obtain ⟨n, hn⟩ := hn hct
    rw [decoderFull_of_byte hct hn, decoderFilled_ct]
    split_ifs <;> decide
  · rw [decoderFull_of_ne hct]
    have : s.coder.ct.toNat ≠ 0 := fun h0 => hct (BitVec.eq_of_toNat_eq h0)
    bv_omega

/-- The loop of a decision ends `ok` in the turns that bring A back to 0x8000 or more. -/
theorem decRenorm_eq_ok {n : Nat} {s t : State} (h : decRenorm n s = .ok () t) :
    t = decoderDoubled (doublings n s.coder.a) s ∧ (Aligned s.coder → Aligned t.coder) := by
  induction n generalizing s with
  | zero =>
    cases h
    exact ⟨rfl, id⟩
  | succ n ih =>
    rw [decRenorm, run_bind_ok (run_getS s), run_doIf] at h
    split_ifs at h with ha
    · obtain ⟨_, u, hu, h⟩ := run_bind_eq_ok.mp h
      obtain ⟨rfl, hready⟩ := renormOnce_eq_ok hu
      obtain ⟨rfl, hal⟩ := ih h
      rw [doublings_succ n ha, decoderDoubled_succ, ← renormTurn_a]
      exact ⟨rfl, fun hs => hal (aligned_renormTurn hs.2 hready)⟩
    · cases h
      rw [doublings_of_not_lt _ ha, decoderDoubled_zero]
      exact ⟨rfl, id⟩

end Sys2Proof.Machine
end

section
/-! PROOF. The bytes the decoder takes (20_memory.md R69; 44_mq_decoder.md R233, R234): L counts them, a
marker ahead is not passed, and two of them are enough for the doublings of a decision. -/

namespace Sys2Proof.Machine

open Sys2Proof.Safety

/-! ### The marker and the byte taken last -/

/-- A marker ahead of the decoder, the byte after its 0xFF at position `p` of `IN`. -/
structure MarkerFrom (p : Nat) (s : State) : Prop where
  reached : s.rp ≤ p
  first : if s.rp = p then s.coder.t = 0xFF else s.inp[p - 1]? = some 0xFF
  second : ∃ n, s.inp[p]? = some n ∧ 0x8F < n

/-- Where the marker stands is a matter of `IN`, RP and T. -/
theorem MarkerFrom.of_eq {p : Nat} {s t : State} (h : MarkerFrom p s) (hinp : t.inp = s.inp)
    (hrp : t.rp = s.rp) (ht : t.coder.t = s.coder.t) : MarkerFrom p t := by
  obtain ⟨hle, hfirst, hn⟩ := h
  rw [← hinp] at hfirst hn
  rw [← hrp] at hle hfirst
  rw [← ht] at hfirst
  exact ⟨hle, hfirst, hn⟩

theorem markerAhead_iff {s : State} : MarkerAhead s ↔ ∃ p, MarkerFrom p s := by
  constructor
  · rintro ⟨k, hk, hn⟩
    refine ⟨s.rp + k, Nat.le_add_right .., ?_, hn⟩
    simpa using hk
  · rintro ⟨p, hle, hfirst, hn⟩
    have hp : s.rp + (p - s.rp) = p := by omega
    refine ⟨p - s.rp, ?_, by rwa [hp]⟩
    have hzero : p - s.rp = 0 ↔ s.rp = p := by omega
    simpa only [hp, hzero] using hfirst

/-- T is the byte of `IN` just before RP. -/
def LastTaken (s : State) : Prop := 1 ≤ s.rp ∧ s.inp[s.rp - 1]? = some s.coder.t

/-! ### What the decoder writes -/

/-- `s` with what decisions of a decoding session write as it is in `u`. -/
def decoderWrites (s u : State) : State :=
  { s with
    pt := u.pt, coder := u.coder, rp := u.rp, portCalls := u.portCalls, diverged := u.diverged
    freeBits := u.freeBits }

/-- From `s` to `t` the decoder has taken bytes, L counting them, and no marker has been passed. -/
structure Feeds (s t : State) : Prop where
  written : ∃ u, t = decoderWrites s u
  calls : s.portCalls ≤ t.portCalls
  forward : s.rp ≤ t.rp
  count : t.rp - t.coder.l = s.rp - s.coder.l
  marker : ∀ p, MarkerFrom p s → MarkerFrom p t
  last : LastTaken s → LastTaken t

theorem feeds_chains : Chains Feeds where
  refl := fun s => ⟨⟨s, rfl⟩, le_rfl, le_rfl, rfl, fun _ => id, id⟩
  trans := by
    rintro s t u ⟨⟨v, rfl⟩, hc, hf, hl, hm, ht⟩ ⟨⟨w, rfl⟩, kc, kf, kl, km, kt⟩
    exact ⟨⟨w, rfl⟩, hc.trans kc, hf.trans kf, kl.trans hl, fun p hp => km p (hm p hp),
      fun hs => kt (ht hs)⟩

/-- A write that leaves RP, T and L. -/
theorem feeds_of_eq {s u : State} (hc : s.portCalls ≤ u.portCalls) (hrp : u.rp = s.rp)
    (ht : u.coder.t = s.coder.t) (hl : u.coder.l = s.coder.l) : Feeds s (decoderWrites s u) := by
  refine ⟨⟨u, rfl⟩, hc, hrp.ge, ?_, fun p hp => hp.of_eq rfl hrp ht, ?_⟩
  · simp only [decoderWrites, hrp, hl]
  · simp only [LastTaken, decoderWrites, hrp, ht, imp_self]

namespace Feeds

variable {s t : State} (h : Feeds s t)
include h

theorem inp_eq : t.inp = s.inp := by
  obtain ⟨u, rfl⟩ := h.written
  rfl

theorem status_eq : t.status = s.status := by
  obtain ⟨u, rfl⟩ := h.written
  rfl

theorem rp0_eq : t.rp0 = s.rp0 := by
  obtain ⟨u, rfl⟩ := h.written
  rfl

theorem sameTables : SameTables s t := by
  obtain ⟨u, rfl⟩ := h.written
  exact ⟨rfl, rfl⟩

theorem quiet (hq : quietPorts s) : quietPorts t := by
  have hc := h.calls
  obtain ⟨u, rfl⟩ := h.written
  exact quietPorts_mono hq rfl hc

theorem markerAhead (hm : MarkerAhead s) : MarkerAhead t := by
  obtain ⟨p, hp⟩ := markerAhead_iff.mp hm
  exact markerAhead_iff.mpr ⟨p, h.marker p hp⟩

end Feeds

/-- A body byte is taken: it is no marker's second byte. -/
theorem feeds_taken {s : State} {n : Byte} (hn : s.inp[s.rp]? = some n)
    (hm : ¬ (s.coder.t = 0xFF ∧ 0x8F < n)) (ct : BitVec 4) : Feeds s (byteTaken n ct s) where
  written := ⟨byteTaken n ct s, rfl⟩
  calls := Nat.le_add_right ..
  forward := Nat.le_add_right ..
  count := by simp only [byteTaken]; omega
  marker := by
    rintro p ⟨hle, hfirst, x, hx, hlt⟩
    have hne : s.rp ≠ p := by
      rintro rfl
      rw [if_pos rfl] at hfirst
      rw [hn, Option.some.injEq] at hx
      exact hm ⟨hfirst, hx ▸ hlt⟩
    rw [if_neg hne] at hfirst
    refine ⟨show s.rp + 1 ≤ p by omega, ?_, x, hx, hlt⟩
    split_ifs with hp
    · have hp : s.rp + 1 = p := hp
      rw [← hp, Nat.add_sub_cancel] at hfirst
      exact Option.some.inj (hn.symm.trans hfirst)
    · exact hfirst
  last := fun _ => ⟨Nat.le_add_left .., hn⟩

theorem feeds_setDecC (v : Nat) (s : State) : Feeds s (setDecC v s) :=
  feeds_of_eq (u := setDecC v s) le_rfl rfl rfl rfl

/-- `FillLSBs` takes the byte it looks at, unless it is a marker's second byte. -/
theorem feeds_decoderFilled {s : State} {n : Byte} (hn : s.inp[s.rp]? = some n) :
    Feeds s (decoderFilled n s) := by
  by_cases hm : s.coder.t = 0xFF ∧ 0x8F < n
  · rw [decoderFilled_marker hm]
    exact feeds_chains.trans (feeds_of_eq (u := { setCt 8 s with portCalls := s.portCalls + 1 })
      (Nat.le_succ _) rfl rfl rfl) (feeds_setDecC _ _)
  · rw [decoderFilled_body hm]
    exact feeds_chains.trans (feeds_taken hn hm _) (feeds_setDecC _ _)

theorem feeds_decoderFull (s : State) : Feeds s (decoderFull s) := by
  rw [decoderFull]
  repeat' split
  · exact feeds_decoderFilled ‹_›
  · exact feeds_chains.refl s
  · exact feeds_chains.refl s

theorem feeds_renormTurn (s : State) : Feeds s (renormTurn s) :=
  feeds_chains.trans (feeds_decoderFull s)
    (feeds_of_eq (u := renormTurn s) le_rfl rfl rfl rfl)

theorem feeds_decoderDoubled (n : Nat) (s : State) : Feeds s (decoderDoubled n s) := by
  induction n generalizing s with
  | zero => exact feeds_chains.refl s
  | succ n ih => exact feeds_chains.trans (feeds_renormTurn s) (ih _)

/-! ### Bytes enough -/

/-- So many bytes are there to be taken, or a marker, at which none is missing. -/
def Supplied (m : Nat) (s : State) : Prop := s.rp + m ≤ s.inp.length ∨ MarkerAhead s

/-- How many bits the byte after `t` brings (44_mq_decoder.md R233). -/
def bitsAfter (t : Byte) : Nat := if t = 0xFF then 7 else 8

theorem bitsAfter_bounds (t : Byte) : 7 ≤ bitsAfter t ∧ bitsAfter t ≤ 8 := by
  rw [bitsAfter]
  split <;> decide

/-- How many turns `m` bytes are enough for: CT turns take none, a byte gives 7 after 0xFF and
else 8, and two bytes give 15, for at most one of them is a body byte after 0xFF. -/
def turnsOf (m : Nat) (k : Coder) : Nat :=
  match m with
  | 0 => k.ct.toNat
  | 1 => k.ct.toNat + bitsAfter k.t
  | _ => k.ct.toNat + 15

theorem Supplied.byte {m : Nat} {s : State} (h : Supplied (m + 1) s) :
    ∃ n, s.inp[s.rp]? = some n := by
  suffices hlt : s.rp < s.inp.length from ⟨_, List.getElem?_eq_getElem hlt⟩
  obtain h | ⟨k, -, n, hn, -⟩ := h
  · omega
  · have := (List.getElem?_eq_some_iff.mp hn).1
    omega

/-- After at most so many bytes taken the others are still there. -/
theorem Supplied.feeds {m j : Nat} {s t : State} (h : Supplied (m + j) s) (hst : Feeds s t)
    (hrp : t.rp ≤ s.rp + j) : Supplied m t := by
  obtain h | h := h
  · exact .inl (by rw [hst.inp_eq]; omega)
  · exact .inr (hst.markerAhead h)

theorem decoderFilled_rp_le (n : Byte) (s : State) : (decoderFilled n s).rp ≤ s.rp + 1 := by
  rw [decoderFilled]
  split_ifs
  · exact Nat.le_succ _
  · exact le_rfl
  · exact le_rfl

theorem renormTurn_rp_le (s : State) : (renormTurn s).rp ≤ s.rp + 1 := by
  change (decoderFull s).rp ≤ _
  rw [decoderFull]
  repeat' split
  · exact decoderFilled_rp_le _ s
  · exact Nat.le_succ _
  · exact Nat.le_succ _

theorem renormTurn_rp_of_ne {s : State} (h : s.coder.ct ≠ 0) : (renormTurn s).rp = s.rp := by
  rw [renormTurn, decoderFull_of_ne h]
  rfl

/-- A turn that looks at no byte is one of those there are bytes enough for. -/
theorem turnsOf_renormTurn_of_ne {s : State} (h : s.coder.ct ≠ 0) (m : Nat) :
    turnsOf m s.coder = turnsOf m (renormTurn s).coder + 1 := by
  have hct : s.coder.ct.toNat = (renormTurn s).coder.ct.toNat + 1 := by
    have : s.coder.ct.toNat ≠ 0 := fun h0 => h (BitVec.eq_of_toNat_eq h0)
    rw [renormTurn_ct, decoderFull_of_ne h]
    bv_omega
  have ht : (renormTurn s).coder.t = s.coder.t := by
    rw [renormTurn, decoderFull_of_ne h]
    rfl
  rcases m with _ | _ | m <;> simp only [turnsOf, hct, ht]
  all_goals omega

/-- A turn that looks at a byte takes it from those there are. -/
theorem turnsOf_renormTurn_of_byte {s : State} (h : s.coder.ct = 0) {n : Byte}
    (hn : s.inp[s.rp]? = some n) (m : Nat) :
    turnsOf (m + 1) s.coder ≤ turnsOf m (renormTurn s).coder + 1 := by
  have hturn : (renormTurn s).coder.ct = (decoderFilled n s).coder.ct - 1 := by
    rw [renormTurn_ct, decoderFull_of_byte h hn]
  rw [decoderFilled_ct] at hturn
  have hct : s.coder.ct.toNat = 0 := by rw [h]; rfl
  by_cases hbody : s.coder.t = 0xFF ∧ n ≤ 0x8F
  · have ht : (renormTurn s).coder.t = n := by
      rw [renormTurn, decoderFull_of_byte h hn,
        decoderFilled_body fun hm => absurd hm.2 (BitVec.not_lt.mpr hbody.2)]
      rfl
    have hne : n ≠ 0xFF := by
      rintro rfl
      exact absurd hbody.2 (by decide)
    have hsix : (renormTurn s).coder.ct.toNat = 6 := by rw [hturn, if_pos hbody]; rfl
    rcases m with _ | _ | m <;>
      simp only [turnsOf, bitsAfter, hct, hsix, ht, if_pos hbody.1, if_neg hne] <;> omega
  · have hseven : (renormTurn s).coder.ct.toNat = 7 := by rw [hturn, if_neg hbody]; rfl
    have before := bitsAfter_bounds s.coder.t
    have after := bitsAfter_bounds (renormTurn s).coder.t
    rcases m with _ | _ | m <;> simp only [turnsOf, hct, hseven] <;> omega

/-- With bytes enough for its turns the loop of a decision ends `ok`. -/
theorem decRenorm_ok {n m : Nat} {s : State} (hq : quietPorts s) (hn : n ≤ turnsOf m s.coder)
    (hm : Supplied m s) :
    decRenorm n s = .ok () (decoderDoubled (doublings n s.coder.a) s) ∧
      (decoderDoubled (doublings n s.coder.a) s).rp ≤ s.rp + m := by
  induction n generalizing m s with
  | zero => exact ⟨rfl, Nat.le_add_right ..⟩
  | succ n ih =>
    by_cases ha : s.coder.a < 0x8000
    · have hfeeds := feeds_renormTurn s
      have turn (hready : ByteReady s) : decRenorm (n + 1) s = decRenorm n (renormTurn s) := by
        rw [decRenorm, run_bind_ok (run_getS s), run_doIf, if_pos ha,
          run_bind_ok (renormOnce_ok hq hready)]
      rw [doublings_succ n ha, decoderDoubled_succ, ← renormTurn_a]
      by_cases hct : s.coder.ct = 0
      · cases m with
        | zero => simp [turnsOf, hct] at hn
        | succ m =>
          obtain ⟨b, hb⟩ := hm.byte
          obtain ⟨run, hle⟩ := ih (hfeeds.quiet hq)
            (by have := turnsOf_renormTurn_of_byte hct hb m; omega)
            (hm.feeds hfeeds (renormTurn_rp_le s))
          have := renormTurn_rp_le s
          exact ⟨(turn fun _ => ⟨b, hb⟩).trans run, by omega⟩
      · have hrp := renormTurn_rp_of_ne hct
        obtain ⟨run, hle⟩ := ih (m := m) (hfeeds.quiet hq)
          (by have := turnsOf_renormTurn_of_ne hct m; omega)
          (hm.feeds (j := 0) hfeeds hrp.le)
        exact ⟨(turn fun h => absurd h hct).trans run, hrp ▸ hle⟩
    · rw [doublings_of_not_lt _ ha, decoderDoubled_zero, decRenorm, run_bind_ok (run_getS s),
        run_doIf, if_neg ha]
      exact ⟨rfl, Nat.le_add_right ..⟩

end Sys2Proof.Machine
end

section
/-! PROOF. `MQD.DECODE` (44_mq_decoder.md R232): the half the code word lies in, the transition, and the
doublings with the bytes they take. -/

namespace Sys2Proof.Machine

open Sys2Proof.Safety

/-! ### The half of a decision -/

/-- What the checks of `MQD.DECODE` ask of the state. -/
structure DecodeReady (s : State) (ctx : Nat) : Prop where
  mode : s.status.mqMode = .decoding
  valid : s.status.ptValid = true
  label : ctx ≤ 18

/-- The answer to the decision is a free value (44_mq_decoder.md R237; notes/assumptions/10.md). -/
def answersFreely (s : State) : Bool := s.diverged && s.inForeign

/-- Whether a decision under a label takes the lower sub-interval. -/
def takesLower (ctx : Nat) (s : State) : Bool :=
  if answersFreely s then Config.freeDecodedBit s.freeBits
  else decide (cActive s < (qe (ptAt s ctx).idx).toNat)

/-- The bit that the upper sub-interval stands for, with the conditional exchange. -/
def upperBit (e : PtEntry) (a : BitVec 16) : Bool :=
  if a - qe e.idx < qe e.idx then !e.mps else e.mps

/-- The bit that a decision under a label answers. -/
def decodedBit (ctx : Nat) (s : State) : Bool :=
  if takesLower ctx s then !upperBit (ptAt s ctx) s.coder.a else upperBit (ptAt s ctx) s.coder.a

/-- The state with the half that the decision takes, before its transition and doublings. -/
def decodedHalf (ctx : Nat) (s : State) : State :=
  let p := qe (ptAt s ctx).idx
  { s with
    coder := { s.coder with
      a := if takesLower ctx s then p else s.coder.a - p
      c := if takesLower ctx s then s.coder.c
        else BitVec.ofNat 28 ((decC s + 2 ^ 24 - p.toNat * 2 ^ 8) % 2 ^ 24) }
    freeBits := if answersFreely s then s.freeBits + 1 else s.freeBits }

/-- The state before the doublings: the half is taken and the label's state moved. -/
def decodedMoved (ctx : Nat) (s : State) : State :=
  setPt ctx (ptMove (decodedBit ctx s == (ptAt s ctx).mps) true (ptAt s ctx)) (decodedHalf ctx s)

theorem run_inLower (ctx : Nat) (s : State) :
    inLower (qe (ptAt s ctx).idx) s = .ok (takesLower ctx s)
      { s with freeBits := if answersFreely s then s.freeBits + 1 else s.freeBits } := by
  rw [inLower, takesLower, answersFreely]
  split_ifs <;> rfl

theorem setDecC_of_lt {v : Nat} (h : v < 2 ^ 24) (s : State) :
    setDecC v s = setC (BitVec.ofNat 28 v) s := by
  simp only [setDecC, Nat.mod_eq_of_lt h, Nat.not_le.mpr h, decide_false, Bool.or_false]
  rfl

/-- Taking the half sets no bit above the 24 of C. -/
theorem decodedHalf_eq (ctx : Nat) (s : State) : decodedHalf ctx s = (fun u =>
    setA (if takesLower ctx s then qe (ptAt s ctx).idx else s.coder.a - qe (ptAt s ctx).idx)
      (if takesLower ctx s then u else subActive (qe (ptAt s ctx).idx) u))
    { s with freeBits := if answersFreely s then s.freeBits + 1 else s.freeBits } := by
  cases hl : takesLower ctx s with
  | true =>
    simp only [decodedHalf, hl, if_true]
    rfl
  | false =>
    simp only [decodedHalf, hl, Bool.false_eq_true, if_false, subActive,
      setDecC_of_lt (Nat.mod_lt _ (Nat.two_pow_pos 24)), decC, setC, setA]

theorem feeds_decodedHalf (ctx : Nat) (s : State) : Feeds s (decodedHalf ctx s) :=
  feeds_of_eq (u := decodedHalf ctx s) le_rfl rfl rfl rfl

theorem feeds_decodedMoved (ctx : Nat) (s : State) : Feeds s (decodedMoved ctx s) :=
  feeds_of_eq (u := decodedMoved ctx s) le_rfl rfl rfl rfl

theorem aligned_decodedHalf {s : State} (ctx : Nat) (hs : Aligned s.coder) :
    Aligned (decodedHalf ctx s).coder := by
  refine ⟨?_, hs.2⟩
  cases hl : takesLower ctx s with
  | true => simpa only [decodedHalf, hl, if_true] using hs.1
  | false =>
    simp only [decodedHalf, hl, Bool.false_eq_true, if_false, BitVec.toNat_ofNat]
    omega

section Decision

variable {s : State} {ctx : Nat}

theorem mqdDecode_refused (h : ¬ DecodeReady s ctx) :
    ∃ code, mqdDecode ctx s = .error (.protocolFault code) s := by
  by_cases hm : s.status.mqMode = .decoding
  · by_cases hv : s.status.ptValid = true
    · have hc : ¬ ctx ≤ 18 := fun hc => h ⟨hm, hv, hc⟩
      exact ⟨.badContext, by simp only [mqdDecode, run_bind, run_requireMode, run_requirePt,
        if_pos hm, if_pos hv, if_neg hc]⟩
    · exact ⟨.notInitialised, by simp only [mqdDecode, run_bind, run_requireMode, run_requirePt,
        if_pos hm, if_neg hv]⟩
  · exact ⟨.notStarted, by simp only [mqdDecode, run_bind, run_requireMode, if_neg hm]⟩

variable (h : DecodeReady s ctx)
include h

/-- `MQD.DECODE` where its checks pass: no more than the half, or the transition and the
doublings. -/
theorem mqdDecode_eq : mqdDecode ctx s =
    if (decodedHalf ctx s).coder.a < 0x8000 then
      (decRenorm 15 >>= fun _ => pure (decodedBit ctx s)) (decodedMoved ctx s)
    else .ok (decodedBit ctx s) (decodedHalf ctx s) := by
  obtain ⟨hm, hv, hc⟩ := h
  rw [mqdDecode, run_bind_ok (by rw [run_requireMode, if_pos hm]),
    run_bind_ok (by rw [run_requirePt, if_pos hv, if_pos hc]), run_bind_ok (run_getS s),
    run_bind_ok (run_inLower ctx s), run_bind_ok (run_modS _ _)]
  have half := decodedHalf_eq ctx s
  dsimp only at half ⊢
  rw [← half]
  change (doIf ((decodedHalf ctx s).coder.a < 0x8000) (do
      ptTrans ctx (decodedBit ctx s == (ptAt s ctx).mps) true
      decRenorm 15) >>= fun _ => pure (decodedBit ctx s)) (decodedHalf ctx s) = _
  rw [run_bind, run_doIf]
  split_ifs
  · rw [run_bind_ok (ptTrans_ok (s := decodedHalf ctx s) hv hc _ _), run_bind]
    rfl
  · rfl

/-- The state after the doublings, if any. -/
def afterDecision (ctx : Nat) (s : State) : State :=
  if (decodedHalf ctx s).coder.a < 0x8000 then
    decoderDoubled (doublings 15 (decodedHalf ctx s).coder.a) (decodedMoved ctx s)
  else decodedHalf ctx s

/-- `MQD.DECODE` where its checks pass ends `ok` in this state, or fails. -/
theorem mqdDecode_ends : (mqdDecode ctx s = .ok (decodedBit ctx s) (afterDecision ctx s) ∧
      (Aligned s.coder → Aligned (afterDecision ctx s).coder)) ∨
    ∃ e t, mqdDecode ctx s = .error e t ∧ ∀ code, e ≠ .protocolFault code := by
  rw [mqdDecode_eq h, afterDecision]
  split_ifs
  · cases hr : decRenorm 15 (decodedMoved ctx s) with
    | ok _ t =>
      obtain ⟨rfl, hal⟩ := decRenorm_eq_ok hr
      exact .inl ⟨run_bind_ok hr, fun hs => hal (aligned_decodedHalf ctx hs)⟩
    | error e t =>
      exact .inr ⟨e, t, run_bind_error hr,
        fun code he => unfaulting_decRenorm 15 _ t code (he ▸ hr)⟩
  · exact .inl ⟨rfl, aligned_decodedHalf ctx⟩

/-- With two bytes left, or a marker ahead, and ports that do not fail it ends `ok`. -/
theorem mqdDecode_ok (hq : quietPorts s) (hm : Supplied 2 s) :
    mqdDecode ctx s = .ok (decodedBit ctx s) (afterDecision ctx s) ∧
      (afterDecision ctx s).rp ≤ s.rp + 2 := by
  rw [mqdDecode_eq h, afterDecision]
  split_ifs
  · have moved := feeds_decodedMoved ctx s
    obtain ⟨run, hle⟩ := decRenorm_ok (n := 15) (m := 2) (moved.quiet hq) (Nat.le_add_left ..)
      (hm.feeds (j := 0) moved le_rfl)
    exact ⟨run_bind_ok run, hle⟩
  · exact ⟨rfl, Nat.le_add_right ..⟩

end Decision

section After

variable (ctx : Nat) (s : State)

theorem feeds_afterDecision : Feeds s (afterDecision ctx s) := by
  rw [afterDecision]
  split_ifs
  · exact feeds_chains.trans (feeds_decodedMoved ctx s) (feeds_decoderDoubled _ _)
  · exact feeds_decodedHalf ctx s

theorem decodedHalf_a : (decodedHalf ctx s).coder.a
    = halfTaken (decodedBit ctx s) (ptAt s ctx) s.coder.a :=
  (halfTaken_of_lower (takesLower ctx s) _ _).symm

theorem afterDecision_a (ha : 0x8000 ≤ s.coder.a) : 0x8000 ≤ (afterDecision ctx s).coder.a := by
  rw [afterDecision]
  split_ifs with hlt
  · rw [decoderDoubled_a]
    exact decodedHalf_a ctx s ▸ halfTaken_doubled _ _ ha
  · exact BitVec.not_lt.mp hlt

theorem afterDecision_pt {k : Nat} (hk : k ≠ ctx) : (afterDecision ctx s).pt[k]? = s.pt[k]? := by
  rw [afterDecision]
  split_ifs
  · rw [decoderDoubled_pt]
    exact Vector.getElem?_setIfInBounds_ne hk.symm
  · rfl

end After

/-! ### The command -/

theorem exec_mqdDecode {s : State} {ctx : Nat} (hf : s.status.fault = false)
    (h : DecodeReady s ctx) (hq : quietPorts s) (hm : Supplied 2 s) :
    exec (.mqdDecode ctx) s
      = okNext (if decodedBit ctx s then 1 else 0) (afterDecision ctx s) := by
  rw [exec_ok hf (run_bind_ok (mqdDecode_ok h hq hm).1), boolWord_eq_ite]

/-- The answer is the upper half's bit exactly where the decision does not take the lower half. -/
theorem decodedBit_eq_upperBit (ctx : Nat) (s : State) :
    decodedBit ctx s = upperBit (ptAt s ctx) s.coder.a ↔ takesLower ctx s = false := by
  rw [decodedBit]
  cases takesLower ctx s <;> simp

/-- Settles O44: the half taken is that of `takesLower`, and the doublings, of which two bytes are
enough for 15, are those that bring A back. -/
theorem mqdDecodeOneDecision : Obligations.MqdDecodeOneDecision := by
  intro s ctx e hf hm hv he hok hq hsup p rest upper active
  obtain ⟨hctx, hpt⟩ := ptAt_of_getElem? he
  obtain ⟨ha, -, -, hc, -⟩ := hok hm
  have ready : DecodeReady s ctx := ⟨hm, hv, by omega⟩
  have run := exec_mqdDecode hf ready hq hsup
  refine ⟨decodedBit ctx s, (decodedHalf ctx s).coder.c, (decodedHalf ctx s).freeBits, ?_⟩
  intro a halved moved
  subst hpt
  have hupper : decodedBit ctx s = upper ↔ takesLower ctx s = false := decodedBit_eq_upperBit ctx s
  have half_a : (decodedHalf ctx s).coder.a = a := by
    simp only [decodedHalf, a, hupper]
    cases takesLower ctx s <;> rfl
  have half : decodedHalf ctx s = halved := by
    simp only [halved, ← half_a]
    rfl
  have hmoved : decodedMoved ctx s = { halved with pt := s.pt.setIfInBounds ctx moved } := by
    simp only [decodedMoved, half, setPt, ptMove, beq_iff_eq, Bool.and_true]
    rfl
  refine ⟨fun hfree => ?_, fun hge => ?_, fun hlt => ?_⟩
  · have hanswer : answersFreely s = false := by
      rw [answersFreely, Bool.and_eq_false_iff]
      exact hfree
    have hlower : takesLower ctx s = decide (active < p.toNat) := by
      rw [takesLower, hanswer]
      rfl
    refine ⟨?_, ?_, if_neg (by simp [hanswer])⟩
    · simp only [decodedBit, hlower, decide_eq_true_eq]
      rfl
    · have hp := p.isLt
      simp only [hupper, decodedHalf, hlower]
      by_cases hact : active < p.toNat
      · simp [hact]
      · have hle : p.toNat * 2 ^ 8 ≤ s.coder.c.toNat := by omega
        simp only [hact, decide_false, Bool.false_eq_true, if_false, if_true, BitVec.toNat_ofNat,
          decC]
        change (s.coder.c.toNat + 2 ^ 24 - p.toNat * 2 ^ 8) % 2 ^ 24 % 2 ^ 28 = _
        omega
  · rw [run, afterDecision, half_a, if_neg (BitVec.not_lt.mpr hge), half]
  · have after : afterDecision ctx s = decoderDoubled (doublings 15 a)
        { halved with pt := s.pt.setIfInBounds ctx moved } := by
      rw [afterDecision, half_a, if_pos hlt, hmoved]
    have length : (afterDecision ctx s).coder.a = a <<< doublings 15 a := by
      rw [after, decoderDoubled_a]
    have feeds := feeds_afterDecision ctx s
    refine ⟨doublings 15 a, afterDecision ctx s, doublings_succ 14 hlt ▸ Nat.le_add_left ..,
      doublings_le 15 a, after, run, afterDecision_a ctx s ha, ?_, feeds.forward,
      (mqdDecode_ok ready hq hsup).2, ?_⟩
    · rw [length]
      exact (shiftLeft_doublings 15 a).1
    · have := feeds.count
      omega

end Sys2Proof.Machine
end

section
/-! PROOF. `MQD.INIT` (44_mq_decoder.md R231, R233): the two bytes it puts into C, or the one before a
marker. -/

namespace Sys2Proof.Machine

open Sys2Proof.Safety

/-! ### The two bytes -/

/-- What `MQD.INIT` begins with: an empty register and the position of the segment. -/
def decodeBegun (s : State) : State :=
  { s with
    rp0 := s.rp, diverged := false, coder := { s.coder with t := 0, l := 0, c := 0 }
    status := { s.status with decFail := none, ioFail := false } }

/-- The first byte in C, and room made for the second. -/
def firstByte (b : Byte) (s : State) : State :=
  { decodeBegun s with
    coder := { s.coder with c := BitVec.ofNat 28 (b.toNat * 2 ^ 8), t := b, ct := 8, l := 1 }
    rp := s.rp + 1, portCalls := s.portCalls + 2 }

/-- The second byte in C, which is moved to stand one bit below the top. -/
def secondByte (b : Byte) (s : State) : State :=
  let filled := decoderFilled b s
  setA 0x8000 (setCt (filled.coder.ct - 7) (setDecC (decC filled * 2 ^ 7) filled))

/-- The state in which `MQD.INIT` leaves a session with these bytes. -/
def sessionOpened (b₀ b₁ : Byte) (s : State) : State :=
  setMqMode .decoding (secondByte b₁ (firstByte b₀ s))

theorem feeds_secondByte {b : Byte} {s : State} (h : s.inp[s.rp]? = some b) :
    Feeds s (secondByte b s) :=
  feeds_chains.trans (feeds_decoderFilled h)
    (feeds_of_eq (u := secondByte b s) le_rfl rfl rfl rfl)

theorem aligned_secondByte (b : Byte) (s : State) : Aligned (secondByte b s).coder := by
  refine ⟨setDecC_c_lt (decC (decoderFilled b s) * 2 ^ 7) (decoderFilled b s), ?_⟩
  change ((decoderFilled b s).coder.ct - 7).toNat ≤ 7
  rw [decoderFilled_ct]
  split_ifs <;> decide

theorem decC_ofNat {n : Nat} {s : State} (h : s.coder.c = BitVec.ofNat 28 n) (hn : n < 2 ^ 28) :
    decC s = n := by
  rw [decC, h, BitVec.toNat_ofNat, Nat.mod_eq_of_lt hn]

theorem run_firstByte (b : Byte) (s : State) :
    modS (fun u => setDecC (decC u * 2 ^ u.coder.ct.toNat) u) (decoderFilled b (decodeBegun s))
      = .ok () (firstByte b s) := by
  have hb := b.isLt
  have filled : decoderFilled b (decodeBegun s)
      = setC (BitVec.ofNat 28 b.toNat) (byteTaken b 8 (decodeBegun s)) := by
    have ht : (decodeBegun s).coder.t ≠ 0xFF := show (0 : Byte) ≠ 0xFF by decide
    rw [decoderFilled_body fun h => ht h.1, if_neg ht, if_neg ht,
      decC_ofNat (n := 0) rfl (by decide), pow_zero, Nat.mul_one, Nat.zero_add,
      setDecC_of_lt (by omega)]
  have hc : decC (setC (BitVec.ofNat 28 b.toNat) (byteTaken b 8 (decodeBegun s))) = b.toNat :=
    decC_ofNat rfl (by omega)
  rw [filled, run_modS, hc, setDecC_of_lt (by simp [byteTaken]; omega)]
  rfl

/-- `MQD.INIT` once it has begun the session. -/
def fillTwo : Op Unit := do
  fillLSBs
  modS fun s => setDecC (decC s * 2 ^ s.coder.ct.toNat) s
  fillLSBs
  modS fun s => setDecC (decC s * 2 ^ 7) s
  modS fun s => setA 0x8000 (setCt (s.coder.ct - 7) s)
  modS (setMqMode .decoding)

theorem unfaulting_fillTwo : Unfaulting Unit fillTwo :=
  have C := unfaulting_closed
  C.bind unfaulting_fillLSBs fun _ => C.bind (unfaulting_modS _) fun _ =>
    C.bind unfaulting_fillLSBs fun _ => C.bind (unfaulting_modS _) fun _ =>
      C.bind (unfaulting_modS _) fun _ => unfaulting_modS _

section Run

variable {s : State}

theorem mqdInit_eq (hm : s.status.mqMode = .idle) : mqdInit s = fillTwo (decodeBegun s) := by
  rw [mqdInit, run_bind_ok (by rw [run_requireIdle, if_pos hm])]
  rfl

theorem mqdInit_refused (hm : s.status.mqMode ≠ .idle) :
    mqdInit s = .error (.protocolFault .alreadyStarted) s := by
  simp only [mqdInit, run_bind, run_requireIdle, if_neg hm]

/-- `FillLSBs` first takes a byte, for T is 0. -/
theorem fillTwo_first (hq : quietPorts s) {b : Byte} (hb : s.inp[s.rp]? = some b) :
    fillTwo (decodeBegun s) = (do
      fillLSBs
      modS fun s => setDecC (decC s * 2 ^ 7) s
      modS fun s => setA 0x8000 (setCt (s.coder.ct - 7) s)
      modS (setMqMode .decoding)) (firstByte b s) := by
  rw [fillTwo, run_bind_ok (fillLSBs_ok (s := decodeBegun s) hq hb),
    run_bind_ok (run_firstByte b s)]

theorem quietPorts_firstByte (hq : quietPorts s) (b : Byte) : quietPorts (firstByte b s) :=
  quietPorts_mono hq rfl (Nat.le_add_right ..)

theorem fillTwo_ok (hq : quietPorts s) {b₀ b₁ : Byte} (h₀ : s.inp[s.rp]? = some b₀)
    (h₁ : s.inp[s.rp + 1]? = some b₁) :
    fillTwo (decodeBegun s) = .ok () (sessionOpened b₀ b₁ s) := by
  rw [fillTwo_first hq h₀, run_bind_ok (fillLSBs_ok (quietPorts_firstByte hq b₀) h₁)]
  rfl

/-- A session is opened only with two bytes to look at. -/
theorem fillTwo_eq_ok {t : State} (h : fillTwo (decodeBegun s) = .ok () t) :
    ∃ b₀ b₁, s.inp[s.rp]? = some b₀ ∧ s.inp[s.rp + 1]? = some b₁ ∧ t = sessionOpened b₀ b₁ s := by
  obtain ⟨_, u, hu, h⟩ := run_bind_eq_ok.mp h
  obtain ⟨b₀, h₀, rfl⟩ := fillLSBs_eq_ok hu
  rw [run_bind_ok (run_firstByte b₀ s)] at h
  obtain ⟨_, v, hv, h⟩ := run_bind_eq_ok.mp h
  obtain ⟨b₁, h₁, rfl⟩ := fillLSBs_eq_ok hv
  cases h
  exact ⟨b₀, b₁, h₀, h₁, rfl⟩

end Run

/-! ### The registers of the session -/

theorem decC_firstByte (b : Byte) (s : State) : decC (firstByte b s) = b.toNat * 2 ^ 8 := by
  have hb := b.isLt
  exact decC_ofNat rfl (by omega)

/-- Of two bytes C has the first one higher, or, after 0xFF, one position lower. -/
theorem sessionOpened_body {b₀ b₁ : Byte} (h : ¬ (b₀ = 0xFF ∧ 0x8F < b₁)) (s : State) :
    sessionOpened b₀ b₁ s = { s with
      coder := ⟨0x8000, BitVec.ofNat 28
        ((b₀.toNat * 2 ^ 8 + b₁.toNat * 2 ^ (if b₀ = 0xFF then 1 else 0)) * 2 ^ 7), b₁,
        if b₀ = 0xFF then 0 else 1, 2⟩
      rp0 := s.rp, rp := s.rp + 2, portCalls := s.portCalls + 4, diverged := false
      status := { s.status with mqMode := .decoding, decFail := none, ioFail := false } } := by
  have h₀ := b₀.isLt
  have h₁ := b₁.isLt
  have hv : b₀.toNat * 2 ^ 8 + b₁.toNat * 2 ^ (if b₀ = 0xFF then 1 else 0) < 2 ^ 16 + 2 ^ 9 := by
    split_ifs <;> omega
  have filled : decoderFilled b₁ (firstByte b₀ s) = setC (BitVec.ofNat 28
      (b₀.toNat * 2 ^ 8 + b₁.toNat * 2 ^ (if b₀ = 0xFF then 1 else 0)))
      (byteTaken b₁ (if b₀ = 0xFF then 7 else 8) (firstByte b₀ s)) := by
    have ht : (firstByte b₀ s).coder.t = b₀ := rfl
    rw [decoderFilled_body h, decC_firstByte, ht, setDecC_of_lt (by omega)]
  rw [sessionOpened, secondByte, filled]
  dsimp only
  rw [decC_ofNat rfl (by omega), setDecC_of_lt (by omega)]
  have hct : (if b₀ = 0xFF then (7 : BitVec 4) else 8) - 7 = if b₀ = 0xFF then 0 else 1 := by
    split_ifs <;> rfl
  simp only [setMqMode, setA, setCt, setC, byteTaken, firstByte, decodeBegun, hct]
  rfl

theorem sessionOpened_marker {b₁ : Byte} (h : 0x8F < b₁) (s : State) :
    sessionOpened 0xFF b₁ s = { s with
      coder := ⟨0x8000, 0x7FFF80, 0xFF, 1, 1⟩
      rp0 := s.rp, rp := s.rp + 1, portCalls := s.portCalls + 3, diverged := false
      status := { s.status with mqMode := .decoding, decFail := none, ioFail := false } } := by
  have filled : decoderFilled b₁ (firstByte 0xFF s)
      = setC 0xFFFF { setCt 8 (firstByte 0xFF s) with portCalls := s.portCalls + 3 } := by
    rw [decoderFilled_marker ⟨rfl, h⟩, decC_firstByte, setDecC_of_lt (by decide)]
    rfl
  rw [sessionOpened, secondByte, filled]
  dsimp only
  rw [decC_ofNat (n := 0xFFFF) rfl (by decide), setDecC_of_lt (by decide),
    show BitVec.ofNat 28 (0xFFFF * 2 ^ 7) = 0x7FFF80 by decide]
  simp only [setMqMode, setA, setCt, setC, firstByte, decodeBegun]
  rfl

/-! ### The command -/

theorem exec_mqdInit {s : State} (hf : s.status.fault = false) (hm : s.status.mqMode = .idle)
    {t : State} (h : fillTwo (decodeBegun s) = .ok () t) : exec .mqdInit s = okNext 0 t := by
  rw [exec_ok hf (run_bind_ok ((mqdInit_eq hm).trans h)), okNext]

theorem exec_mqdInit_truncated {s t : State} (hf : s.status.fault = false)
    (hm : s.status.mqMode = .idle)
    (h : fillTwo (decodeBegun s) = .error (.decodeFailure .truncated) t) :
    exec .mqdInit s = .next (takeDecodeFailure .truncated t) := by
  rw [exec_eq_settle hf, settle,
    show opOf .mqdInit s = _ from run_bind_error ((mqdInit_eq hm).trans h)]
  rfl

/-- Settles O43: the bytes in C are those of `sessionOpened`; of the two bytes the missing one is
asked for first. -/
theorem mqdInitFillsRegister : Obligations.MqdInitFillsRegister := by
  intro s b₀ b₁ hf hm hq opened
  refine ⟨fun h₀ h₁ => ?_, fun hend => ?_⟩
  · have run := exec_mqdInit hf hm (fillTwo_ok hq h₀ h₁)
    refine ⟨fun hne => ?_, fun heq hbody => ?_, fun heq hmark => ?_⟩
    · rw [run, sessionOpened_body fun h => hne h.1, if_neg hne, if_neg hne, pow_zero, Nat.mul_one]
    · subst heq
      rw [run, sessionOpened_body fun h => absurd h.2 (BitVec.not_lt.mpr hbody)]
      rfl
    · rw [run, heq, sessionOpened_marker hmark]
  · cases h₀ : s.inp[s.rp]? with
    | none =>
      have run := fillLSBs_end (s := decodeBegun s) hq h₀
      exact ⟨_, exec_mqdInit_truncated hf hm (run_bind_error run), rfl, rfl, rfl, rfl, rfl, rfl⟩
    | some b =>
      have run := fillLSBs_end (s := firstByte b s) (quietPorts_firstByte hq b)
        (List.getElem?_eq_none hend)
      exact ⟨_, exec_mqdInit_truncated hf hm ((fillTwo_first hq h₀).trans (run_bind_error run)),
        rfl, rfl, rfl, rfl, rfl, rfl⟩

end Sys2Proof.Machine
end

section
/-! PROOF. `MQD.DECODENUM` bit by bit (44_mq_decoder.md R235): no operation of the decoder looks at the
response, so that the commands bit by bit do what the one command does. -/

namespace Sys2Proof.Machine

open Sys2Proof.Safety

/-! ### The response -/

theorem agrees_getS_bind {β : Type} {f : State → Op β} (hf : ∀ s r, f { s with resp := r } = f s)
    (h : ∀ s, Agrees SameButResp (f s)) : Agrees SameButResp (getS >>= f) := .getS_bind (by
  rintro s _ ⟨r, rfl⟩
  rw [hf s r]
  exact h s s _ ⟨r, rfl⟩)

theorem agrees_modS {f : State → State}
    (hf : ∀ s r, f { s with resp := r } = { f s with resp := r }) :
    Agrees SameButResp (modS f) := .modS (by
  rintro s _ ⟨r, rfl⟩
  exact ⟨r, hf s r⟩)

theorem agrees_peekIn : Agrees SameButResp peekIn := by
  rintro s _ ⟨r, rfl⟩
  rw [run_peekIn, run_peekIn]
  split <;> exact ⟨rfl, r, rfl⟩

theorem agrees_takeIn : Agrees SameButResp takeIn := by
  rintro s _ ⟨r, rfl⟩
  rw [run_takeIn, run_takeIn]
  dsimp only
  repeat' split
  all_goals exact ⟨rfl, r, rfl⟩

theorem agrees_fillLSBs : Agrees SameButResp fillLSBs := by
  refine .bind (agrees_modS fun _ _ => rfl) fun _ => .bind agrees_peekIn fun n => ?_
  cases n with
  | none => exact .raise _
  | some n =>
    exact agrees_getS_bind (fun _ _ => rfl) fun _ => .ite (agrees_modS fun _ _ => rfl)
      (.bind (.doIf (agrees_modS fun _ _ => rfl)) fun _ => .bind agrees_takeIn fun _ =>
        .bind (agrees_modS fun _ _ => rfl) fun _ => agrees_modS fun _ _ => rfl)

theorem agrees_decRenorm (n : Nat) : Agrees SameButResp (decRenorm n) := by
  have once : Agrees SameButResp renormOnce :=
    agrees_getS_bind (fun _ _ => rfl) fun _ => .bind (.doIf agrees_fillLSBs) fun _ =>
      agrees_modS fun _ _ => rfl
  induction n with
  | zero => exact .pure _
  | succ n ih =>
    exact agrees_getS_bind (fun _ _ => rfl) fun _ => .doIf (.bind once fun _ => ih)

theorem agrees_inLower (p : BitVec 16) : Agrees SameButResp (inLower p) := by
  rintro s _ ⟨r, rfl⟩
  rw [inLower, inLower]
  split <;> exact ⟨rfl, r, rfl⟩

theorem agrees_mqdDecode (ctx : Nat) : Agrees SameButResp (mqdDecode ctx) :=
  have K := sameButResp_encodeAgrees
  .bind (K.requireMode _) fun _ => .bind (K.requirePt ctx) fun _ =>
    agrees_getS_bind (fun _ _ => rfl) fun _ => .bind (agrees_inLower _) fun lower =>
      .bind (agrees_modS fun _ _ => by cases lower <;> rfl) fun _ =>
        .bind (.doIf (.bind (K.ptTrans ctx _ _) fun _ => agrees_decRenorm 15)) fun _ => .pure _

theorem agrees_decodeBits (ctx n v : Nat) : Agrees SameButResp (decodeBits ctx n v) := by
  induction n generalizing v with
  | zero => exact .pure _
  | succ n ih => exact .bind (agrees_mqdDecode ctx) fun _ => ih _

theorem agrees_opOf_mqdDecodeNum (n ctx : Nat) :
    Agrees SameButResp (opOf (.mqdDecodeNum n ctx)) :=
  have K := sameButResp_encodeAgrees
  .bind (.bind (K.requireMode _) fun _ => .bind (K.requirePt ctx) fun _ =>
    .bind (.require _ _) fun _ => agrees_decodeBits ctx n 0) fun _ => .pure _

/-! ### The value -/

/-- The bits so far stand above those still to come. -/
theorem decodeBits_eq (ctx n v : Nat) :
    decodeBits ctx n v = decodeBits ctx n 0 >>= fun w => pure (v * 2 ^ n + w) := by
  induction n generalizing v with
  | zero => simp [decodeBits]
  | succ n ih =>
    simp only [decodeBits, bind_assoc]
    congr 1
    funext b
    rw [ih (v * 2 + boolNat b), ih (0 * 2 + boolNat b)]
    simp only [bind_assoc, pure_bind]
    congr 1
    funext w
    congr 1
    ring

theorem boolNat_le_one (b : Bool) : boolNat b ≤ 1 := by cases b <;> decide

theorem decodeBits_lt {ctx n v : Nat} {s t : State} (h : decodeBits ctx n 0 s = .ok v t) :
    v < 2 ^ n := by
  induction n generalizing v s with
  | zero =>
    cases h
    decide
  | succ n ih =>
    obtain ⟨b, u, -, h⟩ := run_bind_eq_ok.mp h
    rw [decodeBits_eq] at h
    obtain ⟨w, x, hw, h⟩ := run_bind_eq_ok.mp h
    cases h
    have hw := ih hw
    have hb := boolNat_le_one b
    have : (0 * 2 + boolNat b) * 2 ^ n ≤ 1 * 2 ^ n := Nat.mul_le_mul_right _ (by omega)
    rw [pow_succ]
    omega

section DecodeNum

variable {s : State} {ctx : Nat} (hr : DecodeReady s ctx)
include hr

theorem opOf_mqdDecodeNum {n : Nat} (hn : n ≤ 16) : opOf (.mqdDecodeNum n ctx) s
    = (decodeBits ctx n 0 >>= fun v => pure (BitVec.ofNat 32 v)) s := by
  have checks : mqdDecodeNum n ctx s = decodeBits ctx n 0 s := by
    simp only [mqdDecodeNum, run_bind, run_requireMode, run_requirePt, requireNbits, run_require,
      hr.mode, hr.valid, hr.label, hn, decide_true, if_true]
  rw [opOf, run_bind, run_bind, checks]

/-- A decision leaves `STATUS`. -/
theorem mqdDecode_status {b : Bool} {t : State} (h : mqdDecode ctx s = .ok b t) :
    t.status = s.status := by
  obtain ⟨hok, -⟩ | ⟨e, u, herr, -⟩ := mqdDecode_ends hr
  · rw [hok] at h
    cases h
    exact (feeds_afterDecision ctx s).status_eq
  · rw [herr] at h
    cases h

/-- After the first bit `MQD.DECODENUM` is that of the other bits. -/
theorem opOf_mqdDecodeNum_succ {n : Nat} (hn : n + 1 ≤ 16) {b : Bool} {t : State}
    (h : mqdDecode ctx s = .ok b t) : opOf (.mqdDecodeNum (n + 1) ctx) s
      = (decodeBits ctx n 0 >>= fun w => pure (BitVec.ofNat 32 (boolNat b * 2 ^ n + w))) t := by
  rw [opOf_mqdDecodeNum hr hn, decodeBits, bind_assoc, run_bind_ok h, decodeBits_eq, bind_assoc,
    Nat.zero_mul, Nat.zero_add]
  simp only [pure_bind]

/-- With two bytes left for each bit, or a marker ahead, decoding ends `ok`. -/
theorem decodeBits_ok (n : Nat) (hq : quietPorts s) (hm : Supplied (2 * n) s) :
    ∃ v t, decodeBits ctx n 0 s = .ok v t ∧ Feeds s t ∧ ∀ k, k ≠ ctx → t.pt[k]? = s.pt[k]? := by
  induction n generalizing s with
  | zero => exact ⟨0, s, rfl, feeds_chains.refl s, fun _ _ => rfl⟩
  | succ n ih =>
    have feeds := feeds_afterDecision ctx s
    obtain ⟨run, hle⟩ := mqdDecode_ok hr hq
      (Supplied.feeds (m := 2) (j := 2 * n) (by rwa [Nat.add_comm]) (feeds_chains.refl s)
        (Nat.le_add_right ..))
    have ready : DecodeReady (afterDecision ctx s) ctx := by
      obtain ⟨hmode, hvalid, hlabel⟩ := hr
      rw [← feeds.status_eq] at hmode hvalid
      exact ⟨hmode, hvalid, hlabel⟩
    obtain ⟨v, t, rest, hfeeds, hpt⟩ := ih ready (feeds.quiet hq) (hm.feeds feeds hle)
    refine ⟨(0 * 2 + boolNat (decodedBit ctx s)) * 2 ^ n + v, t, ?_,
      feeds_chains.trans feeds hfeeds, fun k hk => (hpt k hk).trans (afterDecision_pt ctx s hk)⟩
    rw [decodeBits, run_bind_ok run, decodeBits_eq, run_bind_ok rest]
    rfl

end DecodeNum

/-! ### The command -/

theorem okNext_inj {p q : Word} {s t : State} (h : okNext p s = okNext q t) :
    p = q ∧ ∀ r, okNext r s = okNext r t := by
  have h : respond .ok p s = respond .ok q t := Host.Outcome.next.inj h
  have hp : some (Response.mk .ok p) = some (Response.mk .ok q) := congrArg State.resp h
  exact ⟨(Response.mk.inj (Option.some.inj hp)).2,
    fun r => show okNext r (respond .ok p s) = okNext r (respond .ok q t) from
      congrArg (okNext r) h⟩

theorem next_takeRaise_ne_okNext (e : Raise) (s : State) (p : Word) (t : State) :
    .next (takeRaise e s) ≠ okNext p t := fun h =>
  not_endsOk_takeRaise e s ⟨p, by rw [Host.Outcome.next.inj h]⟩

theorem eq_boolNat {b : Nat} {x : Bool} (hb : b < 2) (h : boolWord x = BitVec.ofNat 32 b) :
    b = boolNat x := by
  have := congrArg BitVec.toNat h
  cases x <;> simp [boolWord, boolNat] at this ⊢ <;> omega

/-- Settles O45: after the checks `MQD.DECODENUM` is the decision of the highest bit and then what
`MQD.DECODENUM` of the other bits is after its checks. -/
theorem decodeNumIsABitSequence : Obligations.DecodeNumIsABitSequence := by
  intro s u n ctx hf hm hv hc
  have hr : DecodeReady s ctx := ⟨hm, hv, hc⟩
  have answers (k : Nat) {v : Nat} {t : State} (hk : k ≤ 16) (h : decodeBits ctx k 0 s = .ok v t) :
      exec (.mqdDecodeNum k ctx) s = okNext (BitVec.ofNat 32 v) t := by
    rw [exec_eq_settle hf, settle, opOf_mqdDecodeNum hr hk, run_bind_ok h]
    rfl
  refine ⟨answers 0 (by decide) rfl, fun hn hu => ?_, fun hn _ hq hsup => ?_⟩
  · have hu := exec_of_noFault hf hu
    rw [exec_eq_settle hf]
    cases hcode : mqdDecode ctx s with
    | ok x t =>
      have hut : u = respond .ok (boolWord x) t := by rw [hu, settle, opOf, run_bind_ok hcode]; rfl
      have hst := mqdDecode_status hr hcode
      have ht : DecodeReady t ctx := ⟨hst ▸ hm, hst ▸ hv, hc⟩
      have hfu : u.status.fault = false := by rw [hut]; exact hst ▸ hf
      have same : SameButResp u t := ⟨_, by rw [hut]; rfl⟩
      rw [exec_eq_settle hfu, settle_eq_of_alike (agrees_opOf_mqdDecodeNum n ctx u t same)]
      have first := opOf_mqdDecodeNum_succ hr hn hcode
      have rest := opOf_mqdDecodeNum ht (n := n) (by omega)
      have hok : endsOk u := ⟨_, by rw [hut]; rfl⟩
      rw [settle, settle, first, rest]
      cases hrest : decodeBits ctx n 0 t with
      | ok w t' =>
        rw [run_bind_ok hrest, run_bind_ok hrest]
        refine ⟨fun b t'' v hb hb2 hv2 h => ?_, fun t'' _ h hno => ?_, fun hno => absurd hok hno⟩
        · rw [hut] at hb
          have hw := decodeBits_lt hrest
          have hpow : 2 ^ n ≤ 2 ^ 16 := Nat.pow_le_pow_right (by decide) (by omega)
          obtain ⟨hwv, same⟩ := okNext_inj h
          have hwv := congrArg BitVec.toNat hwv
          rw [BitVec.toNat_ofNat, BitVec.toNat_ofNat, Nat.mod_eq_of_lt (by omega),
            Nat.mod_eq_of_lt (by omega)] at hwv
          rw [← same, ← hwv, eq_boolNat hb2 (Response.mk.inj (Option.some.inj hb)).2]
          rfl
        · cases h
          exact absurd ⟨_, rfl⟩ hno
      | error e t' =>
        rw [run_bind_error hrest, run_bind_error hrest]
        exact ⟨fun _ _ _ _ _ _ h => absurd h (next_takeRaise_ne_okNext e t' _ _),
          fun _ _ h _ => h, fun hno => absurd hok hno⟩
    | error e t =>
      have hut : u = takeRaise e t := by rw [hu, settle, opOf, run_bind_error hcode]
      have hno : ¬ endsOk u := hut ▸ not_endsOk_takeRaise e t
      refine ⟨fun b _ _ h => absurd ⟨_, h⟩ hno, fun _ h => absurd h hno, fun _ => ?_⟩
      rw [settle, opOf_mqdDecodeNum hr hn, decodeBits, run_bind_error (run_bind_error hcode), hut]
  · obtain ⟨v, t, hrun, hfeeds, hpt⟩ := decodeBits_ok hr n hq hsup
    obtain ⟨w, rfl⟩ := hfeeds.written
    exact ⟨w, v, decodeBits_lt hrun, answers n hn hrun, hpt⟩

end Sys2Proof.Machine
end

section
/-! PROOF. The registers of a decoding session stay in range (44_mq_decoder.md R237): what takes bytes
keeps RP - L, and the doublings bring A back. -/

namespace Sys2Proof.Machine

open Sys2Proof.Safety

/-! ### The condition -/

theorem decoderOk_of_mode {s : State} (h : s.status.mqMode ≠ .decoding) : DecoderOk s :=
  fun hm => absurd hm h

theorem decoderOk_of_eq {s t : State} (hs : DecoderOk s) (hm : t.status.mqMode = s.status.mqMode)
    (hk : t.coder = s.coder) (hrp : t.rp = s.rp) (hrp0 : t.rp0 = s.rp0) : DecoderOk t := by
  rw [DecoderOk, hm, hk, hrp, hrp0]
  exact hs

/-- Bytes taken keep the condition where A and C stay in range. -/
theorem decoderOk_of_feeds {s t : State} (hs : DecoderOk s) (F : Feeds s t)
    (ha : 0x8000 ≤ s.coder.a → 0x8000 ≤ t.coder.a) (hal : Aligned s.coder → Aligned t.coder) :
    DecoderOk t := fun hm => by
  rw [F.status_eq] at hm
  obtain ⟨hsa, hsct, hsl, hsc, hsrp⟩ := hs hm
  obtain ⟨hc, hct⟩ := hal ⟨hsc, hsct⟩
  have hforward := F.forward
  have hcount := F.count
  exact ⟨ha hsa, hct, by omega, hc, by rw [F.rp0_eq]; omega⟩

theorem decoderOk_afterDecision {s : State} (ctx : Nat) (hs : DecoderOk s)
    (hal : Aligned s.coder → Aligned (afterDecision ctx s).coder) :
    DecoderOk (afterDecision ctx s) :=
  decoderOk_of_feeds hs (feeds_afterDecision ctx s) (afterDecision_a ctx s) hal

/-- The session that `MQD.INIT` opens is in range. -/
theorem decoderOk_sessionOpened {b₀ b₁ : Byte} {s : State} (h : s.inp[s.rp + 1]? = some b₁) :
    DecoderOk (sessionOpened b₀ b₁ s) := fun _ => by
  have F : Feeds (firstByte b₀ s) (secondByte b₁ (firstByte b₀ s)) := feeds_secondByte h
  obtain ⟨hc, hct⟩ := aligned_secondByte b₁ (firstByte b₀ s)
  have ha : 0x8000 ≤ (secondByte b₁ (firstByte b₀ s)).coder.a.toNat := le_rfl
  rw [sessionOpened]
  generalize secondByte b₁ (firstByte b₀ s) = t at *
  have hforward : s.rp + 1 ≤ t.rp := F.forward
  have hcount : (t.rp : Int) - t.coder.l = (s.rp + 1 : Nat) - 1 := F.count
  have hrp0 : t.rp0 = s.rp := F.rp0_eq
  have hl : 1 ≤ t.coder.l := by omega
  have hrp : (t.rp : Int) = t.rp0 + t.coder.l := by omega
  exact ⟨ha, hct, hl, hc, hrp⟩

/-! ### The operations of the coder -/

theorem ends_error {I : State → Prop} {α : Type} {e : Raise} {t : State}
    (h : ∀ code, e ≠ .protocolFault code) :
    Ends I (.error e t : EStateM.Result Raise State α) := by
  cases e with
  | protocolFault code => exact absurd rfl (h code)
  | _ => trivial

/-- An operation without a check that can fail keeps a condition that holds where it ends `ok`. -/
theorem Unfaulting.ends {I : State → Prop} {α : Type} {x : Op α} (hx : Unfaulting α x) {s : State}
    (h : ∀ a t, x s = .ok a t → I t) : Ends I (x s) := by
  cases hr : x s with
  | ok a t => exact h a t hr
  | error e t => exact ends_error fun code he => hx s t code (he ▸ hr)

theorem guards_mqdInit : Guards DecoderOk Unit mqdInit := fun s hs => by
  by_cases hm : s.status.mqMode = .idle
  · rw [mqdInit_eq hm]
    refine unfaulting_fillTwo.ends fun _ t ht => ?_
    obtain ⟨b₀, b₁, -, h₁, rfl⟩ := fillTwo_eq_ok ht
    exact decoderOk_sessionOpened h₁
  · rw [mqdInit_refused hm]
    exact hs

theorem guards_mqdDecode (ctx : Nat) : Guards DecoderOk Bool (mqdDecode ctx) := fun s hs => by
  by_cases h : DecodeReady s ctx
  · obtain ⟨hr, hal⟩ | ⟨e, t, hr, he⟩ := mqdDecode_ends h
    · rw [hr]
      exact decoderOk_afterDecision ctx hs hal
    · rw [hr]
      exact ends_error he
  · obtain ⟨code, hr⟩ := mqdDecode_refused h
    rw [hr]
    exact hs

theorem guards_mqdSkipEnd : Guards DecoderOk Nat mqdSkipEnd := fun s hs => by
  by_cases hm : s.status.mqMode = .decoding
  · have C := unfaulting_closed
    have search : Unfaulting Nat (skipScan (s.inp.length - s.rp + 1) 0 >>= fun g =>
        modS (setMqMode .idle) >>= fun _ => pure g) :=
      C.bind (unfaulting_skipScan _ _) fun _ => C.bind (unfaulting_modS _) fun _ => C.pure _
    rw [mqdSkipEnd, run_bind_ok (by rw [run_requireMode, if_pos hm]), run_bind_ok (run_getS s)]
    refine search.ends fun g t ht => ?_
    obtain ⟨_, u, -, hu⟩ := run_bind_eq_ok.mp ht
    cases hu
    exact decoderOk_of_mode (by simp)
  · simp only [mqdSkipEnd, run_bind, run_requireMode, if_neg hm]
    exact hs

/-- In an encoding session no decoding session is open. -/
theorem ends_emitted {r : EStateM.Result Raise State Unit} {s : State} {p : Coder × List Byte}
    (hm : s.status.mqMode = .encoding) (h : Emitted r s p) : Ends DecoderOk r := by
  obtain rfl | ⟨-, k, bs, n, rfl⟩ := h
  · exact decoderOk_of_mode (by simp [emit, hm])
  · trivial

theorem guards_mqeCode (b : Bool) (ctx : Nat) : Guards DecoderOk Unit (mqeCode b ctx) :=
    fun s hs => by
  by_cases h : CodeReady s ctx
  · obtain ⟨v, -, hv⟩ := emitted_mqeCode h b
    exact ends_emitted (s := { s with pt := v }) h.mode hv
  · obtain ⟨code, hr⟩ := mqeCode_refused h b
    rw [hr]
    exact hs

theorem guards_mqeFlush : Guards DecoderOk Unit mqeFlush := fun s hs => by
  by_cases hm : s.status.mqMode = .encoding
  · exact ends_emitted hm (emitted_mqeFlush hm)
  · rw [mqeFlush_refused hm]
    exact hs

theorem guards_mqeInit : Guards DecoderOk Unit mqeInit := fun s hs => by
  simp only [mqeInit, run_bind, run_requireIdle]
  split_ifs
  · exact decoderOk_of_mode (by simp)
  · exact hs

theorem guards_mqeMarkEnd : Guards DecoderOk Unit mqeMarkEnd := fun s hs => by
  by_cases hm : s.status.mqMode = .encoding
  · simp only [mqeMarkEnd, run_bind, run_requireMode, if_pos hm, run_putOut]
    split_ifs
    · trivial
    · dsimp only
      split_ifs
      · trivial
      · exact decoderOk_of_mode (by simp)
  · simp only [mqeMarkEnd, run_bind, run_requireMode, if_neg hm]
    exact hs

/-! ### Commands and steps -/

/-- Every update outside the coder's registers and streams keeps the condition. -/
theorem decoderOk_update (k : Part) (s t : State) (hk : k ∉ [Part.registers, .session])
    (u : Update k s t) (hs : DecoderOk s) : DecoderOk t := by
  refine decoderOk_of_eq hs ?_ ?_ ?_ ?_ <;> cases u <;> simp_all

theorem guards_opOf (i : Instr) : Guards DecoderOk Word (opOf i) :=
  have hR := chains_preserves DecoderOk
  opOf_of_commands guards_closed hR Keeps.guards decoderOk_update
    (.of_keeps guards_closed hR Keeps.guards decoderOk_update guards_mqeCode guards_mqeInit
      guards_mqeFlush guards_mqeMarkEnd)
    (.of_keeps guards_closed hR Keeps.guards decoderOk_update guards_mqdDecode guards_mqdInit
      guards_mqdSkipEnd) i

/-- Every command keeps the condition: a failure closes the session. -/
theorem decoderOk_exec {i : Instr} {s t : State} (h : exec i s = .next t) (hs : DecoderOk s) :
    DecoderOk t := by
  obtain ⟨-, rfl⟩ | rfl := exec_cases h
  · exact hs
  · have hop := guards_opOf i s hs
    unfold settle
    cases hr : opOf i s with
    | ok p u => rw [hr] at hop; exact hop
    | error e u =>
      rw [hr] at hop
      cases e with
      | protocolFault code => exact hop
      | decodeFailure code => exact decoderOk_of_mode nofun
      | ioFailure => exact decoderOk_of_mode nofun

/-- Settles O47: commands keep the range, and of the host's events only `setIn` writes a part of
it. -/
theorem decoderRegistersStayInRange : Obligations.DecoderRegistersStayInRange := by
  intro s t hs hin h
  cases hq : s.hostq with
  | nil =>
    rw [step_of_hostq_nil hq] at h
    cases h
    exact hs
  | cons e rest =>
    have hpop : DecoderOk (popHost rest s) := hs
    cases e with
    | command w =>
      rw [step_of_command hq] at h
      unfold runWord at h
      split at h
      · exact decoderOk_exec h hpop
      · cases h
        unfold illegalWord
        split <;> exact hs
    | hardReset =>
      rw [step_of_hostAct hq (by simp)] at h
      cases h
      exact decoderOk_of_mode nofun
    | setIn bytes rp foreign => exact absurd hq (hin bytes rp foreign rest)
    | _ =>
      rw [step_of_hostAct hq (by simp)] at h
      cases h
      exact decoderOk_of_eq hs rfl rfl rfl rfl

end Sys2Proof.Machine
end

section
/-! PROOF. `EB.DECODE` (45_pass_sequencer.md R267; 44_mq_decoder.md R233, R236): while the planes are
decoded the block's marker stays ahead, so that no byte is missing; at the end the search begins before
the marker. -/

namespace Sys2Proof.Machine

open Sys2Proof.Safety

/-! ### The beginning of a block -/

/-- The tables that `EB.DECODE` begins a block with. -/
def decodeReset (s : State) : State :=
  setSigValid true { setPtValid true { s with pt := ptInitial } with sig := .empty }

/-- `s` with what stays as it is after `EB.DECODE` has begun the block. -/
def decodeOpened (s : State) : State :=
  { s with
    rp0 := s.rp
    status := { s.status with
      mqMode := .decoding, ptValid := true, sigValid := true, decFail := none, ioFail := false } }

/-- `s` with what the passes of a decoding write as it is in `u`. -/
def decodeWritten (s u : State) : State :=
  { s with
    status := { s.status with planeLive := u.status.planeLive }
    coder := u.coder, pt := u.pt, sig := u.sig, curPlane := u.curPlane, coded := u.coded
    mem := u.mem, rp := u.rp, portCalls := u.portCalls, diverged := u.diverged
    freeBits := u.freeBits }

theorem ebDecode_eq {s t : State} (hg : geomOK s = true) (hm : s.status.mqMode = .idle)
    (h : mqdInit (decodeReset s) = .ok () t) :
    ebDecode s = (planeLoop .decode (t.D - 1) t.D >>= fun _ => mqdSkipEnd) t := by
  have geom : requireGeom s = .ok () s := if_pos hg
  have idle : requireIdle s = .ok () s := by rw [run_requireIdle, if_pos hm]
  have pt : ptReset s = .ok () (setPtValid true { s with pt := ptInitial }) := rfl
  have sig : sigReset (setPtValid true { s with pt := ptInitial }) = .ok () (decodeReset s) :=
    sigReset_ok hg
  rw [ebDecode, run_bind_ok geom, run_bind_ok idle, run_bind_ok pt, run_bind_ok sig,
    run_bind_ok h, run_bind_ok (run_getS t)]

/-! ### The marker of a block -/

/-- The first marker of the segment at RP, `k` bytes ahead (30_encoding.md R94). -/
structure FirstMarker (k : Nat) (s : State) : Prop where
  first : s.inp[s.rp + k]? = some 0xFF
  second : s.inp[s.rp + k + 1]? = some 0xA1
  earlier : ∀ j < k, ¬ (s.inp[s.rp + j]? = some 0xFF ∧ s.inp[s.rp + j + 1]? = some 0xA1)

/-- For the search the byte taken last is that of `IN` before RP. -/
theorem LastTaken.markerAt_iff {t : State} (h : LastTaken t) (j : Nat) :
    MarkerAt t j ↔ t.inp[t.rp + j - 1]? = some 0xFF ∧ t.inp[t.rp + j]? = some 0xA1 := by
  have before : byteBefore t j = t.inp[t.rp + j - 1]? := by
    unfold byteBefore
    split_ifs with hj
    · rw [hj, Nat.add_zero, h.2]
    · rfl
  rw [MarkerAt, before]

/-! ### The block between two operations -/

/-- Between two operations of `EB.DECODE` on `s`: the passes alone have written, no port fails, and the
marker, which stood `k` bytes ahead, is not passed. -/
structure DecodingBlock (s : State) (k : Nat) (t : State) : Prop where
  written : ∃ u, t = decodeWritten (decodeOpened s) u
  quiet : quietPorts t
  marker : MarkerFrom (s.rp + k + 1) t
  last : LastTaken t
  moved : s.rp + 1 ≤ t.rp

/-- The same with plane `i` live. -/
structure DecodingPlane (s : State) (k i : Nat) (t : State) : Prop extends DecodingBlock s k t where
  live : t.status.planeLive = true
  current : t.curPlane = BitVec.ofNat 5 i

section Opened

variable {s : State} {k : Nat} (hmark : FirstMarker k s)
include hmark

theorem FirstMarker.exists_bytes :
    ∃ b₀ b₁, s.inp[s.rp]? = some b₀ ∧ s.inp[s.rp + 1]? = some b₁ := by
  have hlen := (List.getElem?_eq_some_iff.mp hmark.second).1
  exact ⟨_, _, List.getElem?_eq_getElem (by omega), List.getElem?_eq_getElem (by omega)⟩

theorem FirstMarker.markerFrom_firstByte {b₀ : Byte} (h₀ : s.inp[s.rp]? = some b₀) :
    MarkerFrom (s.rp + k + 1) (firstByte b₀ (decodeReset s)) where
  reached := show s.rp + 1 ≤ s.rp + k + 1 by omega
  first := by
    show if s.rp + 1 = s.rp + k + 1 then b₀ = 0xFF else s.inp[s.rp + k + 1 - 1]? = some 0xFF
    split_ifs with hk
    · obtain rfl : k = 0 := by omega
      exact Option.some.inj (h₀.symm.trans hmark.first)
    · exact hmark.first
  second := ⟨0xA1, hmark.second, by decide⟩

/-- `MQD.INIT` of a block opens its session before the marker. -/
theorem FirstMarker.mqdInit_completes (hm : s.status.mqMode = .idle) (hq : quietPorts s) :
    Completes mqdInit (decodeReset s) fun _ t => DecodingBlock s k t ∧ t.sig = .empty := by
  obtain ⟨b₀, b₁, h₀, h₁⟩ := hmark.exists_bytes
  have F := feeds_secondByte (s := firstByte b₀ (decodeReset s)) h₁
  have run := (mqdInit_eq (s := decodeReset s) hm).trans (fillTwo_ok (s := decodeReset s) hq h₀ h₁)
  rw [sessionOpened] at run
  generalize secondByte b₁ (firstByte b₀ (decodeReset s)) = t at F run
  obtain ⟨u, rfl⟩ := F.written
  have hahead := F.marker _ (hmark.markerFrom_firstByte h₀)
  exact .of_ok run ⟨⟨⟨setMqMode .decoding (decoderWrites (firstByte b₀ (decodeReset s)) u), rfl⟩,
    F.quiet (quietPorts_firstByte (s := decodeReset s) hq b₀),
    hahead.of_eq rfl rfl rfl, F.last ⟨Nat.le_add_left .., h₀⟩, F.forward⟩, rfl⟩

end Opened

section Plane

variable {s t : State} {k i : Nat} (h : DecodingPlane s k i t)
include h

/-- What a decision takes leaves the marker ahead. -/
theorem DecodingPlane.feeds {t' : State} (F : Feeds t t') : DecodingPlane s k i t' := by
  obtain ⟨v, hv⟩ := F.written
  obtain ⟨⟨⟨u, hu⟩, hq, hmark, hlast, hmoved⟩, live, current⟩ := h
  refine ⟨⟨⟨decoderWrites u v, by rw [hv, hu]; rfl⟩, F.quiet hq, F.marker _ hmark, F.last hlast,
    hmoved.trans F.forward⟩, F.status_eq ▸ live, ?_⟩
  rw [hv]
  exact current

theorem DecodingPlane.setTables (sig : SigTable) (coded : Cells Bool) :
    DecodingPlane s k i { t with sig := sig, coded := coded } := by
  obtain ⟨⟨⟨u, rfl⟩, hq, hmark, hlast, hmoved⟩, live, current⟩ := h
  exact ⟨⟨⟨{ u with sig := sig, coded := coded }, rfl⟩, hq, hmark.of_eq rfl rfl rfl, hlast,
    hmoved⟩, live, current⟩

theorem DecodingPlane.setWord (a : Nat) (v : Word) : DecodingPlane s k i (setWord a v t) := by
  obtain ⟨⟨⟨u, rfl⟩, hq, hmark, hlast, hmoved⟩, live, current⟩ := h
  exact ⟨⟨⟨Machine.setWord a v u, rfl⟩, hq, hmark.of_eq rfl rfl rfl, hlast, hmoved⟩, live,
    current⟩

theorem DecodingPlane.mode : t.status.mqMode = .decoding := by
  obtain ⟨u, rfl⟩ := h.written
  rfl

/-- A decision of a decoding pass ends `ok`, for no byte is missing (44_mq_decoder.md R233). -/
theorem DecodingPlane.mqdDecode {ctx : Nat} (hctx : ctx ≤ 18) :
    Completes (mqdDecode ctx) t fun _ t' => DecodingPlane s k i t' ∧ SameTables t t' := by
  have valid : t.status.ptValid = true := by
    obtain ⟨u, rfl⟩ := h.written
    rfl
  have F := feeds_afterDecision ctx t
  exact .of_ok (mqdDecode_ok ⟨h.mode, valid, hctx⟩ h.quiet
    (.inr (markerAhead_iff.mpr ⟨_, h.marker⟩))).1 ⟨h.feeds F, F.sameTables⟩

end Plane

/-! ### The planes -/

section Block

variable {s : State} (hf : s.status.fault = false) (hg : geomOK s = true) {k : Nat}
include hf hg

theorem decodingPlane_pass {i : Nat} (hi : i < s.D) :
    PassInvariant .decode i s.H s.W (DecodingPlane s k i) where
  checked := by
    rintro _ ⟨⟨⟨u, rfl⟩, -, -, -, -⟩, live, current⟩
    have hD : s.D < 32 := s.cfg.d.isLt
    refine ⟨hf, hg, rfl, rfl, rfl, live, hi, ?_⟩
    rw [current, BitVec.toNat_ofNat, Nat.mod_eq_of_lt (by omega)]
  height := by
    rintro _ ⟨⟨⟨u, rfl⟩, -, -, -, -⟩, -, -⟩
    rfl
  width := by
    rintro _ ⟨⟨⟨u, rfl⟩, -, -, -, -⟩, -, -⟩
    rfl
  tables := fun sig coded h => h.setTables sig coded
  encode := nofun
  decode := fun _ _ _ h hctx => h.mqdDecode hctx
  store := fun _ _ a v h => h.setWord a v

theorem decodingBlock_invariant :
    BlockInvariant .decode s.D s.H s.W (DecodingBlock s k) (DecodingPlane s k) where
  pass := fun _ hi => decodingPlane_pass hf hg hi
  enter := by
    rintro i hi _ ⟨⟨u, rfl⟩, hq, hmark, hlast, hmoved⟩
    exact .of_ok (bpNewPlane_ok (s := decodeWritten (decodeOpened s) u) hg hi)
      ⟨⟨⟨⟨setPlaneLive true { u with curPlane := BitVec.ofNat 5 i, coded := [] }, rfl⟩,
        hq, hmark.of_eq rfl rfl rfl, hlast, hmoved⟩, rfl, rfl⟩, rfl⟩
  leave := fun _ _ h => h.toDecodingBlock

/-- `EB.DECODE` ends as `MQD.SKIPEND` does after its passes. -/
theorem exec_ebDecode (hm : s.status.mqMode = .idle) (hq : quietPorts s)
    (hmark : FirstMarker k s) : ∃ t, exec .ebDecode s = exec .mqdSkipEnd t ∧
      DecodingPlane s k 0 t ∧ ∀ r c, r < s.H → c < s.W → codedAt t r c = true := by
  have hD : 1 ≤ s.D := by
    simp only [geomOK, Bool.and_eq_true, decide_eq_true_eq] at hg
    omega
  obtain ⟨_, u, init, hu, hsig⟩ := hmark.mqdInit_completes hm hq
  have depth : u.D = s.D := by
    obtain ⟨v, rfl⟩ := hu.written
    rfl
  have planes := (decodingBlock_invariant hf hg).planeLoop (top := s.D - 1) (n := s.D - 1)
    (by omega) le_rfl hu fun _ _ _ => by rw [hsig]; rfl
  rw [Nat.sub_add_cancel hD] at planes
  obtain ⟨_, t, run, ht, hall⟩ := planes
  have hft : t.status.fault = false := ((decodingPlane_pass hf hg hD).checked ht).noFault
  have rest : ebDecode s = mqdSkipEnd t := by
    rw [ebDecode_eq hg hm init, depth, run_bind_ok run]
  refine ⟨t, ?_, ht, hall⟩
  rw [exec_eq_settle hf, exec_eq_settle hft]
  exact congrArg _ (settle_congr (by rw [opOf, opOf, run_bind, run_bind, rest]))

end Block

/-! ### The end of the block -/

/-- What `MQD.SKIPEND` leaves where the marker is `j` bytes ahead (44_mq_decoder.md R236). -/
def markerTaken (j : Nat) (t : State) : State :=
  { t with
    coder := { t.coder with t := 0xFF, l := t.coder.l + j + 1 }
    rp := t.rp + j + 1, portCalls := t.portCalls + 2 * j + 2
    status := { t.status with mqMode := .idle } }

/-- What `EB.DECODE` on `s` leaves just after the marker (45_pass_sequencer.md R267), with the
registers, tables and coefficients of `u`. -/
def decodeFinished (k : Nat) (s u : State) : State :=
  { s with
    status := { s.status with
      ptValid := true, sigValid := true, planeLive := true, decFail := none, ioFail := false }
    coder := u.coder, pt := u.pt, sig := u.sig, curPlane := 0, coded := u.coded, mem := u.mem
    rp0 := s.rp, rp := s.rp + k + 2, portCalls := u.portCalls, diverged := u.diverged
    freeBits := u.freeBits }

theorem DecodingPlane.markerTaken_eq {s t : State} {k : Nat} (h : DecodingPlane s k 0 t)
    (hm : s.status.mqMode = .idle) {j : Nat}
    (hj : t.rp + j = s.rp + k + 1) : markerTaken j t = decodeFinished k s (markerTaken j t) := by
  obtain ⟨⟨⟨u, rfl⟩, -, -, -, -⟩, live, current⟩ := h
  have live : u.status.planeLive = true := live
  have current : u.curPlane = 0 := current
  have hj : u.rp + j = s.rp + k + 1 := hj
  simp [markerTaken, decodeFinished, decodeWritten, decodeOpened, live, current, hj, hm]

/-- The search finds the block's marker, and none before it. -/
theorem DecodingPlane.marker_ahead {s t : State} {k i : Nat} (h : DecodingPlane s k i t)
    (hmark : FirstMarker k s) : ∃ j ≤ k, t.rp + j = s.rp + k + 1 ∧ MarkerAt t j ∧
    ∀ i < j, t.rp + i < t.inp.length ∧ ¬ MarkerAt t i := by
  have hreached := h.marker.reached
  have hmoved := h.moved
  have hinp : t.inp = s.inp := by
    obtain ⟨u, rfl⟩ := h.written
    rfl
  have hj : t.rp + (s.rp + k + 1 - t.rp) = s.rp + k + 1 := by omega
  have hlen := (List.getElem?_eq_some_iff.mp hmark.second).1
  refine ⟨s.rp + k + 1 - t.rp, by omega, hj, ?_, fun i hi => ⟨by rw [hinp]; omega, ?_⟩⟩
  · rw [h.last.markerAt_iff, hj, hinp]
    exact ⟨hmark.first, hmark.second⟩
  · rw [h.last.markerAt_iff, hinp]
    have := hmark.earlier (t.rp + i - 1 - s.rp) (by omega)
    rwa [show s.rp + (t.rp + i - 1 - s.rp) = t.rp + i - 1 by omega,
      show t.rp + i - 1 + 1 = t.rp + i by omega] at this

/-- Settles O51: the marker ahead keeps every decision supplied, so that the planes run to their end;
there the search finds the marker within the bytes before it, or is `GARBAGE` short of it. -/
theorem decodeBlockCompletes : Obligations.DecodeBlockCompletes := by
  intro s k hf hg hm hq marker hmk hearlier
  have hmark : FirstMarker k s := ⟨hmk.1, hmk.2, hearlier⟩
  obtain ⟨t, run, ht, hall⟩ := exec_ebDecode hf hg hm hq hmark
  obtain ⟨j, hjk, hj, hat, hno⟩ := ht.marker_ahead hmark
  have hft : t.status.fault = false := by
    obtain ⟨u, rfl⟩ := ht.written
    exact hf
  have hparams : t.params = s.params := by
    obtain ⟨u, rfl⟩ := ht.written
    rfl
  have found (htol : 8 * j + 2 ≤ max 2 t.params.codeValueBits) :
      exec .ebDecode s = okNext (BitVec.ofNat 32 (8 * j)) (markerTaken j t) := run.trans <|
    (skipEndFindsMarker t j hft ht.mode ht.quiet).1 (fun i hi => (hno i hi).2) hat htol
  refine ⟨?_, fun htol => ?_⟩
  · by_cases htol : 8 * j + 2 ≤ max 2 t.params.codeValueBits
    · exact ⟨_, found htol, hft, .inr ⟨⟨_, rfl⟩, congrArg (· + 1) hj, hall⟩⟩
    · have hlt : (max 2 t.params.codeValueBits - 2) / 8 < j := by omega
      obtain ⟨t', hr, hresp, -⟩ := (skipEndFindsMarker t ((max 2 t.params.codeValueBits - 2) / 8)
        hft ht.mode ht.quiet).2.1 (fun i hi => hno i (by omega)) (by omega) (by omega)
      obtain ⟨-, -, -, -, -, -, hft', -⟩ := (failureEndsSession .mqdSkipEnd t t' 2 hft hr).1 hresp
      exact ⟨t', run.trans hr, hft', .inl hresp⟩
  · have done := found (by rw [hparams]; omega)
    rw [ht.markerTaken_eq hm hj] at done
    exact ⟨markerTaken j t, j, hjk, done⟩

end Sys2Proof.Machine
end

section
/-! PROOF. Operations that look at the configuration, `STATUS`, the tables, the plane and `MEM`
alone, and write nothing else: they behave alike on states that agree on these. No command looks at
the response (30_encoding.md R100). -/

namespace Sys2Proof.Machine

open Sys2Proof.Safety

/-! ### Operations on the tables -/

/-- `t` with the configuration, `STATUS`, the tables, the plane and `MEM` of `s`. -/
def withTables (s t : State) : State :=
  { t with
    params := s.params, cfg := s.cfg, status := s.status, sig := s.sig, curPlane := s.curPlane
    coded := s.coded, mem := s.mem }

/-- A result whose state has its tables put into `t`. -/
def onTables {α : Type} (t : State) : EStateM.Result Raise State α → EStateM.Result Raise State α
  | .ok a u => .ok a (withTables u t)
  | .error e u => .error e (withTables u t)

/-- The operation reads and writes the tables only. -/
def Tabular (α : Type) (x : Op α) : Prop := ∀ s t, x (withTables s t) = onTables t (x s)

theorem tabular_closed : OpClosed Tabular where
  pure := fun _ _ _ => rfl
  bind := fun {α β x f} hx hf s t => by
    rw [run_bind, run_bind, hx s t]
    cases x s with
    | ok a u => exact hf a u t
    | error e u => rfl

theorem tabular_getS_bind {β : Type} {f : State → Op β} (hf : ∀ s t, f (withTables s t) = f s)
    (h : ∀ s, Tabular β (f s)) : Tabular β (getS >>= f) := fun s t => by
  change f (withTables s t) (withTables s t) = onTables t (f s s)
  rw [hf, h s s t]

theorem tabular_modS {f : State → State} (hf : ∀ s t, f (withTables s t) = withTables (f s) t) :
    Tabular Unit (modS f) := fun s t => by
  rw [run_modS, hf]
  rfl

theorem tabular_require (cond : Bool) (code : FaultCode) : Tabular Unit (require cond code) :=
  fun _ _ => by cases cond <;> rfl

/-- A check, an answer or a store that a function of the tables decides. -/
theorem tabular_check (f : State → Bool) (hf : ∀ s t, f (withTables s t) = f s)
    (code : FaultCode) : Tabular Unit (getS >>= fun s => require (f s) code) :=
  tabular_getS_bind (fun s t => by rw [hf]) fun _ => tabular_require _ _

theorem tabular_answer {α : Type} (f : State → α) (hf : ∀ s t, f (withTables s t) = f s) :
    Tabular α (getS >>= fun s => pure (f s)) :=
  tabular_getS_bind (fun s t => by rw [hf]) fun _ => tabular_closed.pure _

section Checks

theorem tabular_requireGeom : Tabular Unit requireGeom := tabular_check _ (fun _ _ => rfl) _

theorem tabular_requireIdle : Tabular Unit requireIdle := tabular_check _ (fun _ _ => rfl) _

theorem tabular_requireMode (m : MqMode) : Tabular Unit (requireMode m) :=
  tabular_check _ (fun _ _ => rfl) _

theorem tabular_requireCoord (r c : Nat) : Tabular Unit (requireCoord r c) :=
  tabular_check _ (fun _ _ => rfl) _

theorem tabular_requirePlane (i : Nat) : Tabular Unit (requirePlane i) :=
  tabular_check _ (fun _ _ => rfl) _

theorem tabular_requireStrip (r : Nat) : Tabular Unit (requireStrip r) :=
  tabular_check _ (fun _ _ => rfl) _

theorem tabular_requirePt (ctx : Nat) : Tabular Unit (requirePt ctx) :=
  tabular_getS_bind (fun _ _ => rfl) fun _ =>
    tabular_closed.bind (tabular_require _ _) fun _ => tabular_require _ _

theorem tabular_requireSig (r c : Nat) : Tabular Unit (requireSig r c) :=
  tabular_closed.bind tabular_requireGeom fun _ => tabular_getS_bind (fun _ _ => rfl) fun _ =>
    tabular_closed.bind (tabular_require _ _) fun _ => tabular_requireCoord r c

theorem tabular_requireBit (i r c : Nat) : Tabular Unit (requireBit i r c) :=
  tabular_closed.bind tabular_requireGeom fun _ =>
    tabular_closed.bind (tabular_requirePlane i) fun _ => tabular_requireCoord r c

theorem tabular_requireSign (r c : Nat) : Tabular Unit (requireSign r c) :=
  tabular_closed.bind tabular_requireGeom fun _ => tabular_requireCoord r c

theorem tabular_requireLive (i r c : Nat) : Tabular Unit (requireLive i r c) :=
  tabular_closed.bind tabular_requireGeom fun _ => tabular_getS_bind (fun _ _ => rfl) fun _ =>
    tabular_closed.bind (tabular_require _ _) fun _ =>
      tabular_closed.bind (tabular_requirePlane i) fun _ =>
        tabular_closed.bind (tabular_require _ _) fun _ => tabular_requireCoord r c

theorem tabular_requirePass (dir : Dir) (i : Nat) : Tabular Unit (requirePass dir i) :=
  tabular_closed.bind tabular_requireGeom fun _ =>
    tabular_closed.bind (tabular_requireMode _) fun _ => tabular_getS_bind (fun _ _ => rfl) fun _ =>
      tabular_closed.bind (tabular_require _ _) fun _ => tabular_require _ _

end Checks

section Units

theorem tabular_memRead (r c : Nat) : Tabular Word (memRead r c) :=
  tabular_closed.bind (tabular_requireCoord r c) fun _ => tabular_answer _ fun _ _ => rfl

theorem tabular_memWrite (r c : Nat) (v : Word) : Tabular Unit (memWrite r c v) :=
  tabular_closed.bind (tabular_requireCoord r c) fun _ => tabular_modS fun _ _ => rfl

theorem tabular_bpBitAt (i r c : Nat) : Tabular Bool (bpBitAt i r c) :=
  tabular_closed.bind (tabular_requireBit i r c) fun _ =>
    tabular_closed.bind (tabular_memRead r c) fun _ => tabular_closed.pure _

theorem tabular_bpSetBit (i r c : Nat) (b : Bool) : Tabular Unit (bpSetBit i r c b) :=
  tabular_closed.bind (tabular_requireBit i r c) fun _ =>
    tabular_closed.bind (tabular_memRead r c) fun _ => tabular_memWrite r c _

theorem tabular_bpSignAt (r c : Nat) : Tabular Bool (bpSignAt r c) :=
  tabular_closed.bind (tabular_requireSign r c) fun _ => tabular_getS_bind (fun _ _ => rfl) fun _ =>
    tabular_closed.bind (tabular_memRead r c) fun _ => tabular_closed.pure _

theorem tabular_bpSetSign (r c : Nat) (b : Bool) : Tabular Unit (bpSetSign r c b) :=
  tabular_closed.bind (tabular_requireSign r c) fun _ => tabular_getS_bind (fun _ _ => rfl) fun _ =>
    tabular_closed.bind (tabular_memRead r c) fun _ => tabular_memWrite r c _

theorem tabular_bpIsCoded (i r c : Nat) : Tabular Bool (bpIsCoded i r c) :=
  tabular_closed.bind (tabular_requireLive i r c) fun _ => tabular_answer _ fun _ _ => rfl

theorem tabular_bpMarkCoded (i r c : Nat) : Tabular Unit (bpMarkCoded i r c) :=
  tabular_closed.bind (tabular_requireLive i r c) fun _ => tabular_modS fun _ _ => rfl

theorem tabular_bpStripUnc (i r c : Nat) : Tabular Bool (bpStripUnc i r c) :=
  tabular_closed.bind (tabular_requireLive i r c) fun _ =>
    tabular_closed.bind (tabular_requireStrip r) fun _ => tabular_answer _ fun _ _ => rfl

theorem tabular_firstSetRow (i r c j n : Nat) :
    Tabular (Option Nat) (firstSetRow i r c j n) := by
  induction n generalizing j with
  | zero => exact tabular_closed.pure _
  | succ n ih =>
    exact tabular_closed.bind (tabular_memRead _ c) fun _ =>
      OpClosed.ite (tabular_closed.pure _) (ih (j + 1))

theorem tabular_bpStripFnz (i r c : Nat) : Tabular (Option Nat) (bpStripFnz i r c) :=
  tabular_closed.bind (tabular_requireBit i r c) fun _ =>
    tabular_closed.bind (tabular_requireStrip r) fun _ => tabular_firstSetRow i r c 0 4

theorem tabular_bpNewPlane (i : Nat) : Tabular Unit (bpNewPlane i) :=
  tabular_closed.bind tabular_requireGeom fun _ =>
    tabular_closed.bind (tabular_requirePlane i) fun _ => tabular_modS fun _ _ => rfl

theorem tabular_sigReset : Tabular Unit sigReset :=
  tabular_closed.bind tabular_requireGeom fun _ => tabular_modS fun _ _ => rfl

theorem tabular_sigIsSig (r c : Nat) : Tabular Bool (sigIsSig r c) :=
  tabular_closed.bind (tabular_requireSig r c) fun _ => tabular_answer _ fun _ _ => rfl

theorem tabular_sigSpCtx (r c : Nat) (sb : SubBand) : Tabular Nat (sigSpCtx r c sb) :=
  tabular_closed.bind (tabular_requireSig r c) fun _ => tabular_answer _ fun _ _ => rfl

theorem tabular_sigSignCtx (r c : Nat) : Tabular (Nat × Bool) (sigSignCtx r c) :=
  tabular_closed.bind (tabular_requireSig r c) fun _ => tabular_answer _ fun _ _ => rfl

theorem tabular_sigStripZ (sb : SubBand) (r c : Nat) : Tabular Bool (sigStripZ sb r c) :=
  tabular_closed.bind (tabular_requireSig r c) fun _ =>
    tabular_closed.bind (tabular_requireStrip r) fun _ => tabular_answer _ fun _ _ => rfl

theorem tabular_sigRefCtx (r c : Nat) : Tabular Nat (sigRefCtx r c) :=
  tabular_closed.bind (tabular_requireSig r c) fun _ => tabular_getS_bind (fun _ _ => rfl) fun _ =>
    OpClosed.ite
      (tabular_closed.bind (tabular_modS fun _ _ => rfl) fun _ => tabular_closed.pure _)
      (tabular_closed.pure _)

theorem tabular_sigSetSig (r c : Nat) (neg : Bool) : Tabular Unit (sigSetSig r c neg) :=
  tabular_closed.bind (tabular_requireSig r c) fun _ => tabular_getS_bind (fun _ _ => rfl) fun _ =>
    tabular_closed.bind (tabular_require _ _) fun _ => tabular_modS fun _ _ => rfl

end Units

/-- A property that sequencing keeps, that the operations on the tables have and that reading the
size of the block keeps: it holds of the passes if of the decisions. -/
theorem PassClosed.of_tabular {P : (α : Type) → Op α → Prop} {dir : Dir} (C : OpClosed P)
    (tables : ∀ {α : Type} {x : Op α}, Tabular α x → P α x)
    (block : ∀ {β : Type} {f : Nat → Nat → SubBand → Op β}, (∀ h w sb, P β (f h w sb)) →
      P β (getS >>= fun s => f s.H s.W s.cfg.sb))
    (hcode : dir = .encode → ∀ b ctx, P Unit (mqeCode b ctx))
    (hdecode : dir = .decode → ∀ ctx, P Bool (mqdDecode ctx)) : PassClosed dir P where
  toOpClosed := C
  block := block
  passOk := fun i => tables (tabular_requirePass dir i)
  newPlane := fun i => tables (tabular_bpNewPlane i)
  isSig := fun r c => tables (tabular_sigIsSig r c)
  spCtx := fun r c sb => tables (tabular_sigSpCtx r c sb)
  signCtx := fun r c => tables (tabular_sigSignCtx r c)
  refCtx := fun r c => tables (tabular_sigRefCtx r c)
  setSig := fun r c neg => tables (tabular_sigSetSig r c neg)
  stripZ := fun sb r c => tables (tabular_sigStripZ sb r c)
  isCoded := fun i r c => tables (tabular_bpIsCoded i r c)
  markCoded := fun i r c => tables (tabular_bpMarkCoded i r c)
  stripUnc := fun i r c => tables (tabular_bpStripUnc i r c)
  encode := fun h =>
    { mode := tables (tabular_requireMode _)
      label := fun ctx => tables (tabular_requirePt ctx)
      nbits := fun _ => tables (tabular_require _ _)
      bitAt := fun i r c => tables (tabular_bpBitAt i r c)
      signAt := fun r c => tables (tabular_bpSignAt r c)
      stripFnz := fun i r c => tables (tabular_bpStripFnz i r c)
      code := hcode h }
  decode := fun h =>
    { mode := tables (tabular_requireMode _)
      label := fun ctx => tables (tabular_requirePt ctx)
      nbits := fun _ => tables (tabular_require _ _)
      setBit := fun i r c b => tables (tabular_bpSetBit i r c b)
      setSign := fun r c b => tables (tabular_bpSetSign r c b)
      decode := hdecode h }

/-! ### Two states with the same tables -/

/-- Related states have the same tables, and stay related where both get the same new ones. -/
structure TablesAgree (R : State → State → Prop) : Prop where
  same : ∀ {s t}, R s t → t = withTables s t
  write : ∀ {s t} u, R s t → R (withTables u s) (withTables u t)

theorem TablesAgree.agrees {R : State → State → Prop} (K : TablesAgree R) {α : Type} {x : Op α}
    (hx : Tabular α x) : Agrees R x := fun s t h => by
  have hs : onTables s (x s) = x s := (hx s s).symm
  have ht : x t = onTables t (x s) := by rw [← hx s t, ← K.same h]
  rw [← hs, ht]
  cases x s with
  | ok a u => exact ⟨rfl, K.write u h⟩
  | error e u => exact ⟨rfl, K.write u h⟩

/-- Related states have a block of one size. -/
theorem TablesAgree.block_eq {R : State → State → Prop} (K : TablesAgree R) {s t : State}
    (h : R s t) : t.H = s.H ∧ t.W = s.W ∧ t.cfg.sb = s.cfg.sb ∧ t.status = s.status := by
  rw [K.same h]
  exact ⟨rfl, rfl, rfl, rfl⟩

/-! ### The response -/

theorem sameButResp_tables : TablesAgree SameButResp where
  same := by
    rintro s _ ⟨r, rfl⟩
    rfl
  write := by
    rintro s _ u ⟨r, rfl⟩
    exact ⟨r, rfl⟩

theorem agrees_mqdInit : Agrees SameButResp mqdInit :=
  .bind (sameButResp_tables.agrees tabular_requireIdle) fun _ =>
    .bind (agrees_modS fun _ _ => rfl) fun _ => .bind agrees_fillLSBs fun _ =>
      .bind (agrees_modS fun _ _ => rfl) fun _ => .bind agrees_fillLSBs fun _ =>
        .bind (agrees_modS fun _ _ => rfl) fun _ => .bind (agrees_modS fun _ _ => rfl) fun _ =>
          agrees_modS fun _ _ => rfl

theorem agrees_skipScan (fuel g : Nat) : Agrees SameButResp (skipScan fuel g) := by
  induction fuel generalizing g with
  | zero => exact .raise _
  | succ fuel ih =>
    refine .bind agrees_peekIn fun n => ?_
    cases n with
    | none => exact .raise _
    | some n =>
      exact agrees_getS_bind (fun _ _ => rfl) fun _ => .ite
        (.bind agrees_takeIn fun _ => .bind (agrees_modS fun _ _ => rfl) fun _ => .pure _)
        (.ite (.raise _) (.bind
          (.bind agrees_takeIn fun _ => agrees_modS fun _ _ => rfl) fun _ => ih _))

theorem agrees_mqdSkipEnd : Agrees SameButResp mqdSkipEnd :=
  .bind (sameButResp_encodeAgrees.requireMode _) fun _ => agrees_getS_bind (fun _ _ => rfl) fun _ =>
    .bind (agrees_skipScan _ _) fun _ => .bind (agrees_modS fun _ _ => rfl) fun _ => .pure _

theorem agrees_mqeMarkEnd : Agrees SameButResp mqeMarkEnd :=
  have K := sameButResp_encodeAgrees
  .bind (K.requireMode _) fun _ => .bind (K.putOut _) fun _ => .bind (K.putOut _) fun _ =>
    agrees_modS fun _ _ => rfl

theorem agrees_mqeInit : Agrees SameButResp mqeInit :=
  .bind (sameButResp_tables.agrees tabular_requireIdle) fun _ => agrees_modS fun _ _ => rfl

theorem agrees_pass (dir : Dir) : PassClosed dir fun α (x : Op α) => Agrees SameButResp x :=
  .of_tabular ⟨.pure, .bind⟩ sameButResp_tables.agrees
    (fun hf => agrees_getS_bind (fun _ _ => rfl) fun _ => hf _ _ _)
    (fun _ => sameButResp_encodeAgrees.mqeCode) fun _ => agrees_mqdDecode

theorem agrees_ebEncode : Agrees SameButResp ebEncode :=
  have K := sameButResp_tables
  .bind (K.agrees tabular_requireGeom) fun _ => .bind (K.agrees tabular_requireIdle) fun _ =>
    .bind (agrees_modS fun _ _ => rfl) fun _ => .bind (K.agrees tabular_sigReset) fun _ =>
      .bind agrees_mqeInit fun _ => agrees_getS_bind (fun _ _ => rfl) fun _ =>
        .bind ((agrees_pass .encode).planeLoop _ _) fun _ =>
          .bind sameButResp_encodeAgrees.mqeFlush fun _ => agrees_mqeMarkEnd

theorem agrees_ebDecode : Agrees SameButResp ebDecode :=
  have K := sameButResp_tables
  .bind (K.agrees tabular_requireGeom) fun _ => .bind (K.agrees tabular_requireIdle) fun _ =>
    .bind (agrees_modS fun _ _ => rfl) fun _ => .bind (K.agrees tabular_sigReset) fun _ =>
      .bind agrees_mqdInit fun _ => agrees_getS_bind (fun _ _ => rfl) fun _ =>
        .bind ((agrees_pass .decode).planeLoop _ _) fun _ => agrees_mqdSkipEnd

theorem agrees_cfgGet (reg : Nat) : Agrees SameButResp (cfgGet reg) :=
  agrees_getS_bind (fun _ _ => rfl) fun _ => .ite (.pure _) <| .ite (.pure _) <|
    .ite (.bind (.require _ _) fun _ => .pure _) <|
      .ite (.bind (.require _ _) fun _ => .pure _) <| .ite (.pure _) <| .ite (.pure _) <|
        .ite (.bind (.require _ _) fun _ => .pure _) (.raise _)

/-- No command's operation looks at the response. -/
theorem agrees_opOf (i : Instr) : Agrees SameButResp (opOf i) := by
  have K := sameButResp_tables
  have E := sameButResp_encodeAgrees
  have answer {α : Type} {x : Op α} {f : α → Word} (hx : Agrees SameButResp x) :
      Agrees SameButResp (do let a ← x; pure (f a)) := .bind hx fun _ => .pure _
  have table {α : Type} {x : Op α} {f : α → Word} (hx : Tabular α x) :
      Agrees SameButResp (do let a ← x; pure (f a)) := answer (K.agrees hx)
  have geometry (f : State → Nat) (hf : ∀ s t, f (withTables s t) = f s) :
      Tabular Nat (requireGeom >>= fun _ => getS >>= fun s => pure (f s)) :=
    tabular_closed.bind tabular_requireGeom fun _ => tabular_answer f hf
  cases i with
  | ptReset => exact answer (agrees_modS fun _ _ => rfl)
  | ptEst ctx =>
    exact answer (.bind (E.requirePt ctx) fun _ =>
      agrees_getS_bind (fun _ _ => rfl) fun _ => .pure _)
  | ptTrans ctx m sw => exact answer (E.ptTrans ctx m sw)
  | sigReset => exact table tabular_sigReset
  | sigIsSig r c => exact table (tabular_sigIsSig r c)
  | sigSpCtx r c sb => exact table (tabular_sigSpCtx r c sb)
  | sigSignCtx r c => exact table (tabular_sigSignCtx r c)
  | sigRefCtx r c => exact table (tabular_sigRefCtx r c)
  | sigSetSig r c neg => exact table (tabular_sigSetSig r c neg)
  | sigStripZ sb r c => exact table (tabular_sigStripZ sb r c)
  | bpNewPlane p => exact table (tabular_bpNewPlane p)
  | bpBitAt p r c => exact table (tabular_bpBitAt p r c)
  | bpSetBit p r c b => exact table (tabular_bpSetBit p r c b)
  | bpSignAt r c => exact table (tabular_bpSignAt r c)
  | bpSetSign r c b => exact table (tabular_bpSetSign r c b)
  | bpIsCoded p r c => exact table (tabular_bpIsCoded p r c)
  | bpMarkCoded p r c => exact table (tabular_bpMarkCoded p r c)
  | bpNFull => exact table (geometry (fun s => s.H / 4) fun _ _ => rfl)
  | bpLastH => exact table (geometry (fun s => s.H % 4) fun _ _ => rfl)
  | bpLastOff => exact table (geometry (fun s => s.H / 4 * 4) fun _ _ => rfl)
  | bpStripUnc p r c => exact table (tabular_bpStripUnc p r c)
  | bpStripFnz p r c => exact table (tabular_bpStripFnz p r c)
  | mqeInit => exact answer agrees_mqeInit
  | mqeCode b ctx => exact answer (E.mqeCode b ctx)
  | mqeCodeNum v n ctx => exact answer (E.mqeCodeNum v n ctx)
  | mqeFlush => exact answer E.mqeFlush
  | mqeMarkEnd => exact answer agrees_mqeMarkEnd
  | mqdInit => exact answer agrees_mqdInit
  | mqdDecode ctx => exact answer (agrees_mqdDecode ctx)
  | mqdDecodeNum n ctx => exact agrees_opOf_mqdDecodeNum n ctx
  | mqdSkipEnd => exact answer agrees_mqdSkipEnd
  | ebEncode => exact answer agrees_ebEncode
  | ebDecode => exact answer agrees_ebDecode
  | ebSigPass dir p => exact answer ((agrees_pass dir).sigPass p)
  | ebRefPass dir p => exact answer ((agrees_pass dir).refPass p)
  | ebCleanup dir p => exact answer ((agrees_pass dir).cleanup p)
  | cfgSet reg val =>
    exact answer (.bind (K.agrees tabular_requireIdle) fun _ => .bind (.require _ _) fun _ =>
      .bind (.require _ _) fun _ => agrees_modS fun _ _ => rfl)
  | cfgGet reg => exact agrees_cfgGet reg

/-- A command does the same whatever response stood there. -/
theorem settle_opOf_respond (i : Instr) (k : RespKind) (p : Word) (s : State) :
    settle (opOf i) (respond k p s) = settle (opOf i) s :=
  (settle_eq_of_alike (agrees_opOf i s _ ⟨_, rfl⟩)).symm

/-- No operation of a command writes `FAULT`. -/
theorem opOf_fault (i : Instr) (s : State) :
    (endState (opOf i s)).status.fault = s.status.fault :=
  have K : PartsKeep (footprint i) fun s t => t.status.fault = s.status.fault :=
    ⟨⟨fun _ => rfl, fun h k => k.trans h⟩, fun _ _ _ _ u => u.fault_eq⟩
  opOf_keeps K s

end Sys2Proof.Machine
end

section
/-! PROOF. A script of unit commands as one operation: it ends as its commands end, the first that
does not end `ok` ending it (60_exceptions.md R310). -/

namespace Sys2Proof.Machine

open Sys2Proof.Safety

/-- The operations of a script's commands, each chosen by what the ones before it answered. -/
def scriptOp : Script → Op Unit
  | .done => pure ()
  | .run i next => opOf i >>= fun p => scriptOp (next p.toNat)

theorem agrees_scriptOp (sc : Script) : Agrees SameButResp (scriptOp sc) := by
  induction sc with
  | done => exact .pure ()
  | run i next ih => exact .bind (agrees_opOf i) fun p => ih p.toNat

/-- What a command raised is in its response, which is not `ok`. -/
theorem takeRaise_resp_ne_ok (e : Raise) (s : State) :
    ∃ kind p, (takeRaise e s).resp = some ⟨kind, p⟩ ∧ kind ≠ .ok := by
  cases e <;> exact ⟨_, _, rfl, nofun⟩

/-- A script issued as commands is its operation run as a command with no result. -/
theorem runScript_eq_settle (sc : Script) {s : State} (hf : s.status.fault = false) :
    runScript sc s = settle (scriptOp sc >>= fun _ => pure 0) s := by
  induction sc generalizing s with
  | done => rfl
  | run i next ih =>
    have hexec := exec_eq_settle hf i
    have hfault := opOf_fault i s
    cases hr : opOf i s with
    | ok p u =>
      rw [hr] at hfault
      have hs : settle (opOf i) s = respond .ok p u := by rw [settle, hr]
      have rest : Agrees SameButResp (scriptOp (next p.toNat) >>= fun _ => pure (0 : Word)) :=
        .bind (agrees_scriptOp _) fun _ => .pure _
      have same := settle_eq_of_alike (rest u (respond .ok p u) ⟨_, rfl⟩)
      rw [runScript_ok (hs ▸ hexec) rfl, ih _ (s := respond .ok p u) (hfault.trans hf), ← same]
      exact settle_congr (by rw [scriptOp, bind_assoc, run_bind_ok hr])
    | error e u =>
      have hs : settle (opOf i) s = takeRaise e u := by rw [settle, hr]
      obtain ⟨kind, p, hresp, hk⟩ := takeRaise_resp_ne_ok e u
      rw [runScript_stop (hs ▸ hexec) hresp hk, settle, scriptOp,
        run_bind_error (run_bind_error hr)]

/-- One script for each element, each with an operation, is the loop of the operations. -/
theorem scriptOp_eachThen {α : Type} {one : α → Script → Script} {body : α → Op Unit}
    (h : ∀ x next, scriptOp (one x next) = body x >>= fun _ => scriptOp next) (xs : List α)
    (next : Script) :
    scriptOp (eachThen xs one next) = forEach xs body >>= fun _ => scriptOp next := by
  induction xs with
  | nil => rfl
  | cons x xs ih => rw [eachThen_cons, h, ih, forEach, bind_assoc]

/-! ### What the payloads say -/

theorem boolWord_toNat (b : Bool) : (boolWord b).toNat = boolNat b := by cases b <;> rfl

@[simp] theorem boolNat_true : boolNat true = 1 := rfl

@[simp] theorem boolNat_false : boolNat false = 0 := rfl

@[simp] theorem boolNat_beq_one (b : Bool) : (boolNat b == 1) = b := by cases b <;> rfl

theorem labelPayload_toNat {label : Nat} (h : label ≤ 18) : (labelPayload label).toNat = label :=
  Nat.mod_eq_of_lt (by omega)

/-- The label is in bits 4:0, the xor bit in bit 5 (30_encoding.md R100). -/
theorem signPayload_fields {label : Nat} (h : label ≤ 18) (x : Bool) :
    (signPayload label x).toNat % 32 = label ∧ ((signPayload label x).toNat / 32 == 1) = x := by
  have hn : (signPayload label x).toNat = label + boolNat x * 32 := by
    have := boolNat_le x
    exact Nat.mod_eq_of_lt (by omega)
  rw [hn]
  cases x <;> simp <;> omega

theorem fnzPayload_some {k : Nat} (h : k < 4) : (fnzPayload (some k)).toNat = 4 + k :=
  Nat.mod_eq_of_lt (by omega)

/-! ### What the unit operations answer -/

/-- Whenever the operation ends `ok`, its result has the property. -/
def Answers {α : Type} (B : α → Prop) (x : Op α) : Prop := ∀ s a t, x s = .ok a t → B a

theorem Answers.bind {α β : Type} {B : β → Prop} {x : Op α} {f : α → Op β}
    (h : ∀ a, Answers B (f a)) : Answers B (x >>= f) := fun s b t hr => by
  obtain ⟨a, u, -, hf⟩ := run_bind_eq_ok.mp hr
  exact h a u b t hf

theorem Answers.pure {α : Type} {B : α → Prop} {a : α} (h : B a) : Answers B (pure a : Op α) :=
  fun s b t hr => by
    cases hr
    exact h

theorem Answers.ite {α : Type} {B : α → Prop} {c : Prop} [Decidable c] {x y : Op α}
    (hx : Answers B x) (hy : Answers B y) : Answers B (if c then x else y) := by
  split <;> assumption

/-- What follows an operation need be the same for its answers only. -/
theorem Answers.bind_congr {α β : Type} {B : α → Prop} {x : Op α} {f g : α → Op β}
    (h : Answers B x) (hfg : ∀ a, B a → f a = g a) : x >>= f = x >>= g := by
  funext s
  rw [run_bind, run_bind]
  cases hx : x s with
  | ok a t => exact congrFun (hfg a (h s a t hx)) t
  | error e t => rfl

theorem answers_sigSpCtx (r c : Nat) (sb : SubBand) : Answers (· ≤ 18) (sigSpCtx r c sb) :=
  .bind fun _ => .bind fun _ => .pure (le_trans (labelAt_le ..) (by decide))

theorem answers_sigSignCtx (r c : Nat) : Answers (·.1 ≤ 18) (sigSignCtx r c) :=
  .bind fun _ => .bind fun _ => .pure (le_trans (signClass_label_le ..) (by decide))

theorem answers_sigRefCtx (r c : Nat) : Answers (· ≤ 18) (sigRefCtx r c) :=
  .bind fun _ => .bind fun _ => .ite (.bind fun _ => .pure (by split_ifs <;> decide))
    (.pure (by decide))

theorem answers_bpStripFnz (i r c : Nat) :
    Answers (fun f => ∀ k, f = some k → k < 4) (bpStripFnz i r c) := by
  have rows (j n : Nat) :
      Answers (fun f => ∀ k, f = some k → k < j + n) (firstSetRow i r c j n) := by
    induction n generalizing j with
    | zero => exact .pure nofun
    | succ n ih =>
      refine .bind fun _ => .ite (.pure fun k hk => ?_) fun s f t hr k hk => ?_
      · cases hk
        omega
      · have := ih (j + 1) s f t hr k hk
        omega
  refine .bind fun _ => .bind fun _ => ?_
  simpa using rows 0 4

theorem answers_mqdDecodeNum (n ctx : Nat) : Answers (· < 2 ^ n) (mqdDecodeNum n ctx) :=
  .bind fun _ => .bind fun _ => .bind fun _ => fun _ _ _ => decodeBits_lt

end Sys2Proof.Machine
end

section
/-! PROOF. The passes are their scripts (45_pass_sequencer.md R262 to R266, R268): step by step the
operation of the script is that of the pass, then the rest. -/

namespace Sys2Proof.Machine

open Sys2Proof.Safety

/-! ### The steps of a coefficient -/

/-- A command that answers a bool, and what its payload chooses. -/
theorem scriptOp_bool {i : Instr} {x : Op Bool} (h : opOf i = x >>= fun b => pure (boolWord b))
    (next : Nat → Script) :
    scriptOp (.run i next) = x >>= fun b => scriptOp (next (boolNat b)) := by
  simp only [scriptOp, h, bind_assoc, pure_bind, boolWord_toNat]

/-- A command with no result. -/
theorem scriptOp_unit {i : Instr} {x : Op Unit} (h : opOf i = x >>= fun _ => pure 0)
    (next : Script) : scriptOp (.run i fun _ => next) = x >>= fun _ => scriptOp next := by
  simp only [scriptOp, h, bind_assoc, pure_bind]

/-- A command that answers a label. -/
theorem scriptOp_label {i : Instr} {x : Op Nat} (h : opOf i = x >>= fun l => pure (labelPayload l))
    (hx : Answers (· ≤ 18) x) (next : Nat → Script) :
    scriptOp (.run i next) = x >>= fun l => scriptOp (next l) := by
  simp only [scriptOp, h, bind_assoc, pure_bind]
  exact hx.bind_congr fun l hl => by rw [labelPayload_toNat hl]

theorem doIf_bind {β : Type} (c : Prop) [Decidable c] (x : Op Unit) (f : Unit → Op β) :
    doIf c x >>= f = if c then x >>= f else f () := by
  unfold doIf
  split
  · rfl
  · rw [pure_bind]

/-- The magnitude step (45_pass_sequencer.md R268). -/
theorem scriptOp_magScript (dir : Dir) (i r c ctx : Nat) (next : Bool → Script) :
    scriptOp (magScript dir i r c ctx next)
      = magStep dir i r c ctx >>= fun b => scriptOp (next b) := by
  cases dir with
  | encode =>
    simp only [magScript, magStep, bind_assoc, pure_bind, scriptOp_bool (i := .bpBitAt i r c) rfl,
      scriptOp_unit (i := .mqeCode _ ctx) rfl, boolNat_beq_one]
  | decode =>
    simp only [magScript, magStep, bind_assoc, pure_bind, scriptOp_bool (i := .mqdDecode ctx) rfl,
      scriptOp_unit (i := .bpSetBit i r c _) rfl, boolNat_beq_one]

/-- The sign step (45_pass_sequencer.md R266). -/
theorem scriptOp_signScript (dir : Dir) (r c : Nat) (next : Script) :
    scriptOp (signScript dir r c next) = signStep dir r c >>= fun _ => scriptOp next := by
  simp only [signScript, signStep, scriptOp, opOf, bind_assoc, pure_bind]
  refine (answers_sigSignCtx r c).bind_congr fun ⟨label, x⟩ hl => ?_
  obtain ⟨hlabel, hx⟩ := signPayload_fields hl x
  rw [hlabel, hx]
  cases dir with
  | encode =>
    simp only [bind_assoc, scriptOp_bool (i := .bpSignAt r c) rfl,
      scriptOp_unit (i := .mqeCode _ label) rfl, scriptOp_unit (i := .sigSetSig r c _) rfl,
      boolNat_beq_one, Bool.bne_eq_xor]
  | decode =>
    simp only [bind_assoc, scriptOp_bool (i := .mqdDecode label) rfl,
      scriptOp_unit (i := .bpSetSign r c _) rfl, scriptOp_unit (i := .sigSetSig r c _) rfl,
      boolNat_beq_one, Bool.bne_eq_xor]

theorem scriptOp_coefficientScript (dir : Dir) (i r c ctx : Nat) (next : Script) :
    scriptOp (coefficientScript dir i r c ctx next)
      = codeCoefficient dir i r c ctx >>= fun _ => scriptOp next := by
  simp only [coefficientScript, codeCoefficient, scriptOp_magScript, bind_assoc, doIf_bind]
  refine bind_congr fun b => ?_
  cases b with
  | false =>
    simp only [Bool.false_eq_true, if_false, scriptOp_unit (i := .bpMarkCoded i r c) rfl]
  | true =>
    simp only [if_true, scriptOp_signScript, scriptOp_unit (i := .bpMarkCoded i r c) rfl,
      bind_assoc]

/-! ### The significance and the refinement pass -/

/-- `SigPass` (45_pass_sequencer.md R263). -/
theorem scriptOp_sigPassScript (dir : Dir) (i : Nat) (sb : SubBand) (h w : Nat) :
    scriptOp (sigPassScript dir i sb h w) = forEach (scanOrder h w) (sigVisit dir i sb) := by
  rw [sigPassScript, eachCoefficient_eq_scanOrder,
    scriptOp_eachThen (body := sigVisit dir i sb) fun p next => ?_]
  · exact bind_pure _
  simp only [sigVisit, bind_assoc, doIf_bind, scriptOp_bool (i := .sigIsSig p.1 p.2) rfl]
  refine bind_congr fun sg => ?_
  cases sg with
  | true => rfl
  | false =>
    simp only [boolNat_false, Nat.zero_ne_one, if_false, if_true,
      scriptOp_bool (i := .bpIsCoded i p.1 p.2) rfl]
    refine bind_congr fun cd => ?_
    cases cd with
    | true => rfl
    | false =>
      simp only [boolNat_false, Nat.zero_ne_one, if_false, if_true,
        scriptOp_label (i := .sigSpCtx p.1 p.2 sb) rfl (answers_sigSpCtx _ _ _)]
      refine bind_congr fun ctx => ?_
      rw [ite_not, apply_ite scriptOp, scriptOp_coefficientScript]
      rfl

/-- `RefPass` (45_pass_sequencer.md R264). -/
theorem scriptOp_refPassScript (dir : Dir) (i h w : Nat) :
    scriptOp (refPassScript dir i h w) = forEach (scanOrder h w) (refVisit dir i) := by
  rw [refPassScript, eachCoefficient_eq_scanOrder,
    scriptOp_eachThen (body := refVisit dir i) fun p next => ?_]
  · exact bind_pure _
  simp only [refVisit, bind_assoc, doIf_bind, scriptOp_bool (i := .sigIsSig p.1 p.2) rfl]
  refine bind_congr fun sg => ?_
  cases sg with
  | false => rfl
  | true =>
    simp only [boolNat_true, Nat.one_ne_zero, if_false, if_true,
      scriptOp_bool (i := .bpIsCoded i p.1 p.2) rfl]
    refine bind_congr fun cd => ?_
    cases cd with
    | true => rfl
    | false =>
      simp only [boolNat_false, Nat.zero_ne_one, if_false, if_true, scriptOp_magScript,
        scriptOp_label (i := .sigRefCtx p.1 p.2) rfl (answers_sigRefCtx _ _),
        scriptOp_unit (i := .bpMarkCoded i p.1 p.2) rfl]

/-! ### The cleanup pass -/

theorem forEach_map {α β : Type} (f : α → β) (xs : List α) (body : β → Op Unit) :
    forEach (xs.map f) body = forEach xs fun x => body (f x) := by
  induction xs with
  | nil => rfl
  | cons x xs ih => rw [List.map_cons, forEach, forEach, ih]

/-- The run-length decision and its pointer (45_pass_sequencer.md R265), and what each of the two
cases goes on with. -/
theorem scriptOp_runLengthScript (dir : Dir) (i r0 c : Nat) (found : Nat → Script)
    (absent : Script) :
    scriptOp (runLengthScript dir i r0 c found absent) = runLength dir i r0 c >>= fun
      | none => scriptOp absent
      | some k => scriptOp (found k) := by
  cases dir with
  | encode =>
    simp only [runLengthScript, runLength, scriptOp, opOf, bind_assoc, pure_bind]
    refine (answers_bpStripFnz i r0 c).bind_congr fun f hf => ?_
    cases f with
    | none => simp [fnzPayload, lblRunLength]
    | some k =>
      have hk := hf k rfl
      have hmod : (4 + k) % 4 = k := by omega
      have hne : (4 + k != 0) = true := by simp
      simp [fnzPayload_some hk, hmod, hne, scriptOp, opOf, lblRunLength, lblUniform]
  | decode =>
    simp only [runLengthScript, runLength, bind_assoc, scriptOp_bool (i := .mqdDecode 17) rfl,
      lblRunLength]
    refine bind_congr fun b => ?_
    cases b with
    | false => rfl
    | true =>
      simp only [boolNat_true, Nat.one_ne_zero, if_false, if_true, scriptOp, opOf, bind_assoc,
        pure_bind]
      refine (answers_mqdDecodeNum 2 18).bind_congr fun k hk => ?_
      have hn : (BitVec.ofNat 32 k).toNat = k := Nat.mod_eq_of_lt (by omega)
      rw [hn]

theorem scriptOp_markRows (i r0 c n : Nat) (next : Script) :
    scriptOp (eachThen (List.range n) (fun j next => .run (.bpMarkCoded i (r0 + j) c) fun _ => next)
      next) = (forEach (List.range n) fun j => bpMarkCoded i (r0 + j) c) >>= fun _ =>
        scriptOp next :=
  scriptOp_eachThen (fun _ _ => scriptOp_unit rfl _) _ _

/-- Rows of a column in the ordinary branch (45_pass_sequencer.md R265). -/
theorem scriptOp_cleanRows (dir : Dir) (i : Nat) (sb : SubBand) (r0 c : Nat) (xs : List Nat)
    (next : Script) :
    scriptOp (eachThen xs (fun j next =>
      .run (.bpIsCoded i (r0 + j) c) fun cd => if cd = 1 then next else
      .run (.sigSpCtx (r0 + j) c sb) fun ctx => coefficientScript dir i (r0 + j) c ctx next) next)
      = (forEach xs fun j => cleanVisit dir i sb (r0 + j) c) >>= fun _ => scriptOp next := by
  refine scriptOp_eachThen (body := fun j => cleanVisit dir i sb (r0 + j) c) (fun j next => ?_) _ _
  simp only [cleanVisit, bind_assoc, doIf_bind, scriptOp_bool (i := .bpIsCoded i (r0 + j) c) rfl]
  refine bind_congr fun cd => ?_
  cases cd with
  | true => rfl
  | false =>
    simp only [boolNat_false, Nat.zero_ne_one, if_false, if_true, scriptOp_coefficientScript,
      scriptOp_label (i := .sigSpCtx (r0 + j) c sb) rfl (answers_sigSpCtx _ _ _)]

/-- A strip column of the cleanup pass (45_pass_sequencer.md R265). -/
theorem scriptOp_cleanupColumnScript (dir : Dir) (i : Nat) (sb : SubBand) (r0 height c : Nat)
    (next : Script) :
    scriptOp (cleanupColumnScript dir i sb r0 height c next)
      = cleanColumn dir i sb r0 height (decide (height = 4)) c >>= fun _ => scriptOp next := by
  have rows := scriptOp_cleanRows dir i sb r0 c
  by_cases hh : height = 4
  · simp only [cleanupColumnScript, cleanColumn, runMode, hh, decide_true, if_true, bind_assoc,
      scriptOp_bool (i := .bpStripUnc i r0 c) rfl]
    refine bind_congr fun unc => ?_
    cases unc with
    | false => exact rows _ next
    | true =>
      simp only [boolNat_true, Nat.one_ne_zero, if_false, if_true,
        scriptOp_bool (i := .sigStripZ sb r0 c) rfl]
      refine bind_congr fun all => ?_
      cases all with
      | false => exact rows _ next
      | true =>
        simp only [boolNat_true, Nat.one_ne_zero, if_false, if_true, scriptOp_runLengthScript,
          bind_assoc]
        refine bind_congr fun f => ?_
        cases f with
        | none => exact scriptOp_markRows i r0 c 4 next
        | some k =>
          simp only [scriptOp_signScript, scriptOp_markRows, rows, bind_assoc]
  · simp only [cleanupColumnScript, cleanColumn, runMode, hh, decide_false, Bool.false_eq_true,
      if_false, pure_bind]
    exact rows _ next

/-- `Cleanup` (45_pass_sequencer.md R265). -/
theorem scriptOp_cleanupScript (dir : Dir) (i : Nat) (sb : SubBand) (h w : Nat) :
    scriptOp (cleanupScript dir i sb h w) = forEach (strips h) fun st =>
      forEach (List.range w) fun c => cleanColumn dir i sb st.1 st.2.1 st.2.2 c := by
  have columns (st : Nat × Nat) (next : Script) :
      scriptOp (eachThen (List.range w) (fun c => cleanupColumnScript dir i sb st.1 st.2 c) next)
        = (forEach (List.range w) fun c =>
          cleanColumn dir i sb st.1 st.2 (decide (st.2 = 4)) c) >>= fun _ => scriptOp next :=
    scriptOp_eachThen (fun c next => scriptOp_cleanupColumnScript dir i sb st.1 st.2 c next) _ _
  rw [cleanupScript, scriptOp_eachThen columns, strips_eq_stripRows, forEach_map]
  exact bind_pure _

end Sys2Proof.Machine
end

section
/-! PROOF. A block driven by hand (45_pass_sequencer.md R271): its expansion issued as commands,
each on the state the one before it left. -/

namespace Sys2Proof.Machine

open Sys2Proof.Safety

/-! ### The passes -/

theorem requirePass_of_checked {dir : Dir} {i : Nat} {s : State} (h : PassChecked dir i s) :
    requirePass dir i s = .ok () s := by
  obtain ⟨-, geom, mode, pt, sig, live, plane, current⟩ := h
  have mode : s.status.mqMode = dirMode dir := by cases dir <;> exact mode
  simp [run_requirePass, geom, mode, pt, sig, live, plane, ← current]

/-- A pass command whose operation is, after its checks, the operation of a script. -/
theorem exec_eq_runScript {i : Instr} {x : Op Unit} {sc : Script} {s : State}
    (hf : s.status.fault = false) (hop : opOf i = x >>= fun _ => pure 0)
    (hx : x s = scriptOp sc s) : exec i s = .next (runScript sc s) := by
  rw [exec_eq_settle hf, runScript_eq_settle sc hf]
  exact congrArg _ (settle_congr (by rw [hop, run_bind, run_bind, hx]))

section Pass

variable {dir : Dir} {i : Nat} {s : State} (h : PassChecked dir i s)
include h

theorem sigPass_eq_scriptOp :
    sigPass dir i s = scriptOp (sigPassScript dir i s.cfg.sb s.H s.W) s := by
  rw [sigPass, run_bind_ok (requirePass_of_checked h), run_bind_ok (run_getS s),
    scriptOp_sigPassScript]

theorem refPass_eq_scriptOp :
    refPass dir i s = scriptOp (refPassScript dir i s.H s.W) s := by
  rw [refPass, run_bind_ok (requirePass_of_checked h), run_bind_ok (run_getS s),
    scriptOp_refPassScript]

theorem cleanup_eq_scriptOp :
    cleanup dir i s = scriptOp (cleanupScript dir i s.cfg.sb s.H s.W) s := by
  rw [cleanup, run_bind_ok (requirePass_of_checked h), run_bind_ok (run_getS s),
    scriptOp_cleanupScript]

end Pass

/-! ### Commands in a row -/

theorem runAll_cons {i : Instr} {s : State} (hf : s.status.fault = false) (is : List Instr) :
    runAll (i :: is) s = runAll is (settle (opOf i) s) := by
  rw [runAll, exec_eq_settle hf]

/-- The first of the commands does not look at the response before it. -/
theorem runAll_respond {is : List Instr} (his : is ≠ []) {s : State}
    (hf : s.status.fault = false) (k : RespKind) (p : Word) :
    runAll is (respond k p s) = runAll is s := by
  cases is with
  | nil => exact absurd rfl his
  | cons i is => rw [runAll_cons hf, runAll_cons (s := respond k p s) hf, settle_opOf_respond]

/-- Where the operation ends `ok` these commands, issued before others, leave what it leaves. -/
def Issues (is : List Instr) {α : Type} (x : Op α) : Prop :=
  ∀ s a t, s.status.fault = false → x s = .ok a t →
    t.status.fault = false ∧ ∀ rest, rest ≠ [] → runAll (is ++ rest) s = runAll rest t

theorem Issues.command {α : Type} {i : Instr} {x : Op α} {f : α → Word}
    (h : opOf i = x >>= fun a => pure (f a)) : Issues [i] x := fun s a t hf hx => by
  have hop : opOf i s = .ok (f a) t := by rw [h, run_bind_ok hx, run_pure]
  have hft : t.status.fault = s.status.fault := by
    have := opOf_fault i s
    rwa [hop] at this
  have hs : settle (opOf i) s = respond .ok (f a) t := by rw [settle, hop]
  refine ⟨hft.trans hf, fun rest hrest => ?_⟩
  rw [List.singleton_append, runAll_cons hf, hs, runAll_respond hrest (hft.trans hf)]

theorem Issues.pure {α : Type} (a : α) : Issues [] (pure a : Op α) := fun s b t hf hx => by
  cases hx
  exact ⟨hf, fun _ _ => rfl⟩

/-- What only reads needs no command. -/
theorem Issues.check {α : Type} {x : Op α} (hx : ReadsOnly x) : Issues [] x := fun s a t hf hr => by
  obtain rfl := Keeps.of_ok hx hr
  exact ⟨hf, fun _ _ => rfl⟩

theorem Issues.bind {α β : Type} {is js : List Instr} {x : Op α} {y : Op β} (hx : Issues is x)
    (hy : Issues js y) : Issues (is ++ js) (x >>= fun _ => y) := fun s b t hf hr => by
  obtain ⟨a, u, hxs, hyu⟩ := run_bind_eq_ok.mp hr
  obtain ⟨hfu, runx⟩ := hx s a u hf hxs
  obtain ⟨hft, runy⟩ := hy u b t hfu hyu
  refine ⟨hft, fun rest hrest => ?_⟩
  rw [List.append_assoc, runx _ (List.append_ne_nil_of_right_ne_nil _ hrest), runy rest hrest]

/-- The commands of one plane (45_pass_sequencer.md R261). -/
theorem issues_planePasses (dir : Dir) {d : Nat} (hd : 1 ≤ d) (i : Nat) :
    Issues ((.bpNewPlane i :: if i + 1 = d then [] else [.ebSigPass dir i, .ebRefPass dir i])
      ++ [.ebCleanup dir i]) (planePasses dir (d - 1) i) := by
  have enter : Issues [.bpNewPlane i] (bpNewPlane i) := .command rfl
  have passes : Issues (if i + 1 = d then [] else [.ebSigPass dir i, .ebRefPass dir i])
      (doIf (i ≠ d - 1) (do sigPass dir i; refPass dir i)) := by
    by_cases hi : i + 1 = d
    · rw [if_pos hi, doIf, if_neg (by omega)]
      exact .pure ()
    · rw [if_neg hi, doIf, if_pos (by omega)]
      exact .bind (is := [.ebSigPass dir i]) (.command rfl) (.command rfl)
  have rest := passes.bind (Issues.command (i := .ebCleanup dir i) rfl)
  exact enter.bind rest

/-- The commands of the planes below `n`, the highest first (45_pass_sequencer.md R261). -/
theorem issues_planeLoop (dir : Dir) {d n : Nat} (hn : n ≤ d) :
    Issues ((List.range n).reverse.flatMap fun i =>
      (.bpNewPlane i :: if i + 1 = d then [] else [.ebSigPass dir i, .ebRefPass dir i])
        ++ [.ebCleanup dir i]) (planeLoop dir (d - 1) n) := by
  induction n with
  | zero => exact .pure ()
  | succ n ih =>
    rw [List.range_succ, List.reverse_append, List.reverse_singleton, List.singleton_append,
      List.flatMap_cons]
    exact (issues_planePasses dir (by omega) n).bind (ih (by omega))

/-! ### The block operations -/

/-- How a block operation begins (45_pass_sequencer.md R260, R267), `init` opening its session. -/
def openBlock (init : Op Unit) : Op Unit := do
  requireGeom
  requireIdle
  ptReset
  sigReset
  init

/-- The two block operations, which open and finish the session of their direction. -/
def blockOp {α : Type} (dir : Dir) (init : Op Unit) (finish : Op α) : Op α := do
  openBlock init
  let s ← getS
  planeLoop dir (s.D - 1) s.D
  finish

theorem ebEncode_eq_blockOp :
    ebEncode = blockOp .encode mqeInit (mqeFlush >>= fun _ => mqeMarkEnd) := by
  simp only [ebEncode, blockOp, openBlock, bind_assoc]

theorem ebDecode_eq_blockOp : ebDecode = blockOp .decode mqdInit mqdSkipEnd := by
  simp only [ebDecode, blockOp, openBlock, bind_assoc]

theorem updates_keep_cfg {ks : List Part} (h : ∀ k ∈ ks, k ∉ [Part.config]) :
    PartsKeep ks fun s t => t.cfg = s.cfg :=
  ⟨⟨fun _ => rfl, fun h k => k.trans h⟩, fun k hk _ _ u => u.cfg_eq (h k hk)⟩

theorem keepsCfg_openBlock {init : Op Unit} (hinit : Keeps (fun s t => t.cfg = s.cfg) init) :
    Keeps (fun s t => t.cfg = s.cfg) (openBlock init) :=
  have K : PartsKeep [.probability, .sigReset] fun s t => t.cfg = s.cfg :=
    updates_keep_cfg (by decide)
  .bind K.toChains (K.readsOnly requireGeom_readsOnly) fun _ =>
    .bind K.toChains (K.readsOnly requireIdle_readsOnly) fun _ =>
      .bind K.toChains (K.mono (by decide)).ptReset fun _ =>
        .bind K.toChains (K.mono (by decide)).sigReset fun _ => hinit

section Block

variable {init : Op Unit} {i : Instr} (hi : opOf i = init >>= fun _ => pure 0)
include hi

theorem issues_openBlock : Issues [.ptReset, .sigReset, i] (openBlock init) := by
  have session : Issues ([.sigReset] ++ [i]) (sigReset >>= fun _ => init) :=
    .bind (.command rfl) (.command hi)
  have tables : Issues ([.ptReset] ++ _) (ptReset >>= fun _ => sigReset >>= fun _ => init) :=
    .bind (.command rfl) session
  exact (Issues.check requireGeom_readsOnly).bind
    ((Issues.check requireIdle_readsOnly).bind tables)

/-- Where a block operation ends `ok` its expansion reaches the state in which it finishes. -/
theorem runAll_blockOp (hinit : Keeps (fun s t => t.cfg = s.cfg) init) {α : Type} {dir : Dir}
    {finish : Op α} {s t : State} {a : α} (hf : s.status.fault = false)
    (h : blockOp dir init finish s = .ok a t) : ∃ u, u.status.fault = false ∧ finish u = .ok a t ∧
      ∀ rest, rest ≠ [] →
        runAll ([.ptReset, .sigReset, i] ++ planeCommands dir s.D ++ rest) s = runAll rest u := by
  obtain ⟨_, v, hopen, h⟩ := run_bind_eq_ok.mp h
  rw [run_bind_ok (run_getS v)] at h
  obtain ⟨_, u, hplanes, hfinish⟩ := run_bind_eq_ok.mp h
  have hcfg : v.cfg = s.cfg := (keepsCfg_openBlock hinit).of_ok hopen
  have depth : v.D = s.D := by rw [State.D, hcfg, State.D]
  rw [depth] at hplanes
  obtain ⟨hfu, run⟩ := ((issues_openBlock hi).bind (issues_planeLoop dir le_rfl)) s () u hf
    ((run_bind_ok hopen).trans hplanes)
  exact ⟨u, hfu, hfinish, run⟩

end Block

/-- A command that ends `ok` is the answer of an operation that does. -/
theorem settle_endsOk {op : Op Word} {s : State} (h : endsOk (settle op s)) :
    ∃ p t, op s = .ok p t := by
  unfold settle at h
  cases hr : op s with
  | ok p t => exact ⟨p, t, rfl⟩
  | error e t =>
    rw [hr] at h
    exact absurd h (not_endsOk_takeRaise e t)

/-- The last command of a block answers what the block operation does. -/
theorem settle_eq_of_finish {α : Type} {i j : Instr} {x y : Op α} {f : α → Word} {s u t : State}
    {a : α} (hi : opOf i = x >>= fun a => pure (f a)) (hj : opOf j = y >>= fun a => pure (f a))
    (hx : x s = .ok a t) (hy : y u = .ok a t) : settle (opOf j) u = settle (opOf i) s :=
  settle_congr (by rw [hi, hj, run_bind_ok hx, run_bind_ok hy])

theorem runAll_encodeCommands {s : State} (hf : s.status.fault = false)
    (h : endsOk (settle (opOf .ebEncode) s)) :
    runAll (encodeCommands s.D) s = settle (opOf .ebEncode) s := by
  obtain ⟨p, t, hop⟩ := settle_endsOk h
  obtain ⟨a, t, hblock, -⟩ := run_bind_eq_ok.mp hop
  obtain ⟨u, hfu, hfinish, run⟩ := runAll_blockOp (i := .mqeInit) rfl
    (updates_keep_cfg (by decide)).mqeInit hf (ebEncode_eq_blockOp ▸ hblock)
  obtain ⟨_, v, hflush, hmark⟩ := run_bind_eq_ok.mp hfinish
  have flush : Issues [.mqeFlush] mqeFlush := .command rfl
  obtain ⟨hfv, runFlush⟩ := flush u () v hfu hflush
  calc runAll (encodeCommands s.D) s = runAll ([.mqeFlush] ++ [.mqeMarkEnd]) u :=
        run _ (by simp)
    _ = settle (opOf .mqeMarkEnd) v := by rw [runFlush _ (by simp), runAll_cons hfv, runAll]
    _ = settle (opOf .ebEncode) s := settle_eq_of_finish (f := fun _ => 0) rfl rfl hblock hmark

theorem runAll_decodeCommands {s : State} (hf : s.status.fault = false)
    (h : endsOk (settle (opOf .ebDecode) s)) :
    runAll (decodeCommands s.D) s = settle (opOf .ebDecode) s := by
  obtain ⟨p, t, hop⟩ := settle_endsOk h
  obtain ⟨a, t, hblock, -⟩ := run_bind_eq_ok.mp hop
  obtain ⟨u, hfu, hfinish, run⟩ := runAll_blockOp (i := .mqdInit) rfl
    (updates_keep_cfg (by decide)).mqdInit hf (ebDecode_eq_blockOp ▸ hblock)
  calc runAll (decodeCommands s.D) s = runAll [.mqdSkipEnd] u := run _ (by simp)
    _ = settle (opOf .mqdSkipEnd) u := by rw [runAll_cons hfu, runAll]
    _ = settle (opOf .ebDecode) s := settle_eq_of_finish (f := fun g => BitVec.ofNat 32 g) rfl rfl
        hblock hfinish

/-- Settles O53: no command looks at the response, so commands in a row are their operations in a
row, and those of a pass's script are the pass. -/
theorem handDrivenBlockIsTheSame : Obligations.HandDrivenBlockIsTheSame := by
  refine ⟨fun s t hf hok => ⟨fun h => ?_, fun h => ?_⟩, fun dir i s h =>
    ⟨exec_eq_runScript h.noFault rfl (sigPass_eq_scriptOp h),
      exec_eq_runScript h.noFault rfl (refPass_eq_scriptOp h),
      exec_eq_runScript h.noFault rfl (cleanup_eq_scriptOp h)⟩⟩
  · obtain rfl := exec_of_noFault hf h
    exact runAll_encodeCommands hf hok
  · obtain rfl := exec_of_noFault hf h
    exact runAll_decodeCommands hf hok

end Sys2Proof.Machine
end

section
/-! PROOF. The commands of a pass (45_pass_sequencer.md R263 to R266): all on positions of the block
and labels of the table; the refinement pass alone asks for its label and makes nothing significant.
-/

namespace Sys2Proof.Machine

open Sys2Proof.Safety

/-! ### The commands of a script -/

/-- A payload that the command can answer with, where what follows relies on it. -/
def answerFits : Instr → Nat → Prop
  | .sigSpCtx .., n => n ≤ 18
  | .sigRefCtx .., n => n ≤ 18
  | .sigSignCtx .., n => n % 32 ≤ 18
  | .mqdDecodeNum k _, n => n < 2 ^ k
  | _, _ => True

theorem answers_command {α : Type} {B : α → Prop} {x : Op α} (h : Answers B x) {f : α → Word}
    {P : Nat → Prop} (hf : ∀ a, B a → P (f a).toNat) {s t : State} {p : Word}
    (hr : (x >>= fun a => pure (f a)) s = .ok p t) : P p.toNat := by
  obtain ⟨a, u, hx, hp⟩ := run_bind_eq_ok.mp hr
  cases hp
  exact hf a (h s a _ hx)

theorem answerFits_of_ok {i : Instr} {s t : State} {p : Word} (h : opOf i s = .ok p t) :
    answerFits i p.toNat := by
  cases i with
  | sigSpCtx r c sb =>
    exact answers_command (answers_sigSpCtx r c sb) (P := (· ≤ 18))
      (fun _ hl => (labelPayload_toNat hl).trans_le hl) h
  | sigRefCtx r c =>
    exact answers_command (answers_sigRefCtx r c) (P := (· ≤ 18))
      (fun _ hl => (labelPayload_toNat hl).trans_le hl) h
  | sigSignCtx r c =>
    exact answers_command (answers_sigSignCtx r c) (P := (· % 32 ≤ 18))
      (fun a ha => (signPayload_fields ha a.2).1.trans_le ha) h
  | mqdDecodeNum n ctx =>
    exact answers_command (answers_mqdDecodeNum n ctx) (P := (· < 2 ^ n))
      (fun _ hv => (Nat.mod_le ..).trans_lt hv) h
  | _ => trivial

/-- Whatever they answer, the commands of the script are of the kind `ok`. -/
inductive IssuesOnly (ok : Instr → Prop) : Script → Prop
  | done : IssuesOnly ok .done
  | run {i : Instr} {next : Nat → Script} : ok i →
      (∀ n, answerFits i n → IssuesOnly ok (next n)) → IssuesOnly ok (.run i next)

theorem IssuesOnly.ite {ok : Instr → Prop} {c : Prop} [Decidable c] {x y : Script}
    (hx : IssuesOnly ok x) (hy : IssuesOnly ok y) : IssuesOnly ok (if c then x else y) := by
  split <;> assumption

theorem IssuesOnly.eachThen {ok : Instr → Prop} {α : Type} {xs : List α}
    {one : α → Script → Script} {next : Script}
    (h : ∀ x ∈ xs, ∀ next, IssuesOnly ok next → IssuesOnly ok (one x next))
    (hn : IssuesOnly ok next) : IssuesOnly ok (eachThen xs one next) := by
  induction xs with
  | nil => exact hn
  | cons x xs ih => exact h x (by simp) _ (ih fun y hy => h y (by simp [hy]))

/-- What every command of the kind keeps, the script keeps. -/
theorem IssuesOnly.keeps {ok : Instr → Prop} {R : State → State → Prop} (hR : Chains R)
    (hok : ∀ i, ok i → Keeps R (opOf i)) {sc : Script} (h : IssuesOnly ok sc) :
    Keeps R (scriptOp sc) := by
  induction h with
  | done => exact .pure hR _
  | @run i next hi _ ih =>
    intro s
    have hop := hok i hi s
    rw [scriptOp, run_bind]
    cases hr : opOf i s with
    | ok p t =>
      rw [hr] at hop
      exact hR.trans hop (ih p.toNat (answerFits_of_ok hr) t)
    | error e t =>
      rw [hr] at hop
      exact hop

/-! ### The commands of the three passes -/

/-- The commands a pass over plane `i` of a block of `h` rows and `w` columns issues; `refining` is
the refinement pass. -/
inductive PassCommand (dir : Dir) (i h w : Nat) (refining : Bool) : Instr → Prop
  | isSig {r c} : r < h → c < w → PassCommand dir i h w refining (.sigIsSig r c)
  | spCtx {r c} (sb) : r < h → c < w → PassCommand dir i h w refining (.sigSpCtx r c sb)
  | signCtx {r c} : r < h → c < w → PassCommand dir i h w refining (.sigSignCtx r c)
  | stripZ {r c} (sb) : r + 3 < h → c < w → PassCommand dir i h w refining (.sigStripZ sb r c)
  | refCtx {r c} : refining = true → r < h → c < w →
      PassCommand dir i h w refining (.sigRefCtx r c)
  | setSig {r c} (neg) : refining = false → r < h → c < w →
      PassCommand dir i h w refining (.sigSetSig r c neg)
  | isCoded {r c} : r < h → c < w → PassCommand dir i h w refining (.bpIsCoded i r c)
  | markCoded {r c} : r < h → c < w → PassCommand dir i h w refining (.bpMarkCoded i r c)
  | stripUnc {r c} : r + 3 < h → c < w → PassCommand dir i h w refining (.bpStripUnc i r c)
  | bitAt {r c} : r < h → c < w → PassCommand dir i h w refining (.bpBitAt i r c)
  | signAt {r c} : r < h → c < w → PassCommand dir i h w refining (.bpSignAt r c)
  | stripFnz {r c} : r + 3 < h → c < w → PassCommand dir i h w refining (.bpStripFnz i r c)
  | code {ctx} (b) : dir = .encode → ctx ≤ 18 → PassCommand dir i h w refining (.mqeCode b ctx)
  | codeNum {n ctx} (v) : dir = .encode → n ≤ 16 → ctx ≤ 18 →
      PassCommand dir i h w refining (.mqeCodeNum v n ctx)
  | setBit {r c} (b) : dir = .decode → r < h → c < w →
      PassCommand dir i h w refining (.bpSetBit i r c b)
  | setSign {r c} (b) : dir = .decode → r < h → c < w →
      PassCommand dir i h w refining (.bpSetSign r c b)
  | decode {ctx} : dir = .decode → ctx ≤ 18 → PassCommand dir i h w refining (.mqdDecode ctx)
  | decodeNum {n ctx} : dir = .decode → n ≤ 16 → ctx ≤ 18 →
      PassCommand dir i h w refining (.mqdDecodeNum n ctx)

section Scripts

variable {dir : Dir} {i h w : Nat}

theorem issuesOnly_eachCoefficient {ok : Instr → Prop} {visit : Nat → Nat → Script → Script}
    (hv : ∀ {r c next}, r < h → c < w → IssuesOnly ok next → IssuesOnly ok (visit r c next)) :
    IssuesOnly ok (eachCoefficient h w visit) := by
  rw [eachCoefficient_eq_scanOrder]
  refine .eachThen (fun p hp next hn => ?_) .done
  obtain ⟨hr, hc⟩ := mem_scanOrder.mp hp
  exact hv hr hc hn

section Position

variable {refining : Bool} {r c : Nat} (hr : r < h) (hc : c < w)
include hr hc

theorem issuesOnly_magScript {ctx : Nat} (hctx : ctx ≤ 18) {next : Bool → Script}
    (hn : ∀ b, IssuesOnly (PassCommand dir i h w refining) (next b)) :
    IssuesOnly (PassCommand dir i h w refining) (magScript dir i r c ctx next) := by
  cases dir with
  | encode => exact .run (.bitAt hr hc) fun _ _ => .run (.code _ rfl hctx) fun _ _ => hn _
  | decode => exact .run (.decode rfl hctx) fun _ _ => .run (.setBit _ rfl hr hc) fun _ _ => hn _

variable {next : Script} (hn : IssuesOnly (PassCommand dir i h w false) next)
include hn

theorem issuesOnly_signScript :
    IssuesOnly (PassCommand dir i h w false) (signScript dir r c next) := by
  refine .run (.signCtx hr hc) fun answer hl => ?_
  cases dir with
  | encode =>
    exact .run (.signAt hr hc) fun _ _ => .run (.code _ rfl hl) fun _ _ =>
      .run (.setSig _ rfl hr hc) fun _ _ => hn
  | decode =>
    exact .run (.decode rfl hl) fun _ _ => .run (.setSign _ rfl hr hc) fun _ _ =>
      .run (.setSig _ rfl hr hc) fun _ _ => hn

theorem issuesOnly_coefficientScript {ctx : Nat} (hctx : ctx ≤ 18) :
    IssuesOnly (PassCommand dir i h w false) (coefficientScript dir i r c ctx next) := by
  have mark : IssuesOnly (PassCommand dir i h w false) (.run (.bpMarkCoded i r c) fun _ => next) :=
    .run (.markCoded hr hc) fun _ _ => hn
  unfold coefficientScript
  refine issuesOnly_magScript hr hc hctx fun b => ?_
  exact .ite (issuesOnly_signScript hr hc mark) mark

end Position

variable (dir i h w) (sb : SubBand)

theorem issuesOnly_sigPassScript :
    IssuesOnly (PassCommand dir i h w false) (sigPassScript dir i sb h w) :=
  issuesOnly_eachCoefficient fun hr hc hn => .run (.isSig hr hc) fun _ _ => .ite hn <|
    .run (.isCoded hr hc) fun _ _ => .ite hn <| .run (.spCtx sb hr hc) fun _ hctx => .ite hn <|
      issuesOnly_coefficientScript hr hc hn hctx

theorem issuesOnly_refPassScript :
    IssuesOnly (PassCommand dir i h w true) (refPassScript dir i h w) :=
  issuesOnly_eachCoefficient fun hr hc hn => .run (.isSig hr hc) fun _ _ => .ite hn <|
    .run (.isCoded hr hc) fun _ _ => .ite hn <| .run (.refCtx rfl hr hc) fun _ hctx =>
      issuesOnly_magScript hr hc hctx fun _ => .run (.markCoded hr hc) fun _ _ => hn

variable {dir i h w}

section Column

variable {r0 c : Nat} (hc : c < w) {next : Script}
  (hn : IssuesOnly (PassCommand dir i h w false) next)
include hc hn

theorem issuesOnly_runLengthScript (hr : r0 + 3 < h) {found : Nat → Script}
    (hf : ∀ k < 4, IssuesOnly (PassCommand dir i h w false) (found k)) :
    IssuesOnly (PassCommand dir i h w false) (runLengthScript dir i r0 c found next) := by
  cases dir with
  | encode =>
    exact .run (.stripFnz hr hc) fun f _ => .run (.code _ rfl (by decide)) fun _ _ => .ite hn <|
      .run (.codeNum _ rfl (by decide) (by decide)) fun _ _ => hf _ (Nat.mod_lt _ (by decide))
  | decode =>
    refine .run (.decode rfl (by decide)) fun _ _ => .ite hn <|
      .run (.decodeNum rfl (by decide) (by decide)) fun k (hk : k < 4) => ?_
    exact .run (.setBit _ rfl (by omega) hc) fun _ _ => hf k hk

theorem issuesOnly_cleanupColumnScript {height : Nat} (hr : r0 + height ≤ h) :
    IssuesOnly (PassCommand dir i h w false) (cleanupColumnScript dir i sb r0 height c next) := by
  have mark {n : Nat} (hle : n ≤ height) {next : Script}
      (hn : IssuesOnly (PassCommand dir i h w false) next) :
      IssuesOnly (PassCommand dir i h w false) (eachThen (List.range n) (fun j next =>
        .run (.bpMarkCoded i (r0 + j) c) fun _ => next) next) := by
    refine .eachThen (fun j hj _ hn => .run (.markCoded ?_ hc) fun _ _ => hn) hn
    have := List.mem_range.mp hj
    omega
  have rows (start : Nat) : IssuesOnly (PassCommand dir i h w false)
      (eachThen ((List.range height).drop start) (fun j next =>
        .run (.bpIsCoded i (r0 + j) c) fun cd => if cd = 1 then next else
        .run (.sigSpCtx (r0 + j) c sb) fun ctx =>
          coefficientScript dir i (r0 + j) c ctx next) next) := by
    refine .eachThen (fun j hj _ hn => ?_) hn
    have hr : r0 + j < h := by
      have := List.mem_range.mp (List.mem_of_mem_drop hj)
      omega
    exact .run (.isCoded hr hc) fun _ _ => .ite hn <| .run (.spCtx sb hr hc) fun _ hctx =>
      issuesOnly_coefficientScript hr hc hn hctx
  unfold cleanupColumnScript
  split_ifs with hh
  · subst hh
    refine .run (.stripUnc (by omega) hc) fun _ _ => .ite (rows 0) <|
      .run (.stripZ sb (by omega) hc) fun _ _ => .ite (rows 0) <|
        issuesOnly_runLengthScript hc (mark le_rfl hn) (by omega) fun k hk => ?_
    exact issuesOnly_signScript (by omega) hc (mark (by omega) (rows (k + 1)))
  · exact rows 0

end Column

variable (dir i h w)

theorem issuesOnly_cleanupScript :
    IssuesOnly (PassCommand dir i h w false) (cleanupScript dir i sb h w) := by
  refine .eachThen (fun st hst next hn => .eachThen (fun c hc next hn => ?_) hn) .done
  obtain ⟨k, hk, rfl⟩ := List.mem_map.mp hst
  have hk := List.mem_range.mp hk
  exact issuesOnly_cleanupColumnScript sb (List.mem_range.mp hc) hn (by dsimp only; omega)

end Scripts

/-! ### What a pass leaves of the significance table -/

/-- No `FIRST` flag has changed. -/
def FirstSame (s t : State) : Prop := t.sig.first = s.sig.first

/-- The significance table is as it was but for its `FIRST` flags. -/
def OnlyFirst (s t : State) : Prop := t.sig = { s.sig with first := t.sig.first }

theorem firstSame_chains : Chains FirstSame := ⟨fun _ => rfl, fun h k => k.trans h⟩

theorem onlyFirst_chains : Chains OnlyFirst where
  refl := fun _ => rfl
  trans := fun {s t u} (h : t.sig = _) (k : u.sig = _) => by
    rw [OnlyFirst, k, h]

theorem firstSame_update {k : Part} {s t : State} (hk : k ∉ [Part.sigReset, .first])
    (u : Update k s t) : FirstSame s t := by
  cases u with
  | sigReset => simp at hk
  | consumeFirst => simp at hk
  | _ => rfl

theorem onlyFirst_update {k : Part} {s t : State} (hk : k ∉ [Part.sigReset, .significant])
    (u : Update k s t) : OnlyFirst s t := by
  cases u with
  | sigReset => simp at hk
  | markSignificant => simp at hk
  | _ => rfl

/-- The significance and the cleanup pass ask for no refinement label. -/
theorem firstSame_passCommand {dir : Dir} {i h w : Nat} {j : Instr}
    (hj : PassCommand dir i h w false j) : Keeps FirstSame (opOf j) :=
  opOf_keeps (.of_outside firstSame_chains (fun _ _ _ => firstSame_update)
    (by cases hj <;> simp_all [footprint]))

/-- The refinement pass makes nothing significant. -/
theorem onlyFirst_passCommand {dir : Dir} {i h w : Nat} {j : Instr}
    (hj : PassCommand dir i h w true j) : Keeps OnlyFirst (opOf j) :=
  opOf_keeps (.of_outside onlyFirst_chains (fun _ _ _ => onlyFirst_update)
    (by cases hj <;> simp_all [footprint]))

end Sys2Proof.Machine
end

section
/-! PROOF. A pass by itself (45_pass_sequencer.md R263 to R265): on ports that do not fail, and,
decoding, with a marker ahead, its decisions end `ok`, and what they write leaves the checks of a
pass. -/

namespace Sys2Proof.Machine

open Sys2Proof.Safety

/-- `s` with what a pass writes as it is in `u`. -/
def passWritten (dir : Dir) (s u : State) : State :=
  let v := { s with
    coder := u.coder, pt := u.pt, sig := u.sig, coded := u.coded, portCalls := u.portCalls }
  match dir with
  | .encode => { v with out := u.out }
  | .decode => { v with mem := u.mem, rp := u.rp, diverged := u.diverged, freeBits := u.freeBits }

/-- Within a pass begun on `s`: the pass alone has written, no port fails, and no byte is missing.
-/
structure PassState (dir : Dir) (s t : State) : Prop where
  written : ∃ u, t = passWritten dir s u
  quiet : quietPorts t
  marker : dir = .decode → MarkerAhead t

theorem PassState.eq_passWritten {dir : Dir} {s t : State} (h : PassState dir s t) :
    t = passWritten dir s t := by
  obtain ⟨⟨u, rfl⟩, -, -⟩ := h
  cases dir <;> rfl

theorem passState_of_ready {dir : Dir} {i : Nat} {s : State} (h : PassReady dir i s) :
    PassState dir s s := ⟨⟨s, by cases dir <;> rfl⟩, h.quiet, h.marker⟩

theorem PassState.setTables {dir : Dir} {s t : State} (h : PassState dir s t) (sig : SigTable)
    (coded : Cells Bool) : PassState dir s { t with sig := sig, coded := coded } := by
  obtain ⟨⟨u, rfl⟩, quiet, marker⟩ := h
  exact ⟨⟨{ u with sig := sig, coded := coded }, by cases dir <;> rfl⟩, quiet, marker⟩

theorem PassState.setWord {s t : State} (h : PassState .decode s t) (a : Nat) (v : Word) :
    PassState .decode s (setWord a v t) := by
  obtain ⟨⟨u, rfl⟩, quiet, marker⟩ := h
  exact ⟨⟨Machine.setWord a v u, rfl⟩, quiet, marker⟩

/-- A write of the pass leaves what the checks of a pass look at. -/
theorem PassState.checked {dir : Dir} {i : Nat} {s t : State} (h : PassState dir s t)
    (hs : PassChecked dir i s) : PassChecked dir i t ∧ t.H = s.H ∧ t.W = s.W := by
  obtain ⟨⟨u, rfl⟩, -, -⟩ := h
  obtain ⟨noFault, geom, mode, pt, sig, live, plane, current⟩ := hs
  cases dir <;> exact ⟨⟨noFault, geom, mode, pt, sig, live, plane, current⟩, rfl, rfl⟩

/-- A decision of an encoding pass (43_mq_encoder.md R202). -/
theorem PassState.mqeCode {s t : State} (h : PassState .encode s t) {ctx : Nat}
    (ready : CodeReady t ctx) (b : Bool) :
    Completes (mqeCode b ctx) t fun _ t' => PassState .encode s t' ∧ SameTables t t' := by
  obtain ⟨⟨u, rfl⟩, quiet, -⟩ := h
  obtain ⟨v, -, hv⟩ := emitted_mqeCode ready b
  exact .of_ok (hv.ok quiet)
    ⟨⟨⟨emit (coded b (ptAt (passWritten .encode s u) ctx) u.coder) { u with pt := v }, rfl⟩,
      quietPorts_emit (s := { passWritten .encode s u with pt := v }) quiet, nofun⟩, rfl, rfl⟩

/-- A decision of a decoding pass (44_mq_decoder.md R232, R233). -/
theorem PassState.mqdDecode {s t : State} (h : PassState .decode s t) {ctx : Nat}
    (ready : DecodeReady t ctx) :
    Completes (mqdDecode ctx) t fun _ t' => PassState .decode s t' ∧ SameTables t t' := by
  obtain ⟨⟨u, rfl⟩, quiet, marker⟩ := h
  have F := feeds_afterDecision ctx (passWritten .decode s u)
  obtain ⟨v, hv⟩ := F.written
  exact .of_ok (mqdDecode_ok ready quiet (.inr (marker rfl))).1
    ⟨⟨⟨decoderWrites u v, hv⟩, F.quiet quiet, fun _ => F.markerAhead (marker rfl)⟩, F.sameTables⟩

theorem passState_invariant {dir : Dir} {i : Nat} {s : State} (hs : PassChecked dir i s) :
    PassInvariant dir i s.H s.W (PassState dir s) where
  checked := fun h => (h.checked hs).1
  height := fun h => (h.checked hs).2.1
  width := fun h => (h.checked hs).2.2
  tables := fun sig coded h => h.setTables sig coded
  encode := by
    rintro rfl t b ctx h hctx
    have checked := (h.checked hs).1
    exact h.mqeCode ⟨checked.mode, checked.ptValid, hctx⟩ b
  decode := by
    rintro rfl t ctx h hctx
    have checked := (h.checked hs).1
    exact h.mqdDecode ⟨checked.mode, checked.ptValid, hctx⟩
  store := by
    rintro rfl t a v h
    exact h.setWord a v

/-- A pass that runs to its end is answered `ok`, and has kept what its script keeps. -/
theorem exec_of_completes {j : Instr} {x : Op Unit} {sc : Script} {s : State} {Q : State → Prop}
    {R : State → State → Prop} (hf : s.status.fault = false) (hop : opOf j = x >>= fun _ => pure 0)
    (hscript : x s = scriptOp sc s) (keeps : Keeps R (scriptOp sc))
    (run : Completes x s fun _ t => Q t) : ∃ t, exec j s = okNext 0 t ∧ Q t ∧ R s t := by
  obtain ⟨_, t, hx, hQ⟩ := run
  exact ⟨t, exec_ok hf (by rw [hop, run_bind_ok hx, run_pure]), hQ, keeps.of_ok (hscript ▸ hx)⟩

/-- Settles O52: the decisions of a pass end `ok` and leave its checks, so that the pass runs to its
end; what it leaves of the significance table is what each of its commands leaves. -/
theorem passesComplete : Obligations.PassesComplete := by
  intro dir i s ready
  have hs := ready.toPassChecked
  have hf := hs.noFault
  have K := passState_invariant hs
  have first {sc : Script} (hsc : IssuesOnly (PassCommand dir i s.H s.W false) sc) :=
    hsc.keeps firstSame_chains fun _ => firstSame_passCommand
  refine ⟨?_, ?_, fun hclean => ?_⟩
  · obtain ⟨t, run, ht, hfirst⟩ := exec_of_completes (j := .ebSigPass dir i) hf rfl
      (sigPass_eq_scriptOp hs)
      (first (issuesOnly_sigPassScript ..)) (K.sigPass (passState_of_ready ready))
    exact ⟨t, run.trans (congrArg _ ht.eq_passWritten), hfirst⟩
  · obtain ⟨t, run, ⟨ht, hcoded⟩, hsig⟩ := exec_of_completes (j := .ebRefPass dir i) hf rfl
      (refPass_eq_scriptOp hs)
      ((issuesOnly_refPassScript ..).keeps onlyFirst_chains fun _ => onlyFirst_passCommand)
      (K.refPass (passState_of_ready ready))
    exact ⟨t, run.trans (congrArg _ ht.eq_passWritten), hsig, fun r c hr hc hsg =>
      hcoded r c hr hc (by rw [hsig]; exact hsg)⟩
  · obtain ⟨t, run, ⟨ht, hcoded⟩, hfirst⟩ := exec_of_completes (j := .ebCleanup dir i) hf rfl
      (cleanup_eq_scriptOp hs)
      (first (issuesOnly_cleanupScript ..)) (K.cleanup (passState_of_ready ready) hclean)
    exact ⟨t, run.trans (congrArg _ ht.eq_passWritten), hfirst, hcoded⟩

end Sys2Proof.Machine
end

section
/-! PROOF. A run and an easier one beside it, whose ports do not fail and whose `IN` goes on
further: until the one fails, or the other ends in a ProtocolFault, they go the same way
(60_exceptions.md R312, R313). -/

namespace Sys2Proof.Machine

open Sys2Proof.Safety

/-! ### Runs side by side -/

/-- The result is a ProtocolFault. -/
def Faults {α : Type} (r : EStateM.Result Raise State α) : Prop :=
  ∃ code t, r = .error (.protocolFault code) t

/-- The result is a failure, of the data or of a port. -/
def Fails {α : Type} (r : EStateM.Result Raise State α) : Prop :=
  ∃ e t, r = .error e t ∧ ∀ code, e ≠ .protocolFault code

/-- From related states the operation fails from the first, faults from the second, or ends `ok`
from both, with the same result and in related states. -/
def Follows (R : State → State → Prop) (α : Type) (x : Op α) : Prop := ∀ s t, R s t →
  Fails (x s) ∨ Faults (x t) ∨ ∃ a s' t', x s = .ok a s' ∧ x t = .ok a t' ∧ R s' t'

/-- From related states the operation faults from the first only if it does from the second. -/
def Spares (R : State → State → Prop) {α : Type} (x : Op α) : Prop :=
  ∀ s t, R s t → Faults (x s) → Faults (x t)

section Follows

variable {R : State → State → Prop} {α β : Type}

theorem follows_closed : OpClosed (Follows R) where
  pure := fun a s t h => .inr (.inr ⟨a, s, t, rfl, rfl, h⟩)
  bind := fun {α β x f} hx hf s t h => by
    obtain ⟨e, u, hs, he⟩ | ⟨code, u, ht⟩ | ⟨a, s', t', hs, ht, h'⟩ := hx s t h
    · exact .inl ⟨e, u, run_bind_error hs, he⟩
    · exact .inr (.inl ⟨code, u, run_bind_error ht⟩)
    · rw [run_bind_ok hs, run_bind_ok ht]
      exact hf a s' t' h'

theorem Agrees.follows {x : Op α} (hx : Agrees R x) : Follows R α x := fun s t h => by
  have hst := hx s t h
  cases hs : x s with
  | ok a s' =>
    cases ht : x t with
    | ok b t' =>
      rw [hs, ht] at hst
      obtain ⟨rfl, h'⟩ := hst
      exact .inr (.inr ⟨a, s', t', rfl, rfl, h'⟩)
    | error e t' =>
      rw [hs, ht] at hst
      exact hst.elim
  | error e s' =>
    cases ht : x t with
    | ok b t' =>
      rw [hs, ht] at hst
      exact hst.elim
    | error e' t' =>
      rw [hs, ht] at hst
      obtain ⟨rfl, -⟩ := hst
      cases e with
      | protocolFault code => exact .inr (.inl ⟨code, t', rfl⟩)
      | _ => exact .inl ⟨_, s', rfl, nofun⟩

theorem Follows.spares {x : Op α} (hx : Follows R α x) : Spares R x := by
  rintro s t h ⟨code, u, hs⟩
  obtain ⟨e, v, hs', he⟩ | ht | ⟨a, s', t', hs', -⟩ := hx s t h
  · rw [hs] at hs'
    cases hs'
    exact absurd rfl (he code)
  · exact ht
  · rw [hs] at hs'
    cases hs'

theorem Follows.bind_spares {x : Op α} {f : α → Op β} (hx : Follows R α x)
    (hf : ∀ a, Spares R (f a)) : Spares R (x >>= f) := fun s t h hs => by
  obtain ⟨e, u, hs', he⟩ | ⟨code, u, ht⟩ | ⟨a, s', t', hs', ht, h'⟩ := hx s t h
  · obtain ⟨code, v, hs⟩ := hs
    rw [run_bind_error hs'] at hs
    cases hs
    exact absurd rfl (he code)
  · exact ⟨code, u, run_bind_error ht⟩
  · rw [run_bind_ok hs'] at hs
    rw [run_bind_ok ht]
    exact hf a s' t' h' hs

/-- An operation without a check that can fail. -/
theorem Unfaulting.spares {x : Op α} (hx : Unfaulting α x) : Spares R x :=
  fun s _ _ ⟨code, u, hs⟩ => absurd hs (hx s u code)

end Follows

/-! ### The encoder -/

/-- The other state has the same tables, and its ports do not fail; the coders may differ. -/
def SameTablesQuiet (s t : State) : Prop := (∃ u, t = withTables s u) ∧ quietPorts t

theorem sameTablesQuiet_tables : TablesAgree SameTablesQuiet where
  same := by
    rintro s _ ⟨⟨u, rfl⟩, -⟩
    rfl
  write := by
    rintro s _ u ⟨⟨v, rfl⟩, quiet⟩
    exact ⟨⟨v, rfl⟩, quiet⟩

section Encoder

variable {s t : State} (h : SameTablesQuiet s t)
include h

/-- What the coder writes of its own, in either state, is not looked at. -/
theorem SameTablesQuiet.emit (v w : Vector PtEntry 19) (k : Coder) (q : Coder × List Byte)
    (bs : List Byte) (n : Nat) :
    SameTablesQuiet { s with pt := v, coder := k, out := bs, portCalls := n }
      (Machine.emit q { t with pt := w }) := by
  obtain ⟨⟨u, rfl⟩, quiet⟩ := h
  exact ⟨⟨Machine.emit q { u with pt := w }, rfl⟩,
    quietPorts_emit (s := { withTables s u with pt := w }) quiet⟩

theorem SameTablesQuiet.emitted {x : Op Unit} {v w : Vector PtEntry 19} {p q : Coder × List Byte}
    (hs : Emitted (x s) { s with pt := v } p) (ht : Emitted (x t) { t with pt := w } q) :
    Fails (x s) ∨ Faults (x t) ∨
      ∃ a s' t', x s = .ok a s' ∧ x t = .ok a t' ∧ SameTablesQuiet s' t' := by
  obtain hs | ⟨-, k, bs, n, hs⟩ := hs
  · exact .inr (.inr ⟨(), _, _, hs, ht.ok h.2, h.emit v w _ q _ _⟩)
  · exact .inl ⟨_, _, hs, nofun⟩

end Encoder

theorem follows_mqeCode (b : Bool) (ctx : Nat) : Follows SameTablesQuiet Unit (mqeCode b ctx) := by
  intro s t h
  have hst := (sameTablesQuiet_tables.block_eq h).2.2.2
  by_cases ht : CodeReady t ctx
  · have hs : CodeReady s ctx := ⟨hst ▸ ht.mode, hst ▸ ht.valid, ht.label⟩
    obtain ⟨v, -, hv⟩ := emitted_mqeCode hs b
    obtain ⟨w, -, hw⟩ := emitted_mqeCode ht b
    exact h.emitted hv hw
  · obtain ⟨code, hr⟩ := mqeCode_refused ht b
    exact .inr (.inl ⟨code, t, hr⟩)

theorem follows_mqeFlush : Follows SameTablesQuiet Unit mqeFlush := by
  intro s t h
  have hst := (sameTablesQuiet_tables.block_eq h).2.2.2
  by_cases ht : t.status.mqMode = .encoding
  · exact h.emitted (v := s.pt) (w := t.pt) (emitted_mqeFlush (hst ▸ ht)) (emitted_mqeFlush ht)
  · exact .inr (.inl ⟨_, t, mqeFlush_refused ht⟩)

theorem unfaulting_putOut (b : Byte) : Unfaulting Unit (putOut b) := fun s t code h => by
  rw [run_putOut] at h
  split at h <;> cases h

theorem spares_mqeMarkEnd : Spares SameTablesQuiet mqeMarkEnd :=
  have C := unfaulting_closed
  have mode : Follows SameTablesQuiet Unit (requireMode .encoding) :=
    (sameTablesQuiet_tables.agrees (tabular_requireMode _)).follows
  mode.bind_spares fun _ => (C.bind (unfaulting_putOut _) fun _ => C.bind (unfaulting_putOut _)
    fun _ => unfaulting_modS _).spares

theorem follows_mqeInit : Follows SameTablesQuiet Unit mqeInit :=
  follows_closed.bind (sameTablesQuiet_tables.agrees tabular_requireIdle).follows fun _ =>
    (Agrees.modS (by
      rintro s _ ⟨⟨u, rfl⟩, quiet⟩
      exact ⟨⟨{ u with coder := ⟨0x8000, 0, 0, 12, -1⟩ }, rfl⟩, quiet⟩)).follows

/-! ### The decoder -/

/-- `s` with further bytes at the end of `IN`, and ports that do not fail. -/
def fed (tail : List Byte) (s : State) : State :=
  { s with portFails := [], inp := s.inp ++ tail }

/-- The other state is the first with the further bytes. -/
def Fed (tail : List Byte) (s t : State) : Prop := t = fed tail s

section Decoder

variable {tail : List Byte}

theorem fed_tables : TablesAgree (Fed tail) where
  same := by
    rintro s _ rfl
    rfl
  write := by
    rintro s _ u rfl
    rfl

theorem follows_modS {f : State → State} (hf : ∀ s, f (fed tail s) = fed tail (f s)) :
    Follows (Fed tail) Unit (modS f) :=
  (Agrees.modS (by
    rintro s _ rfl
    exact hf s)).follows

theorem follows_getS_bind {β : Type} {f : State → Op β} (hf : ∀ s, f (fed tail s) = f s)
    (h : ∀ s, Follows (Fed tail) β (f s)) : Follows (Fed tail) β (getS >>= f) := by
  rintro s _ rfl
  rw [run_bind_ok (run_getS s), run_bind_ok (run_getS (fed tail s)), hf s]
  exact h s s _ rfl

/-- A byte that is there is there in the longer `IN`. -/
theorem fed_getElem? {s : State} {n : Byte} (h : s.inp[s.rp]? = some n) :
    (fed tail s).inp[(fed tail s).rp]? = some n := by
  have hlt := (List.getElem?_eq_some_iff.mp h).1
  rwa [fed, List.getElem?_append_left hlt]

theorem portCalls_notMem_fed (s : State) : (fed tail s).portCalls ∉ (fed tail s).portFails :=
  List.not_mem_nil

/-- Looking at a byte, where the end of `IN` is a failure. -/
theorem follows_peekIn_bind {β : Type} {f : Option Byte → Op β}
    (hnone : ∀ s, Fails (f none s)) (hsome : ∀ n, Follows (Fed tail) β (f (some n))) :
    Follows (Fed tail) β (peekIn >>= f) := by
  rintro s _ rfl
  by_cases hp : s.portCalls ∈ s.portFails
  · exact .inl ⟨_, _, run_bind_error ((run_peekIn s).trans (if_pos hp)), nofun⟩
  · rw [run_bind_ok ((run_peekIn s).trans (if_neg hp)),
      run_bind_ok ((run_peekIn _).trans (if_neg (portCalls_notMem_fed s)))]
    cases hn : s.inp[s.rp]? with
    | none => exact .inl (hnone _)
    | some n =>
      rw [fed_getElem? hn]
      exact hsome n _ _ rfl

theorem follows_takeIn : Follows (Fed tail) Byte takeIn := by
  rintro s _ rfl
  by_cases hp : s.portCalls ∈ s.portFails
  · exact .inl ⟨_, _, (run_takeIn s).trans (if_pos hp), nofun⟩
  · rw [(run_takeIn s).trans (if_neg hp), (run_takeIn _).trans (if_neg (portCalls_notMem_fed s))]
    cases hn : s.inp[s.rp]? with
    | none => exact .inl ⟨_, _, rfl, nofun⟩
    | some n =>
      rw [fed_getElem? hn]
      exact .inr (.inr ⟨n, _, _, rfl, rfl, rfl⟩)

theorem follows_fillLSBs : Follows (Fed tail) Unit fillLSBs := by
  have C := follows_closed (R := Fed tail)
  refine C.bind (follows_modS fun _ => rfl) fun _ =>
    follows_peekIn_bind (fun s => ⟨_, s, rfl, nofun⟩) fun n => ?_
  exact follows_getS_bind (fun _ => rfl) fun _ => OpClosed.ite (follows_modS fun _ => rfl)
    (C.bind (C.doIf (follows_modS fun _ => rfl)) fun _ => C.bind follows_takeIn fun _ =>
      C.bind (follows_modS fun _ => rfl) fun _ => follows_modS fun _ => rfl)

theorem follows_decRenorm (n : Nat) : Follows (Fed tail) Unit (decRenorm n) := by
  have C := follows_closed (R := Fed tail)
  have once : Follows (Fed tail) Unit renormOnce := follows_getS_bind (fun _ => rfl) fun _ =>
    C.bind (C.doIf follows_fillLSBs) fun _ => follows_modS fun _ => rfl
  induction n with
  | zero => exact C.pure ()
  | succ n ih => exact follows_getS_bind (fun _ => rfl) fun _ => C.doIf (C.bind once fun _ => ih)

theorem follows_inLower (p : BitVec 16) : Follows (Fed tail) Bool (inLower p) := by
  rintro s _ rfl
  by_cases h : (s.diverged && s.inForeign) = true
  · exact .inr (.inr ⟨_, _, _, if_pos h, if_pos h, rfl⟩)
  · exact .inr (.inr ⟨_, _, _, if_neg h, if_neg h, rfl⟩)

theorem setDecC_fed (v : Nat) (s : State) : setDecC v (fed tail s) = fed tail (setDecC v s) := rfl

theorem setA_fed (a : BitVec 16) (s : State) : setA a (fed tail s) = fed tail (setA a s) := rfl

theorem subActive_fed (p : BitVec 16) (s : State) :
    subActive p (fed tail s) = fed tail (subActive p s) := setDecC_fed _ s

theorem follows_mqdDecode (ctx : Nat) : Follows (Fed tail) Bool (mqdDecode ctx) := by
  have C := follows_closed (R := Fed tail)
  have label : Follows (Fed tail) Unit (requirePt ctx) :=
    (fed_tables.agrees (tabular_requirePt ctx)).follows
  have trans (m sw : Bool) : Follows (Fed tail) Unit (ptTrans ctx m sw) :=
    C.bind label fun _ => follows_modS fun _ => rfl
  refine C.bind (fed_tables.agrees (tabular_requireMode _)).follows fun _ => C.bind label fun _ =>
    follows_getS_bind (fun _ => rfl) fun s => C.bind (follows_inLower _) fun lower =>
      C.bind (follows_modS fun _ => ?_) fun _ =>
        C.bind (C.doIf (C.bind (trans _ _) fun _ => follows_decRenorm 15)) fun _ => C.pure _
  cases lower with
  | true => rfl
  | false => exact (congrArg (setA _) (subActive_fed _ _)).trans (setA_fed _ _)

theorem follows_mqdInit : Follows (Fed tail) Unit mqdInit :=
  have C := follows_closed (R := Fed tail)
  C.bind (fed_tables.agrees tabular_requireIdle).follows fun _ =>
    C.bind (follows_modS fun _ => rfl) fun _ => C.bind follows_fillLSBs fun _ =>
      C.bind (follows_modS fun _ => rfl) fun _ => C.bind follows_fillLSBs fun _ =>
        C.bind (follows_modS fun _ => rfl) fun _ => C.bind (follows_modS fun _ => rfl) fun _ =>
          follows_modS fun _ => rfl

theorem spares_mqdSkipEnd : Spares (Fed tail) mqdSkipEnd :=
  have C := unfaulting_closed
  have mode : Follows (Fed tail) Unit (requireMode .decoding) :=
    (fed_tables.agrees (tabular_requireMode _)).follows
  mode.bind_spares fun _ => (C.bind unfaulting_getS fun _ => C.bind (unfaulting_skipScan _ _)
    fun _ => C.bind (unfaulting_modS _) fun _ => C.pure _).spares

end Decoder

/-! ### Passes and blocks -/

/-- The easier state beside `s`, in each direction. -/
def Eased (tail : List Byte) : Dir → State → State → Prop
  | .encode => SameTablesQuiet
  | .decode => Fed tail

theorem eased_tables (tail : List Byte) (dir : Dir) : TablesAgree (Eased tail dir) := by
  cases dir with
  | encode => exact sameTablesQuiet_tables
  | decode => exact fed_tables

theorem quietPorts_fed (tail : List Byte) (s : State) : quietPorts (fed tail s) := nofun

theorem eased_fed (tail : List Byte) (dir : Dir) (s : State) : Eased tail dir s (fed tail s) := by
  cases dir with
  | encode => exact ⟨⟨fed tail s, rfl⟩, quietPorts_fed tail s⟩
  | decode => rfl

/-- Reading of the configuration. -/
theorem TablesAgree.follows_cfg {R : State → State → Prop} (K : TablesAgree R) {β : Type}
    {f : CfgRegs → Op β} (hf : ∀ c, Follows R β (f c)) :
    Follows R β (getS >>= fun s => f s.cfg) := fun s t h => by
  have ht : t.cfg = s.cfg := by rw [K.same h, withTables]
  have := hf s.cfg s t h
  change Fails (f s.cfg s) ∨ Faults (f t.cfg t) ∨ ∃ a s' t', f s.cfg s = .ok a s' ∧
    f t.cfg t = .ok a t' ∧ R s' t'
  rwa [ht]

theorem follows_pass (tail : List Byte) (dir : Dir) : PassClosed dir (Follows (Eased tail dir)) :=
  have K := eased_tables tail dir
  .of_tabular follows_closed (fun hx => (K.agrees hx).follows)
    (fun {_ f} hf => K.follows_cfg (f := fun c => f c.h.toNat c.w.toNat c.sb) fun _ => hf _ _ _)
    (by rintro rfl; exact follows_mqeCode) (by rintro rfl; exact follows_mqdDecode)

theorem spares_blockOp {tail : List Byte} {dir : Dir} {α : Type} {init : Op Unit} {finish : Op α}
    (hinit : Follows (Eased tail dir) Unit init) (hfinish : Spares (Eased tail dir) finish) :
    Spares (Eased tail dir) (blockOp dir init finish) := by
  have K := eased_tables tail dir
  have C := follows_closed (R := Eased tail dir)
  have pt : Follows (Eased tail dir) Unit ptReset := by
    refine (Agrees.modS fun s t h => ?_).follows
    cases dir with
    | encode =>
      obtain ⟨⟨u, rfl⟩, quiet⟩ := h
      exact ⟨⟨{ u with pt := ptInitial }, rfl⟩, quiet⟩
    | decode =>
      cases h
      rfl
  have planes : Follows (Eased tail dir) Unit (getS >>= fun s => planeLoop dir (s.D - 1) s.D) :=
    K.follows_cfg (f := fun c => planeLoop dir (c.d.toNat - 1) c.d.toNat) fun _ =>
      (follows_pass tail dir).planeLoop _ _
  have opened : Follows (Eased tail dir) Unit (openBlock init) :=
    C.bind (K.agrees tabular_requireGeom).follows fun _ =>
      C.bind (K.agrees tabular_requireIdle).follows fun _ => C.bind pt fun _ =>
        C.bind (K.agrees tabular_sigReset).follows fun _ => hinit
  have rest := planes.bind_spares fun _ => hfinish
  rw [bind_assoc] at rest
  exact opened.bind_spares fun _ => rest

theorem spares_ebEncode (tail : List Byte) : Spares (Eased tail .encode) ebEncode := by
  rw [ebEncode_eq_blockOp]
  exact spares_blockOp follows_mqeInit (follows_mqeFlush.bind_spares fun _ => spares_mqeMarkEnd)

theorem spares_ebDecode (tail : List Byte) : Spares (Eased tail .decode) ebDecode := by
  rw [ebDecode_eq_blockOp]
  exact spares_blockOp follows_mqdInit spares_mqdSkipEnd

end Sys2Proof.Machine
end

section
/-! PROOF. Which check inside a pass can fail (45_pass_sequencer.md R269): of its commands, all on
positions of the block and labels of the table, only `SIG.SETSIG`, with `ALREADY_SIGNIFICANT`. -/

namespace Sys2Proof.Machine

open Sys2Proof.Safety

/-- A pass over plane `i` of a block of `h` rows and `w` columns has begun. -/
structure InPass (dir : Dir) (i h w : Nat) (s : State) : Prop extends PassChecked dir i s where
  height : s.H = h
  width : s.W = w

/-- A result that is in the condition, a failure, or `ALREADY_SIGNIFICANT`. -/
def EndsIn (I : State → Prop) {α : Type} : EStateM.Result Raise State α → Prop
  | .ok _ t => I t
  | .error (.protocolFault code) _ => code = .alreadySignificant
  | .error _ _ => True

/-- The operation keeps the condition, fails, or is refused as `ALREADY_SIGNIFICANT`. -/
def StaysIn (I : State → Prop) (α : Type) (x : Op α) : Prop := ∀ s, I s → EndsIn I (x s)

section StaysIn

variable {I : State → Prop} {α : Type}

theorem staysIn_closed : OpClosed (StaysIn I) where
  pure := fun _ _ h => h
  bind := fun {α β x f} hx hf s hs => by
    have h := hx s hs
    rw [run_bind]
    cases hr : x s with
    | ok a t =>
      rw [hr] at h
      exact hf a t h
    | error e t =>
      rw [hr] at h
      cases e <;> exact h

theorem EndsIn.of_ok {r : EStateM.Result Raise State α} {a : α} {t : State} (h : r = .ok a t)
    (ht : I t) : EndsIn I r := by
  rw [h]
  exact ht

theorem EndsIn.of_failure {r : EStateM.Result Raise State α} {e : Raise} {t : State}
    (h : r = .error e t) (he : ∀ code, e ≠ .protocolFault code) : EndsIn I r := by
  rw [h]
  cases e with
  | protocolFault code => exact absurd rfl (he code)
  | _ => trivial

/-- What the commands of a script do, the script does. -/
theorem IssuesOnly.staysIn {ok : Instr → Prop} (hok : ∀ j, ok j → StaysIn I Word (opOf j))
    {sc : Script} (h : IssuesOnly ok sc) : StaysIn I Unit (scriptOp sc) := by
  induction h with
  | done => exact staysIn_closed.pure ()
  | @run j next hj _ ih =>
    intro s hs
    have hop := hok j hj s hs
    rw [scriptOp, run_bind]
    cases hr : opOf j s with
    | ok p t =>
      rw [hr] at hop
      exact ih p.toNat (answerFits_of_ok hr) t hop
    | error e t =>
      rw [hr] at hop
      cases e <;> exact hop

end StaysIn

namespace InPass

variable {dir : Dir} {i h w : Nat} {s : State}

/-- What the checks look at is the configuration, `STATUS` and the plane. -/
theorem of_eq {t : State} (hs : InPass dir i h w s) (hcfg : t.cfg = s.cfg)
    (hparams : t.params = s.params) (hst : t.status = s.status) (hcur : t.curPlane = s.curPlane) :
    InPass dir i h w t := by
  obtain ⟨⟨noFault, geom, mode, ptValid, sigValid, live, plane, current⟩, height, width⟩ := hs
  have hgeom : geomOK t = geomOK s := by
    unfold geomOK State.H State.W State.D
    rw [hcfg, hparams]
  rw [← hst] at noFault mode ptValid sigValid live
  rw [← hcur] at current
  rw [State.D, ← hcfg] at plane
  rw [State.H, ← hcfg] at height
  rw [State.W, ← hcfg] at width
  exact ⟨⟨noFault, hgeom.trans geom, mode, ptValid, sigValid, live, plane, current⟩, height, width⟩

section Position

variable {r c : Nat} (hs : InPass dir i h w s) (hr : r < h) (hc : c < w)
include hs hr hc

theorem sigReady : SigReady s r c :=
  ⟨hs.noFault, hs.geom, hs.sigValid, hs.height ▸ hr, hs.width ▸ hc⟩

theorem liveReady : LiveReady s i r c :=
  ⟨⟨hs.noFault, hs.geom, hs.height ▸ hr, hs.width ▸ hc⟩, hs.live, hs.plane, hs.current⟩

end Position

theorem codeReady (hs : InPass .encode i h w s) {ctx : Nat} (hctx : ctx ≤ 18) : CodeReady s ctx :=
  ⟨hs.mode, hs.ptValid, hctx⟩

theorem decodeReady (hs : InPass .decode i h w s) {ctx : Nat} (hctx : ctx ≤ 18) :
    DecodeReady s ctx := ⟨hs.mode, hs.ptValid, hctx⟩

end InPass

section Commands

variable {i h w ctx : Nat} (hctx : ctx ≤ 18)
include hctx

theorem staysIn_mqeCode (b : Bool) : StaysIn (InPass .encode i h w) Unit (mqeCode b ctx) :=
  fun s hs => by
    obtain ⟨v, -, hv | ⟨-, k, bs, n, hv⟩⟩ := emitted_mqeCode (hs.codeReady hctx) b
    · exact .of_ok hv (hs.of_eq rfl rfl rfl rfl)
    · exact .of_failure hv nofun

theorem staysIn_mqdDecode : StaysIn (InPass .decode i h w) Bool (mqdDecode ctx) := fun s hs => by
  obtain ⟨hr, -⟩ | ⟨e, t, hr, he⟩ := mqdDecode_ends (hs.decodeReady hctx)
  · refine .of_ok hr ?_
    obtain ⟨u, hu⟩ := (feeds_afterDecision ctx s).written
    rw [hu]
    exact hs.of_eq rfl rfl rfl rfl
  · exact .of_failure hr he

theorem staysIn_mqeCodeNum {n : Nat} (hn : n ≤ 16) (v : Nat) :
    StaysIn (InPass .encode i h w) Word (opOf (.mqeCodeNum v n ctx)) := fun s hs => by
  have C := staysIn_closed (I := InPass .encode i h w)
  have bits (n : Nat) : StaysIn (InPass .encode i h w) Unit (codeBits v ctx n) := by
    induction n with
    | zero => exact C.pure ()
    | succ n ih => exact C.bind (staysIn_mqeCode hctx _) fun _ => ih
  rw [opOf_mqeCodeNum (hs.codeReady hctx) v hn]
  exact C.bind (bits n) (fun _ => C.pure _) s hs

theorem staysIn_mqdDecodeNum {n : Nat} (hn : n ≤ 16) :
    StaysIn (InPass .decode i h w) Word (opOf (.mqdDecodeNum n ctx)) := fun s hs => by
  have C := staysIn_closed (I := InPass .decode i h w)
  have bits (n v : Nat) : StaysIn (InPass .decode i h w) Nat (decodeBits ctx n v) := by
    induction n generalizing v with
    | zero => exact C.pure v
    | succ n ih => exact C.bind (staysIn_mqdDecode hctx) fun _ => ih _
  rw [opOf_mqdDecodeNum (hs.decodeReady hctx) hn]
  exact C.bind (bits n 0) (fun _ => C.pure _) s hs

end Commands

/-- A command answers where its operation ends `ok`. -/
theorem staysIn_answer {I : State → Prop} {α : Type} {x : Op α} {f : α → Word}
    (hx : ∀ s, I s → EndsIn I (x s)) : StaysIn I Word (x >>= fun a => pure (f a)) :=
  staysIn_closed.bind hx fun _ => staysIn_closed.pure _

theorem PassCommand.staysIn {dir : Dir} {i h w : Nat} {refining : Bool} {j : Instr}
    (hj : PassCommand dir i h w refining j) : StaysIn (InPass dir i h w) Word (opOf j) := by
  cases hj with
  | isSig hr hc => exact staysIn_answer fun s hs => .of_ok (sigIsSig_ok (hs.sigReady hr hc)) hs
  | spCtx sb hr hc =>
    exact staysIn_answer fun s hs => .of_ok (sigSpCtx_ok (hs.sigReady hr hc) sb) hs
  | signCtx hr hc => exact staysIn_answer fun s hs => .of_ok (sigSignCtx_ok (hs.sigReady hr hc)) hs
  | stripZ sb hr hc =>
    exact staysIn_answer fun s hs =>
      .of_ok (sigStripZ_ok (hs.sigReady (by omega) hc) sb (hs.height ▸ hr)) hs
  | refCtx _ hr hc =>
    refine staysIn_answer fun s hs => ?_
    have run := sigRefCtx_ok (hs.sigReady hr hc)
    split_ifs at run
    · exact .of_ok run (hs.of_eq rfl rfl rfl rfl)
    · exact .of_ok run (hs.of_eq rfl rfl rfl rfl)
    · exact .of_ok run hs
  | setSig neg _ hr hc =>
    refine staysIn_answer fun s hs => ?_
    rw [sigSetSig_ok (hs.sigReady hr hc) neg]
    split_ifs
    · rfl
    · exact hs.of_eq rfl rfl rfl rfl
  | isCoded hr hc => exact staysIn_answer fun s hs => .of_ok (bpIsCoded_ok (hs.liveReady hr hc)) hs
  | markCoded hr hc =>
    exact staysIn_answer fun s hs =>
      .of_ok (bpMarkCoded_ok (hs.liveReady hr hc)) (hs.of_eq rfl rfl rfl rfl)
  | stripUnc hr hc =>
    exact staysIn_answer fun s hs =>
      .of_ok (bpStripUnc_ok (hs.liveReady (by omega) hc) (hs.height ▸ hr)) hs
  | bitAt hr hc =>
    exact staysIn_answer fun s hs =>
      .of_ok (bpBitAt_ok (hs.liveReady hr hc).toBpReady hs.plane) hs
  | signAt hr hc =>
    exact staysIn_answer fun s hs => .of_ok (bpSignAt_ok (hs.liveReady hr hc).toBpReady) hs
  | stripFnz hr hc =>
    exact staysIn_answer fun s hs =>
      .of_ok (bpStripFnz_ok (hs.liveReady (by omega) hc).toBpReady hs.plane (hs.height ▸ hr)) hs
  | setBit b _ hr hc =>
    exact staysIn_answer fun s hs =>
      .of_ok (bpSetBit_ok (hs.liveReady hr hc).toBpReady hs.plane b) (hs.of_eq rfl rfl rfl rfl)
  | setSign b _ hr hc =>
    exact staysIn_answer fun s hs =>
      .of_ok (bpSetSign_ok (hs.liveReady hr hc).toBpReady b) (hs.of_eq rfl rfl rfl rfl)
  | code b hd hctx =>
    subst hd
    exact staysIn_answer (staysIn_mqeCode hctx b)
  | codeNum v hd hn hctx =>
    subst hd
    exact staysIn_mqeCodeNum hctx hn v
  | decode hd hctx =>
    subst hd
    exact staysIn_answer (staysIn_mqdDecode hctx)
  | decodeNum hd hn hctx =>
    subst hd
    exact staysIn_mqdDecodeNum hctx hn

/-- A fault within the cleanup pass is that of a second `SIG.SETSIG`. -/
theorem cleanup_fault {dir : Dir} {i : Nat} {s t : State} (hs : PassChecked dir i s)
    {code : FaultCode} (hr : cleanup dir i s = .error (.protocolFault code) t) :
    code = .alreadySignificant := by
  have stays := (issuesOnly_cleanupScript dir i s.H s.W s.cfg.sb).staysIn
    (fun _ => PassCommand.staysIn) s ⟨hs, rfl, rfl⟩
  rw [← cleanup_eq_scriptOp hs, hr] at stays
  exact stays

end Sys2Proof.Machine
end

section
/-! PROOF. The checks of the sequencer's operations, in their order, and what can fail after them
(45_pass_sequencer.md R260, R267, R269). -/

namespace Sys2Proof.Machine

open Sys2Proof.Safety

/-! ### The checks -/

theorem begins_pass {dir : Dir} {p : Nat} {i : Instr}
    (hi : i ∈ [Instr.ebSigPass dir p, .ebRefPass dir p, .ebCleanup dir p]) :
    Begins (requirePass dir p) (opOf i) := by
  simp only [List.mem_cons, List.not_mem_nil, or_false] at hi
  obtain rfl | rfl | rfl := hi <;> exact .bind (.bind .refl)

theorem begins_block {i : Instr} (hi : i ∈ [Instr.ebEncode, .ebDecode]) :
    Begins (requireGeom >>= fun _ => requireIdle) (opOf i) := by
  simp only [List.mem_cons, List.not_mem_nil, or_false] at hi
  obtain rfl | rfl := hi <;> exact .bind (.andThen (.bind .refl))

/-! ### `FAULT` after a command -/

/-- `FAULT` is 1 after a command only where its operation ended in a ProtocolFault. -/
theorem settle_fault_iff {i : Instr} {s : State} (hf : s.status.fault = false) :
    (settle (opOf i) s).status.fault = true ↔ Faults (opOf i s) := by
  have hop := (opOf_fault i s).trans hf
  unfold settle
  cases hr : opOf i s with
  | ok p t =>
    rw [hr] at hop
    refine iff_of_false (fun h => ?_) (fun ⟨_, _, h⟩ => nomatch h)
    exact Bool.false_ne_true (hop.symm.trans h)
  | error e t =>
    rw [hr] at hop
    cases e with
    | protocolFault code => exact iff_of_true rfl ⟨code, t, rfl⟩
    | _ =>
      refine iff_of_false (fun h => ?_) (fun ⟨_, _, h⟩ => nomatch h)
      exact Bool.false_ne_true (hop.symm.trans h)

/-- What a command answers with cannot fail. -/
theorem answer_eq_error {α : Type} {x : Op α} {f : α → Word} {s t : State} {e : Raise} :
    (x >>= fun a => pure (f a)) s = .error e t ↔ x s = .error e t := by
  refine ⟨fun h => ?_, run_bind_error⟩
  obtain h | ⟨a, u, -, h⟩ := run_bind_eq_error.mp h
  · exact h
  · cases h

theorem faults_answer_iff {α : Type} {x : Op α} {f : α → Word} {s : State} :
    Faults ((x >>= fun a => pure (f a)) s) ↔ Faults (x s) := by
  simp only [Faults, answer_eq_error]

/-- A command that leaves `FAULT` 0 on an easier state does so on the state itself. -/
theorem noFault_of_spares {R : State → State → Prop} {α : Type} {x : Op α} {f : α → Word}
    {i : Instr} {s t s' t' : State} (hop : opOf i = x >>= fun a => pure (f a)) (hx : Spares R x)
    (h : R s t) (hs : s.status.fault = false) (ht : t.status.fault = false)
    (easy : exec i t = .next t') (ht' : t'.status.fault = false) (hr : exec i s = .next s') :
    s'.status.fault = false := by
  obtain rfl := exec_of_noFault hs hr
  obtain rfl := exec_of_noFault ht easy
  by_contra hfault
  have faults := (settle_fault_iff hs).mp (by simpa using hfault)
  rw [hop, faults_answer_iff] at faults
  have := hx s t h faults
  rw [← faults_answer_iff (f := f), ← hop, ← settle_fault_iff ht, ht'] at this
  cases this

/-! ### The easier state -/

/-- Bytes after those of `IN`, of which the decoder reaches the marker. -/
def markerTail (s : State) : List Byte := List.replicate s.rp 0 ++ [0xFF, 0xA1]

theorem markerTail_getElem? (s : State) :
    (fed (markerTail s) s).inp[s.rp + s.inp.length]? = some 0xFF ∧
      (fed (markerTail s) s).inp[s.rp + s.inp.length + 1]? = some 0xA1 := by
  simp only [fed, markerTail]
  constructor
  · rw [List.getElem?_append_right (by omega), List.getElem?_append_right (by simp)]
    simp
  · rw [List.getElem?_append_right (by omega), List.getElem?_append_right (by simp; omega)]
    simp [show s.rp + s.inp.length + 1 - s.inp.length - s.rp = 1 by omega]

theorem exists_firstMarker (s : State) : ∃ k, FirstMarker k (fed (markerTail s) s) := by
  have h : ∃ k, (fed (markerTail s) s).inp[s.rp + k]? = some 0xFF ∧
      (fed (markerTail s) s).inp[s.rp + k + 1]? = some 0xA1 := ⟨_, markerTail_getElem? s⟩
  classical
  obtain ⟨hfirst, hsecond⟩ := Nat.find_spec h
  exact ⟨Nat.find h, hfirst, hsecond, fun j hj => Nat.find_min h hj⟩

theorem passReady_fed {dir : Dir} {i : Nat} {s : State} (hs : PassChecked dir i s) :
    PassReady dir i (fed (markerTail s) s) where
  noFault := hs.noFault
  geom := hs.geom
  mode := hs.mode
  ptValid := hs.ptValid
  sigValid := hs.sigValid
  live := hs.live
  plane := hs.plane
  current := hs.current
  quiet := quietPorts_fed _ s
  marker := fun _ => by
    obtain ⟨hfirst, hsecond⟩ := markerTail_getElem? s
    exact ⟨s.inp.length + 1, hfirst, 0xA1, hsecond, by decide⟩

/-! ### The commands -/

section Block

variable {s t : State} (hf : s.status.fault = false) (hg : geomOK s = true)
  (hm : s.status.mqMode = .idle)
include hf hg hm

theorem ebEncode_noFault (h : exec .ebEncode s = .next t) : t.status.fault = false := by
  obtain ⟨u, body, run, -⟩ := encodeBlockCompletes (fed [] s) hf hg hm (quietPorts_fed [] s)
  exact noFault_of_spares rfl (spares_ebEncode []) (eased_fed [] .encode s) hf hf run hf h

theorem ebDecode_noFault (h : exec .ebDecode s = .next t) : t.status.fault = false := by
  obtain ⟨k, hfirst, hsecond, hearlier⟩ := exists_firstMarker s
  obtain ⟨⟨u, run, hu, -⟩, -⟩ := decodeBlockCompletes (fed (markerTail s) s) k hf hg hm
    (quietPorts_fed _ s) ⟨hfirst, hsecond⟩ hearlier
  exact noFault_of_spares rfl (spares_ebDecode _) (eased_fed _ .decode s) hf hf run hu h

end Block

section Pass

variable {dir : Dir} {i : Nat} {s t : State} (hs : PassChecked dir i s)
include hs

/-- A pass that runs to its end on the easier state ends without a fault. -/
theorem pass_noFault {x : Op Unit} {j : Instr} {Q : Unit → State → Prop}
    (hop : opOf j = x >>= fun _ => pure 0) (hx : Follows (Eased (markerTail s) dir) Unit x)
    (run : Completes x (fed (markerTail s) s) Q) (h : exec j s = .next t) :
    t.status.fault = false := by
  obtain ⟨_, u, run, -⟩ := run
  obtain rfl := exec_of_noFault hs.noFault h
  by_contra hfault
  have faults := (settle_fault_iff hs.noFault).mp (by simpa using hfault)
  rw [hop, faults_answer_iff] at faults
  obtain ⟨code, v, hr⟩ := hx.spares s _ (eased_fed _ dir s) faults
  rw [run] at hr
  cases hr

theorem ebSigPass_noFault (h : exec (.ebSigPass dir i) s = .next t) : t.status.fault = false :=
  have easy := passReady_fed hs
  pass_noFault hs rfl ((follows_pass _ dir).sigPass i)
    ((passState_invariant easy.toPassChecked).sigPass (passState_of_ready easy)) h

theorem ebRefPass_noFault (h : exec (.ebRefPass dir i) s = .next t) : t.status.fault = false :=
  have easy := passReady_fed hs
  pass_noFault hs rfl ((follows_pass _ dir).refPass i)
    ((passState_invariant easy.toPassChecked).refPass (passState_of_ready easy)) h

theorem ebCleanup_fault (h : exec (.ebCleanup dir i) s = .next t) :
    t.status.fault = false ∨ t.status.faultCode = some .alreadySignificant := by
  obtain rfl := exec_of_noFault hs.noFault h
  rw [← Bool.not_eq_true, settle_fault_iff hs.noFault, or_iff_not_imp_left, not_not]
  rintro ⟨code, u, hr⟩
  obtain rfl := cleanup_fault hs (answer_eq_error.mp hr)
  have hu := (opOf_fault (.ebCleanup dir i) s).trans hs.noFault
  rw [hr] at hu
  rw [settle, hr]
  exact if_neg (by simpa using hu)

end Pass

/-- Settles O9: a check that fails is the answer; where the checks pass, the command leaves `FAULT`
0 since it does so on ports that do not fail and with a marker ahead, but for a second `SIG.SETSIG`
of the cleanup pass. -/
theorem sequencerChecks : Obligations.SequencerChecks := by
  intro s t dir p i hf mode pass block
  have checked : geomOK s = true → s.status.mqMode = mode → s.status.ptValid = true →
      s.status.sigValid = true → s.status.planeLive = true → p < s.D → p = s.curPlane.toNat →
      PassChecked dir p s := fun hg hm hpt hsig hlive hp hcur =>
    ⟨hf, hg, hm, hpt, hsig, hlive, hp, hcur⟩
  have hmode : mode = dirMode dir := by cases dir <;> rfl
  have checks := run_requirePass dir p s
  refine ⟨?_, fun hi hg hm => ?_, fun hi hg hm => ?_, fun hi hg hm hv => ?_,
    fun hi hg hm hpt hsig hlive hp => ?_, fun hi hg hm h => ?_,
    fun hi hg hm hpt hsig hlive hp hcur h => ?_⟩
  · rintro (hi | hi) hg
    · exact (begins_pass hi).exec_eq hf (checks.trans (if_neg (by simp [hg])))
    · exact (begins_block hi).exec_eq hf
        (run_bind_error ((run_requireGeom s).trans (if_neg (by simp [hg]))))
  · refine (begins_block hi).exec_eq hf ?_
    rw [run_bind_ok ((run_requireGeom s).trans (if_pos hg)), run_requireIdle, if_neg hm]
  · refine (begins_pass hi).exec_eq hf ?_
    rw [checks, if_pos hg, if_neg (hmode ▸ hm)]
  · refine (begins_pass hi).exec_eq hf ?_
    rw [checks, if_pos hg, if_pos (hm.trans hmode), if_neg hv]
  · refine (begins_pass hi).exec_eq hf ?_
    rw [checks, if_pos hg, if_pos (hm.trans hmode), if_pos ⟨hpt, hsig, hlive⟩, if_neg hp]
  · simp only [block, List.mem_cons, List.not_mem_nil, or_false] at hi
    obtain rfl | rfl := hi
    · exact ebEncode_noFault hf hg hm h
    · exact ebDecode_noFault hf hg hm h
  · have hs := checked hg hm hpt hsig hlive hp hcur
    simp only [pass, List.mem_cons, List.not_mem_nil, or_false] at hi
    obtain rfl | rfl | rfl := hi
    · exact .inl (ebSigPass_noFault hs h)
    · exact .inl (ebRefPass_noFault hs h)
    · exact (ebCleanup_fault hs h).imp_right fun hcode => ⟨rfl, hcode⟩

end Sys2Proof.Machine
end

section
/-! PROOF. What `CFG.SET` does, and which configuration register `CFG.GET` answers after it
(46_config_ops.md R300, R301). -/

namespace Sys2Proof.Machine

open Sys2Proof.Safety

/-! ### Writing one configuration register -/

/-- The spec's row of widths names registers 0 to 6 with the widths the model checks (10_state.md
R21). -/
theorem cfgWidth_of_row {reg width : Nat}
    (h : [11, 11, 5, 2, 20, 20, 20][reg]? = some width) : reg ≤ 6 ∧ cfgWidth reg = width := by
  obtain ⟨hlt, hw⟩ := List.getElem?_eq_some_iff.mp h
  simp only [List.length_cons, List.length_nil] at hlt
  subst hw
  refine ⟨by omega, ?_⟩
  interval_cases reg <;> rfl

/-- A value of the register's width is read back as it was written. -/
theorem cfgRegNat_setCfgReg_same {reg val : Nat} (g : CfgRegs) (h : val < 2 ^ cfgWidth reg) :
    cfgRegNat reg (setCfgReg reg val g) = val := by
  unfold setCfgReg
  split
  case h_4 => exact subBandId_subBandOf h -- `SB`, held as a sub-band
  case h_8 => simp_all [cfgWidth, cfgRegNat] -- no register: of width 0, read as 0
  all_goals exact (BitVec.toNat_ofNat _ _).trans (Nat.mod_eq_of_lt h)

/-- Every other register is read as before. -/
theorem cfgRegNat_setCfgReg_ne {reg reg' : Nat} (val : Nat) (g : CfgRegs) (h : reg' ≠ reg) :
    cfgRegNat reg' (setCfgReg reg val g) = cfgRegNat reg' g := by
  unfold setCfgReg
  -- the pairs of one register contradict `h`; in the others the field read is not the one written
  split <;> simp only [cfgRegNat] <;> split <;> simp_all

/-! ### The commands -/

theorem execCfgGet_cfgRegNat {reg : Nat} (s : State) (h : reg ≤ 6) :
    exec (.cfgGet reg) s = okNext (BitVec.ofNat 32 (cfgRegNat reg s.cfg)) s :=
  execCfgGet_ok (by rw [run_cfgGet, if_pos h])

/-- Everything `CFG.SET` does (46_config_ops.md R300). -/
theorem run_cfgSet (reg val : Nat) (s : State) : cfgSet reg val s =
    if s.status.mqMode = .idle then
      if reg ≤ 6 ∧ val < 2 ^ cfgWidth reg then
        .ok () (setSigValid false (setPlaneLive false { s with cfg := setCfgReg reg val s.cfg }))
      else .error (.protocolFault .badOperand) s
    else .error (.protocolFault .alreadyStarted) s := by
  simp only [cfgSet, run_bind, run_requireIdle, run_require]
  split_ifs <;> simp_all

theorem begins_cfgSet (reg val : Nat) : Begins (cfgSet reg val) (opOf (.cfgSet reg val)) :=
  .bind .refl

/-- Settles O56: the faults by the checks of `CFG.SET`, the answers of `CFG.GET` by what reading a
register gives after a write to the same and to another one. -/
theorem cfgSetStoresRegister : Obligations.CfgSetStoresRegister := by
  intro s reg val width hf
  have faults {code : FaultCode} := (begins_cfgSet reg val).exec_eq (code := code) hf
  refine ⟨fun hm => faults ?_, fun hm hreg => faults ?_, fun hm hrow => ?_⟩
  · rw [run_cfgSet, if_neg hm]
  · rw [run_cfgSet, if_pos hm, if_neg (by omega)]
  obtain ⟨hreg, rfl⟩ := cfgWidth_of_row hrow
  refine ⟨fun hval => faults ?_, fun hval => ?_⟩
  · rw [run_cfgSet, if_pos hm, if_neg (by omega)]
  have stores := (run_cfgSet reg val s).trans ((if_pos hm).trans (if_pos ⟨hreg, hval⟩))
  refine ⟨_, exec_ok hf (run_bind_ok stores), rfl, ?_, fun reg' hreg' hne =>
    ⟨_, execCfgGet_cfgRegNat s hreg', ?_⟩⟩
  · rw [execCfgGet_cfgRegNat _ hreg]
    exact congrArg (fun n => okNext (BitVec.ofNat 32 n) _) (cfgRegNat_setCfgReg_same s.cfg hval)
  · rw [execCfgGet_cfgRegNat _ hreg', ← cfgRegNat_setCfgReg_ne val s.cfg hne]
    rfl

end Sys2Proof.Machine
end

section
/-! PROOF. ProtocolFaults: a command that is refused has changed nothing, the first time and while
`FAULT` is 1 (60_exceptions.md R314, R315, R321). -/

namespace Sys2Proof.Machine

open Sys2Proof.Safety

/-! ### Operations that fault before they write -/

/-- Where the operation ends in a ProtocolFault it has changed nothing. -/
def Precise (α : Type) (x : Op α) : Prop :=
  ∀ s t code, x s = .error (.protocolFault code) t → t = s

section Precise

variable {α β : Type} {x : Op α} {f : α → Op β}

theorem ReadsOnly.precise (hx : ReadsOnly x) : Precise α x := fun s t code h => by
  have hs := hx s
  rwa [h] at hs

theorem Unfaulting.precise (hx : Unfaulting α x) : Precise α x :=
  fun s t code h => absurd h (hx s t code)

/-- Checks first: they write nothing. -/
theorem Precise.after (hx : ReadsOnly x) (hf : ∀ a, Precise β (f a)) : Precise β (x >>= f) :=
  fun s t code h => by
    obtain hr | ⟨a, u, hr, hfa⟩ := run_bind_eq_error.mp h
    · exact hx.precise s t code hr
    · obtain rfl : u = s := by simpa [hr] using hx s
      exact hf a u t code hfa

/-- What follows has no check. -/
theorem Precise.andThen (hx : Precise α x) (hf : ∀ a, Unfaulting β (f a)) :
    Precise β (x >>= f) := fun s t code h => by
  obtain h | ⟨a, u, -, h⟩ := run_bind_eq_error.mp h
  · exact hx s t code h
  · exact absurd h (hf a u t code)

/-- Checks, then a write. -/
theorem precise_modS {x : Op α} (hx : ReadsOnly x) (g : α → State → State) :
    Precise Unit (x >>= fun a => modS (g a)) := .after hx fun _ => (unfaulting_modS _).precise

/-- An operation that begins with checks and cannot fault where they pass. -/
theorem Begins.precise {c : Op Unit} {s t : State} {code : FaultCode} (h : Begins c x)
    (hc : ReadsOnly c) (passed : c s = .ok () s → ¬ Faults (x s))
    (hx : x s = .error (.protocolFault code) t) : t = s := by
  have hs := hc s
  cases hr : c s with
  | ok _ u =>
    obtain rfl : u = s := by simpa [hr] using hs
    exact absurd ⟨code, t, hx⟩ (passed hr)
  | error e u =>
    obtain rfl : u = s := by simpa [hr] using hs
    have := h u u e hr
    rw [hx] at this
    cases this
    rfl

end Precise

/-! ### The tables, the plane and `MEM` -/

theorem precise_ptTrans (ctx : Nat) (m sw : Bool) : Precise Unit (ptTrans ctx m sw) :=
  precise_modS (requirePt_readsOnly ctx) _

theorem precise_sigReset : Precise Unit sigReset := precise_modS requireGeom_readsOnly _

theorem precise_sigRefCtx (r c : Nat) : Precise Nat (sigRefCtx r c) :=
  have C := unfaulting_closed
  .after (requireSig_readsOnly r c) fun _ => .after (.getS chains_eq) fun _ =>
    Unfaulting.precise (OpClosed.ite (C.bind (unfaulting_modS _) fun _ => C.pure _) (C.pure _))

theorem precise_sigSetSig (r c : Nat) (neg : Bool) : Precise Unit (sigSetSig r c neg) :=
  .after (requireSig_readsOnly r c) fun _ => .after (.getS chains_eq) fun _ =>
    precise_modS (.require chains_eq _ _) _

theorem precise_bpNewPlane (i : Nat) : Precise Unit (bpNewPlane i) :=
  .after requireGeom_readsOnly fun _ => precise_modS (requirePlane_readsOnly i) _

theorem precise_memWrite (r c : Nat) (v : Word) : Precise Unit (memWrite r c v) :=
  precise_modS (requireCoord_readsOnly r c) _

theorem precise_bpSetBit (i r c : Nat) (b : Bool) : Precise Unit (bpSetBit i r c b) :=
  .after (requireBit_readsOnly i r c) fun _ => .after (memRead_readsOnly r c) fun _ =>
    precise_memWrite r c _

theorem precise_bpSetSign (r c : Nat) (b : Bool) : Precise Unit (bpSetSign r c b) :=
  .after (requireSign_readsOnly r c) fun _ => .after (.getS chains_eq) fun _ =>
    .after (memRead_readsOnly r c) fun _ => precise_memWrite r c _

theorem precise_bpMarkCoded (i r c : Nat) : Precise Unit (bpMarkCoded i r c) :=
  precise_modS (requireLive_readsOnly i r c) _

theorem precise_cfgSet (reg val : Nat) : Precise Unit (cfgSet reg val) :=
  .after requireIdle_readsOnly fun _ => .after (.require chains_eq _ _) fun _ =>
    precise_modS (.require chains_eq _ _) _

/-! ### The coder -/

theorem Emitted.not_faults {r : EStateM.Result Raise State Unit} {s : State}
    {p : Coder × List Byte} (h : Emitted r s p) : ¬ Faults r := by
  obtain rfl | ⟨-, k, bs, n, rfl⟩ := h <;> exact fun ⟨_, _, h⟩ => nomatch h

section Decision

variable {s : State} {ctx : Nat}

theorem CodeReady.not_faults (h : CodeReady s ctx) (b : Bool) : ¬ Faults (mqeCode b ctx s) := by
  obtain ⟨v, -, hv⟩ := emitted_mqeCode h b
  exact hv.not_faults

theorem DecodeReady.not_faults (h : DecodeReady s ctx) : ¬ Faults (mqdDecode ctx s) := by
  rintro ⟨code, t, hr⟩
  obtain ⟨hok, -⟩ | ⟨e, u, hr', he⟩ := mqdDecode_ends h
  · rw [hok] at hr
    cases hr
  · rw [hr] at hr'
    cases hr'
    exact he code rfl

/-- A decision leaves `STATUS`, so that the checks of the next one pass again. -/
theorem CodeReady.codeBits_not_faults (h : CodeReady s ctx) (v n : Nat) :
    ¬ Faults (codeBits v ctx n s) := by
  rintro ⟨code, t, hr⟩
  induction n generalizing s with
  | zero => cases hr
  | succ n ih =>
    obtain hr | ⟨_, u, hu, hr⟩ := run_bind_eq_error.mp hr
    · exact h.not_faults _ ⟨code, t, hr⟩
    · have hst := mqeCode_status h hu
      exact ih ⟨hst ▸ h.mode, hst ▸ h.valid, h.label⟩ hr

theorem DecodeReady.decodeBits_not_faults (h : DecodeReady s ctx) (n v : Nat) :
    ¬ Faults (decodeBits ctx n v s) := by
  rintro ⟨code, t, hr⟩
  induction n generalizing s v with
  | zero => cases hr
  | succ n ih =>
    obtain hr | ⟨_, u, hu, hr⟩ := run_bind_eq_error.mp hr
    · exact h.not_faults ⟨code, t, hr⟩
    · have hst := mqdDecode_status h hu
      exact ih ⟨hst ▸ h.mode, hst ▸ h.valid, h.label⟩ _ hr

end Decision

theorem precise_mqeCode (b : Bool) (ctx : Nat) : Precise Unit (mqeCode b ctx) :=
  fun s t code h => by
    by_cases hr : CodeReady s ctx
    · exact absurd ⟨code, t, h⟩ (hr.not_faults b)
    · obtain ⟨code', hs⟩ := mqeCode_refused hr b
      rw [hs] at h
      cases h
      rfl

theorem precise_mqdDecode (ctx : Nat) : Precise Bool (mqdDecode ctx) := fun s t code h => by
  by_cases hr : DecodeReady s ctx
  · exact absurd ⟨code, t, h⟩ hr.not_faults
  · obtain ⟨code', hs⟩ := mqdDecode_refused hr
    rw [hs] at h
    cases h
    rfl

/-- The checks of an operation of several bits under a label (43_mq_encoder.md R205; 44_mq_decoder.md
R235). -/
def numChecks (mode : MqMode) (ctx n : Nat) : Op Unit :=
  requireMode mode >>= fun _ => requirePt ctx >>= fun _ => requireNbits n

theorem numChecks_readsOnly (mode : MqMode) (ctx n : Nat) : ReadsOnly (numChecks mode ctx n) :=
  .bind chains_eq (requireMode_readsOnly mode) fun _ =>
    .bind chains_eq (requirePt_readsOnly ctx) fun _ => requireNbits_readsOnly n

theorem numChecks_passed {mode : MqMode} {ctx n : Nat} {s : State}
    (h : numChecks mode ctx n s = .ok () s) :
    s.status.mqMode = mode ∧ s.status.ptValid = true ∧ ctx ≤ 18 ∧ n ≤ 16 := by
  obtain ⟨_, u, hmode, h⟩ := run_bind_eq_ok.mp h
  rw [run_requireMode] at hmode
  split_ifs at hmode with hm
  cases hmode
  obtain ⟨_, u, hpt, h⟩ := run_bind_eq_ok.mp h
  rw [run_requirePt] at hpt
  split_ifs at hpt with hv hc
  cases hpt
  exact ⟨hm, hv, hc, by simpa using (require_eq_ok.mp h).1⟩

theorem opOf_mqeCodeNum_precise (v n ctx : Nat) : Precise Word (opOf (.mqeCodeNum v n ctx)) := by
  intro s t code h
  refine (begins_num (b := true) (v := v) (.inl ⟨by simp, rfl⟩) (by simp)).precise
    (numChecks_readsOnly .encoding ctx n) (fun passed => ?_) h
  obtain ⟨hm, hv, hc, hn⟩ := numChecks_passed passed
  have hr : CodeReady s ctx := ⟨hm, hv, hc⟩
  rw [opOf_mqeCodeNum hr v hn, faults_answer_iff]
  exact hr.codeBits_not_faults v n

theorem opOf_mqdDecodeNum_precise (n ctx : Nat) : Precise Word (opOf (.mqdDecodeNum n ctx)) := by
  intro s t code h
  refine (begins_num (b := true) (v := 0) (.inr ⟨by simp, rfl⟩) (by simp)).precise
    (numChecks_readsOnly .decoding ctx n) (fun passed => ?_) h
  obtain ⟨hm, hv, hc, hn⟩ := numChecks_passed passed
  have hr : DecodeReady s ctx := ⟨hm, hv, hc⟩
  rw [opOf_mqdDecodeNum hr hn, faults_answer_iff]
  exact hr.decodeBits_not_faults n 0

theorem precise_mqeInit : Precise Unit mqeInit := precise_modS requireIdle_readsOnly _

theorem precise_mqeFlush : Precise Unit mqeFlush := fun s t code h => by
  by_cases hm : s.status.mqMode = .encoding
  · exact absurd ⟨code, t, h⟩ (emitted_mqeFlush hm).not_faults
  · rw [mqeFlush_refused hm] at h
    cases h
    rfl

theorem precise_mqeMarkEnd : Precise Unit mqeMarkEnd :=
  have C := unfaulting_closed
  .after (requireMode_readsOnly _) fun _ => Unfaulting.precise <|
    C.bind (unfaulting_putOut _) fun _ => C.bind (unfaulting_putOut _) fun _ => unfaulting_modS _

theorem precise_mqdInit : Precise Unit mqdInit :=
  .after requireIdle_readsOnly fun _ => Unfaulting.precise <|
    unfaulting_closed.bind (unfaulting_modS _) fun _ => unfaulting_fillTwo

theorem precise_mqdSkipEnd : Precise Nat mqdSkipEnd :=
  have C := unfaulting_closed
  .after (requireMode_readsOnly _) fun _ => Unfaulting.precise <|
    C.bind unfaulting_getS fun _ => C.bind (unfaulting_skipScan _ _) fun _ =>
      C.bind (unfaulting_modS _) fun _ => C.pure _

/-! ### The sequencer -/

section Sequencer

variable {s t : State} {code : FaultCode} {i : Instr} {dir : Dir} {p : Nat}

theorem not_faults_of_noFault (hf : s.status.fault = false)
    (h : ∀ t, exec i s = .next t → t.status.fault = false) : ¬ Faults (opOf i s) := by
  rw [← settle_fault_iff hf, h _ (exec_eq_settle hf i)]
  exact Bool.false_ne_true

theorem passChecked_of_passed (hf : s.status.fault = false)
    (h : requirePass dir p s = .ok () s) : PassChecked dir p s := by
  rw [run_requirePass] at h
  split_ifs at h with hg hm hv hp
  exact ⟨hf, hg, hm.trans (by cases dir <;> rfl), hv.1, hv.2.1, hv.2.2, hp.1, hp.2⟩

theorem blockChecks_passed (h : (requireGeom >>= fun _ => requireIdle) s = .ok () s) :
    geomOK s = true ∧ s.status.mqMode = .idle := by
  obtain ⟨_, u, hgeom, h⟩ := run_bind_eq_ok.mp h
  rw [run_requireGeom] at hgeom
  split_ifs at hgeom with hg
  cases hgeom
  rw [run_requireIdle] at h
  split_ifs at h with hm
  exact ⟨hg, hm⟩

variable (hf : s.status.fault = false)
include hf

/-- A pass faults by its checks only, if they are all that can fault. -/
theorem pass_precise (hi : i ∈ [Instr.ebSigPass dir p, .ebRefPass dir p, .ebCleanup dir p])
    (noFault : PassChecked dir p s → ∀ t, exec i s = .next t → t.status.fault = false)
    (h : opOf i s = .error (.protocolFault code) t) : t = s :=
  (begins_pass hi).precise (requirePass_readsOnly dir p)
    (fun passed => not_faults_of_noFault hf (noFault (passChecked_of_passed hf passed))) h

theorem block_precise (hi : i ∈ [Instr.ebEncode, .ebDecode])
    (noFault : geomOK s = true → s.status.mqMode = .idle →
      ∀ t, exec i s = .next t → t.status.fault = false)
    (h : opOf i s = .error (.protocolFault code) t) : t = s :=
  (begins_block hi).precise
    (.bind chains_eq requireGeom_readsOnly fun _ => requireIdle_readsOnly)
    (fun passed =>
      have ⟨hg, hm⟩ := blockChecks_passed passed
      not_faults_of_noFault hf (noFault hg hm)) h

end Sequencer

/-! ### The commands -/

/-- Every command's operation but that of `EB.CLEANUP` faults before it writes anything. -/
theorem opOf_precise {i : Instr} {s t : State} {code : FaultCode} (hf : s.status.fault = false)
    (hi : ∀ dir p, i ≠ .ebCleanup dir p) (h : opOf i s = .error (.protocolFault code) t) :
    t = s := by
  have answer {α : Type} {x : Op α} {f : α → Word} (hx : Precise α x)
      (h : (x >>= fun a => pure (f a)) s = .error (.protocolFault code) t) : t = s :=
    hx s t code (answer_eq_error.mp h)
  by_cases reads : footprint i = []
  · -- a command that writes no part of the state
    exact ReadsOnly.precise (opOf_keeps (R := fun s t => t = s)
      ⟨chains_eq, fun k hk => by simp [reads] at hk⟩) s t code h
  cases i with
  | ptReset => exact answer (unfaulting_modS _).precise h
  | ptTrans ctx m sw => exact answer (precise_ptTrans ctx m sw) h
  | sigReset => exact answer precise_sigReset h
  | sigRefCtx r c => exact answer (precise_sigRefCtx r c) h
  | sigSetSig r c neg => exact answer (precise_sigSetSig r c neg) h
  | bpNewPlane p => exact answer (precise_bpNewPlane p) h
  | bpSetBit p r c b => exact answer (precise_bpSetBit p r c b) h
  | bpSetSign r c b => exact answer (precise_bpSetSign r c b) h
  | bpMarkCoded p r c => exact answer (precise_bpMarkCoded p r c) h
  | mqeInit => exact answer precise_mqeInit h
  | mqeCode b ctx => exact answer (precise_mqeCode b ctx) h
  | mqeCodeNum v n ctx => exact opOf_mqeCodeNum_precise v n ctx s t code h
  | mqeFlush => exact answer precise_mqeFlush h
  | mqeMarkEnd => exact answer precise_mqeMarkEnd h
  | mqdInit => exact answer precise_mqdInit h
  | mqdDecode ctx => exact answer (precise_mqdDecode ctx) h
  | mqdDecodeNum n ctx => exact opOf_mqdDecodeNum_precise n ctx s t code h
  | mqdSkipEnd => exact answer precise_mqdSkipEnd h
  | ebEncode => exact block_precise hf (by simp) (fun hg hm _ => ebEncode_noFault hf hg hm) h
  | ebDecode => exact block_precise hf (by simp) (fun hg hm _ => ebDecode_noFault hf hg hm) h
  | ebSigPass dir p => exact pass_precise hf (by simp) (fun hs _ => ebSigPass_noFault hs) h
  | ebRefPass dir p => exact pass_precise hf (by simp) (fun hs _ => ebRefPass_noFault hs) h
  | ebCleanup dir p => exact absurd rfl (hi dir p)
  | cfgSet reg val => exact answer (precise_cfgSet reg val) h
  | _ => exact absurd rfl reads

/-- A response of a ProtocolFault comes from an operation that raised it. -/
theorem settle_protocolFault {op : Op Word} {s : State} {p : Word}
    (h : (settle op s).resp = some ⟨.protocolFault, p⟩) :
    ∃ code u, op s = .error (.protocolFault code) u ∧ p = BitVec.ofNat 32 (faultCodeNat code) := by
  unfold settle at h
  cases hop : op s with
  | ok q u => simp [hop] at h
  | error e u =>
    rw [hop] at h
    cases e with
    | protocolFault code =>
      simp only [takeRaise, takeProtocolFault, respond_fields, Option.some.injEq,
        Response.mk.injEq] at h
      exact ⟨code, u, rfl, h.2.symm⟩
    | _ => simp [takeRaise, takeDecodeFailure, takeIoFailure] at h

/-- Settles O8: the response shows what the operation raised; it raised it before it wrote anything,
so that taking the fault is all that happened. -/
theorem protocolFaultsArePrecise : Obligations.ProtocolFaultsArePrecise := by
  intro i s t payload hf hi h hresp
  obtain rfl := exec_of_noFault hf h
  obtain ⟨code, u, hop, hp⟩ := settle_protocolFault hresp
  obtain rfl := opOf_precise hf hi hop
  exact ⟨code, exec_protocolFault hf hop, hp⟩

/-! ### While `FAULT` is 1 -/

/-- What `CFG.GET` raises is a ProtocolFault, and it writes nothing (46_config_ops.md R301). -/
theorem cfgGet_cases (reg : Nat) (s : State) :
    (∃ p, cfgGet reg s = .ok p s) ∨ ∃ code, cfgGet reg s = .error (.protocolFault code) s := by
  rw [run_cfgGet]
  split_ifs <;> simp

theorem cfgGet_of_no_register {reg : Nat} (h : 34 < reg) (s : State) :
    cfgGet reg s = .error (.protocolFault .badOperand) s := by
  rw [run_cfgGet]
  iterate 7 rw [if_neg (by omega)]

/-- A `CFG.GET` that faults answers its own code, and nothing else changes. -/
theorem execCfgGet_sticky {reg : Nat} {s : State} {code : FaultCode} (hf : s.status.fault = true)
    (h : cfgGet reg s = .error (.protocolFault code) s) : exec (.cfgGet reg) s
      = .next { s with resp := some ⟨.protocolFault, BitVec.ofNat 32 (faultCodeNat code)⟩ } := by
  rw [execCfgGet_error h, takeProtocolFault_later hf]

/-- Settles O7: the refusal is the other commands' doing; `CFG.GET` writes nothing, and the fault of
one that faults leaves the first code. -/
theorem stickyFaultRefusal : Obligations.StickyFaultRefusal := by
  intro s i hf
  refine ⟨fun hi => (exec_eq_command hi s).trans (command_sticky hf), ?_⟩
  rintro reg rfl
  have status : exec (.cfgGet 7) s = okNext (BitVec.ofNat 32 (statusNat s.status)) s :=
    execCfgGet_ok (by simp [run_cfgGet])
  by_cases hreg : 34 < reg
  · exact ⟨_, execCfgGet_sticky hf (cfgGet_of_no_register hreg s), status, fun _ => rfl⟩
  obtain ⟨p, h⟩ | ⟨code, h⟩ := cfgGet_cases reg s
  · exact ⟨_, execCfgGet_ok h, status, fun h => absurd h hreg⟩
  · exact ⟨_, execCfgGet_sticky hf h, status, fun h => absurd h hreg⟩

end Sys2Proof.Machine
end

section
/-! PROOF. Which failures an operation can raise (60_exceptions.md R312, R313): `GARBAGE` where a marker
is searched, `TRUNCATED` where a byte is needed, and an IOFailure where a port is called that may
fail. -/

namespace Sys2Proof.Machine

open Sys2Proof.Safety

/-! ### Results that are no other failure -/

/-- A result after the state `s`: `ok`, with ports that do not fail if they did not before; a
ProtocolFault; or one of the listed failures, an IOFailure only where a port can fail. -/
def FailsOnly (fs : List Raise) (s : State) {α : Type} : EStateM.Result Raise State α → Prop
  | .ok _ t => quietPorts s → quietPorts t
  | .error (.protocolFault _) _ => True
  | .error e _ => e ∈ fs ∧ (e = .ioFailure → ¬ quietPorts s)

/-- The operation raises no failure but the listed ones. -/
def RaisesOnly (fs : List Raise) (α : Type) (x : Op α) : Prop := ∀ s, FailsOnly fs s (x s)

section RaisesOnly

variable {fs : List Raise} {α β : Type}

/-- What holds after a later state holds after an earlier one. -/
theorem FailsOnly.of_later {s t : State} (h : quietPorts s → quietPorts t)
    {r : EStateM.Result Raise State α} (hr : FailsOnly fs t r) : FailsOnly fs s r := by
  cases r with
  | ok a u => exact fun hq => hr (h hq)
  | error e u =>
    cases e with
    | protocolFault code => trivial
    | _ => exact ⟨hr.1, fun he hq => hr.2 he (h hq)⟩

/-- A failure is on the list, and an IOFailure comes from a port that can fail. -/
theorem FailsOnly.failure {s t : State} {e : Raise}
    (h : FailsOnly fs s (.error e t : EStateM.Result Raise State α))
    (he : ∀ code, e ≠ .protocolFault code) : e ∈ fs ∧ (e = .ioFailure → ¬ quietPorts s) := by
  cases e with
  | protocolFault code => exact absurd rfl (he code)
  | _ => exact h

theorem raisesOnly_closed : OpClosed (RaisesOnly fs) where
  pure := fun _ _ h => h
  bind := fun {α β x f} hx hf s => by
    have h := hx s
    rw [run_bind]
    cases hr : x s with
    | ok a t =>
      rw [hr] at h
      exact (hf a t).of_later h
    | error e t =>
      rw [hr] at h
      cases e <;> exact h

theorem raisesOnly_getS : RaisesOnly fs State getS := fun _ h => h

/-- A write that leaves the ports. -/
theorem raisesOnly_modS {f : State → State} (h : ∀ s, quietPorts s → quietPorts (f s)) :
    RaisesOnly fs Unit (modS f) := h

theorem raisesOnly_require (cond : Bool) (code : FaultCode) :
    RaisesOnly fs Unit (require cond code) := fun s => by
  cases cond
  · trivial
  · exact fun h => h

theorem raisesOnly_decodeFailure {code : DecFail} (h : .decodeFailure code ∈ fs) :
    RaisesOnly fs α (raise (.decodeFailure code)) := fun _ => ⟨h, nofun⟩

theorem raisesOnly_check (f : State → Bool) (code : FaultCode) :
    RaisesOnly fs Unit (getS >>= fun s => require (f s) code) :=
  raisesOnly_closed.bind raisesOnly_getS fun _ => raisesOnly_require _ _

theorem raisesOnly_answer (f : State → α) : RaisesOnly fs α (getS >>= fun s => pure (f s)) :=
  raisesOnly_closed.bind raisesOnly_getS fun _ => raisesOnly_closed.pure _

end RaisesOnly

/-! ### The tables, the plane and `MEM`: no failure at all -/

section Tables

variable {fs : List Raise}

theorem raisesOnly_requireGeom : RaisesOnly fs Unit requireGeom := raisesOnly_check _ _

theorem raisesOnly_requireIdle : RaisesOnly fs Unit requireIdle := raisesOnly_check _ _

theorem raisesOnly_requireMode (m : MqMode) : RaisesOnly fs Unit (requireMode m) :=
  raisesOnly_check _ _

theorem raisesOnly_requireCoord (r c : Nat) : RaisesOnly fs Unit (requireCoord r c) :=
  raisesOnly_check _ _

theorem raisesOnly_requirePlane (i : Nat) : RaisesOnly fs Unit (requirePlane i) :=
  raisesOnly_check _ _

theorem raisesOnly_requireStrip (r : Nat) : RaisesOnly fs Unit (requireStrip r) :=
  raisesOnly_check _ _

theorem raisesOnly_requirePt (ctx : Nat) : RaisesOnly fs Unit (requirePt ctx) :=
  have C := raisesOnly_closed (fs := fs)
  C.bind raisesOnly_getS fun _ => C.bind (raisesOnly_require _ _) fun _ => raisesOnly_require _ _

theorem raisesOnly_requireSig (r c : Nat) : RaisesOnly fs Unit (requireSig r c) :=
  have C := raisesOnly_closed (fs := fs)
  C.bind raisesOnly_requireGeom fun _ => C.bind raisesOnly_getS fun _ =>
    C.bind (raisesOnly_require _ _) fun _ => raisesOnly_requireCoord r c

theorem raisesOnly_requireBit (i r c : Nat) : RaisesOnly fs Unit (requireBit i r c) :=
  have C := raisesOnly_closed (fs := fs)
  C.bind raisesOnly_requireGeom fun _ => C.bind (raisesOnly_requirePlane i) fun _ =>
    raisesOnly_requireCoord r c

theorem raisesOnly_requireSign (r c : Nat) : RaisesOnly fs Unit (requireSign r c) :=
  raisesOnly_closed.bind raisesOnly_requireGeom fun _ => raisesOnly_requireCoord r c

theorem raisesOnly_requireLive (i r c : Nat) : RaisesOnly fs Unit (requireLive i r c) :=
  have C := raisesOnly_closed (fs := fs)
  C.bind raisesOnly_requireGeom fun _ => C.bind raisesOnly_getS fun _ =>
    C.bind (raisesOnly_require _ _) fun _ => C.bind (raisesOnly_requirePlane i) fun _ =>
      C.bind (raisesOnly_require _ _) fun _ => raisesOnly_requireCoord r c

theorem raisesOnly_requirePass (dir : Dir) (i : Nat) : RaisesOnly fs Unit (requirePass dir i) :=
  have C := raisesOnly_closed (fs := fs)
  C.bind raisesOnly_requireGeom fun _ => C.bind (raisesOnly_requireMode _) fun _ =>
    C.bind raisesOnly_getS fun _ => C.bind (raisesOnly_require _ _) fun _ =>
      raisesOnly_require _ _

theorem raisesOnly_memRead (r c : Nat) : RaisesOnly fs Word (memRead r c) :=
  raisesOnly_closed.bind (raisesOnly_requireCoord r c) fun _ => raisesOnly_answer _

theorem raisesOnly_memWrite (r c : Nat) (v : Word) : RaisesOnly fs Unit (memWrite r c v) :=
  raisesOnly_closed.bind (raisesOnly_requireCoord r c) fun _ => raisesOnly_modS fun _ h => h

theorem raisesOnly_ptReset : RaisesOnly fs Unit ptReset := raisesOnly_modS fun _ h => h

theorem raisesOnly_ptEst (ctx : Nat) : RaisesOnly fs (BitVec 16 × Bool) (ptEst ctx) :=
  raisesOnly_closed.bind (raisesOnly_requirePt ctx) fun _ => raisesOnly_answer _

theorem raisesOnly_ptTrans (ctx : Nat) (m sw : Bool) : RaisesOnly fs Unit (ptTrans ctx m sw) :=
  raisesOnly_closed.bind (raisesOnly_requirePt ctx) fun _ => raisesOnly_modS fun _ h => h

theorem raisesOnly_sigReset : RaisesOnly fs Unit sigReset :=
  raisesOnly_closed.bind raisesOnly_requireGeom fun _ => raisesOnly_modS fun _ h => h

theorem raisesOnly_sigIsSig (r c : Nat) : RaisesOnly fs Bool (sigIsSig r c) :=
  raisesOnly_closed.bind (raisesOnly_requireSig r c) fun _ => raisesOnly_answer _

theorem raisesOnly_sigSpCtx (r c : Nat) (sb : SubBand) : RaisesOnly fs Nat (sigSpCtx r c sb) :=
  raisesOnly_closed.bind (raisesOnly_requireSig r c) fun _ => raisesOnly_answer _

theorem raisesOnly_sigSignCtx (r c : Nat) : RaisesOnly fs (Nat × Bool) (sigSignCtx r c) :=
  raisesOnly_closed.bind (raisesOnly_requireSig r c) fun _ => raisesOnly_answer _

theorem raisesOnly_sigRefCtx (r c : Nat) : RaisesOnly fs Nat (sigRefCtx r c) :=
  have C := raisesOnly_closed (fs := fs)
  C.bind (raisesOnly_requireSig r c) fun _ => C.bind raisesOnly_getS fun _ =>
    OpClosed.ite (C.bind (raisesOnly_modS fun _ h => h) fun _ => C.pure _) (C.pure _)

theorem raisesOnly_sigSetSig (r c : Nat) (neg : Bool) : RaisesOnly fs Unit (sigSetSig r c neg) :=
  have C := raisesOnly_closed (fs := fs)
  C.bind (raisesOnly_requireSig r c) fun _ => C.bind raisesOnly_getS fun _ =>
    C.bind (raisesOnly_require _ _) fun _ => raisesOnly_modS fun _ h => h

theorem raisesOnly_sigStripZ (sb : SubBand) (r c : Nat) : RaisesOnly fs Bool (sigStripZ sb r c) :=
  have C := raisesOnly_closed (fs := fs)
  C.bind (raisesOnly_requireSig r c) fun _ => C.bind (raisesOnly_requireStrip r) fun _ =>
    raisesOnly_answer _

theorem raisesOnly_bpNewPlane (i : Nat) : RaisesOnly fs Unit (bpNewPlane i) :=
  have C := raisesOnly_closed (fs := fs)
  C.bind raisesOnly_requireGeom fun _ => C.bind (raisesOnly_requirePlane i) fun _ =>
    raisesOnly_modS fun _ h => h

theorem raisesOnly_bpBitAt (i r c : Nat) : RaisesOnly fs Bool (bpBitAt i r c) :=
  have C := raisesOnly_closed (fs := fs)
  C.bind (raisesOnly_requireBit i r c) fun _ => C.bind (raisesOnly_memRead r c) fun _ => C.pure _

theorem raisesOnly_bpSetBit (i r c : Nat) (b : Bool) : RaisesOnly fs Unit (bpSetBit i r c b) :=
  have C := raisesOnly_closed (fs := fs)
  C.bind (raisesOnly_requireBit i r c) fun _ => C.bind (raisesOnly_memRead r c) fun _ =>
    raisesOnly_memWrite r c _

theorem raisesOnly_bpSignAt (r c : Nat) : RaisesOnly fs Bool (bpSignAt r c) :=
  have C := raisesOnly_closed (fs := fs)
  C.bind (raisesOnly_requireSign r c) fun _ => C.bind raisesOnly_getS fun _ =>
    C.bind (raisesOnly_memRead r c) fun _ => C.pure _

theorem raisesOnly_bpSetSign (r c : Nat) (b : Bool) : RaisesOnly fs Unit (bpSetSign r c b) :=
  have C := raisesOnly_closed (fs := fs)
  C.bind (raisesOnly_requireSign r c) fun _ => C.bind raisesOnly_getS fun _ =>
    C.bind (raisesOnly_memRead r c) fun _ => raisesOnly_memWrite r c _

theorem raisesOnly_bpIsCoded (i r c : Nat) : RaisesOnly fs Bool (bpIsCoded i r c) :=
  raisesOnly_closed.bind (raisesOnly_requireLive i r c) fun _ => raisesOnly_answer _

theorem raisesOnly_bpMarkCoded (i r c : Nat) : RaisesOnly fs Unit (bpMarkCoded i r c) :=
  raisesOnly_closed.bind (raisesOnly_requireLive i r c) fun _ => raisesOnly_modS fun _ h => h

theorem raisesOnly_bpStripUnc (i r c : Nat) : RaisesOnly fs Bool (bpStripUnc i r c) :=
  have C := raisesOnly_closed (fs := fs)
  C.bind (raisesOnly_requireLive i r c) fun _ => C.bind (raisesOnly_requireStrip r) fun _ =>
    raisesOnly_answer _

theorem raisesOnly_bpStripFnz (i r c : Nat) : RaisesOnly fs (Option Nat) (bpStripFnz i r c) := by
  have C := raisesOnly_closed (fs := fs)
  have search (j n : Nat) : RaisesOnly fs (Option Nat) (firstSetRow i r c j n) := by
    induction n generalizing j with
    | zero => exact C.pure _
    | succ n ih =>
      exact C.bind (raisesOnly_memRead _ c) fun _ => OpClosed.ite (C.pure _) (ih (j + 1))
  exact C.bind (raisesOnly_requireBit i r c) fun _ => C.bind (raisesOnly_requireStrip r) fun _ =>
    search 0 4

theorem raisesOnly_cfgSet (reg val : Nat) : RaisesOnly fs Unit (cfgSet reg val) :=
  have C := raisesOnly_closed (fs := fs)
  C.bind raisesOnly_requireIdle fun _ => C.bind (raisesOnly_require _ _) fun _ =>
    C.bind (raisesOnly_require _ _) fun _ => raisesOnly_modS fun _ h => h

theorem raisesOnly_cfgGet (reg : Nat) : RaisesOnly fs Word (cfgGet reg) := fun s => by
  obtain ⟨p, h⟩ | ⟨code, h⟩ := cfgGet_cases reg s <;> rw [h]
  · exact fun h => h
  · trivial

end Tables

/-! ### The encoder: IOFailures -/

section Encoder

variable {fs : List Raise}

theorem raisesOnly_mqeInit : RaisesOnly fs Unit mqeInit :=
  raisesOnly_closed.bind raisesOnly_requireIdle fun _ => raisesOnly_modS fun _ h => h

variable (hio : .ioFailure ∈ fs)
include hio

/-- An IOFailure of the port call that comes next. -/
theorem failsOnly_ioFailure {α : Type} {s t : State} (h : s.portCalls ∈ s.portFails) :
    FailsOnly fs s (.error .ioFailure t : EStateM.Result Raise State α) :=
  ⟨hio, fun _ hq => absurd (hq _ h) (Nat.lt_irrefl _)⟩

theorem Emitted.failsOnly {r : EStateM.Result Raise State Unit} {s : State}
    {v : Vector PtEntry 19} {p : Coder × List Byte} (h : Emitted r { s with pt := v } p) :
    FailsOnly fs s r := by
  obtain rfl | ⟨hq, k, bs, n, rfl⟩ := h
  · exact fun hq => quietPorts_emit (s := { s with pt := v }) hq
  · exact ⟨hio, fun _ => hq⟩

theorem raisesOnly_putOut (b : Byte) : RaisesOnly fs Unit (putOut b) := fun s => by
  rw [run_putOut]
  split
  · exact failsOnly_ioFailure hio ‹_›
  · exact fun hq => quietPorts_mono hq rfl (Nat.le_succ _)

theorem raisesOnly_mqeCode (b : Bool) (ctx : Nat) : RaisesOnly fs Unit (mqeCode b ctx) :=
  fun s => by
    by_cases h : CodeReady s ctx
    · obtain ⟨v, -, hv⟩ := emitted_mqeCode h b
      exact hv.failsOnly hio
    · obtain ⟨code, hr⟩ := mqeCode_refused h b
      rw [hr]
      trivial

theorem raisesOnly_mqeFlush : RaisesOnly fs Unit mqeFlush := fun s => by
  by_cases hm : s.status.mqMode = .encoding
  · exact (emitted_mqeFlush hm).failsOnly (v := s.pt) hio
  · rw [mqeFlush_refused hm]
    trivial

theorem raisesOnly_mqeMarkEnd : RaisesOnly fs Unit mqeMarkEnd :=
  have C := raisesOnly_closed (fs := fs)
  C.bind (raisesOnly_requireMode _) fun _ => C.bind (raisesOnly_putOut hio _) fun _ =>
    C.bind (raisesOnly_putOut hio _) fun _ => raisesOnly_modS fun _ h => h

end Encoder

/-! ### The decoder: IOFailures and `TRUNCATED` -/

theorem quietPorts_setDecC (v : Nat) {s : State} (h : quietPorts s) : quietPorts (setDecC v s) := h

theorem quietPorts_setA (a : BitVec 16) {s : State} (h : quietPorts s) : quietPorts (setA a s) := h

section Decoder

variable {fs : List Raise} (hio : .ioFailure ∈ fs)
include hio

theorem raisesOnly_peekIn : RaisesOnly fs (Option Byte) peekIn := fun s => by
  rw [run_peekIn]
  split
  · exact failsOnly_ioFailure hio ‹_›
  · exact fun hq => quietPorts_mono hq rfl (Nat.le_succ _)

variable (htr : .decodeFailure .truncated ∈ fs)
include htr

theorem raisesOnly_takeIn : RaisesOnly fs Byte takeIn := fun s => by
  rw [run_takeIn]
  split
  · exact failsOnly_ioFailure hio ‹_›
  · split
    · exact ⟨htr, nofun⟩
    · exact fun hq => quietPorts_mono hq rfl (Nat.le_succ _)

theorem raisesOnly_fillLSBs : RaisesOnly fs Unit fillLSBs := by
  have C := raisesOnly_closed (fs := fs)
  refine C.bind (raisesOnly_modS fun _ h => h) fun _ =>
    C.bind (raisesOnly_peekIn hio) fun n => ?_
  cases n with
  | none => exact raisesOnly_decodeFailure htr
  | some n =>
    exact C.bind raisesOnly_getS fun _ => OpClosed.ite (raisesOnly_modS fun _ h => h)
      (C.bind (C.doIf (raisesOnly_modS fun _ h => h)) fun _ =>
        C.bind (raisesOnly_takeIn hio htr) fun _ =>
          C.bind (raisesOnly_modS fun _ h => h) fun _ => raisesOnly_modS fun _ h => h)

theorem raisesOnly_decRenorm (n : Nat) : RaisesOnly fs Unit (decRenorm n) := by
  have C := raisesOnly_closed (fs := fs)
  have once : RaisesOnly fs Unit renormOnce := C.bind raisesOnly_getS fun _ =>
    C.bind (C.doIf (raisesOnly_fillLSBs hio htr)) fun _ => raisesOnly_modS fun _ h => h
  induction n with
  | zero => exact C.pure ()
  | succ n ih => exact C.bind raisesOnly_getS fun _ => C.doIf (C.bind once fun _ => ih)

theorem raisesOnly_mqdDecode (ctx : Nat) : RaisesOnly fs Bool (mqdDecode ctx) := by
  have C := raisesOnly_closed (fs := fs)
  have lower (p : BitVec 16) : RaisesOnly fs Bool (inLower p) := fun s => by
    unfold inLower
    split <;> exact fun h => h
  refine C.bind (raisesOnly_requireMode _) fun _ => C.bind (raisesOnly_requirePt ctx) fun _ =>
    C.bind raisesOnly_getS fun _ => C.bind (lower _) fun b =>
      C.bind (raisesOnly_modS fun _ h => ?_) fun _ =>
        C.bind (C.doIf (C.bind (raisesOnly_ptTrans ctx _ _) fun _ =>
          raisesOnly_decRenorm hio htr 15)) fun _ => C.pure _
  cases b with
  | true => exact quietPorts_setA _ h
  | false => exact quietPorts_setA _ (quietPorts_setDecC _ h)

theorem raisesOnly_mqdInit : RaisesOnly fs Unit mqdInit :=
  have C := raisesOnly_closed (fs := fs)
  have fill := raisesOnly_fillLSBs hio htr
  C.bind raisesOnly_requireIdle fun _ => C.bind (raisesOnly_modS fun _ h => h) fun _ =>
    C.bind fill fun _ => C.bind (raisesOnly_modS fun _ h => h) fun _ => C.bind fill fun _ =>
      C.bind (raisesOnly_modS fun _ h => h) fun _ => C.bind (raisesOnly_modS fun _ h => h)
        fun _ => raisesOnly_modS fun _ h => h

/-- The search for the marker, which can find too much before it. -/
theorem raisesOnly_skipScan (hgb : .decodeFailure .garbage ∈ fs) (fuel g : Nat) :
    RaisesOnly fs Nat (skipScan fuel g) := by
  have C := raisesOnly_closed (fs := fs)
  have take := raisesOnly_takeIn hio htr
  induction fuel generalizing g with
  | zero => exact raisesOnly_decodeFailure htr
  | succ fuel ih =>
    refine C.bind (raisesOnly_peekIn hio) fun n => ?_
    cases n with
    | none => exact raisesOnly_decodeFailure htr
    | some n =>
      exact C.bind raisesOnly_getS fun _ => OpClosed.ite
        (C.bind take fun _ => C.bind (raisesOnly_modS fun _ h => h) fun _ => C.pure g)
        (OpClosed.ite (raisesOnly_decodeFailure hgb)
          (C.bind (C.bind take fun _ => raisesOnly_modS fun _ h => h) fun _ => ih _))

theorem raisesOnly_mqdSkipEnd (hgb : .decodeFailure .garbage ∈ fs) :
    RaisesOnly fs Nat mqdSkipEnd :=
  have C := raisesOnly_closed (fs := fs)
  C.bind (raisesOnly_requireMode _) fun _ => C.bind raisesOnly_getS fun _ =>
    C.bind (raisesOnly_skipScan hio htr hgb _ _) fun _ =>
      C.bind (raisesOnly_modS fun _ h => h) fun _ => C.pure _

end Decoder

/-! ### Passes and blocks -/

/-- What a coded or decoded decision can raise besides ProtocolFaults. -/
def decisionFailures : Dir → List Raise
  | .encode => [.ioFailure]
  | .decode => [.ioFailure, .decodeFailure .truncated]

section Sequencer

variable {fs : List Raise} {dir : Dir}

/-- A pass raises what its decisions can. -/
theorem raisesOnly_pass (h : decisionFailures dir ⊆ fs) : PassClosed dir (RaisesOnly fs) where
  toOpClosed := raisesOnly_closed
  block := fun hf => raisesOnly_closed.bind raisesOnly_getS fun _ => hf _ _ _
  passOk := raisesOnly_requirePass dir
  newPlane := raisesOnly_bpNewPlane
  isSig := raisesOnly_sigIsSig
  spCtx := raisesOnly_sigSpCtx
  signCtx := raisesOnly_sigSignCtx
  refCtx := raisesOnly_sigRefCtx
  setSig := raisesOnly_sigSetSig
  stripZ := raisesOnly_sigStripZ
  isCoded := raisesOnly_bpIsCoded
  markCoded := raisesOnly_bpMarkCoded
  stripUnc := raisesOnly_bpStripUnc
  encode := by
    rintro rfl
    exact
      { mode := raisesOnly_requireMode _
        label := raisesOnly_requirePt
        nbits := fun _ => raisesOnly_require _ _
        bitAt := raisesOnly_bpBitAt
        signAt := raisesOnly_bpSignAt
        stripFnz := raisesOnly_bpStripFnz
        code := raisesOnly_mqeCode (h (by simp [decisionFailures])) }
  decode := by
    rintro rfl
    exact
      { mode := raisesOnly_requireMode _
        label := raisesOnly_requirePt
        nbits := fun _ => raisesOnly_require _ _
        setBit := raisesOnly_bpSetBit
        setSign := raisesOnly_bpSetSign
        decode := raisesOnly_mqdDecode (h (by simp [decisionFailures]))
          (h (by simp [decisionFailures])) }

/-- A block raises what its first and last operation and its decisions can. -/
theorem raisesOnly_blockOp (h : decisionFailures dir ⊆ fs) {α : Type} {init : Op Unit}
    {finish : Op α} (hinit : RaisesOnly fs Unit init) (hfinish : RaisesOnly fs α finish) :
    RaisesOnly fs α (blockOp dir init finish) :=
  have C := raisesOnly_closed (fs := fs)
  C.bind (C.bind raisesOnly_requireGeom fun _ => C.bind raisesOnly_requireIdle fun _ =>
      C.bind raisesOnly_ptReset fun _ => C.bind raisesOnly_sigReset fun _ => hinit) fun _ =>
    C.bind raisesOnly_getS fun _ => C.bind ((raisesOnly_pass h).planeLoop _ _) fun _ => hfinish

end Sequencer

/-! ### The commands -/

/-- The failures a command can end in (60_exceptions.md R312, R313). -/
def failures : Instr → List Raise
  | .mqeCode .. | .mqeCodeNum .. | .mqeFlush | .mqeMarkEnd | .ebEncode => decisionFailures .encode
  | .mqdInit | .mqdDecode _ | .mqdDecodeNum .. => decisionFailures .decode
  | .ebSigPass dir _ | .ebRefPass dir _ | .ebCleanup dir _ => decisionFailures dir
  | .mqdSkipEnd | .ebDecode => .decodeFailure .garbage :: decisionFailures .decode
  | _ => []

/-- A command's operation raises no failure but those of the command. -/
theorem raisesOnly_opOf (i : Instr) : RaisesOnly (failures i) Word (opOf i) := by
  have C {fs : List Raise} := raisesOnly_closed (fs := fs)
  have answer {fs : List Raise} {α : Type} {x : Op α} {f : α → Word} (hx : RaisesOnly fs α x) :
      RaisesOnly fs Word (do let a ← x; pure (f a)) := C.bind hx fun _ => C.pure _
  have geometry (f : State → Nat) :
      RaisesOnly [] Nat (requireGeom >>= fun _ => getS >>= fun s => pure (f s)) :=
    C.bind raisesOnly_requireGeom fun _ => raisesOnly_answer f
  have pass (dir : Dir) := raisesOnly_pass (List.Subset.refl (decisionFailures dir))
  have io (dir : Dir) : .ioFailure ∈ decisionFailures dir := by cases dir <;> decide
  have truncated : .decodeFailure .truncated ∈ decisionFailures .decode := by decide
  have skipEnd : RaisesOnly (.decodeFailure .garbage :: decisionFailures .decode) Nat mqdSkipEnd :=
    raisesOnly_mqdSkipEnd (by decide) (by decide) (by decide)
  cases i with
  | ptReset => exact answer raisesOnly_ptReset
  | ptEst ctx => exact answer (raisesOnly_ptEst ctx)
  | ptTrans ctx m sw => exact answer (raisesOnly_ptTrans ctx m sw)
  | sigReset => exact answer raisesOnly_sigReset
  | sigIsSig r c => exact answer (raisesOnly_sigIsSig r c)
  | sigSpCtx r c sb => exact answer (raisesOnly_sigSpCtx r c sb)
  | sigSignCtx r c => exact answer (raisesOnly_sigSignCtx r c)
  | sigRefCtx r c => exact answer (raisesOnly_sigRefCtx r c)
  | sigSetSig r c neg => exact answer (raisesOnly_sigSetSig r c neg)
  | sigStripZ sb r c => exact answer (raisesOnly_sigStripZ sb r c)
  | bpNewPlane p => exact answer (raisesOnly_bpNewPlane p)
  | bpBitAt p r c => exact answer (raisesOnly_bpBitAt p r c)
  | bpSetBit p r c b => exact answer (raisesOnly_bpSetBit p r c b)
  | bpSignAt r c => exact answer (raisesOnly_bpSignAt r c)
  | bpSetSign r c b => exact answer (raisesOnly_bpSetSign r c b)
  | bpIsCoded p r c => exact answer (raisesOnly_bpIsCoded p r c)
  | bpMarkCoded p r c => exact answer (raisesOnly_bpMarkCoded p r c)
  | bpNFull => exact answer (geometry fun s => s.H / 4)
  | bpLastH => exact answer (geometry fun s => s.H % 4)
  | bpLastOff => exact answer (geometry fun s => s.H / 4 * 4)
  | bpStripUnc p r c => exact answer (raisesOnly_bpStripUnc p r c)
  | bpStripFnz p r c => exact answer (raisesOnly_bpStripFnz p r c)
  | mqeInit => exact answer raisesOnly_mqeInit
  | mqeCode b ctx => exact answer (raisesOnly_mqeCode (io .encode) b ctx)
  | mqeCodeNum v n ctx => exact answer (((pass .encode).encode rfl).codeNum C v n ctx)
  | mqeFlush => exact answer (raisesOnly_mqeFlush (io .encode))
  | mqeMarkEnd => exact answer (raisesOnly_mqeMarkEnd (io .encode))
  | mqdInit => exact answer (raisesOnly_mqdInit (io .decode) truncated)
  | mqdDecode ctx => exact answer (raisesOnly_mqdDecode (io .decode) truncated ctx)
  | mqdDecodeNum n ctx => exact answer (((pass .decode).decode rfl).decodeNum C n ctx)
  | mqdSkipEnd => exact answer skipEnd
  | ebEncode =>
    refine answer ?_
    rw [ebEncode_eq_blockOp]
    exact raisesOnly_blockOp (List.Subset.refl _) raisesOnly_mqeInit
      (C.bind (raisesOnly_mqeFlush (io .encode)) fun _ => raisesOnly_mqeMarkEnd (io .encode))
  | ebDecode =>
    refine answer ?_
    rw [ebDecode_eq_blockOp]
    exact raisesOnly_blockOp (List.subset_cons_self _ _)
      (raisesOnly_mqdInit (by decide) (by decide)) skipEnd
  | ebSigPass dir p => exact answer ((pass dir).sigPass p)
  | ebRefPass dir p => exact answer ((pass dir).refPass p)
  | ebCleanup dir p => exact answer ((pass dir).cleanup p)
  | cfgSet reg val => exact answer (raisesOnly_cfgSet reg val)
  | cfgGet reg => exact raisesOnly_cfgGet reg

theorem opOf_failure {i : Instr} {s t : State} {e : Raise} (h : opOf i s = .error e t)
    (he : ∀ code, e ≠ .protocolFault code) : e ∈ failures i ∧ (e = .ioFailure → ¬ quietPorts s) := by
  have hs := raisesOnly_opOf i s
  rw [h] at hs
  exact hs.failure he

section Commands

variable {i : Instr}

theorem garbage_mem_failures (h : .decodeFailure .garbage ∈ failures i) :
    i = .mqdSkipEnd ∨ i = .ebDecode := by
  cases i with
  | ebSigPass dir p | ebRefPass dir p | ebCleanup dir p =>
    cases dir <;> simp [failures, decisionFailures] at h
  | _ => simp_all [failures, decisionFailures]

theorem truncated_mem_failures (h : .decodeFailure .truncated ∈ failures i) :
    i = .mqdInit ∨ (∃ ctx, i = .mqdDecode ctx) ∨ (∃ n ctx, i = .mqdDecodeNum n ctx) ∨
      i = .mqdSkipEnd ∨ i = .ebDecode ∨
      ∃ p, i = .ebSigPass .decode p ∨ i = .ebRefPass .decode p ∨ i = .ebCleanup .decode p := by
  cases i with
  | ebSigPass dir p | ebRefPass dir p | ebCleanup dir p =>
    cases dir <;> simp_all [failures, decisionFailures]
  | _ => simp_all [failures, decisionFailures]

theorem ioFailure_mem_failures (h : .ioFailure ∈ failures i) :
    i ∈ [Instr.mqeFlush, .mqeMarkEnd, .mqdInit, .mqdSkipEnd, .ebEncode, .ebDecode] ∨
      (∃ b ctx, i = .mqeCode b ctx) ∨ (∃ v n ctx, i = .mqeCodeNum v n ctx) ∨
      (∃ ctx, i = .mqdDecode ctx) ∨ (∃ n ctx, i = .mqdDecodeNum n ctx) ∨
      ∃ dir p, i = .ebSigPass dir p ∨ i = .ebRefPass dir p ∨ i = .ebCleanup dir p := by
  cases i <;> simp_all [failures]

end Commands

/-- Settles O11: a failure's response shows what the operation raised, which is on the command's
list. -/
theorem whoRaisesWhat : Obligations.WhoRaisesWhat := by
  intro i s t payload h
  obtain ⟨-, rfl⟩ | rfl := exec_cases h
  · exact ⟨nofun, nofun, nofun⟩ -- the sticky refusal is a ProtocolFault
  refine ⟨fun hr => ?_, fun hr => ?_, fun hr => ?_⟩
  · obtain ⟨code, u, hop, -, hp⟩ := settle_decodeFailure hr
    obtain rfl : code = .garbage := by cases code <;> [exact absurd hp (by decide); rfl]
    exact garbage_mem_failures (opOf_failure hop nofun).1
  · obtain ⟨code, u, hop, -, hp⟩ := settle_decodeFailure hr
    obtain rfl : code = .truncated := by cases code <;> [rfl; exact absurd hp (by decide)]
    exact truncated_mem_failures (opOf_failure hop nofun).1
  · obtain ⟨u, hop, -, -⟩ := settle_ioFailure hr
    obtain ⟨hmem, hport⟩ := opOf_failure hop nofun
    exact ⟨hport rfl, ioFailure_mem_failures hmem⟩

end Sys2Proof.Machine
end
